-- ==== Sys2Proof/Word.lean ====
section
/-! DEFINITION. The word types of the machine (00 R3, R4) and their plainest arithmetic. -/

namespace Sys2Proof

/-- One byte of memory (00 R4). -/
abbrev Byte := BitVec 8
/-- One 32-bit lane of a vector register, and one instruction word (01 R14, 03 R62). -/
abbrev W32 := BitVec 32
/-- A uniform register, an 8-byte memory word (01 R20). -/
abbrev W64 := BitVec 64
/-- A virtual or target address, and a PC (08 R204). -/
abbrev Addr := BitVec 56
/-- One bit for each lane of a group of up to 128 lanes (01 R27). -/
abbrev LaneMask := BitVec 128

end Sys2Proof
end

