-- ==== Sys2Proof/Config.lean ====
section
/-! DEFINITION. What is fixed for the package (00 Table 0.2) and the free values: constants without a body, so that
nothing proved here can rest on what they are (log 5, 6, 8). -/

namespace Sys2Proof.Config

/-- The free values of the model: the n-th draw (log 6). The spec leaves each value it stands for unspecified. -/
opaque freeBits : Nat → BitVec 64

/-- The bytes of scratchpads at team start, by seed and place (08 R205). -/
opaque freeByte : Nat → BitVec 8

/-- The choices by which a collective in arrival order combines an element: run, element, choice (17 R435; log 5). -/
opaque arrivalDraw : Nat → Nat → Nat → Nat

/-- SHA3-512, which the spec names and does not define (16 R393; log 8). -/
opaque sha3x512 : List (BitVec 8) → BitVec 512
/-- ML-DSA-87 verification: key, digest, signature (16 R393; log 8). -/
opaque mldsaVerify : List (BitVec 8) → BitVec 512 → List (BitVec 8) → Bool
/-- The 4,627-byte ML-DSA-87 signature by the package identity key (16 R414; log 8). -/
opaque mldsaSign : BitVec 512 → Vector (BitVec 8) 4627
/-- The AES-256-GCM tag of a line: context, line address, write count, contents (16 R410; log 8). -/
opaque gcmTag : Nat → Nat → Nat → List (BitVec 8) → BitVec 128

/-- The AES-256-GCM tag of a flit under the link key of a context's participant: context, participant, initialisation vector, the dwords that it
authenticates and those of the payload (17 R429; log 8, 74). -/
opaque flitTag : Nat → Nat → BitVec 96 → List (BitVec 64) → BitVec 128

/-- Digest of the firmware signer key held in ROM (16 R393). -/
opaque romKeyDigest : BitVec 512
/-- Anti-rollback value held in fuses (16 R393). -/
opaque antiRollback : BitVec 32
/-- Package identity serial (16 Table 16.5). -/
opaque identitySerial : BitVec 64
/-- Package identity public key, 2,592 bytes (16 Table 16.11). -/
opaque identityKey : Vector (BitVec 8) 2592

/-- Whether an address of another package is the doorbell of one of its task slots: its supervisor has placed them, and nothing in this package
holds where (15 R376; log 63). -/
opaque farDoorbell : Nat → Nat → Bool
/-- Whether the tag region of the die of another package that owns a target covers it: that package's configuration says so, and nothing in this one
(16 R410; log 63). -/
opaque farCovered : Nat → Nat → Bool

/-- The collective-processor firmware in a firmware payload, whose layout the spec does not give (16 R394; log 26). -/
opaque collectiveFirmware : List (BitVec 8) → List (BitVec 8)
/-- Bytes of a code object, by its header, which the spec does not say how to find (16 R394, R402; log 26). -/
opaque objectLength : List (BitVec 8) → Nat
/-- Entry offset, width code and .regs in a 32-byte kernel table entry, whose layout the spec does not give (16 R402; log 26). -/
opaque kernelEntry : List (BitVec 8) → Nat × Nat × Nat

/-- Lines of 64 bytes of a core's instruction cache of 128 KiB (00 Table 0.2). -/
def icacheLines : Nat := 2048
/-- Dies of a package (00 Table 0.2). -/
def dies : Nat := 8
/-- Cores of a die (00 Table 0.2). -/
def coresPerDie : Nat := 16
/-- Slices of a quarter (00 Table 0.2, 07 R185). -/
def slicesPerQuarter : Nat := 3072
/-- Entries of a core's range table (10 R276). -/
def rangeTableSize : Nat := 32
/-- Records of a cluster's range cache (13 R337). -/
def rangeCacheSize : Nat := 1024
/-- Walks the walker handles at once, and its pending requests (13 R332). -/
def walkerPending : Nat := 64
/-- Children a pan holds (07 R190). -/
def panSize : Nat := 1024
/-- Pans of a core (07 R190). -/
def pansPerCore : Nat := 16
/-- Task slots of a die (15 "the task scheduler"). -/
def taskSlots : Nat := 4096
/-- Copies a die queues (15 R374). -/
def copyQueue : Nat := 4096
/-- Sluice engines of a die (15). -/
def enginesPerDie : Nat := 8
/-- Elements of a copy chunk (15 R374). -/
def chunkSize : Nat := 1024
/-- Partial copies of a slice (14 R354). -/
def partialsPerSlice : Nat := 4096
/-- Clk after which an age counter is aged (07 R178). -/
def agedAt : Nat := 256
/-- Default pan time in clk (07 R191). -/
def panTime : Nat := 2000

end Sys2Proof.Config
end

