-- ==== Sys2Proof/Syntax.lean ====
section
/-! DEFINITION. The instructions and events of the machine: one constructor of Instr for each row of
spec/opcode_table.json. An encoded instruction carries the named fields of its words (03 Tables 3.1, 3.2); an event
carries the agent it belongs to and what the outside world supplies. -/

namespace Sys2Proof

/-- The fields of a first word and its extension word (03 R63, R64); with x = false the extension fields are 0. -/
structure Fields where
  s   : Bool
  g   : BitVec 3
  d   : BitVec 7
  a   : BitVec 7
  b   : BitVec 7
  x   : Bool
  gm  : BitVec 2
  la  : Bool
  lb  : Bool
  lc  : Bool
  c   : BitVec 7
  mod : BitVec 14
  deriving DecidableEq, Repr

/-- The encoded instructions by name (03 Tables 3.10, 3.11), one for each encoded row of the opcode table. -/
inductive Op where
  | nop | brk | trap | eret | srd | swr | wbase | rls | icsync | gresume | gresumeNext | gkill | add | sub
  | mul | mulh | mad | div | rem | min | max | and | or | xor | shl | shr | popc | clz | brev | bfx | bfi
  | kcg | cmp | sel | movi | moviWide | addi | addiWide | f2f | f2i | i2f | i2i | pack | unpack | mxq | mxd
  | fadd | fsub | fmul | ffma | fmin | fmax | fcmp | rcp | rsq | sqrt | exp2 | log2 | sin | cos | tanh | tsum
  | tprod | fmae | xadd | xmul | xcmp | xrenorm | xcomp | xneg | xabs | xhead | xsplit | xjoin | iadd | isub
  | imul | idiv | ifma | icmp | ihull | imeet | imake | ilo | ihi | imid | iwid | ineg | iabs | isqr | isqrt
  | ihalf | iisempty | ibis | ld | st | ild | ist | atom | red | fence | pref | ifence | waita | bra | call
  | bri | calli | ret | exit | yield | spawn | bar | barPass | mset | mand | mor | mnot | mact | mrd | vote
  | shfl | mma | mres | mrel | mwait | mfence | mzero | mlda | msta | mldb | mdrain | tdef | tdefCommit
  | tkill | tinfo | ctwr | copy | tdec | launch | tstat | rset | rsetRepl | rsplit | rmerge | rinv | rqry
  | rcomp | enter | leave | watch | sampl | cntrd
  deriving DecidableEq, Repr

/-- Why a fetch gives no instruction (03 R81 Table 3.12, R82). -/
inductive FetchFault where
  /-- Illegal instruction, with its code 0x0001 to 0x0007 and the X bit of the first word. -/
  | illegal (code : Nat) (x : Bool)
  /-- Instruction boundary, with its code 0x0001 to 0x0003. -/
  | boundary (code : Nat)
  /-- The fetch of a word fails to translate: class, code, address of the word, its range index, and the X bit when the first
  word was fetched. -/
  | range (cls code : Nat) (addr : Addr) (index : Option Nat) (x : Option Bool)
  deriving DecidableEq, Repr

/-- One transfer over a link or through a port (13 R329, R339; 14 R361; 17 R428): the number of what it goes to or through, and whether
it fails: a resend again in error, or data delivered with an uncorrectable error. -/
structure Transfer where
  /-- The die or pair it goes to, or the cluster or port it goes through. -/
  target : Nat
  /-- Whether it fails. -/
  failed : Bool
  deriving DecidableEq, Repr

/-- Where an uncorrectable error strikes (01 R29, 13 R337, 14 R357, R360). -/
inductive ErrSite where
  /-- The 8-byte word of HBM with this number. -/
  | memWord (word : Nat)
  /-- Lanes of one bound vector register of a group. -/
  | register (gid name : Nat) (lanes : LaneMask)
  /-- A 4-byte word of a team's scratchpad on the core 0 or 1 of its pair. -/
  | scratchWord (team side word : Nat)
  /-- An entry of a cluster's range cache. -/
  | rangeCache (cluster entry : Nat)
  /-- The partial copy a die holds of a line. -/
  | partialCopy (die line : Nat)
  /-- An element of a slot of a matrix unit. -/
  | accumulator (unit slot element : Nat)
  /-- A 4-byte word of the B-slice of a matrix unit. -/
  | bSlice (unit word : Nat)
  /-- An 8-byte word of a sector of a core's L1: the line's number, the sector's place in it, the word's place in that. -/
  | l1Word (core line sector word : Nat)
  /-- An 8-byte word of a stash sector of a team. -/
  | stashWord (team key word : Nat)
  /-- The 8-byte word of a host sector in its home slice: the word's number in host memory. -/
  | hostWord (word : Nat)
  /-- Data on its way to a load or an ATOM of a group that has not written back, by the number of the group's instructions issued before it: the
  lanes that it reaches (01 R29), over a pair link for one (13 R329). -/
  | returned (gid seq : Nat) (lanes : LaneMask)
  deriving DecidableEq, Repr

/-- Where a scrub or an access finds an error that is corrected (14 R359; 11 Table 11.7). -/
inductive Corrected where
  | none
  /-- An 8-byte word of HBM, or of a slice's arrays. -/
  | hbm (word : Nat)
  | slice (word : Nat)
  /-- An SRAM array of a core. -/
  | core (core : Nat)
  deriving DecidableEq, Repr

/-- A mailbox command that creates a context (16 R409, R412). -/
structure ContextCommand where
  ctx     : Nat
  /-- Target address of the context block. -/
  block   : Addr
  /-- The quorum revocation needs. -/
  quorum  : Nat
  /-- Whether the signatures of the participants concerned verify, which the input says (log 8). -/
  signed  : Bool
  deriving DecidableEq, Repr

/-- A mailbox command about one participant of a context (16 R409, R415). -/
structure ParticipantCommand where
  ctx    : Nat
  part   : Nat
  /-- Digests of the code objects the participant registers. -/
  digests : List (BitVec 512)
  signed : Bool
  deriving DecidableEq, Repr

/-- A mailbox command that admits a launch (16 R409): the die, the launch record, the participant and its object. -/
structure AdmitCommand where
  ctx    : Nat
  part   : Nat
  die    : Nat
  record : List W64
  digest : BitVec 512
  signed : Bool
  deriving DecidableEq, Repr

/-- Atomic operations (08 Table 8.4), by code. -/
inductive AtomOp where
  | add | min | max | and | or | xor | xchg | cas | xadd2
  deriving DecidableEq, Repr

/-- Types of atomic operations (08 Table 8.4). -/
inductive AtomTy where
  | b32 | b64 | s32 | n32 | s64 | n64 | f32 | f32x2
  deriving DecidableEq, Repr

/-- What an access asks of the slice that owns its bytes (14 R347, 17 R427). -/
inductive SliceOp where
  | read
  | write (data : W64) (poison : Bool)
  /-- One action of the lanes that share the address, in their order: operand and CAS value of each. -/
  | atom (op : AtomOp) (ty : AtomTy) (xs : List (W64 × W64))
  /-- A write whose requester is told the value that it replaces, for a trace (11 R310). -/
  | swap (data : W64)
  deriving DecidableEq, Repr

/-- One access of up to 8 bytes at a local target address; ctx is the context whose encrypted range it goes through, 0 for none. -/
structure SliceReq where
  target : Nat
  bytes  : Nat
  op     : SliceOp
  ctx    : Nat
  /-- Where the answer goes: the package of a fabric access and its tag. -/
  package : Nat
  tag    : Nat
  /-- Context and participant of the flit that brought it, which seal the answer (17 R429). -/
  sealCtx : Nat
  part   : Nat
  deriving DecidableEq, Repr

/-- A contribution carried by a collective flit (17 R437): the values of one rank, as 64-bit elements and tails. -/
structure CollFlit where
  group : Nat
  generation : Nat
  rank : Nat
  send : List W64
  tails : List W64
  /-- Status of the sending rank's buffers (17 Table 17.7): 0, or 3 or 4. -/
  status : Nat
  /-- What check 10 compares (17 Table 17.6): the first dword of the block, size, count, root and the rank table; empty when the rank could
  not read its table. -/
  params : List Nat
  deriving DecidableEq, Repr

/-- What a flit carries (17 Table 17.4); the spec gives the payload's length, not its layout. -/
inductive FlitBody where
  | idle
  | request (req : SliceReq)
  /-- A word with its poison code, 0 for none. -/
  | response (data : W64) (bad : Nat)
  | ack
  | collective (c : CollFlit)
  | management (neighbour : Nat)
  deriving DecidableEq, Repr

/-- A Keltal flit (17 Table 17.4). -/
structure Flit where
  kind : Nat
  channel : Nat
  dst : Nat
  src : Nat
  hops : Nat
  /-- The link sequence. -/
  sequence : Nat := 0
  ctx : Nat
  part : Nat
  /-- The payload length in 8-byte units. -/
  length : Nat := 0
  tag : Nat
  /-- The resv fields: 0x00 [57:56], 0x00 [35:32], 0x08 [39:32]. -/
  resv : BitVec 14 := 0
  body : FlitBody
  /-- The seal: the tag when the context id is nonzero, else 0. -/
  tagBytes : BitVec 128 := 0
  /-- The initialisation vector of its seal, 0 without one: source package, port and count (17 R429). -/
  iv : BitVec 96 := 0
  deriving DecidableEq, Repr

/-- The ONE inductive of instructions and events. -/
inductive Instr where
  | nop (f : Fields) | brk (f : Fields) | trap (f : Fields) | eret (f : Fields) | srd (f : Fields)
  | swr (f : Fields) | wbase (f : Fields) | rls (f : Fields) | icsync (f : Fields) | gresume (f : Fields)
  | gresumeNext (f : Fields) | gkill (f : Fields) | add (f : Fields) | sub (f : Fields) | mul (f : Fields)
  | mulh (f : Fields) | mad (f : Fields) | div (f : Fields) | rem (f : Fields) | min (f : Fields)
  | max (f : Fields) | and (f : Fields) | or (f : Fields) | xor (f : Fields) | shl (f : Fields)
  | shr (f : Fields) | popc (f : Fields) | clz (f : Fields) | brev (f : Fields) | bfx (f : Fields)
  | bfi (f : Fields) | kcg (f : Fields) | cmp (f : Fields) | sel (f : Fields) | movi (f : Fields)
  | moviWide (f : Fields) | addi (f : Fields) | addiWide (f : Fields) | f2f (f : Fields) | f2i (f : Fields)
  | i2f (f : Fields) | i2i (f : Fields) | pack (f : Fields) | unpack (f : Fields) | mxq (f : Fields)
  | mxd (f : Fields) | fadd (f : Fields) | fsub (f : Fields) | fmul (f : Fields) | ffma (f : Fields)
  | fmin (f : Fields) | fmax (f : Fields) | fcmp (f : Fields) | rcp (f : Fields) | rsq (f : Fields)
  | sqrt (f : Fields) | exp2 (f : Fields) | log2 (f : Fields) | sin (f : Fields) | cos (f : Fields)
  | tanh (f : Fields) | tsum (f : Fields) | tprod (f : Fields) | fmae (f : Fields) | xadd (f : Fields)
  | xmul (f : Fields) | xcmp (f : Fields) | xrenorm (f : Fields) | xcomp (f : Fields) | xneg (f : Fields)
  | xabs (f : Fields) | xhead (f : Fields) | xsplit (f : Fields) | xjoin (f : Fields) | iadd (f : Fields)
  | isub (f : Fields) | imul (f : Fields) | idiv (f : Fields) | ifma (f : Fields) | icmp (f : Fields)
  | ihull (f : Fields) | imeet (f : Fields) | imake (f : Fields) | ilo (f : Fields) | ihi (f : Fields)
  | imid (f : Fields) | iwid (f : Fields) | ineg (f : Fields) | iabs (f : Fields) | isqr (f : Fields)
  | isqrt (f : Fields) | ihalf (f : Fields) | iisempty (f : Fields) | ibis (f : Fields) | ld (f : Fields)
  | st (f : Fields) | ild (f : Fields) | ist (f : Fields) | atom (f : Fields) | red (f : Fields)
  | fence (f : Fields) | pref (f : Fields) | ifence (f : Fields) | waita (f : Fields) | bra (f : Fields)
  | call (f : Fields) | bri (f : Fields) | calli (f : Fields) | ret (f : Fields) | exit (f : Fields)
  | yield (f : Fields) | spawn (f : Fields) | bar (f : Fields) | barPass (f : Fields) | mset (f : Fields)
  | mand (f : Fields) | mor (f : Fields) | mnot (f : Fields) | mact (f : Fields) | mrd (f : Fields)
  | vote (f : Fields) | shfl (f : Fields) | mma (f : Fields) | mres (f : Fields) | mrel (f : Fields)
  | mwait (f : Fields) | mfence (f : Fields) | mzero (f : Fields) | mlda (f : Fields) | msta (f : Fields)
  | mldb (f : Fields) | mdrain (f : Fields) | tdef (f : Fields) | tdefCommit (f : Fields) | tkill (f : Fields)
  | tinfo (f : Fields) | ctwr (f : Fields) | copy (f : Fields) | tdec (f : Fields) | launch (f : Fields)
  | tstat (f : Fields) | rset (f : Fields) | rsetRepl (f : Fields) | rsplit (f : Fields) | rmerge (f : Fields)
  | rinv (f : Fields) | rqry (f : Fields) | rcomp (f : Fields) | enter (f : Fields) | leave (f : Fields)
  | watch (f : Fields) | sampl (f : Fields) | cntrd (f : Fields)
  | resultWriteback (gid : Nat)
  | writeAcknowledgement (gid : Nat)
  | groupAged (gid : Nat)
  | groupEnd (gid : Nat)
  | poolAllocationRetry (gid : Nat)
  | forcedSave (unit : Nat)
  | forcedSaveRestore (unit : Nat)
  | runaheadEntry (gid : Nat)
  | runaheadExit (gid : Nat)
  | panTimerExpiry (core pan : Nat)
  | panLaunch (core pan : Nat)
  | spawnStallReissue (gid : Nat)
  | overflowMove (core : Nat) (team : Nat)
  | barrierUnitArrival (cluster : Nat)
  | pendingFaultRecordWrite (die : Nat)
  | waitaReread (gid : Nat)
  | waitaTimeLimit (gid : Nat)
  | teamPreemption (team : Nat)
  | teamRestore (team core : Nat)
  | unitClearComplete (unit : Nat)
  | matrixOperationExecute (unit : Nat)
  | matrixOperationComplete (unit : Nat)
  | unitRelease (unit : Nat)
  | mdrainAbort (unit : Nat)
  | rangeWalk (cluster : Nat)
  | walkGenerationRetry (cluster : Nat)
  | rangeTableFill (cluster : Nat)
  | compactionUnitMove (move : Nat)
  | compactionDone (move : Nat)
  | sampleTag (unit : Nat)
  | sampleRecord (unit : Nat)
  | watchStop (gid : Nat)
  | harrowSweep (die : Nat)
  | sliceAccess (die : Nat)
  | sectorEviction (sector : Nat)
  | partialJoin (die line : Nat)
  | partialFlush (die line : Nat)
  | cLineMerge (line : Nat)
  | hbmScrub (found : Corrected)
  | uncorrectableError (site : ErrSite)
  | hbmPersistentFault (word : Nat)
  | dieLinkResend (src : Nat) (sent : Transfer)
  | dieLinkDown (src dst : Nat)
  | pairApertureAccess (store : Transfer)
  | pairLinkResend (cluster : Nat) (sent : Transfer)
  | pairLinkDown (cluster pair : Nat)
  | walkerError (cluster : Nat)
  | copyStart (die : Nat)
  | copyChunk (die engine : Nat)
  | copyEnd (die engine : Nat)
  | doorbell (target bytes : Nat) (data : W64)
  | decrement (die : Nat)
  | teamDispatch (die : Nat)
  | priorityRecompute
  | launchCompletion (slot : Nat)
  | packageReset
  | firmwareImage (image : List Byte)
  | bringUp (failed : Option (Nat × Nat))
  | numberCommand (n : Nat)
  | configurationBlock (die : Nat) (block : List W64)
  | startCommand (target virt : Addr)
  | retireCommand (core : Nat)
  | createContext (cmd : ContextCommand)
  | addParticipant (cmd : ParticipantCommand)
  | admitLaunch (cmd : AdmitCommand)
  | attestationReport (ctx : Nat) (nonce : List Byte)
  | revocation (cmd : ParticipantCommand)
  | routeTableWrite (package : Nat) (first second : Option Nat)
  | powerThrottle (on : Bool)
  | thermalShutdown (die : Nat)
  | cxlOpen (hdmBase : Nat)
  | snpData (host : Nat)
  | snpInv (host : Nat)
  | snpCur (host : Nat)
  | hostResponse (host : Nat) (exclusive : Bool) (data : List Byte) (bad : BitVec 8)
  | hostSectorEviction (host : Nat)
  | cxlMemRead (addr bytes : Nat)
  | cxlMemWrite (addr : Nat) (data : List Byte) (poison : Bool)
  | biSnoopResponse (sector : Nat)
  | flitReceive (port : Nat) (flit : Flit)
  | flitResend (sent : Transfer)
  | portDown (port : Nat)
  | accessTimeout (port tag : Nat)
  | collectiveAccept (port : Nat)
  | collectiveFlit (port : Nat) (flit : CollFlit)
  | handoff (port index : Nat)
  | collectiveEnd (port index : Nat)
  | nonInstructionFetch (why : FetchFault)
  deriving DecidableEq, Repr

/-- The instruction with this name and these fields. -/
def Instr.of (o : Op) (f : Fields) : Instr :=
  match o with
  | .nop => .nop f
  | .brk => .brk f
  | .trap => .trap f
  | .eret => .eret f
  | .srd => .srd f
  | .swr => .swr f
  | .wbase => .wbase f
  | .rls => .rls f
  | .icsync => .icsync f
  | .gresume => .gresume f
  | .gresumeNext => .gresumeNext f
  | .gkill => .gkill f
  | .add => .add f
  | .sub => .sub f
  | .mul => .mul f
  | .mulh => .mulh f
  | .mad => .mad f
  | .div => .div f
  | .rem => .rem f
  | .min => .min f
  | .max => .max f
  | .and => .and f
  | .or => .or f
  | .xor => .xor f
  | .shl => .shl f
  | .shr => .shr f
  | .popc => .popc f
  | .clz => .clz f
  | .brev => .brev f
  | .bfx => .bfx f
  | .bfi => .bfi f
  | .kcg => .kcg f
  | .cmp => .cmp f
  | .sel => .sel f
  | .movi => .movi f
  | .moviWide => .moviWide f
  | .addi => .addi f
  | .addiWide => .addiWide f
  | .f2f => .f2f f
  | .f2i => .f2i f
  | .i2f => .i2f f
  | .i2i => .i2i f
  | .pack => .pack f
  | .unpack => .unpack f
  | .mxq => .mxq f
  | .mxd => .mxd f
  | .fadd => .fadd f
  | .fsub => .fsub f
  | .fmul => .fmul f
  | .ffma => .ffma f
  | .fmin => .fmin f
  | .fmax => .fmax f
  | .fcmp => .fcmp f
  | .rcp => .rcp f
  | .rsq => .rsq f
  | .sqrt => .sqrt f
  | .exp2 => .exp2 f
  | .log2 => .log2 f
  | .sin => .sin f
  | .cos => .cos f
  | .tanh => .tanh f
  | .tsum => .tsum f
  | .tprod => .tprod f
  | .fmae => .fmae f
  | .xadd => .xadd f
  | .xmul => .xmul f
  | .xcmp => .xcmp f
  | .xrenorm => .xrenorm f
  | .xcomp => .xcomp f
  | .xneg => .xneg f
  | .xabs => .xabs f
  | .xhead => .xhead f
  | .xsplit => .xsplit f
  | .xjoin => .xjoin f
  | .iadd => .iadd f
  | .isub => .isub f
  | .imul => .imul f
  | .idiv => .idiv f
  | .ifma => .ifma f
  | .icmp => .icmp f
  | .ihull => .ihull f
  | .imeet => .imeet f
  | .imake => .imake f
  | .ilo => .ilo f
  | .ihi => .ihi f
  | .imid => .imid f
  | .iwid => .iwid f
  | .ineg => .ineg f
  | .iabs => .iabs f
  | .isqr => .isqr f
  | .isqrt => .isqrt f
  | .ihalf => .ihalf f
  | .iisempty => .iisempty f
  | .ibis => .ibis f
  | .ld => .ld f
  | .st => .st f
  | .ild => .ild f
  | .ist => .ist f
  | .atom => .atom f
  | .red => .red f
  | .fence => .fence f
  | .pref => .pref f
  | .ifence => .ifence f
  | .waita => .waita f
  | .bra => .bra f
  | .call => .call f
  | .bri => .bri f
  | .calli => .calli f
  | .ret => .ret f
  | .exit => .exit f
  | .yield => .yield f
  | .spawn => .spawn f
  | .bar => .bar f
  | .barPass => .barPass f
  | .mset => .mset f
  | .mand => .mand f
  | .mor => .mor f
  | .mnot => .mnot f
  | .mact => .mact f
  | .mrd => .mrd f
  | .vote => .vote f
  | .shfl => .shfl f
  | .mma => .mma f
  | .mres => .mres f
  | .mrel => .mrel f
  | .mwait => .mwait f
  | .mfence => .mfence f
  | .mzero => .mzero f
  | .mlda => .mlda f
  | .msta => .msta f
  | .mldb => .mldb f
  | .mdrain => .mdrain f
  | .tdef => .tdef f
  | .tdefCommit => .tdefCommit f
  | .tkill => .tkill f
  | .tinfo => .tinfo f
  | .ctwr => .ctwr f
  | .copy => .copy f
  | .tdec => .tdec f
  | .launch => .launch f
  | .tstat => .tstat f
  | .rset => .rset f
  | .rsetRepl => .rsetRepl f
  | .rsplit => .rsplit f
  | .rmerge => .rmerge f
  | .rinv => .rinv f
  | .rqry => .rqry f
  | .rcomp => .rcomp f
  | .enter => .enter f
  | .leave => .leave f
  | .watch => .watch f
  | .sampl => .sampl f
  | .cntrd => .cntrd f

/-- The name and fields of an encoded instruction; none for an event. -/
def Instr.enc (i : Instr) : Option (Op × Fields) :=
  match i with
  | .nop f => some (.nop, f)
  | .brk f => some (.brk, f)
  | .trap f => some (.trap, f)
  | .eret f => some (.eret, f)
  | .srd f => some (.srd, f)
  | .swr f => some (.swr, f)
  | .wbase f => some (.wbase, f)
  | .rls f => some (.rls, f)
  | .icsync f => some (.icsync, f)
  | .gresume f => some (.gresume, f)
  | .gresumeNext f => some (.gresumeNext, f)
  | .gkill f => some (.gkill, f)
  | .add f => some (.add, f)
  | .sub f => some (.sub, f)
  | .mul f => some (.mul, f)
  | .mulh f => some (.mulh, f)
  | .mad f => some (.mad, f)
  | .div f => some (.div, f)
  | .rem f => some (.rem, f)
  | .min f => some (.min, f)
  | .max f => some (.max, f)
  | .and f => some (.and, f)
  | .or f => some (.or, f)
  | .xor f => some (.xor, f)
  | .shl f => some (.shl, f)
  | .shr f => some (.shr, f)
  | .popc f => some (.popc, f)
  | .clz f => some (.clz, f)
  | .brev f => some (.brev, f)
  | .bfx f => some (.bfx, f)
  | .bfi f => some (.bfi, f)
  | .kcg f => some (.kcg, f)
  | .cmp f => some (.cmp, f)
  | .sel f => some (.sel, f)
  | .movi f => some (.movi, f)
  | .moviWide f => some (.moviWide, f)
  | .addi f => some (.addi, f)
  | .addiWide f => some (.addiWide, f)
  | .f2f f => some (.f2f, f)
  | .f2i f => some (.f2i, f)
  | .i2f f => some (.i2f, f)
  | .i2i f => some (.i2i, f)
  | .pack f => some (.pack, f)
  | .unpack f => some (.unpack, f)
  | .mxq f => some (.mxq, f)
  | .mxd f => some (.mxd, f)
  | .fadd f => some (.fadd, f)
  | .fsub f => some (.fsub, f)
  | .fmul f => some (.fmul, f)
  | .ffma f => some (.ffma, f)
  | .fmin f => some (.fmin, f)
  | .fmax f => some (.fmax, f)
  | .fcmp f => some (.fcmp, f)
  | .rcp f => some (.rcp, f)
  | .rsq f => some (.rsq, f)
  | .sqrt f => some (.sqrt, f)
  | .exp2 f => some (.exp2, f)
  | .log2 f => some (.log2, f)
  | .sin f => some (.sin, f)
  | .cos f => some (.cos, f)
  | .tanh f => some (.tanh, f)
  | .tsum f => some (.tsum, f)
  | .tprod f => some (.tprod, f)
  | .fmae f => some (.fmae, f)
  | .xadd f => some (.xadd, f)
  | .xmul f => some (.xmul, f)
  | .xcmp f => some (.xcmp, f)
  | .xrenorm f => some (.xrenorm, f)
  | .xcomp f => some (.xcomp, f)
  | .xneg f => some (.xneg, f)
  | .xabs f => some (.xabs, f)
  | .xhead f => some (.xhead, f)
  | .xsplit f => some (.xsplit, f)
  | .xjoin f => some (.xjoin, f)
  | .iadd f => some (.iadd, f)
  | .isub f => some (.isub, f)
  | .imul f => some (.imul, f)
  | .idiv f => some (.idiv, f)
  | .ifma f => some (.ifma, f)
  | .icmp f => some (.icmp, f)
  | .ihull f => some (.ihull, f)
  | .imeet f => some (.imeet, f)
  | .imake f => some (.imake, f)
  | .ilo f => some (.ilo, f)
  | .ihi f => some (.ihi, f)
  | .imid f => some (.imid, f)
  | .iwid f => some (.iwid, f)
  | .ineg f => some (.ineg, f)
  | .iabs f => some (.iabs, f)
  | .isqr f => some (.isqr, f)
  | .isqrt f => some (.isqrt, f)
  | .ihalf f => some (.ihalf, f)
  | .iisempty f => some (.iisempty, f)
  | .ibis f => some (.ibis, f)
  | .ld f => some (.ld, f)
  | .st f => some (.st, f)
  | .ild f => some (.ild, f)
  | .ist f => some (.ist, f)
  | .atom f => some (.atom, f)
  | .red f => some (.red, f)
  | .fence f => some (.fence, f)
  | .pref f => some (.pref, f)
  | .ifence f => some (.ifence, f)
  | .waita f => some (.waita, f)
  | .bra f => some (.bra, f)
  | .call f => some (.call, f)
  | .bri f => some (.bri, f)
  | .calli f => some (.calli, f)
  | .ret f => some (.ret, f)
  | .exit f => some (.exit, f)
  | .yield f => some (.yield, f)
  | .spawn f => some (.spawn, f)
  | .bar f => some (.bar, f)
  | .barPass f => some (.barPass, f)
  | .mset f => some (.mset, f)
  | .mand f => some (.mand, f)
  | .mor f => some (.mor, f)
  | .mnot f => some (.mnot, f)
  | .mact f => some (.mact, f)
  | .mrd f => some (.mrd, f)
  | .vote f => some (.vote, f)
  | .shfl f => some (.shfl, f)
  | .mma f => some (.mma, f)
  | .mres f => some (.mres, f)
  | .mrel f => some (.mrel, f)
  | .mwait f => some (.mwait, f)
  | .mfence f => some (.mfence, f)
  | .mzero f => some (.mzero, f)
  | .mlda f => some (.mlda, f)
  | .msta f => some (.msta, f)
  | .mldb f => some (.mldb, f)
  | .mdrain f => some (.mdrain, f)
  | .tdef f => some (.tdef, f)
  | .tdefCommit f => some (.tdefCommit, f)
  | .tkill f => some (.tkill, f)
  | .tinfo f => some (.tinfo, f)
  | .ctwr f => some (.ctwr, f)
  | .copy f => some (.copy, f)
  | .tdec f => some (.tdec, f)
  | .launch f => some (.launch, f)
  | .tstat f => some (.tstat, f)
  | .rset f => some (.rset, f)
  | .rsetRepl f => some (.rsetRepl, f)
  | .rsplit f => some (.rsplit, f)
  | .rmerge f => some (.rmerge, f)
  | .rinv f => some (.rinv, f)
  | .rqry f => some (.rqry, f)
  | .rcomp f => some (.rcomp, f)
  | .enter f => some (.enter, f)
  | .leave f => some (.leave, f)
  | .watch f => some (.watch, f)
  | .sampl f => some (.sampl, f)
  | .cntrd f => some (.cntrd, f)
  | .resultWriteback .. => none
  | .writeAcknowledgement .. => none
  | .groupAged .. => none
  | .groupEnd .. => none
  | .poolAllocationRetry .. => none
  | .forcedSave .. => none
  | .forcedSaveRestore .. => none
  | .runaheadEntry .. => none
  | .runaheadExit .. => none
  | .panTimerExpiry .. => none
  | .panLaunch .. => none
  | .spawnStallReissue .. => none
  | .overflowMove .. => none
  | .barrierUnitArrival .. => none
  | .pendingFaultRecordWrite .. => none
  | .waitaReread .. => none
  | .waitaTimeLimit .. => none
  | .teamPreemption .. => none
  | .teamRestore .. => none
  | .unitClearComplete .. => none
  | .matrixOperationExecute .. => none
  | .matrixOperationComplete .. => none
  | .unitRelease .. => none
  | .mdrainAbort .. => none
  | .rangeWalk .. => none
  | .walkGenerationRetry .. => none
  | .rangeTableFill .. => none
  | .compactionUnitMove .. => none
  | .compactionDone .. => none
  | .sampleTag .. => none
  | .sampleRecord .. => none
  | .watchStop .. => none
  | .harrowSweep .. => none
  | .sliceAccess .. => none
  | .sectorEviction .. => none
  | .partialJoin .. => none
  | .partialFlush .. => none
  | .cLineMerge .. => none
  | .hbmScrub .. => none
  | .uncorrectableError .. => none
  | .hbmPersistentFault .. => none
  | .dieLinkResend .. => none
  | .dieLinkDown .. => none
  | .pairApertureAccess .. => none
  | .pairLinkResend .. => none
  | .pairLinkDown .. => none
  | .walkerError .. => none
  | .copyStart .. => none
  | .copyChunk .. => none
  | .copyEnd .. => none
  | .doorbell .. => none
  | .decrement .. => none
  | .teamDispatch .. => none
  | .priorityRecompute .. => none
  | .launchCompletion .. => none
  | .packageReset .. => none
  | .firmwareImage .. => none
  | .bringUp .. => none
  | .numberCommand .. => none
  | .configurationBlock .. => none
  | .startCommand .. => none
  | .retireCommand .. => none
  | .createContext .. => none
  | .addParticipant .. => none
  | .admitLaunch .. => none
  | .attestationReport .. => none
  | .revocation .. => none
  | .routeTableWrite .. => none
  | .powerThrottle .. => none
  | .thermalShutdown .. => none
  | .cxlOpen .. => none
  | .snpData .. => none
  | .snpInv .. => none
  | .snpCur .. => none
  | .hostResponse .. => none
  | .hostSectorEviction .. => none
  | .cxlMemRead .. => none
  | .cxlMemWrite .. => none
  | .biSnoopResponse .. => none
  | .flitReceive .. => none
  | .flitResend .. => none
  | .portDown .. => none
  | .accessTimeout .. => none
  | .collectiveAccept .. => none
  | .collectiveFlit .. => none
  | .handoff .. => none
  | .collectiveEnd .. => none
  | .nonInstructionFetch .. => none

/-- The event rows: everything that is not an encoded instruction. -/
def Instr.isEvent (i : Instr) : Bool := i.enc.isNone

end Sys2Proof
end

