-- ==== Sys2Proof/Machine/Encoding.lean ====
section
/-! DEFINITION. The encoding tables of chapter 03 and of the instruction chapters: opcodes, sub-ops, modifier layouts,
and which encodings are illegal, with their codes (03 R62-R81). -/

namespace Sys2Proof

/-- Bits [hi:lo] of a number (00 R3). -/
def bitsOf (w hi lo : Nat) : Nat := (w >>> lo) % 2 ^ (hi + 1 - lo)
/-- Bit n of a number. -/
def bitOf (w n : Nat) : Bool := (w >>> n) % 2 == 1

/-- The type codes of 03 Table 3.5. -/
inductive Ty where
  | b32 | b64 | s8 | s16 | s32 | s64 | n8 | n16 | n32 | n64
  | f32 | f16 | bf16 | e4m3 | e5m2 | e2m1 | cb4
  | f32x2 | f32x3 | f32x4 | f16x2 | f16x3 | f16x4 | bf16x2 | bf16x3 | bf16x4
  | f32iv | f16iv | bf16iv
  deriving DecidableEq, Repr

/-- Every type in the order of its code (03 Table 3.5). -/
def Ty.all : List Ty :=
  [.b32, .b64, .s8, .s16, .s32, .s64, .n8, .n16, .n32, .n64, .f32, .f16, .bf16, .e4m3, .e5m2, .e2m1, .cb4,
   .f32x2, .f32x3, .f32x4, .f16x2, .f16x3, .f16x4, .bf16x2, .bf16x3, .bf16x4, .f32iv, .f16iv, .bf16iv]

/-- The type of a code; codes 29 to 31 are unassigned and are refused before a type is read. -/
def Ty.ofCode (n : Nat) : Ty := Ty.all.getD n .b32

/-- The major opcode of each instruction (03 Table 3.10). -/
def Op.opcode : Op → Nat
  | .nop | .brk | .trap | .eret | .srd | .swr | .wbase | .rls | .icsync | .gresume | .gresumeNext | .gkill => 0x00
  | .add => 0x01 | .sub => 0x02 | .mul => 0x03 | .mulh => 0x04 | .mad => 0x05
  | .div | .rem => 0x06
  | .min | .max => 0x07
  | .and => 0x08 | .or => 0x09 | .xor => 0x0A | .shl => 0x0B | .shr => 0x0C
  | .popc | .clz | .brev | .bfx | .bfi | .kcg => 0x0D
  | .cmp => 0x0E | .sel => 0x0F
  | .movi | .moviWide => 0x10
  | .addi | .addiWide => 0x11
  | .f2f | .f2i | .i2f | .i2i | .pack | .unpack | .mxq | .mxd => 0x12
  | .fadd => 0x13 | .fsub => 0x14 | .fmul => 0x15 | .ffma => 0x16
  | .fmin | .fmax => 0x17
  | .fcmp => 0x18
  | .rcp | .rsq | .sqrt | .exp2 | .log2 | .sin | .cos | .tanh => 0x19
  | .tsum => 0x1A | .tprod => 0x1B | .fmae => 0x1C | .xadd => 0x1D | .xmul => 0x1E | .xcmp => 0x1F
  | .xrenorm | .xcomp | .xneg | .xabs | .xhead | .xsplit | .xjoin => 0x20
  | .iadd => 0x21 | .isub => 0x22 | .imul => 0x23 | .idiv => 0x24 | .ifma => 0x25 | .icmp => 0x26
  | .ihull => 0x27 | .imeet => 0x28
  | .imake | .ilo | .ihi | .imid | .iwid | .ineg | .iabs | .isqr | .isqrt | .ihalf | .iisempty => 0x29
  | .ibis => 0x2A
  | .ld | .ild => 0x2B
  | .st | .ist => 0x2C
  | .atom => 0x2D | .red => 0x2E
  | .fence | .pref | .ifence => 0x2F
  | .waita => 0x30 | .bra => 0x31 | .call => 0x32
  | .bri | .calli | .ret | .exit | .yield => 0x33
  | .spawn => 0x34
  | .bar | .barPass => 0x35
  | .mset | .mand | .mor | .mnot | .mact | .mrd | .vote => 0x36
  | .shfl => 0x37 | .mma => 0x38
  | .mres | .mrel | .mwait | .mfence | .mzero | .mlda | .msta | .mldb | .mdrain => 0x39
  | .tdef | .tdefCommit | .tkill | .tinfo | .ctwr => 0x3A
  | .copy => 0x3B
  | .tdec | .launch | .tstat => 0x3C
  | .rset | .rsetRepl | .rsplit | .rmerge | .rinv | .rqry | .rcomp => 0x3D
  | .enter | .leave | .watch | .sampl | .cntrd => 0x3E

/-- The sub-op number a form-B instruction holds in field b (03 Table 3.11); none for the other forms. -/
def Op.subOp : Op → Option Nat
  | .nop => some 0 | .brk => some 1 | .trap => some 2 | .eret => some 3 | .srd => some 4 | .swr => some 5
  | .wbase => some 6 | .rls => some 7 | .icsync => some 8 | .gresume => some 9 | .gresumeNext => some 9 | .gkill => some 10
  | .popc => some 0 | .clz => some 1 | .brev => some 2 | .bfx => some 3 | .bfi => some 4 | .kcg => some 5
  | .f2f => some 0 | .f2i => some 1 | .i2f => some 2 | .i2i => some 3 | .pack => some 4 | .unpack => some 5
  | .mxq => some 6 | .mxd => some 7
  | .rcp => some 0 | .rsq => some 1 | .sqrt => some 2 | .exp2 => some 3 | .log2 => some 4 | .sin => some 5
  | .cos => some 6 | .tanh => some 7
  | .xrenorm => some 0 | .xcomp => some 1 | .xneg => some 2 | .xabs => some 3 | .xhead => some 4 | .xsplit => some 5
  | .xjoin => some 6
  | .imake => some 0 | .ilo => some 1 | .ihi => some 2 | .imid => some 3 | .iwid => some 4 | .ineg => some 5
  | .iabs => some 6 | .isqr => some 7 | .isqrt => some 8 | .ihalf => some 9 | .iisempty => some 10
  | .fence => some 0 | .pref => some 1 | .ifence => some 2
  | .bri => some 0 | .calli => some 1 | .ret => some 2 | .exit => some 3 | .yield => some 4
  | .mset => some 0 | .mand => some 1 | .mor => some 2 | .mnot => some 3 | .mact => some 4 | .mrd => some 5 | .vote => some 6
  | .mres => some 0 | .mrel => some 1 | .mwait => some 2 | .mfence => some 3 | .mzero => some 4 | .mlda => some 5
  | .msta => some 6 | .mldb => some 7 | .mdrain => some 8
  | .tdef => some 0 | .tdefCommit => some 0 | .tkill => some 1 | .tinfo => some 2 | .ctwr => some 3
  | .tdec => some 0 | .launch => some 1 | .tstat => some 2
  | .rset => some 0 | .rsetRepl => some 0 | .rsplit => some 1 | .rmerge => some 2 | .rinv => some 3 | .rqry => some 4
  | .rcomp => some 5
  | .enter => some 0 | .leave => some 1 | .watch => some 2 | .sampl => some 3 | .cntrd => some 4
  | _ => none

/-- The instruction that an opcode, field b, the X bit and mod select; none where Table 3.11 lists no sub-op or op is
0x3F (03 R77, R79). The variants of one opcode are told apart by X (MOVI, ADDI) or by a mod bit. -/
def opOf (op b : Nat) (x : Bool) (mod : Nat) : Option Op :=
  match op with
  | 0x00 => match b with
    | 0 => some .nop | 1 => some .brk | 2 => some .trap | 3 => some .eret | 4 => some .srd | 5 => some .swr
    | 6 => some .wbase | 7 => some .rls | 8 => some .icsync
    | 9 => some (if bitOf mod 0 then .gresumeNext else .gresume) | 10 => some .gkill | _ => none
  | 0x01 => some .add | 0x02 => some .sub | 0x03 => some .mul | 0x04 => some .mulh | 0x05 => some .mad
  | 0x06 => some (if bitOf mod 0 then .rem else .div)
  | 0x07 => some (if bitOf mod 0 then .max else .min)
  | 0x08 => some .and | 0x09 => some .or | 0x0A => some .xor | 0x0B => some .shl | 0x0C => some .shr
  | 0x0D => match b with
    | 0 => some .popc | 1 => some .clz | 2 => some .brev | 3 => some .bfx | 4 => some .bfi | 5 => some .kcg | _ => none
  | 0x0E => some .cmp | 0x0F => some .sel
  | 0x10 => some (if x then .moviWide else .movi)
  | 0x11 => some (if x then .addiWide else .addi)
  | 0x12 => match b with
    | 0 => some .f2f | 1 => some .f2i | 2 => some .i2f | 3 => some .i2i | 4 => some .pack | 5 => some .unpack
    | 6 => some .mxq | 7 => some .mxd | _ => none
  | 0x13 => some .fadd | 0x14 => some .fsub | 0x15 => some .fmul | 0x16 => some .ffma
  | 0x17 => some (if bitOf mod 0 then .fmax else .fmin)
  | 0x18 => some .fcmp
  | 0x19 => match b with
    | 0 => some .rcp | 1 => some .rsq | 2 => some .sqrt | 3 => some .exp2 | 4 => some .log2 | 5 => some .sin
    | 6 => some .cos | 7 => some .tanh | _ => none
  | 0x1A => some .tsum | 0x1B => some .tprod | 0x1C => some .fmae | 0x1D => some .xadd | 0x1E => some .xmul
  | 0x1F => some .xcmp
  | 0x20 => match b with
    | 0 => some .xrenorm | 1 => some .xcomp | 2 => some .xneg | 3 => some .xabs | 4 => some .xhead | 5 => some .xsplit
    | 6 => some .xjoin | _ => none
  | 0x21 => some .iadd | 0x22 => some .isub | 0x23 => some .imul | 0x24 => some .idiv | 0x25 => some .ifma
  | 0x26 => some .icmp | 0x27 => some .ihull | 0x28 => some .imeet
  | 0x29 => match b with
    | 0 => some .imake | 1 => some .ilo | 2 => some .ihi | 3 => some .imid | 4 => some .iwid | 5 => some .ineg
    | 6 => some .iabs | 7 => some .isqr | 8 => some .isqrt | 9 => some .ihalf | 10 => some .iisempty | _ => none
  | 0x2A => some .ibis
  | 0x2B => some (if 26 ≤ bitsOf mod 13 9 ∧ bitsOf mod 13 9 ≤ 28 then .ild else .ld)
  | 0x2C => some (if 26 ≤ bitsOf mod 13 9 ∧ bitsOf mod 13 9 ≤ 28 then .ist else .st)
  | 0x2D => some .atom | 0x2E => some .red
  | 0x2F => match b with
    | 0 => some .fence | 1 => some .pref | 2 => some .ifence | _ => none
  | 0x30 => some .waita | 0x31 => some .bra | 0x32 => some .call
  | 0x33 => match b with
    | 0 => some .bri | 1 => some .calli | 2 => some .ret | 3 => some .exit | 4 => some .yield | _ => none
  | 0x34 => some .spawn
  | 0x35 => some (if bitsOf mod 13 12 = 1 then .barPass else .bar)
  | 0x36 => match b with
    | 0 => some .mset | 1 => some .mand | 2 => some .mor | 3 => some .mnot | 4 => some .mact | 5 => some .mrd
    | 6 => some .vote | _ => none
  | 0x37 => some .shfl | 0x38 => some .mma
  | 0x39 => match b with
    | 0 => some .mres | 1 => some .mrel | 2 => some .mwait | 3 => some .mfence | 4 => some .mzero | 5 => some .mlda
    | 6 => some .msta | 7 => some .mldb | 8 => some .mdrain | _ => none
  | 0x3A => match b with
    | 0 => some (if bitOf mod 12 then .tdefCommit else .tdef) | 1 => some .tkill | 2 => some .tinfo | 3 => some .ctwr
    | _ => none
  | 0x3B => some .copy
  | 0x3C => match b with
    | 0 => some .tdec | 1 => some .launch | 2 => some .tstat | _ => none
  | 0x3D => match b with
    | 0 => some (if bitOf mod 13 then .rsetRepl else .rset) | 1 => some .rsplit | 2 => some .rmerge | 3 => some .rinv
    | 4 => some .rqry | 5 => some .rcomp | _ => none
  | 0x3E => match b with
    | 0 => some .enter | 1 => some .leave | 2 => some .watch | 3 => some .sampl | 4 => some .cntrd | _ => none
  | _ => none

/-- Instructions that require an extension word (03 R78 and the OWN descriptions). MOVI and ADDI have a form of their own
for each value of X. -/
def Op.needsExt : Op → Bool
  | .mad | .ffma | .fmae | .ifma | .bfx | .bfi | .kcg | .sel | .f2f | .f2i | .i2f | .i2i | .pack | .unpack | .mxq | .mxd
  | .xcomp | .atom | .red | .waita | .mset | .mand | .mor | .mnot | .mact | .mrd | .vote | .shfl | .mma
  | .mzero | .mlda | .msta | .mldb | .mdrain | .tdef | .tdefCommit | .tkill | .tinfo | .ctwr | .copy
  | .rset | .rsetRepl | .rsplit | .rmerge | .rinv | .rqry | .rcomp | .enter => true
  | _ => false

/-- The value mod takes without an extension word (03 R64, R77; each OWN description). -/
def Op.defaultMod : Op → Nat
  | .add | .sub | .mul | .mulh | .div | .min | .cmp => 4 <<< 9
  | .shr => 8 <<< 9
  | .fadd | .fsub | .fmul | .fmin | .fcmp | .tsum | .tprod => 10 <<< 9
  | .rcp | .rsq | .sqrt | .exp2 | .log2 | .sin | .cos | .tanh => 10 <<< 9
  | .xadd | .xmul | .xcmp | .xrenorm | .xneg | .xabs | .xhead | .xjoin => 17 <<< 9
  | .xsplit => 24 <<< 9
  | .iadd | .isub | .imul | .idiv | .icmp | .ihull | .imeet => 26 <<< 9
  | .imake | .ilo | .ihi | .imid | .iwid | .ineg | .iabs | .isqr | .isqrt | .ihalf | .iisempty | .ibis => 26 <<< 9
  | .ld | .st => 8
  | .fence => 5 <<< 6 ||| 3 <<< 4
  | .ifence => 5 <<< 6
  | .tdec => 1
  | _ => 0

/-- The modifier in force: the extension word's, or the default (03 R64). -/
def Fields.modv (f : Fields) (o : Op) : Nat := if f.x then f.mod.toNat else o.defaultMod
/-- Bits [hi:lo] of the modifier in force. -/
def Fields.mb (f : Fields) (o : Op) (hi lo : Nat) : Nat := bitsOf (f.modv o) hi lo
/-- Bit n of the modifier in force. -/
def Fields.mbit (f : Fields) (o : Op) (n : Nat) : Bool := bitOf (f.modv o) n
/-- The type code of an ARITH, MEM or FSFU/XOPS/IOPS/IBIS modifier (03 R73). -/
def Fields.tyCode (f : Fields) (o : Op) : Nat := f.mb o 13 9
/-- The type of the modifier in force. -/
def Fields.ty (f : Fields) (o : Op) : Ty := Ty.ofCode (f.tyCode o)
/-- The 14-bit immediate a:b of form C (03 R66). -/
def Fields.imm14 (f : Fields) : BitVec 14 := f.a ++ f.b
/-- The 21-bit offset d:a:b of form J (03 R66). -/
def Fields.off21 (f : Fields) : BitVec 21 := f.d ++ (f.a ++ f.b)

/-- What an ARITH instruction accepts of type, rounding, .sat, .ftz and opx (04 R94, R96; 05 R131, R142, R148; 06 R161). -/
def arithAccepts (o : Op) (t rnd : Nat) (sat ftz : Bool) (opx : Nat) : Bool :=
  match o with
  | .add => t ≤ 9 && rnd == 0 && !ftz && (!sat || 2 ≤ t) && (opx == 0 || t == 1 || t == 5 || t == 9)
  | .sub | .mul | .mad => t ≤ 9 && rnd == 0 && !ftz && (!sat || 2 ≤ t) && opx == 0
  | .mulh => (t == 4 || t == 5 || t == 8 || t == 9) && rnd == 0 && !ftz && !sat && opx == 0
  | .div => (t == 4 || t == 5 || t == 8 || t == 9) && rnd == 0 && !ftz && (!sat || t ≤ 5) && opx == 0
  | .rem => (t == 4 || t == 5 || t == 8 || t == 9) && rnd == 0 && !ftz && !sat && opx == 1
  | .min => t ≤ 9 && rnd == 0 && !ftz && !sat && opx == 0
  | .max => t ≤ 9 && rnd == 0 && !ftz && !sat && opx == 1
  | .and | .or | .xor => t ≤ 1 && rnd == 0 && !ftz && !sat && opx == 0
  | .shl | .shr =>
    (t == 0 || t == 1 || t == 4 || t == 5 || t == 8 || t == 9) && rnd == 0 && !ftz && !sat && opx == 0
  | .cmp => t ≤ 9 && rnd == 0 && !ftz && !sat && opx == 0
  | .fadd | .fsub | .fmul | .ffma => 10 ≤ t && t ≤ 12 && rnd ≤ 4 && opx == 0
  | .fmin | .fcmp => 10 ≤ t && t ≤ 12 && rnd == 0 && !sat && opx == 0
  | .fmax => 10 ≤ t && t ≤ 12 && rnd == 0 && !sat && opx == 1
  | .tsum | .tprod | .fmae => 10 ≤ t && t ≤ 12 && rnd == 0 && !sat && !ftz && opx == 0
  | .xadd | .xmul | .xcmp => 17 ≤ t && t ≤ 25 && rnd == 0 && !sat && !ftz && opx == 0
  | .iadd | .isub | .imul | .idiv | .ifma | .icmp | .ihull | .imeet =>
    26 ≤ t && t ≤ 28 && rnd == 0 && !sat && !ftz && opx == 0
  | _ => true

/-- The ARITH opcodes (03 Table 3.10). -/
def Op.isArith : Op → Bool
  | .add | .sub | .mul | .mulh | .mad | .div | .rem | .min | .max | .and | .or | .xor | .shl | .shr | .cmp
  | .fadd | .fsub | .fmul | .ffma | .fmin | .fmax | .fcmp | .tsum | .tprod | .fmae | .xadd | .xmul | .xcmp
  | .iadd | .isub | .imul | .idiv | .ifma | .icmp | .ihull | .imeet => true
  | _ => false

/-- Bits of a floating-point type, for "narrower" (05 Table 5.3). -/
def Ty.fbits : Ty → Nat
  | .f32 => 32 | .f16 | .bf16 => 16 | .e4m3 | .e5m2 => 8 | .e2m1 => 4 | _ => 0

/-- Destination type, source type, rounding code, .sat and .ftz of CVT sub-ops 0 to 5 (04 R102). -/
def Fields.cvtDst (f : Fields) : Nat := bitsOf f.mod.toNat 13 9
def Fields.cvtSrc (f : Fields) (o : Op) : Nat := if o = .pack then bitsOf f.mod.toNat 7 4 else bitsOf f.mod.toNat 8 4
def Fields.cvtRnd (f : Fields) : Nat := bitsOf f.mod.toNat 3 1
def Fields.cvtSat (f : Fields) : Bool := bitOf f.mod.toNat 0
def Fields.cvtFtz (f : Fields) (o : Op) : Bool := if o = .pack then bitOf f.mod.toNat 8 else bitOf f.c.toNat 6
def Fields.cvtIdx (f : Fields) : Nat := bitsOf f.c.toNat 2 0

/-- Elements of a narrow type in a 32-bit word (02 Table 2.2). -/
def elementsPerWord (t : Nat) : Nat :=
  if t = 3 ∨ t = 7 ∨ t = 11 ∨ t = 12 then 2 else if t = 2 ∨ t = 6 ∨ t = 13 ∨ t = 14 then 4 else if t = 15 then 8 else 0

/-- What CVT sub-ops 0 to 5 accept (04 Table 4.3, 05 Table 5.3). -/
def cvtAccepts (o : Op) (f : Fields) : Bool :=
  let d := f.cvtDst; let s := f.cvtSrc o; let r := f.cvtRnd; let sat := f.cvtSat; let ftz := f.cvtFtz o
  match o with
  | .f2f => 10 ≤ s && s ≤ 15 && 10 ≤ d && d ≤ 15 &&
      (r ≤ 4 || (r == 5 && (Ty.ofCode d).fbits < (Ty.ofCode s).fbits))
  | .f2i => 10 ≤ s && s ≤ 15 && 2 ≤ d && d ≤ 9 && r ≤ 4
  | .i2f => 2 ≤ s && s ≤ 9 && 10 ≤ d && d ≤ 12 && r ≤ 4 && !ftz
  | .i2i => s ≤ 9 && d ≤ 9 && r == 0 && !ftz
  | .pack =>
    ((s == 4 || s == 8 || s == 0) && (d == 3 || d == 7 || d == 2 || d == 6) && r == 0 && !ftz) ||
    (s == 10 && 11 ≤ d && d ≤ 15 && r ≤ 4)
  | .unpack =>
    f.cvtIdx < elementsPerWord s &&
    (((s == 2 || s == 6 || s == 3 || s == 7) && (d == 4 || d == 8 || d == 5 || d == 9) && r == 0 && !ftz) ||
     (11 ≤ s && s ≤ 15 && d == 10 && r == 0 && !sat && !ftz))
  | _ => true

/-- The pairs of operation and type of 08 Table 8.5. -/
def atomPairOk (op ty : Nat) : Bool :=
  match op with
  | 0 | 1 | 2 => ty == 2 || ty == 3 || ty == 4 || ty == 5 || ty == 6
  | 3 | 4 | 5 | 6 | 7 => ty == 0 || ty == 1
  | 8 => ty == 7
  | _ => false

/-- A value the instruction does not accept: code 0x0003 (03 Table 3.12 and each instruction's rule). -/
def badValue (o : Op) (f : Fields) : Bool :=
  if o.isArith then
    !arithAccepts o (f.tyCode o) (f.mb o 8 6) (f.mbit o 5) (f.mbit o 4) (f.mb o 3 0) ||
    (match o with
     | .cmp | .xcmp | .icmp => 6 ≤ bitsOf f.d.toNat 6 3
     | .fcmp => 14 ≤ bitsOf f.d.toNat 6 3
     | _ => false)
  else match o with
  | .wbase => !f.mbit o 13 && (f.mb o 8 0 % 16 != 0 || 400 < f.mb o 8 0)
  | .rls => 112 < f.mb o 6 0 + 1
  | .popc | .clz | .brev | .sel => 1 < f.tyCode o
  | .bfx | .bfi => 32 < f.mb o 4 0 + (f.mb o 9 5 + 1)
  | .f2f | .f2i | .i2f | .i2i | .pack | .unpack => !cvtAccepts o f
  | .mxq => f.tyCode o < 13 || 15 < f.tyCode o || 5 < f.mb o 8 6
  | .mxd => f.tyCode o < 10 || 12 < f.tyCode o || 4 < f.mb o 8 6 || f.mb o 3 2 == 3
  | .rcp | .rsq | .sqrt | .exp2 | .log2 | .sin | .cos | .tanh =>
    f.tyCode o < 10 || 12 < f.tyCode o || 4 < f.mb o 8 6
  | .xrenorm | .xneg | .xabs | .xhead =>
    f.tyCode o < 17 || 25 < f.tyCode o || f.mb o 8 6 != 0 || f.mb o 3 0 != 0
  | .xcomp =>
    !(match f.tyCode o with
      | 18 | 21 | 24 => 1 ≤ f.mb o 1 0 && f.mb o 1 0 ≤ 2
      | 19 | 22 | 25 => 1 ≤ f.mb o 1 0
      | _ => false) || f.mb o 8 6 != 0 || f.mb o 3 2 != 0
  | .xsplit => f.tyCode o != 24 || f.mb o 8 6 != 0 || f.mb o 3 0 != 0
  | .xjoin => f.tyCode o < 17 || 25 < f.tyCode o || 4 < f.mb o 8 6 || f.mb o 3 1 != 0 || (f.mbit o 0 && f.tyCode o ≤ 19)
  | .imake | .ilo | .ihi | .imid | .iwid | .ineg | .iabs | .isqr | .isqrt | .ihalf | .iisempty =>
    f.tyCode o < 26 || 28 < f.tyCode o
  | .ibis => f.tyCode o < 26 || 28 < f.tyCode o || (f.tyCode o == 26 && f.mb o 8 7 == 3)
  | .ld => 14 < f.tyCode o || 5 < f.mb o 8 6 || 1 < f.mb o 5 4
  | .ild => 5 < f.mb o 8 6 || 1 < f.mb o 5 4
  | .st => 14 < f.tyCode o || 5 < f.mb o 8 6 || f.mbit o 4
  | .ist => 5 < f.mb o 8 6 || f.mbit o 4
  | .atom => !atomPairOk (f.mb o 13 10) (f.mb o 9 7) || 5 < f.mb o 6 4
  | .red => !atomPairOk (f.mb o 13 10) (f.mb o 9 7) || f.mb o 13 10 == 7 || 5 < f.mb o 6 4 || f.mbit o 2
  | .fence => 5 < f.mb o 8 6 || f.mb o 5 4 == 0
  | .pref => f.mb o 13 12 == 3
  | .ifence => 5 < f.mb o 8 6
  | .waita => 5 < f.mb o 13 10 || 5 < f.mb o 7 5 || 20 < f.mb o 4 0
  | .spawn => 4 < f.mb o 13 11
  | .bar | .barPass => 1 < f.mb o 13 12
  | .mset => 7 < f.mb o 13 10
  | .mand | .mor => 7 < f.mb o 13 10 || 11 < f.mb o 9 6 || 11 < f.mb o 5 2
  | .mnot => 7 < f.mb o 13 10 || 11 < f.mb o 9 6
  | .mact | .mrd => 11 < f.mb o 9 6
  | .vote => 11 < f.mb o 13 10
  | .mma => 12 < f.mb o 13 10
  | .mzero => 32 < f.mb o 9 5 + (f.mb o 4 0 + 1)
  | .msta => f.tyCode o < 10 || 12 < f.tyCode o || 4 < f.mb o 8 6 || (f.mbit o 5 && f.tyCode o == 10)
  | .mdrain => 1 < f.mb o 13 12 || (f.mb o 11 9 != 0 && f.mb o 11 9 != 5)
  | .copy => f.mb o 8 6 == 0 || 5 < f.mb o 8 6
  | .tdec => f.mb o 11 0 == 0
  | .rset | .rsetRepl | .rsplit | .rmerge | .rinv | .rcomp => f.mb o 8 6 < 2 || 5 < f.mb o 8 6
  | .enter => f.mod.toNat == 0 && bitsOf f.c.toNat 1 0 == 0
  | _ => false

/-- The mod bits that are resv, 0 for the instruction: a nonzero one is code 0x0004. -/
def resvMask (o : Op) (f : Fields) : Nat :=
  if o.isArith then 0
  else match o with
  | .trap | .srd | .swr => 0x3FC0
  | .wbase => if bitOf f.mod.toNat 13 then 0x1FFF else 0x1E00
  | .rls => 0x3F80
  | .gresume | .gresumeNext => 0x3FFE
  | .popc | .clz | .brev => 0x01FF
  | .bfx => 0x1C00
  | .bfi => 0x3C00
  | .sel => 0x001F
  | .moviWide => 0
  | .addiWide => 0x0400
  | .f2f | .f2i | .i2f | .i2i | .pack | .unpack => 0
  | .mxq => 0x001F
  | .mxd => 0x0003
  | .rcp | .rsq | .sqrt | .exp2 | .log2 | .sin | .cos | .tanh => 0x002F
  | .xrenorm | .xcomp | .xneg | .xabs | .xhead | .xsplit | .xjoin => 0x0030
  | .imake | .ihalf => 0x01FE
  | .ilo | .ihi | .imid | .iwid | .ineg | .iabs | .isqr | .isqrt | .iisempty => 0x01FF
  | .ibis => 0x0038
  | .ld | .ild | .st | .ist => 0x0007
  | .atom | .red => 0x0003
  | .fence => 0x3E0F
  | .pref => 0x000F
  | .ifence => 0x3E3F
  | .waita => 0
  | .spawn => 0x07FF
  | .bar | .barPass => 0x03FF
  | .mset => if bitOf f.mod.toNat 9 then 0x01FF else 0x0107
  | .mand | .mor => 0x0003
  | .mnot => 0x003F
  | .mact => 0x3C3F
  | .mrd => 0x3C3C
  | .vote => 0
  | .shfl => 0x007F
  | .mma => if bitsOf f.mod.toNat 13 10 = 7 then 0x003F else 0x00FF
  | .mres => 0x3FF0
  | .mwait => 0x3FC0
  | .mzero => 0x3C00
  | .mlda => 0x3FE0
  | .msta => 0
  | .mdrain => 0x00FF
  | .tdef | .tdefCommit => 0x0018
  | .tkill => 0x101F
  | .tinfo => 0x3018
  | .ctwr => 0x3FFC
  | .copy => 0x3E3F
  | .tdec => 0x3000
  | .launch => 0x3FF8
  | .rset | .rsetRepl | .rinv => 0x1E3F
  | .rsplit | .rmerge | .rcomp => 0x3E3F
  | .enter => 0
  | .watch => 0x3FFC
  | .cntrd => 0x3F00
  | _ => 0x3FFF

/-- Whether field d is used (03 R65; each instruction's description). -/
def usesD : Op → Bool
  | .nop | .brk | .trap | .eret | .swr | .wbase | .rls | .icsync | .red | .fence | .pref | .ifence
  | .bri | .calli | .ret | .exit | .yield | .spawn | .bar | .barPass | .mset | .mand | .mor | .mnot | .mact | .vote
  | .mres | .mrel | .mwait | .mfence | .mzero | .mlda | .msta | .mldb | .tkill | .ctwr | .copy | .tdec | .enter
  | .leave => false
  | _ => true

/-- Whether field a is used. -/
def usesA (o : Op) (f : Fields) : Bool :=
  match o with
  | .nop | .brk | .trap | .eret | .srd | .icsync | .fence | .ifence | .ret | .exit | .yield | .bar | .barPass
  | .mand | .mor | .mnot | .mact | .mrd | .vote | .mres | .mrel | .mwait | .mfence | .mzero | .tkill | .tinfo
  | .enter | .leave | .cntrd => false
  | .wbase => f.x && bitOf f.mod.toNat 13
  | .mset => !f.x || bitOf f.mod.toNat 9
  | _ => true

/-- Whether field b is used; in form B it holds the sub-op number. -/
def usesB (o : Op) (f : Fields) : Bool :=
  match o with
  | .bar | .barPass | .copy => false
  | .ld | .ild | .st | .ist => f.mbit o 3
  | .spawn => 0 < f.mb o 13 11
  | .shfl => !f.x || !bitOf f.mod.toNat 7
  | _ => true

/-- Whether field c is used. -/
def usesC (o : Op) (f : Fields) : Bool :=
  match o with
  | .mad | .ffma | .fmae | .ifma | .kcg | .moviWide | .addiWide | .f2f | .f2i | .i2f | .i2i | .pack | .unpack
  | .ld | .ild | .st | .ist | .mldb | .rcomp | .enter => true
  | .imake => f.mbit o 0
  | .ibis => 0 < f.mb o 8 7
  | .atom => f.mb o 13 10 == 7
  | .shfl => bitOf f.mod.toNat 7
  | .mma => bitOf f.mod.toNat 8
  | _ => false

/-- A nonzero resv or unused field of the first word (03 R65): code 0x0004. -/
def resvFirst (o : Op) (f : Fields) : Bool :=
  (!usesD o && f.d != 0) || (!usesA o f && f.a != 0) || (!usesB o f && f.b != 0) ||
  (o == .iisempty && 7 < f.d.toNat) || (o == .mma && 31 < f.d.toNat)

/-- A nonzero resv or unused field of the extension word: code 0x0004. -/
def resvExt (o : Op) (f : Fields) : Bool :=
  f.x && ((f.mod.toNat &&& resvMask o f) != 0 || (!usesC o f && f.c != 0) ||
    (match o with
     | .moviWide => 15 < f.c.toNat || f.la || f.lb || f.lc
     | .addiWide => f.la || f.lb
     | .bra | .call => f.la || f.lb || f.lc
     | .f2f | .f2i | .i2f | .i2i => bitsOf f.c.toNat 5 0 != 0
     | .unpack => bitsOf f.c.toNat 5 3 != 0
     | .mma => 31 < f.c.toNat
     | .enter => 3 < f.c.toNat
     | _ => false))

/-- Whether field a, b or c is a source that may name a vector register (03 R69). -/
def vecA (o : Op) (f : Fields) : Bool :=
  o.isArith || (match o with
  | .popc | .clz | .brev | .bfx | .bfi | .kcg | .sel | .f2f | .f2i | .i2f | .i2i | .pack | .unpack | .mxq | .mxd
  | .rcp | .rsq | .sqrt | .exp2 | .log2 | .sin | .cos | .tanh
  | .xrenorm | .xcomp | .xneg | .xabs | .xhead | .xsplit | .xjoin
  | .imake | .ilo | .ihi | .imid | .iwid | .ineg | .iabs | .isqr | .isqrt | .ihalf | .iisempty | .ibis
  | .ld | .ild | .st | .ist | .atom | .red | .pref | .waita | .shfl => true
  | .mset => bitOf f.mod.toNat 9
  | _ => false)
def vecB (o : Op) (f : Fields) : Bool :=
  o.isArith || (match o with
  | .sel | .atom | .red | .waita => true
  | .ld | .ild | .st | .ist | .spawn | .shfl => usesB o f
  | _ => false)
def vecC (o : Op) (f : Fields) : Bool :=
  match o with
  | .mad | .ffma | .fmae | .ifma | .kcg | .pack | .addiWide => true
  | .imake | .ibis | .atom => usesC o f
  | _ => false

/-- A last-read bit on a field that is not a vector source (03 R69): code 0x0006. -/
def badLastRead (o : Op) (f : Fields) : Bool :=
  (f.la && !(vecA o f && f.a.toNat < 112)) || (f.lb && !(vecB o f && f.b.toNat < 112)) ||
  (f.lc && !(vecC o f && f.c.toNat < 112))

/-- SRD or SWR names a selector absent from 01 Table 1.5: code 0x0007. -/
def badSelector (o : Op) (f : Fields) : Bool := (o == .srd || o == .swr) && 0x0E < f.mb o 5 0

/-- The lowest illegal-instruction code of an instruction's fields, or none (03 R78, R81 Table 3.12). An instruction that
lacks its extension word is judged by its first word alone. -/
def illegalCode (o : Op) (f : Fields) : Option Nat :=
  if o.needsExt && !f.x then some (if resvFirst o f then 4 else 5)
  else if badValue o f then some 3
  else if resvFirst o f || resvExt o f then some 4
  else if badLastRead o f then some 6
  else if badSelector o f then some 7
  else none

end Sys2Proof
end

