-- ==== Sys2Proof/WellFormed.lean ====
section
/-! DEFINITION. Which instructions are well formed: the fields that some legal encoding has (03 R62-R81). -/

namespace Sys2Proof

/-- Without an extension word its fields are 0 (03 R64). -/
def Fields.canonical (f : Fields) : Bool :=
  f.x || (f.gm == 0 && !f.la && !f.lb && !f.lc && f.c == 0 && f.mod == 0)

/-- The fields belong to this instruction: field b holds its sub-op, X and mod select its variant (03 R77, R79). -/
def selects (o : Op) (f : Fields) : Bool := opOf o.opcode f.b.toNat f.x (f.modv o) == some o

/-- Well-formed fields of an instruction: canonical, its own, and legal under 03 R81. -/
def wfFields (o : Op) (f : Fields) : Bool := f.canonical && selects o f && (illegalCode o f).isNone

/-- An encoded instruction is well formed when its fields are; an event has no encoding and is always so. -/
def Instr.wf (i : Instr) : Bool :=
  match i.enc with
  | some (o, f) => wfFields o f
  | none => true

end Sys2Proof
end

