-- ==== Sys2Proof/Decode.lean ====
section
/-! DEFINITION. The decoder, total on any words and rejecting by name, and the encoder (03 R62-R81). -/

namespace Sys2Proof

/-- The fields of a first word and, when X = 1, of the extension word (03 Tables 3.1, 3.2). -/
def fieldsOf (w0 w1 : W32) : Fields :=
  let x := w0.getLsbD 25
  { s := w0.getLsbD 24, g := w0.extractLsb' 21 3, d := w0.extractLsb' 14 7, a := w0.extractLsb' 7 7
    b := w0.extractLsb' 0 7, x := x
    gm := if x then w1.extractLsb' 24 2 else 0
    la := x && w1.getLsbD 23, lb := x && w1.getLsbD 22, lc := x && w1.getLsbD 21
    c := if x then w1.extractLsb' 14 7 else 0, mod := if x then w1.extractLsb' 0 14 else 0 }

/-- The major opcode of a word (03 Table 3.1). -/
def opField (w : W32) : Nat := (w.extractLsb' 26 6).toNat
/-- The X bit of a first word. -/
def xField (w : W32) : Bool := w.getLsbD 25

/-- The modifier by which variants of one opcode are told apart, before the instruction is known: the extension word's,
or the default of the opcode's first instruction (03 R64). -/
def selMod (op b : Nat) (f : Fields) : Nat :=
  if f.x then f.mod.toNat else
    match opOf op b false 0 with
    | some o => o.defaultMod
    | none => 0

/-- Decodes a first word and the word after it: an instruction, or why there is none (03 R81 Table 3.12). A first word
with op 0x3F is an instruction boundary whose code the way of arrival fixes; the decoder gives 0x0002. -/
def decode (w0 w1 : W32) : Except FetchFault Instr :=
  let op := opField w0
  let f := fieldsOf w0 w1
  if op = 0x3F then .error (.boundary 2)
  else if f.x && opField w1 != 0x3F then .error (.illegal 1 true)
  else match opOf op f.b.toNat f.x (selMod op f.b.toNat f) with
    | none => .error (.illegal 2 f.x)
    | some o =>
      match illegalCode o f with
      | some c => .error (.illegal c f.x)
      | none => .ok (.of o f)

/-- The first word of an instruction (03 Table 3.1). -/
def encodeFirst (o : Op) (f : Fields) : W32 :=
  BitVec.ofNat 6 o.opcode ++ (BitVec.ofBool f.x ++ (BitVec.ofBool f.s ++ (f.g ++ (f.d ++ (f.a ++ f.b)))))

/-- The extension word of an instruction (03 Table 3.2). -/
def encodeExt (f : Fields) : W32 :=
  (0x3F : BitVec 6) ++ (f.gm ++ (BitVec.ofBool f.la ++ (BitVec.ofBool f.lb ++ (BitVec.ofBool f.lc ++ (f.c ++ f.mod)))))

/-- The words of an encoded instruction: one, or two when X = 1; none for an event. -/
def encode (i : Instr) : List W32 :=
  match i.enc with
  | some (o, f) => encodeFirst o f :: (if f.x then [encodeExt f] else [])
  | none => []

/-- Decodes a list of words: the first, and the second when there is one (else 0). -/
def decodeWords (ws : List W32) : Except FetchFault Instr := decode (ws.getD 0 0) (ws.getD 1 0)

/-- The words of an instruction whose bits are w, as spec/opcode_table.json numbers them: bits 31 to 0 are the first word,
bits 63 to 32 the second; the bits above nbits are 0. -/
def tableWords (nbits w : Nat) : List W32 :=
  let v := w % 2 ^ nbits
  [BitVec.ofNat 32 v, BitVec.ofNat 32 (v >>> 32)]

/-- The instruction the decoder reads from the table's word, or none where it refuses. -/
def decodeTableWord (nbits w : Nat) : Option Instr :=
  match decodeWords (tableWords nbits w) with
  | .ok i => some i
  | .error _ => none

end Sys2Proof
end

