-- ==== Sys2Proof/Machine/Table.lean ====
section
/-! DEFINITION. Sparse tables: lists of key and value pairs in ONE canonical form, keys strictly rising and no entry equal to
what an unlisted key reads as. Registers, memory and the tables of agents are held this way. -/

namespace Sys2Proof.Machine

/-- A table: the listed keys in rising order, each with its value. -/
abbrev Table (α : Type) := List (Nat × α)

/-- The listed value of a key. -/
def tfind {α : Type} : Table α → Nat → Option α
  | [], _ => none
  | (j, v) :: t, k => if j = k then some v else tfind t k

/-- The value of a key, d where it is not listed. -/
def tget {α : Type} (d : α) (t : Table α) (k : Nat) : α := (tfind t k).getD d

/-- The table without a key. -/
def tdel {α : Type} : Table α → Nat → Table α
  | [], _ => []
  | (j, v) :: t, k => if j = k then tdel t k else (j, v) :: tdel t k

/-- Puts a pair before the first greater key. -/
def tins {α : Type} : Table α → Nat → α → Table α
  | [], k, v => [(k, v)]
  | (j, w) :: t, k, v => if k < j then (k, v) :: (j, w) :: t else (j, w) :: tins t k v

/-- The table with a key listed with this value. -/
def tput {α : Type} (t : Table α) (k : Nat) (v : α) : Table α := tins (tdel t k) k v

/-- The table in which a key reads as v, where an unlisted key reads as d: writing d removes the entry. -/
def tset {α : Type} [DecidableEq α] (d : α) (t : Table α) (k : Nat) (v : α) : Table α :=
  if v = d then tdel t k else tput t k v

/-- Writes several pairs, the first first. -/
def tsets {α : Type} [DecidableEq α] (d : α) (t : Table α) : List (Nat × α) → Table α
  | [] => t
  | (k, v) :: r => tsets d (tset d t k v) r

/-- Keys strictly rising. -/
def trising {α : Type} : Table α → Bool
  | [] => true
  | [_] => true
  | (j, _) :: (k, v) :: t => decide (j < k) && trising ((k, v) :: t)

/-- The canonical form of a table whose unlisted keys read as d. -/
def twf {α : Type} [DecidableEq α] (d : α) (t : Table α) : Bool := trising t && t.all fun e => decide (e.2 ≠ d)

/-- Applies a function to the listed value of a key. -/
def tmod {α : Type} (t : Table α) (k : Nat) (f : α → α) : Table α :=
  match tfind t k with
  | some v => tput t k (f v)
  | none => t

/-- The least listed key whose value satisfies p, with the value. -/
def tfirst {α : Type} (t : Table α) (p : Nat → α → Bool) : Option (Nat × α) := t.find? fun e => p e.1 e.2

/-- The least key below n that is not listed. -/
def tfree {α : Type} (t : Table α) (n : Nat) : Option Nat := (List.range n).find? fun k => (tfind t k).isNone

end Sys2Proof.Machine
end

