-- ==== Sys2Proof/Machine/State.lean ====
section
/-! DEFINITION. The state of the machine: every piece of state the spec gives one package, as plain data. Keys: a core is its
number in the package, 0 to 127 (16 × die + core); a group is 256 × core + slot; a unit is 4 × core + quarter; a cluster is
4 × die + cluster; a task is 4,096 × die + slot; a team is 2³² × task + team index. -/

namespace Sys2Proof.Machine

/-- Why the machine stops. -/
inductive Fault where
  /-- An encoded instruction is executed when no group issues: raised by every instruction's arm; safe, since step never executes one
  then (03 R68: an instruction issues from a group). -/
  | noIssuingGroup
  deriving DecidableEq, Repr

/-- Why an instruction has no meaning. -/
inductive Refusal where
  /-- Raised by an arm of exec that has no meaning yet, by its mnemonic; safe. -/
  | notModelled (mnemonic : String)
  deriving DecidableEq, Repr

/-- A range record: its four dwords (10 Table 10.1). -/
structure RangeRec where
  w0 : W64
  w1 : W64
  w2 : W64
  w3 : W64
  deriving DecidableEq, Repr

/-- A record with its index in the directory and the directory's generation (13 R336, R337). -/
structure RangeEntry where
  image : RangeRec
  index : Nat
  gen   : Nat := 0
  /-- For a copy that several records of the directory have come to cover (13 R334): from which address on another index holds, rising. -/
  more  : List (Nat × Nat) := []
  deriving DecidableEq, Repr

/-- What a walk returns: the record, or the code of a range-miss fault (13 R336, R338). -/
inductive WalkResult where
  | found (e : RangeEntry)
  | miss (code : Nat) (addr : Addr)
  deriving DecidableEq, Repr

/-- A walk answer delivered to a requester: its address space, the address asked for, the result (13 R332), and whether an RQRY asked (10 R285). -/
structure WalkAnswer where
  asid : Nat
  va   : Nat
  res  : WalkResult
  raw  : Bool := false
  deriving DecidableEq, Repr

/-- A request to a cluster's walker (13 R332): the group, or the number of the engine, and whether runahead asks. -/
structure WalkReq where
  gid   : Option Nat
  core  : Nat
  asid  : Nat
  va    : Nat
  ra    : Bool
  /-- Clock before which the walker does not read the directory again; 0 when it has not met a changing one (13 R336). -/
  retry : Nat := 0
  /-- Whether a walk for it is in flight, and the generation in which that walk has asked for words. -/
  walking : Bool := false
  gen   : Option Nat := none
  /-- What asks in runahead: 1 a lane of a load, 3 a fetch, 4 and more a prefetch of the level that is the rest (10 R296); else 2 for RQRY, which
ignores the range cache (R285). -/
  why   : Nat := 0
  /-- The confidential context for whose launch an engine asks, 0 for none. -/
  ctx   : Nat := 0
  deriving DecidableEq, Repr

/-- The fault record a parked group keeps (01 Table 1.7): its eight dwords, whole and as the die's queue receives them, and the two facts
GRESUME judges. -/
structure FaultRec where
  words : List W64
  plain : List W64
  restartable : Bool
  /-- The length of the faulting instruction in bytes where it is known (04 R126). -/
  length : Option Nat
  /-- Whether the record is one of 11 R311 and R312, which follow a completed instruction. -/
  after : Bool
  deriving DecidableEq, Repr

/-- What a group waits for (07 Table 7.1, parked: wait and parked: pool; 03, 10 and 13 for walks). -/
inductive Wait where
  /-- A queue pop finds q0, q2 or q3 empty. -/
  | pop (q : Nat)
  /-- A push to q1 or q3 finds no room for n words. -/
  | push (q n : Nat)
  /-- A first write cannot allocate n slices (07 R186), of an instruction that frees these names. -/
  | pool (n : Nat) (frees : List Nat := [])
  /-- The BAR.hold at back waits until the parity of its barrier differs from this one (08 R225), and with S = 1 then for its results. -/
  | barrier (id : Nat) (parity : Bool) (back : Addr) (switch : Bool := false)
  /-- The BAR.hold at back of a paired team, whose arrival is on its way to the barrier unit (13 R331). -/
  | arriving (id : Nat) (back : Addr) (switch : Bool := false)
  /-- The WAITA with these fields repeats, until the clock passes its limit where it has one (08 R222). -/
  | waita (limit : Option Nat) (f : Fields)
  /-- The walker is asked for these addresses (10 R276). -/
  | walk (vas : List Nat)
  /-- The host or another package is asked for data. -/
  | reply
  /-- An access waits for the group's earlier stores through the pair aperture (13 R329). -/
  | aperture
  /-- A release waits for the acknowledgement counter to read 0 (08 R236). -/
  | acks
  /-- SWR waits until every earlier instruction has written back (01 R28). -/
  | results
  /-- A SPAWN waits for room in its pan (07 R192). -/
  | pan (pan n : Nat)
  /-- A unit operation waits for the unit of this quarter: MRES.wait and the clear (09 R240), MREL and MWAIT (R243, R252), a full
  operation queue (R249). -/
  | unit (kind : Nat) (arg : Nat)
  /-- TDEF.commit or TKILL waits for the operations that use a descriptor (09 R262, R263). -/
  | descriptor (id : Nat)
  /-- COPY finds its die's queue full (15 R374). -/
  | copies
  /-- A RANGE instruction waits for the accesses to [lo, hi) of an address space in a scope that have not been performed (10 R286, R288). -/
  | range (scope asid lo hi : Nat)
  /-- A trace slot with overflow 1 finds no room in the trace ring for n records (11 R310). -/
  | trace (n : Nat)
  deriving DecidableEq, Repr

/-- The state of a group (07 Table 7.1). The current group of a quarter is a ready group that the quarter names. -/
inductive Stat where
  | ready
  | parkedSwitch
  | waiting (w : Wait)
  | runahead
  | parkedFault
  /-- Ended (04 R108): it waits for its results and acknowledgements, then GROUP_END frees it. -/
  | ended
  /-- Saved by forced save; image state 0, 1 or 2 with what it waits for (07 R188). -/
  | saved (was : Option Wait) (fault : Bool)
  deriving DecidableEq, Repr

/-- An outstanding result (07 R180, R181): what an issued instruction has still to write. -/
structure Outst where
  /-- The fixed distance of 07 Table 7.3, where it has one. -/
  fixed : Option Nat
  /-- The group's instructions issued before it. -/
  seq   : Nat
  /-- The clock at issue. -/
  time  : Nat
  /-- The return of a global LD, ILD or ATOM (10 R293). -/
  load  : Bool
  /-- Vector names with the lanes written. -/
  regs  : List (Nat × LaneMask)
  /-- Uniform registers written. -/
  gs    : List Nat
  /-- Predicates with the lanes written. -/
  preds : List (Nat × LaneMask)
  /-- The flags that are ORed into FPSR when it writes back (01 R28). -/
  flags : BitVec 6
  /-- The clock before which a load's result does not come (14 Table 14.3; log 7). -/
  due   : Nat := 0
  /-- Bindings freed while a write of this result to them is outstanding, each as name + 512 × the number of the instruction that freed it: their
  slices return to the pool with the last such result (07 R185). -/
  freed : List Nat := []
  /-- Of a load or an ATOM: its address, and the dies whose memory its lanes read over the links of its own (14 R361). -/
  pc    : Addr := 0
  crossed : List (Nat × LaneMask) := []
  deriving DecidableEq, Repr

/-- What a requester waits for where it is told that other agents must answer first. -/
inductive Need where
  /-- The host's data of a host sector (17 R420). -/
  | sector (sec : Nat)
  /-- The host's answer to a snoop of a sector of HBM (17 R422). -/
  | snoop (sec : Nat)
  /-- The unit of a migrating range, by address space and base, that a slice holds (10 R289). -/
  | unit (asid base n : Nat)
  /-- The answer to an earlier access to overlapping bytes of another package (17 R427). -/
  | bytes (pkg t n : Nat)
  /-- The end of a change of an address space's directory, as a die's table names it (13 R335). -/
  | dir (die asid : Nat)
  deriving DecidableEq, Repr

/-- A group's context: what 07 Table 7.8 saves. -/
structure Ctx where
  pc     : Addr := 0
  wbase  : Nat := 0
  am     : LaneMask := 0
  live   : LaneMask := 0
  /-- m0 to m7 by number. -/
  masks  : Table LaneMask := []
  /-- p1 to p7: key 128 × number + lane. -/
  preds  : Table (BitVec 2) := []
  /-- g0 to g11 by number, and their poison. -/
  g      : Table W64 := []
  gPoison : Table Nat := []
  /-- v0 to v511: key 128 × name + lane, and poison by the same key: 0 clear, 1 set, and for poison whose consumer takes a code of its own
  (16 R410, 17 R428, R429) that code. -/
  v      : Table W32 := []
  vPoison : Table Nat := []
  /-- The bound names, rising (01 R17). -/
  bound  : List Nat := []
  fpsr   : BitVec 6 := 0
  /-- The region stack, top first, at most 16 ids, and its depth (11 R301). -/
  regions : List (BitVec 16) := []
  rdepth : Nat := 0
  /-- The hidden trap state (04 R120). -/
  inHandler : Bool := false
  trapPc : Addr := 0
  trapAm : LaneMask := 0
  /-- How the group came to its PC, as the code of an instruction-boundary fault there (03 Table 3.12): 1 a transfer, 2 sequential flow, 3 an
  entry, a handler, ERET or GRESUME. -/
  via    : Nat := 3
  deriving DecidableEq, Repr

/-- A runahead period (10 R294 to R297): the checkpoint, what was outstanding at entry, the names bound in runahead, the instructions
issued in it, and the ranges already noted. -/
structure Runahead where
  saved  : Ctx
  entry  : List Outst
  bound  : List Nat
  count  : Nat
  noted  : List Nat
  deriving DecidableEq, Repr

/-- A group. -/
structure Group where
  ctx    : Ctx := {}
  width  : Nat := 32
  /-- The task whose launch it belongs to, and its team. -/
  task   : Nat := 0
  team   : Nat := 0
  /-- Index in its team (01 Table 1.5 GROUP), and whether a pan launched it. -/
  index  : Nat := 0
  spawned : Bool := false
  stat   : Stat := .ready
  /-- Start stamp, age counter and the aged mark (07 R178). -/
  stamp  : Nat := 0
  age    : Nat := 0
  aged   : Bool := false
  outst  : List Outst := []
  issued : Nat := 0
  /-- Whether it has run ahead since its present park began (10 R293). -/
  ranAhead : Bool := false
  ra     : Option Runahead := none
  /-- Outstanding write acknowledgements (08 R236). -/
  acks   : Nat := 0
  /-- Instruction words fetched, by address (03 R83). -/
  ibuf   : Table W32 := []
  answers : List WalkAnswer := []
  fault  : Option FaultRec := none
  /-- Whether it has popped q2 or q3 since its last memory instruction: such a pop is an acquire (15 R372, 17 R438). -/
  acquiring : Bool := false
  /-- The clock at which a repeating WAITA's limit passes (08 R222). -/
  waitLimit : Option Nat := none
  /-- The lowest address and the farthest level of the memory accesses of the instruction being issued (11 R305, R306). -/
  memAddr : Nat := 0
  memLevel : Nat := 0
  /-- The dies whose memory that instruction's lanes read over the links of its own (14 R361). -/
  crossed : List (Nat × LaneMask) := []
  /-- The clock of its last MFENCE, before which writes are visible to its operations (09 R256). -/
  fenced : Nat := 0
  /-- Whether the release of the instruction that it issues again has taken effect, and, once the instruction has acted on another package, the
  slices and the trace records that are kept for it beyond what it frees (07 R186; 08 R236; 11 R310). -/
  released : Bool := false
  granted : Option (Nat × Nat) := none
  /-- Whether it stops after its next ENTER or LEAVE (11 R312). -/
  edgeStop : Bool := false
  /-- A change of a directory whose records are on their way to another package: the address of its entry's second dword, and the value that
ends the change (13 R335). -/
  change : Option (Nat × Nat) := none
  /-- A stop of 11 R311 that waits for the results of the completed instruction: its code, address, lanes. -/
  stop   : Option (Nat × Addr × LaneMask) := none
  deriving DecidableEq, Repr

/-- A child in a pan (07 R190): its arguments. -/
abbrev Child := List W32

/-- A spawn pan (07 R190, R191): its key, its children in order, the clock at which its timer started, and whether it has expired. -/
structure Pan where
  task     : Nat
  team     : Nat
  entry    : Addr
  args     : Nat
  children : List Child
  started  : Nat
  expired  : Bool := false
  deriving DecidableEq, Repr

/-- Where a cached sector comes from: local HBM from a target, another package's from a target, or an offset of a conversion alias range. -/
inductive Home where
  | hbm (t : Nat)
  | fabric (pkg t : Nat)
  | alias_ (r : RangeRec) (off : Nat)
  deriving DecidableEq, Repr

/-- A 64-byte sector of L1 or of a stash (08 R206, R209): its home, its bytes, which of them are valid and which dirty, the poison code of
each 8-byte word (0 none), and the context through whose encrypted range it was reached (0 none). -/
structure Sector where
  home  : Home
  bytes : List Byte
  valid : BitVec 64 := 0
  dirty : BitVec 64 := 0
  bad   : List Nat := []
  ctx   : Nat := 0
  deriving DecidableEq, Repr

/-- A core's own state. -/
structure CoreSt where
  /-- The range table, most recently used first (10 R276). -/
  rtable : List RangeEntry := []
  /-- Pans by number. -/
  pans   : Table Pan := []
  /-- The sampling word (11 R303). -/
  sampling : W64 := 0
  /-- The lines of L1, most recently used first, at most 1,024: their number and their sectors by place (08 R209). -/
  l1     : List (Nat × Table Sector) := []
  /-- The 64-byte lines of the instruction cache, most recently used first, at most 2,048: address space and address ÷ 64 (00 R1, 03 R83). -/
  icache : List (Nat × Nat) := []
  /-- Sectors of local HBM, and the contexts they are read for, that prefetches bring into L1 once the host has answered a snoop (08 R220, 17
  R422). -/
  wanted : List (Nat × Nat) := []
  /-- Answers of the walker to engines that work at the core, by their numbers (10 R276; 13 R332). -/
  answers : List (Nat × WalkAnswer) := []
  /-- By address space, the generation of the record that last came into the range table (10 R282). -/
  seen   : Table Nat := []
  deriving DecidableEq, Repr

/-- A launch record (15 Table 15.6) as typed fields. -/
structure Launch where
  entry : Addr := 0
  param : W64 := 0
  teams : Nat := 1
  size  : Nat := 32
  width : Nat := 32
  regs  : Nat := 0
  prio  : Nat := 0
  ctx   : Nat := 0
  asid  : Nat := 0
  super : Bool := false
  producer : Nat := 0
  emptyMask : Bool := false
  cntrd : Bool := false
  scratch : Nat := 0
  stash : Nat := 0
  handler : Addr := 0
  stashBase : Addr := 0
  panTime : Nat := 0
  overflowCap : Nat := 0
  overflowBase : Addr := 0
  area  : Addr := 0
  stride : Nat := 0
  seed  : W64 := 0
  succ  : List (BitVec 32) := []
  doneAddr : Addr := 0
  doneValue : BitVec 32 := 0
  count : Nat := 0
  deriving DecidableEq, Repr

/-- States of a task slot (15 Table 15.7). -/
inductive TaskState where
  | free | waiting | ready | running | preempted | completing
  deriving DecidableEq, Repr

/-- A task slot (15 R375 to R389). -/
structure Task where
  gen    : Nat := 0
  state  : TaskState := .free
  launch : Launch := {}
  count  : Nat := 0
  effective : Nat := 0
  /-- Order in which it first became ready, and of its first placement. -/
  order  : Nat := 0
  placedAt : Nat := 0
  /-- Teams placed and ended; teams saved by pre-emption. -/
  placed : Nat := 0
  ended  : Nat := 0
  savedTeams : List Nat := []
  /-- Whether the completion write has been made (R385). -/
  written : Bool := false
  /-- The participant of a confidential launch (16 R409). -/
  part   : Nat := 0
  deriving DecidableEq, Repr

/-- A ring in memory: header, log₂ capacity read when it was set up, records written (08 R223). -/
structure Ring where
  header  : Nat
  log2cap : Nat
  written : Nat := 0
  deriving DecidableEq, Repr

/-- A fault record that waits for room in its ring (08 R223): the ring's owner, 0 for the die or a context id, and the words. -/
structure PendingFault where
  ctx   : Nat
  words : List W64
  deriving DecidableEq, Repr

/-- One endpoint of a copy (15 Table 15.2): kind code, type code, its three dwords. -/
structure Endpoint where
  kind : Nat
  ty   : Nat
  p0   : W64
  p1   : W64
  p2   : W64
  deriving DecidableEq, Repr

/-- A copy that a die has queued (15 R374): its block, the tensors and code table it read at issue, its group, and its progress. -/
structure Copy where
  id    : Nat
  block : List W64
  srcTensor : Option (List W64) := none
  dstTensor : Option (List W64) := none
  /-- The descriptor ids it names. -/
  ids   : List Nat := []
  codes : List (BitVec 16) := []
  gid   : Nat
  core  : Nat
  side  : Nat
  team  : Nat
  task  : Nat
  scope : Nat
  /-- The engine that works on it, and the chunks done. -/
  engine : Option Nat := none
  chunks : Nat := 0
  suspended : Bool := false
  /-- The status it ends with once known (15 R370). -/
  ending : Option Nat := none
  deriving DecidableEq, Repr

/-- A decrement on its way to a die's scheduler (15 R382): handle, amount, and the group whose counter waits for it. -/
structure Decrement where
  handle : BitVec 32
  n      : Nat
  gid    : Option Nat
  deriving DecidableEq, Repr

/-- A partial copy (14 R354): its line, op and type, the words that some RED touched, the context through whose encrypted range they came, and an
uncorrectable error in it (R357). -/
structure Partial where
  line : Nat
  op   : AtomOp
  ty   : AtomTy
  words : Table W64
  ctx  : Nat := 0
  /-- Whether the owning slice has acknowledged its join, and the groups whose REDs wait for that (one entry for each RED). -/
  joined : Bool := false
  waiting : List Nat := []
  bad  : Bool := false
  deriving DecidableEq, Repr

/-- A die's own state. -/
structure DieSt where
  /-- The configuration block (16 Table 16.6), sixteen dwords; none before configuration. -/
  config : List W64 := []
  faultRing  : Option Ring := none
  noteRing   : Option Ring := none
  sampleRing : Option Ring := none
  traceRing  : Option Ring := none
  pending : List PendingFault := []
  /-- Last readings of the Harrow sweeper by counter key, and whether it has begun the totals at 0 (11 R314). -/
  harrow : Table Nat := []
  swept : Bool := false
  /-- The clock of its last sweep (11 R314). -/
  sweptAt : Nat := 0
  /-- Watch slots: the four dwords of their descriptors (11 R309). -/
  watch  : Table (List W64) := []
  copies : List Copy := []
  decrements : List Decrement := []
  /-- Requests that wait at the slice. -/
  requests : List SliceReq := []
  /-- Dies whose links from this one are down (14 R361), and by die the failed resends of the transfer under way on the link to it. -/
  deadLinks : List Nat := []
  resends : Table Nat := []
  /-- Partial copies held, most recently used first (14 R354). -/
  partials : List Partial := []
  /-- Writes of the die's hardware to structures of its own that follow one for which the host must answer first, in order: target address, context,
  bytes, value (17 R422). -/
  own : List (Nat × Nat × Nat × Nat) := []
  deriving DecidableEq, Repr

/-- An aperture store on a pair link (13 R329). -/
structure ApStore where
  gid  : Nat
  team : Nat
  side : Nat
  off  : Nat
  data : List Byte
  poison : Bool
  deriving DecidableEq, Repr

/-- A cluster's own state. -/
structure ClusterSt where
  queue   : List WalkReq := []
  results : List (WalkReq × WalkResult) := []
  /-- The range cache, most recently used first, by address space (13 R337). -/
  cache   : List (Nat × RangeEntry) := []
  /-- Arrivals of paired teams on their way to the barrier unit: group, team, barrier id, and whether it is BAR.hold's (13 R331). -/
  arrivals : List (Nat × Nat × Nat × Bool) := []
  aperture : List ApStore := []
  /-- Pairs whose links are down, and by pair the failed resends of the transfer under way (13 R339). -/
  linkDown : List Nat := []
  resends : Table Nat := []
  deriving DecidableEq, Repr

/-- A value that a byte or a slot element has held, for the operations that may still read it (09 R255, R256): the clock of the write that gave it,
its bits, its poison, and the unit that wrote it, if one did. -/
structure Past where
  time : Nat
  v    : W32
  bad  : Bool
  by_  : Option Nat := none
  deriving DecidableEq, Repr

/-- An operation in a matrix unit's queue (09 R249, R253). -/
structure MatOp where
  seq   : Nat
  /-- Clock at issue, clock of the group's last MFENCE, clk of occupancy (09 Table 9.5), and the side of its group's scratchpad. -/
  issued : Nat
  fence : Nat
  occ   : Nat
  side  : Nat
  gid   : Nat
  team  : Nat
  o     : Op
  f     : Fields
  /-- Register values read at issue, and the g registers they came from. -/
  args  : List W64
  gs    : List Nat := []
  /-- Words taken from q1; the weight and the momentum of a drain, by id and image; the code table of .cb4. -/
  words : List W32 := []
  weight : Option (Nat × List W64) := none
  momentum : Option (Nat × List W64) := none
  codes : List (BitVec 16) := []
  /-- Whether the unit has begun it, and whether a range changed under its writes (09 R271). -/
  executed : Bool := false
  aborted : Bool := false
  /-- A drain whose writes are not all performed, and its status bits. -/
  stored : Bool := false
  status : Nat := 0
  /-- Whether a g register it names was written while it was in flight, so that all it writes is unspecified (09 R255). -/
  tainted : Bool := false
  /-- Whether its group has ended, so that its slot may be another's. -/
  ended : Bool := false
  deriving DecidableEq, Repr

/-- A matrix unit (09 R239). -/
structure UnitSt where
  holder : Option Nat := none
  lastHolder : Option Nat := none
  acc    : Table W32 := []
  accPoison : Table Bool := []
  bslice : Table Byte := []
  bPoison : Table Bool := []
  q0     : List W32 := []
  q0lost : Bool := false
  q1     : List W32 := []
  ops    : List MatOp := []
  seq    : Nat := 0
  /-- The values of a B-slice byte, or of a slot element (key 2²² + its key), since a copy first wrote it after the unit, newest first, the
value before that copy last (09 R255, R256; 15 R373). -/
  past   : Table (List Past) := []
  clearing : Option Nat := none
  /-- The current group of the quarter (07 R177). -/
  current : Option Nat := none
  /-- The clock at which a group of the quarter last issued: the model's own, by which the quarters take turns (log 3). -/
  last   : Nat := 0
  /-- Tagging of the quarter (11 R304, R305): instructions left before the next tag, and the tagged instruction's record. -/
  toTag  : Option Nat := none
  tagNext : Bool := false
  tagged : Option (Nat × List W64) := none
  /-- The number of the tagged instruction among those of its group, which its results carry. -/
  tagSeq : Nat := 0
  deriving DecidableEq, Repr

/-- A team. -/
structure Team where
  task   : Nat := 0
  index  : Nat := 0
  /-- The core it is on, the even one when it spans a pair (13 R326). -/
  core   : Nat := 0
  paired : Bool := false
  /-- Its groups that have not ended, spawned ones included. -/
  groups : List Nat := []
  /-- The groups placed at start that have not ended: N of 08 R225. -/
  members : Nat := 0
  /-- Scratchpad bytes written since team start: key 2²⁰ × side + offset; poison by 4-byte word. The others are unspecified: free values
  drawn from the seed the team was given at its start (08 R205; log 5). -/
  seed   : Nat := 0
  scratch : Table Byte := []
  scratchPoison : Table Bool := []
  /-- Sectors of its stashes: key 2⁵⁰ × side + virtual address ÷ 64 (08 R206, 13 R327). -/
  stash  : Table Sector := []
  /-- Barriers 0 to 3: arrivals and parity. -/
  arrivals : Table Nat := []
  parity : Table Bool := []
  /-- q2 and q3 by 4 × side + number, and their lost marks (01 R24, 15 R372, 17 R438). -/
  queues : Table (List W32) := []
  lost   : Table Bool := []
  /-- Tensor descriptors as their images of eight dwords, the parity in them naming the current buffer (09 R259): key 128 × side + id. -/
  tensors : Table (List W64) := []
  /-- Code tables: key 64 × side + 16 × table + entry, BF16 (09 R258). -/
  codes  : Table (BitVec 16) := []
  /-- Whether its image is in memory (07 R197), and the words the die holds for it (15 R372): q, word. -/
  saved  : Bool := false
  held   : List (Nat × W32) := []
  /-- Copies of its groups that have not ended (15 R385). -/
  copies : Nat := 0
  /-- The values that a local byte has held, newest first, the one it had at the team's start last (09 R255, R256): byte keys as for scratch. -/
  past   : Table (List Past) := []
  /-- Children of its groups that wait in the launch's overflow area (07 R193). -/
  spilled : Nat := 0
  /-- While it is saved: its reserved units by 4 × side + quarter, its groups in start order with the slots they had, and its pans by side
  and number, each with the clk its timer had run (07 R198 to R203). -/
  savedUnits : Table UnitSt := []
  savedGroups : List (Nat × Group) := []
  savedPans : List (Nat × Nat × Pan) := []
  deriving DecidableEq, Repr

/-- A range under compaction (10 R288 to R290). -/
structure Move where
  asid : Nat
  base : Nat
  size : Nat
  src  : Nat
  dst  : Nat
  scope : Nat
  cluster : Nat
  done : Nat := 0
  poisoned : Bool := false
  /-- Whether the slice holds the unit that is moved next, and whether its bytes are on their way to another package (10 R289; 14 R346). -/
  held : Bool := false
  sent : Bool := false
  deriving DecidableEq, Repr

/-- MESI states of a host sector in its home slice (17 Table 17.2). -/
inductive Mesi where
  | i | s | e | m
  deriving DecidableEq, Repr

/-- A host sector cached by its home slice. -/
structure HostSector where
  state : Mesi
  data  : List Byte
  bad   : BitVec 8 := 0
  deriving DecidableEq, Repr

/-- A message of the package on the host link (17 R420, R422, R423); data carries its poison by 8-byte word. -/
inductive HostMsg where
  | rdShared (h : Nat) | rdOwn (h : Nat) | itoMWr (h : Nat) (data : List Byte)
  | cleanEvict (h : Nat) | dirtyEvict (h : Nat) (data : List Byte) (bad : BitVec 8)
  | snpResp (h : Nat) (data : Option (List Byte)) (bad : BitVec 8)
  | biSnpInv (sector : Nat) | biSnpData (sector : Nat)
  | readData (addr : Nat) (data : List Byte) (poison : Bool)
  | completion (addr : Nat)
  deriving DecidableEq, Repr

/-- The host link. -/
structure HostSt where
  opened : Bool := false
  hdmBase : Nat := 0
  sectors : Table HostSector := []
  /-- Sectors asked for by RdShared or RdOwn and not answered, and ItoMWr writes not completed with the group whose counter waits. -/
  asked : List Nat := []
  /-- Those of them asked for by RdOwn. -/
  owning : List Nat := []
  writing : List (Nat × Nat) := []
  sent    : List HostMsg := []
  /-- HBM sectors the host may hold: exclusive or shared (17 R422). -/
  held    : Table Bool := []
  /-- Sectors whose back-invalidation snoop the host has not answered; true for BISnpInv. -/
  snooping : Table Bool := []
  deriving DecidableEq, Repr

/-- A fabric access waiting for its answer (17 R427, R428): tag, requester (a group, or 2²⁰ + the id of a copy), the address it was asked
by, target, bytes, whether it is a write that counts in its group's acknowledgement counter, package, issue clock. -/
structure Trans where
  tag  : Nat
  who  : Nat
  va   : Nat
  target : Nat
  bytes : Nat
  ack  : Bool
  package : Nat
  time : Nat
  /-- Whether its answer was dropped for its seal (17 R429). -/
  failed : Bool := false
  /-- Whether it is an atomic action whose old value its group awaits. -/
  atom : Bool := false
  /-- Whether an agent of the requester's cluster has sent a write to its bytes since. -/
  stale : Bool := false
  deriving DecidableEq, Repr

/-- A word returned by another package: requester, address it was asked by, value, its poison code (0 none), whether it is the old value of an
atomic action, where it was read, and whether an agent of the requester's cluster has since sent a write to it. -/
structure Reply where
  who : Nat
  va  : Nat
  v   : W64
  bad : Nat
  atom : Bool := false
  package : Nat := 0
  target : Nat := 0
  stale : Bool := false
  deriving DecidableEq, Repr

/-- A collective block that a processor runs (17 R430 to R438): the block as it was read and its address, the group that pushed it with its
team, side and task, its rank table and rank, the status and detail it ends with once they are known, and whether the hand-off word is
written. -/
structure Coll where
  block : List W64
  addr  : Addr
  gid   : Nat
  team  : Nat
  side  : Nat
  task  : Nat
  rank  : Nat
  table : List (BitVec 32)
  status : Option (Nat × Nat) := none
  handoff : Bool := false
  /-- Whether the package's results are written that precede the hand-off word; and its completion actions done: 1 the status word, 2 the
  completion value. -/
  lowered : Bool := false
  acted : Nat := 0
  /-- The buffers of the rank (receive, base, bytes of an element, elements), and the elements of each kind that a program has touched since the
  push, which are unspecified (17 R438). -/
  buffers : List (Bool × Nat × Nat × Nat) := []
  touched : List (Bool × Nat) := []
  deriving DecidableEq, Repr

/-- A block handed to a collective processor and not yet accepted (17 R430): the group that pushed it, its team, side and task, the block's address, and
the accesses that programs of its address space have made since: whether a write, address, bytes (R438). -/
structure Handed where
  gid  : Nat
  team : Nat
  side : Nat
  task : Nat
  addr : Addr
  seen : List (Bool × Nat × Nat) := []
  deriving DecidableEq, Repr

/-- The registers of a collective processor's RV64GCV core: pc, x1 to x31, f0 to f31, v0 to v31 of 512 bits, and the control and status registers by
number (17 R430). The spec gives them no layout, no reset value and no instruction that reaches them (log 78). -/
structure RvCore where
  pc : W64 := 0
  x  : Table W64 := []
  f  : Table W64 := []
  v  : Table (BitVec 512) := []
  csr : Table W64 := []
  deriving DecidableEq, Repr

/-- A Keltal port and its collective processor (17 R424 to R442). -/
structure PortSt where
  up : Bool := false
  /-- The package number that the neighbour has told since reset (16 R399). -/
  neighbour : Option Nat := none
  /-- Failed resends of the flit under way (17 R428). -/
  resends : Nat := 0
  /-- Flits that the port has sealed: the count of the next seal, which it never repeats (17 R429). -/
  sealedFlits : Nat := 0
  /-- The link sequence of the next flit, and the memory of the collective processor: 256 KiB, with the registers of its RV64GCV core (17 Table 17.4,
  R430; log 78). -/
  sequence : Nat := 0
  memory : Table Byte := []
  core : RvCore := {}
  sent : List Flit := []
  waiting : List Trans := []
  nextTag : Nat := 0
  /-- Blocks handed to the processor, oldest first, not yet accepted. -/
  handed : List Handed := []
  /-- Contributions that go to other packages once the hand-off word of theirs is written (17 R436): task, packages, contribution. -/
  unsent : List (Nat × List Nat × CollFlit) := []
  running : List Coll := []
  /-- Next generation of each group id. -/
  generations : Table Nat := []
  /-- Contributions of blocks accepted here, and of flits received here, of the current or a newer generation of their group. -/
  early : List CollFlit := []
  /-- What the port counts (17 R441): 0 flits resent, 1 dropped, 2 seal failures, 3 refused after revocation, 4 stale, 5 q3 words
  discarded. -/
  counts : Table Nat := []
  deriving DecidableEq, Repr

/-- A confidential context (16 R409 to R415). -/
structure Context where
  block : List W64
  quorum : Nat
  rings : List Ring
  /-- Participants with their keys held: number and registered digests. -/
  parts : List (Nat × List (BitVec 512))
  revoked : List Nat := []
  /-- The admission log: digests in order. -/
  log : List (BitVec 512) := []
  /-- Harrow totals of the context by counter key. -/
  totals : Table Nat := []
  deriving DecidableEq, Repr

/-- Chofer (16). -/
structure Chofer where
  /-- Mailbox status and its detail bits [15:0]. -/
  status : Nat := 0
  detail : Nat := 0
  /-- The statuses posted since reset with their details, oldest first (16 R395). -/
  posted : List (Nat × Nat) := []
  m0 : BitVec 512 := 0
  m1 : BitVec 512 := 0
  m2 : BitVec 512 := 0
  m3 : BitVec 512 := 0
  package : Nat := 0
  /-- Configuration blocks by die. -/
  blocks : Table (List W64) := []
  /-- Retired cores (00 R2, 16 R397), rising. -/
  retired : List Nat := []
  listGen : Nat := 0
  contexts : Table Context := []
  /-- Route entries: first and second port (17 R426). -/
  routes : Table (Option Nat × Option Nat) := []
  throttle : Bool := false
  stopped : Bool := false
  /-- Events posted to the management plane: a code and a value. -/
  events : List (Nat × Nat) := []
  /-- Dropped accesses to the Chofer area and encrypted lines, and faults counted. -/
  dropped : Nat := 0
  faults : Nat := 0
  /-- Lines that failed their tags (16 R410). -/
  integrity : Nat := 0
  /-- The last attestation report. -/
  report : List Byte := []
  deriving DecidableEq, Repr

/-- The machine. -/
structure State where
  /-- The events that come next (log 1). -/
  inputs : List Instr := []
  /-- CLOCK: clk since package reset (01 Table 1.5). -/
  clock  : Nat := 0
  /-- The group whose instruction is being issued (log 3). -/
  cur    : Option Nat := none
  /-- The model's counter of free values (log 6). -/
  freeCtr : Nat := 0
  /-- The confidential context for whose launch the present step acts, 0 for none: its counts go to that context's totals (11 R314). -/
  acting : Nat := 0
  /-- Next start stamp (07 R178), next order of becoming ready (15 R386), next copy. -/
  nextStamp : Nat := 0
  nextOrder : Nat := 0
  nextCopy : Nat := 0
  groups : Table Group := []
  teams  : Table Team := []
  tasks  : Table Task := []
  cores  : Table CoreSt := []
  units  : Table UnitSt := []
  clusters : Table ClusterSt := []
  diesT  : Table DieSt := []
  /-- Event counters: key 256 × (22 × die + Harrow core number) + event (11 R313, R314). -/
  counters : Table Nat := []
  /-- HBM: bytes by local target address (14 R343). -/
  hbm    : List Host.Cell := []
  /-- Masked bytes of D sectors in the slices (14 R346). -/
  llc    : Table Byte := []
  /-- Sectors present in the slices, by local target ÷ 64: true when V (14 R346); a D sector is one with masked bytes. -/
  present : Table Bool := []
  /-- Poison of HBM by 8-byte word (14 R360), and words that fail persistently (R362). -/
  poison : Table Bool := []
  deadWords : List Nat := []
  /-- The poisoned words whose line failed its tag (16 R410, R417). -/
  sealBad : Table Bool := []
  /-- Owner of an encrypted line by line number: context id, and the line's write count (16 R410). -/
  owners : Table Nat := []
  sealedLines : Table Nat := []
  /-- Dies that hold partial copies of a line: die mask by line number (14 R354). -/
  cLines : Table Nat := []
  moves  : List Move := []
  /-- Extents of HBM whose bytes became unspecified: from, to, and the seed of the values; and the bytes written since (10 R289; 00 R7). -/
  spoilt : List (Nat × Nat × Nat) := []
  respoken : Table Bool := []
  /-- What requesters wait for, by number: the model's own, since in hardware the access itself waits (log 3). -/
  needs  : List (Nat × Need) := []
  /-- The clk in which an event that may only ask was last taken: the model's own (log 3). -/
  asked  : Nat := 0
  /-- Words returned by other packages and not yet used. -/
  replies : List Reply := []
  host   : HostSt := {}
  ports  : Table PortSt := []
  chofer : Chofer := {}
  deriving DecidableEq, Repr

/-- The machine right after package reset (16 R393): no group, every core idle, every slice invalid, the links closed, Chofer awaiting
an image. The values the spec gives no reset for are those of log 15. -/
def State.reset : State := {}

end Sys2Proof.Machine
end

