-- ==== Sys2Proof/Machine/Parts.lean ====
section
/-! DEFINITION. Numbers and their bytes, where a group is, the parts of the state by key, event counts, and the bytes of physical memory. -/

namespace Sys2Proof.Machine

/-! ### Numbers -/

/-- The n low bits of a number as a field at bit lo. -/
def fieldAt (v n lo : Nat) : Nat := (v % 2 ^ n) <<< lo
/-- Bits [hi:lo] of a word as a number (00 R3). -/
def bits {n : Nat} (w : BitVec n) (hi lo : Nat) : Nat := bitsOf w.toNat hi lo
/-- n bytes of a number, least significant first (00 R4). -/
def bytesOf (n v : Nat) : List Byte := (List.range n).map fun i => BitVec.ofNat 8 (v >>> (8 * i))
/-- The number that bytes hold, least significant first (00 R4). -/
def ofBytes : List Byte → Nat
  | [] => 0
  | b :: r => b.toNat + 256 * ofBytes r
/-- Floor of the base-2 logarithm of a power of two given by its exponent search. -/
def log2Of : Nat → Nat → Nat
  | 0, _ => 0
  | n + 1, v => if v ≤ 1 then 0 else log2Of n (v / 2) + 1
/-- The lanes of a mask below w, ascending (00 R8). -/
def lanesOf (w : Nat) (m : LaneMask) : List Nat := (List.range w).filter fun l => m.getLsbD l
/-- The mask of the lanes below w. -/
def onesMask (w : Nat) : LaneMask := BitVec.ofNat 128 (2 ^ w - 1)
/-- The mask of one lane. -/
def laneBit (l : Nat) : LaneMask := BitVec.ofNat 128 (2 ^ l)
/-- The mask of a list of lanes. -/
def maskOf (ls : List Nat) : LaneMask := ls.foldl (fun m l => m ||| laneBit l) 0
/-- The least element of a list of numbers. -/
def leastOf : List Nat → Option Nat
  | [] => none
  | a :: r => match leastOf r with
    | none => some a
    | some b => some (min a b)

/-- The words of a 64-bit value, low first. -/
def halves (v : W64) : List W32 := [v.setWidth 32, (v >>> 32).setWidth 32]
/-- The 64-bit value of two words, low first (01 Table 1.2). -/
def join64 (ws : List W32) : W64 := (ws.getD 1 0) ++ (ws.getD 0 0)

/-! ### Where a group is -/

/-- The core of a group, in the package (07 R173). -/
def coreOf (gid : Nat) : Nat := gid / 256
/-- Its slot within the core. -/
def slotOf (gid : Nat) : Nat := gid % 256
/-- Its die. -/
def dieOf (gid : Nat) : Nat := gid / 4096
/-- Its quarter: slot = 4 × row + position, and quarter q holds rows 16q to 16q + 15. -/
def quarterOf (gid : Nat) : Nat := gid % 256 / 64
/-- The unit of its quarter. -/
def unitOf (gid : Nat) : Nat := gid / 64
/-- Its cluster. -/
def clusterOf (gid : Nat) : Nat := gid / 1024
/-- The side of its pair: 0 for the even core, 1 for the odd (13 R326). -/
def sideOf (gid : Nat) : Nat := coreOf gid % 2

/-! ### Parts of the state -/

def State.group? (s : State) (gid : Nat) : Option Group := tfind s.groups gid
def State.setGroup (s : State) (gid : Nat) (g : Group) : State := { s with groups := tput s.groups gid g }
def State.modGroup (s : State) (gid : Nat) (f : Group → Group) : State := { s with groups := tmod s.groups gid f }
def State.team (s : State) (t : Nat) : Team := (tfind s.teams t).getD {}
def State.setTeam (s : State) (t : Nat) (v : Team) : State := { s with teams := tput s.teams t v }
def State.task (s : State) (k : Nat) : Task := (tfind s.tasks k).getD {}
def State.setTask (s : State) (k : Nat) (v : Task) : State := { s with tasks := tput s.tasks k v }
def State.core (s : State) (c : Nat) : CoreSt := (tfind s.cores c).getD {}
def State.setCore (s : State) (c : Nat) (v : CoreSt) : State := { s with cores := tput s.cores c v }
def State.unit (s : State) (u : Nat) : UnitSt := (tfind s.units u).getD {}
def State.setUnit (s : State) (u : Nat) (v : UnitSt) : State := { s with units := tput s.units u v }
def State.cluster (s : State) (c : Nat) : ClusterSt := (tfind s.clusters c).getD {}
def State.setCluster (s : State) (c : Nat) (v : ClusterSt) : State := { s with clusters := tput s.clusters c v }
def State.die (s : State) (d : Nat) : DieSt := (tfind s.diesT d).getD {}
def State.setDie (s : State) (d : Nat) (v : DieSt) : State := { s with diesT := tput s.diesT d v }
def State.port (s : State) (p : Nat) : PortSt := (tfind s.ports p).getD {}
def State.setPort (s : State) (p : Nat) (v : PortSt) : State := { s with ports := tput s.ports p v }

/-- The launch record of a group (15 R377). -/
def State.launchOf (s : State) (g : Group) : Launch := (s.task g.task).launch
/-- The handle of a task slot (15 R375), which is the id of its launch. -/
def State.handle (s : State) (k : Nat) : BitVec 32 :=
  BitVec.ofNat 32 (fieldAt (s.task k).gen 16 16 + 0x8000 + fieldAt (k / 4096) 3 12 + k % 4096)

/-- The n-th free value of the present step (log 6). -/
def State.free (s : State) (n : Nat) : BitVec 64 := Config.freeBits (s.freeCtr * 2 ^ 24 + n)

/-- Adds n to a 32-bit event counter of Harrow core hc of a die (11 R313, R314). What is counted for a launch of a confidential context goes
to that context's totals: the sweeper's last reading rises with the counter, so that the die's totals do not. One base serves the context on
every die, so the counts of one core number on several dies are summed (log 65). -/
def State.countCtx (s : State) (ctx die hc e n : Nat) : State :=
  let k := (22 * die + hc) * 256 + e
  let s1 := { s with counters := tset 0 s.counters k ((tget 0 s.counters k + n) % 2 ^ 32) }
  if ctx = 0 then s1
  else
    let c := hc * 256 + e
    let d := s1.die die
    let s2 := s1.setDie die { d with harrow := tset 0 d.harrow c ((tget 0 d.harrow c + n) % 2 ^ 32) }
    { s2 with chofer := { s2.chofer with contexts := tmod s2.chofer.contexts ctx fun x => { x with totals := tset 0 x.totals c (tget 0 x.totals c + n) } } }
/-- Counts for whom the present step acts. -/
def State.count (s : State) (die hc e n : Nat) : State := s.countCtx s.acting die hc e n
/-- Adds n to a counter of a core of the package. -/
def State.countCore (s : State) (core e n : Nat) : State := s.count (core / 16) (core % 16) e n
/-- Adds n to a counter of a cluster, a slice, or a die's engines and scheduler (13 R342, 14 R364, 15 R390). -/
def State.countCluster (s : State) (cl e n : Nat) : State := s.count (cl / 4) (16 + cl % 4) e n
def State.countSlice (s : State) (die e n : Nat) : State := s.count die 20 e n
def State.countSluice (s : State) (die e n : Nat) : State := s.count die 21 e n
/-- Adds to a count of a port (17 R441). -/
def State.countPort (s : State) (k e n : Nat) : State := s.setPort k { s.port k with counts := tset 0 (s.port k).counts e (tget 0 (s.port k).counts e + n) }
/-- Posts an event to the management plane (16 R401). -/
def State.post (s : State) (code v : Nat) : State :=
  { s with chofer := { s.chofer with events := s.chofer.events ++ [(code, v)] } }

/-! ### Physical memory: the HBM of the package behind its slices (14 R343 to R347, R360) -/

/-- End of HBM in local target addresses (14 Table 14.1). -/
def hbmEnd : Nat := 0x10000000000
/-- Start of the host memory window. -/
def hostBase : Nat := 0x800000000000
/-- The die that owns a local HBM address. -/
def ownerDie (t : Nat) : Nat := t / 2 ^ 37
/-- The Chofer area (16 R396). -/
def choferBase : Nat := 0x1FF0000000
def inChofer (t : Nat) : Bool := choferBase ≤ t && t < 0x2000000000

/-- The byte a slice answers for: the masked byte of a D sector, else HBM (14 R346). Unlisted bytes of HBM read 0 (log 4); those of an extent that
became unspecified read as free values until they are written (log 6). -/
def State.byteAt (s : State) (t : Nat) : Byte :=
  match s.spoilt.find? fun x => decide (x.1 ≤ t ∧ t < x.2.1) && !tget false s.respoken t with
  | some x => Config.freeByte (x.2.2 * 2 ^ 41 + t)
  | none => match tfind s.llc t with
    | some b => b
    | none => tget 0 s.hbm t
/-- n bytes from t, as a number. -/
def State.readMem (s : State) (t n : Nat) : Nat := ofBytes ((List.range n).map fun i => s.byteAt (t + i))
/-- Whether a byte's word is poisoned (14 R360). -/
def State.poisoned (s : State) (t : Nat) : Bool := tget false s.poison (t / 8)
/-- Whether any word of n bytes from t is poisoned. -/
def State.anyPoison (s : State) (t n : Nat) : Bool := (List.range n).any fun i => s.poisoned (t + i)
/-- Writes one byte: it becomes a masked byte of its sector, which the slice allocates without reading HBM (14 R347). -/
def State.putByte (s : State) (t : Nat) (b : Byte) : State :=
  { s with llc := tput s.llc t b, present := tset false s.present (t / 64) true,
           respoken := if s.spoilt.isEmpty then s.respoken else tset false s.respoken t true }
/-- Writes bytes from t. -/
def State.putBytes (s : State) (t : Nat) : List Byte → State
  | [] => s
  | b :: r => (s.putByte t b).putBytes (t + 1) r
/-- The bytes of an extent become unspecified (00 R7). -/
def State.spoil (s : State) (lo n : Nat) : State :=
  { s with spoilt := (lo, lo + n, s.freeCtr) :: s.spoilt, respoken := s.respoken.filter fun e => !decide (lo ≤ e.1 ∧ e.1 < lo + n) }
/-- The words of n bytes from t, with whether the bytes cover each whole. -/
def wordsCovered (t n : Nat) : List (Nat × Bool) :=
  ((List.range (n + 14)).filter fun i => (t + i) % 8 = 0 ∨ i = 0).filterMap fun i =>
    if i < n then
      let w := (t + i) / 8
      some (w, decide (t ≤ 8 * w ∧ 8 * w + 8 ≤ t + n))
    else none
/-- The poison of the words that a write of n bytes from t covers: poisoned data poisons them; unpoisoned data clears a word it
covers whole and leaves a partly written one as it was (14 R360). A word that fails persistently stays poisoned (R362). -/
def State.poisonWrite (s : State) (t n : Nat) (bad : Bool) : State :=
  { s with poison := (wordsCovered t n).foldl (fun p w =>
             if bad || s.deadWords.contains w.1 then tset false p w.1 true else if w.2 then tset false p w.1 false else p) s.poison,
           sealBad := (wordsCovered t n).foldl (fun p w => if w.2 then tset false p w.1 false else p) s.sealBad }
/-- A write of n bytes of a number to local HBM at its slice. -/
def State.writeMem (s : State) (t n v : Nat) (bad : Bool := false) : State :=
  ((s.putBytes t (bytesOf n v)).poisonWrite t n bad)

/-- Asks the host for the sectors of n bytes from t that it may hold (17 R422). -/
def State.askHost (s : State) (t n : Nat) : State :=
  (List.range ((t % 64 + n + 63) / 64)).foldl (fun (st : State) k =>
    let sec := t / 64 + k
    if (tfind st.host.held sec).isSome ∧ (tfind st.host.snooping sec).isNone then
      { st with host := { st.host with snooping := tput st.host.snooping sec true, sent := st.host.sent ++ [HostMsg.biSnpInv sec] } }
    else st) s

end Sys2Proof.Machine
end

