-- ==== Sys2Proof/Machine/Flags.lean ====
section
/-! DEFINITION. The flags of FPSR, the integer readings of 02 R44, and the condition codes of 03 Table 3.8. -/

namespace Sys2Proof

/-- Width in bits of an integer type; raw types are read as .n32 and .n64 (04 R94). -/
def Ty.ibits : Ty → Nat
  | .s8 | .n8 => 8
  | .s16 | .n16 => 16
  | .b64 | .s64 | .n64 => 64
  | _ => 32
def Ty.isSigned : Ty → Bool
  | .s8 | .s16 | .s32 | .s64 => true
  | _ => false
/-- Registers of an operand of an integer type, and their alignment (01 Table 1.2). -/
def Ty.iwords (t : Ty) : Nat := if t.ibits = 64 then 2 else 1

end Sys2Proof

namespace Sys2Proof.Machine

/-! ### FPSR flags (01 R28) -/

def fInvalid : BitVec 6 := 1
def fDivZero : BitVec 6 := 2
def fOverflow : BitVec 6 := 4
def fUnderflow : BitVec 6 := 8
def fInexact : BitVec 6 := 16
def fEmpty : BitVec 6 := 32
/-- A flag when a condition holds. -/
def flagIf (b : Bool) (f : BitVec 6) : BitVec 6 := if b then f else 0

/-! ### Integers (02 R44) -/

/-- The number of w bits read as two's complement. -/
def signedOf (w n : Nat) : Int := if n < 2 ^ (w - 1) then (n : Int) else (n : Int) - 2 ^ w
/-- The value of an operand's words under a type. -/
def intVal (t : Ty) (ws : List W32) : Int :=
  let n := (if t.ibits = 64 then (join64 ws).toNat else (ws.getD 0 0).toNat) % 2 ^ t.ibits
  if t.isSigned then signedOf t.ibits n else n
/-- Bounds of a type. -/
def intMin (t : Ty) : Int := if t.isSigned then -(2 ^ (t.ibits - 1)) else 0
def intMax (t : Ty) : Int := if t.isSigned then 2 ^ (t.ibits - 1) - 1 else 2 ^ t.ibits - 1
/-- The nearer bound of a value beyond a type's range. -/
def clampInt (t : Ty) (v : Int) : Int := if v < intMin t then intMin t else if intMax t < v then intMax t else v
/-- The words of a result: written modulo 2^w or with .sat as the nearer bound, 8-bit and 16-bit results extended to 32 bits. -/
def intWords (t : Ty) (sat : Bool) (v : Int) : List W32 :=
  let x := if sat then clampInt t v else v
  let n := (x % 2 ^ t.ibits).toNat
  if t.ibits = 64 then halves (BitVec.ofNat 64 n)
  else if t.isSigned then [BitVec.ofInt 32 (signedOf t.ibits n)] else [BitVec.ofNat 32 n]

/-! ### Condition codes (03 Table 3.8) -/

/-- Codes 0 to 5 on two numbers. -/
def condInt (code : Nat) (a b : Int) : Bool :=
  match code with
  | 0 => decide (a = b)
  | 1 => decide (a ≠ b)
  | 2 => decide (a < b)
  | 3 => decide (a ≤ b)
  | 4 => decide (b < a)
  | _ => decide (b ≤ a)

/-- Codes 0 to 13 on an ordering, none when an operand is NaN: code 1 and codes 6 and 8 to 13 are true then. -/
def condFloat (code : Nat) (c : Option Ordering) : Bool :=
  match c with
  | none => code == 1 || code == 6 || 8 ≤ code
  | some o =>
    match code with
    | 6 => false
    | 7 => true
    | n => condInt (if 8 ≤ n then n - 8 else n) (match o with | .lt => -1 | .eq => 0 | .gt => 1) 0

/-- The value a compare writes: true or false (01 R25). -/
def predOf (b : Bool) : BitVec 2 := if b then 1 else 0

end Sys2Proof.Machine
end

