-- ==== Sys2Proof/Machine/Fp.lean ====
section
/-! DEFINITION. Floating-point numbers: encodings, exact dyadic arithmetic, and the one rounding of 02 R45 to R49, R60. -/

namespace Sys2Proof.Machine

/-- The floating-point formats (02 Table 2.1). -/
inductive Fmt where
  | f32 | f16 | bf16 | e4m3 | e5m2 | e2m1
  deriving DecidableEq, Repr

namespace Fmt
/-- Exponent and fraction bits, bias. -/
def ebits : Fmt → Nat
  | .f32 => 8 | .f16 => 5 | .bf16 => 8 | .e4m3 => 4 | .e5m2 => 5 | .e2m1 => 2
def fbits : Fmt → Nat
  | .f32 => 23 | .f16 => 10 | .bf16 => 7 | .e4m3 => 3 | .e5m2 => 2 | .e2m1 => 1
def bias (f : Fmt) : Nat := 2 ^ (f.ebits - 1) - 1
def width (f : Fmt) : Nat := 1 + f.ebits + f.fbits
/-- The exponent of the smallest normal. -/
def emin (f : Fmt) : Int := 1 - (f.bias : Int)
/-- The code of the largest finite magnitude. -/
def maxCode : Fmt → Nat
  | .f32 => 0x7F7FFFFF | .f16 => 0x7BFF | .bf16 => 0x7F7F | .e4m3 => 0x7E | .e5m2 => 0x7B | .e2m1 => 7
/-- The code of +∞ where the format has one. -/
def infCode : Fmt → Option Nat
  | .f32 => some 0x7F800000 | .f16 => some 0x7C00 | .bf16 => some 0x7F80 | .e5m2 => some 0x7C | _ => none
/-- The default NaN (02 R37). -/
def nanCode : Fmt → Nat
  | .f32 => 0x7FC00000 | .f16 => 0x7E00 | .bf16 => 0x7FC0 | .e4m3 => 0x7F | .e5m2 => 0x7E | .e2m1 => 0
end Fmt

end Sys2Proof.Machine

namespace Sys2Proof
open Machine

/-- The format of a floating-point type. -/
def Ty.fmt : Ty → Fmt
  | .f16 | .f16x2 | .f16x3 | .f16x4 | .f16iv => .f16
  | .bf16 | .bf16x2 | .bf16x3 | .bf16x4 | .bf16iv => .bf16
  | .e4m3 => .e4m3 | .e5m2 => .e5m2 | .e2m1 => .e2m1
  | _ => .f32

end Sys2Proof

namespace Sys2Proof.Machine

/-- An exact dyadic number (−1)^neg × m × 2^e; a zero keeps its sign. -/
structure Dy where
  neg : Bool
  m   : Nat
  e   : Int
  deriving DecidableEq, Repr

/-- The value of an encoding (02 R36). -/
inductive FpVal where
  | nan (signalling : Bool)
  | inf (neg : Bool)
  | fin (d : Dy)
  deriving DecidableEq, Repr

/-- Decodes (02 R36, R37). -/
def fpDecode (f : Fmt) (w : Nat) : FpVal :=
  let neg := w.testBit (f.width - 1)
  let ex := bitsOf w (f.width - 2) f.fbits
  let fr := w % 2 ^ f.fbits
  if f.infCode.isSome ∧ ex = 2 ^ f.ebits - 1 then
    if fr = 0 then .inf neg else .nan (!fr.testBit (f.fbits - 1))
  else if f = .e4m3 ∧ w % 128 = 127 then .nan false
  else if ex = 0 then .fin ⟨neg, fr, f.emin - f.fbits⟩
  else .fin ⟨neg, 2 ^ f.fbits + fr, (ex : Int) - f.bias - f.fbits⟩

/-- The sign bit of a format set when neg. -/
def signed (f : Fmt) (neg : Bool) (code : Nat) : Nat := if neg then code + 2 ^ (f.width - 1) else code

/-- The code of a magnitude n × 2^q, where q is the quantum of its binade and n has at most fbits + 1 bits. -/
def codeOf (f : Fmt) (n : Nat) (q : Int) : Nat :=
  if n < 2 ^ f.fbits then n else ((q - (f.emin - f.fbits) + 1).toNat) * 2 ^ f.fbits + (n - 2 ^ f.fbits)

/-- A number times 2^k for an integer k, downward when k is negative. -/
def shiftInt (n : Nat) (k : Int) : Nat := if 0 ≤ k then n <<< k.toNat else n >>> (-k).toNat

namespace Dy
def zero (neg : Bool) : Dy := ⟨neg, 0, 0⟩
def isZero (d : Dy) : Bool := d.m == 0
def negate (d : Dy) : Dy := { d with neg := !d.neg }
def abs (d : Dy) : Dy := { d with neg := false }
/-- The signed significand at an exponent not above its own. -/
def at_ (d : Dy) (e : Int) : Int :=
  let n : Int := ((d.m <<< (d.e - e).toNat : Nat) : Int)
  if d.neg then -n else n
/-- The dyadic of a signed significand; zero takes the sign given. -/
def ofInt (i : Int) (e : Int) (zneg : Bool := false) : Dy :=
  if i = 0 then ⟨zneg, 0, 0⟩ else ⟨decide (i < 0), i.natAbs, e⟩
def minExp (a b : Dy) : Int := if a.m = 0 then b.e else if b.m = 0 then a.e else if a.e ≤ b.e then a.e else b.e
/-- Exact sum. The zero of cancellation or of zeros of opposite sign is +0, −0 toward −∞; two zeros of one sign keep it (02 R49). -/
def add (rd : Bool) (a b : Dy) : Dy :=
  if a.m = 0 ∧ b.m = 0 then ⟨if a.neg = b.neg then a.neg else rd, 0, 0⟩
  else
    let e := minExp a b
    let x := if a.m = 0 then 0 else a.at_ e
    let y := if b.m = 0 then 0 else b.at_ e
    ofInt (x + y) e rd
def sub (rd : Bool) (a b : Dy) : Dy := add rd a b.negate
/-- Exact product, with the exclusive-or of the signs. -/
def mul (a b : Dy) : Dy := ⟨a.neg != b.neg, a.m * b.m, a.e + b.e⟩
/-- Times a power of two. -/
def scale (a : Dy) (k : Int) : Dy := { a with e := a.e + k }
/-- Exact comparison; −0 equals +0. -/
def cmp (a b : Dy) : Ordering :=
  let e := minExp a b
  let x := if a.m = 0 then 0 else a.at_ e
  let y := if b.m = 0 then 0 else b.at_ e
  if x < y then .lt else if x = y then .eq else .gt
def lt (a b : Dy) : Bool := a.cmp b == .lt
def le (a b : Dy) : Bool := a.cmp b != .gt
def eqv (a b : Dy) : Bool := a.cmp b == .eq
/-- Exponent of the leading bit of a nonzero number. -/
def expo (a : Dy) : Int := a.e + Nat.log2 a.m
end Dy

/-- The rounding modes (02 Table 2.3); .sr carries its draw. -/
inductive Rnd where
  | rne | rz | rd | ru | rna
  | sr (draw : W32)
  deriving DecidableEq, Repr

/-- The mode of a rounding code; code 5 takes the draw. -/
def Rnd.ofCode (n : Nat) (draw : W32 := 0) : Rnd :=
  match n with
  | 0 => .rne | 1 => .rz | 2 => .rd | 3 => .ru | 4 => .rna | _ => .sr draw

/-- Whether a magnitude of n quanta and a fraction r / 2^d (and more below it when sticky) rounds up in magnitude. -/
def roundsUp (mode : Rnd) (neg : Bool) (n r d : Nat) (sticky : Bool) : Bool :=
  let half := 2 ^ d
  let r2 := 2 * r
  let inexact := r != 0 || sticky
  match mode with
  | .rne => decide (half < r2) || (r2 == half && (sticky || n % 2 == 1))
  | .rna => decide (half ≤ r2)
  | .rz => false
  | .rd => neg && inexact
  | .ru => !neg && inexact
  | .sr u =>
    -- b is the upper neighbour; it is chosen when u × 2^−32 < (x − a) / (b − a) (02 R60)
    if r = 0 then false
    else if neg then !decide (u.toNat * 2 ^ d < (2 ^ d - r) * 2 ^ 32)
    else decide (u.toNat * 2 ^ d < r * 2 ^ 32)

/-- Rounds a nonzero magnitude (m, and more below its last bit when sticky) × 2^e to a multiple of 2^q: the multiple and whether it
is inexact. A sticky magnitude must have e < q. -/
def roundAt (mode : Rnd) (neg : Bool) (m : Nat) (e q : Int) (sticky : Bool) : Nat × Bool :=
  if q ≤ e then (m <<< (e - q).toNat, sticky)
  else
    let d := (q - e).toNat
    let n := m >>> d
    let r := m % 2 ^ d
    ((if roundsUp mode neg n r d sticky then n + 1 else n), r != 0 || sticky)

/-- The result of an overflow (02 Table 2.4). -/
def overflowCode (f : Fmt) (mode : Rnd) (sat neg : Bool) : Nat :=
  match f with
  | .e2m1 => signed f neg f.maxCode
  | .e4m3 => if sat then signed f neg f.maxCode else f.nanCode
  | _ =>
    let big := signed f neg f.maxCode
    let inf := signed f neg (f.infCode.getD 0)
    if sat then big
    else match mode with
      | .rz => big
      | .rd => if neg then inf else big
      | .ru => if neg then big else inf
      | _ => inf

/-- Rounds the exact number d (and more beyond its last bit when sticky) once to a format: the code and the flags (02 R45 to R48, R60). -/
def roundTo (f : Fmt) (mode : Rnd) (sat ftz : Bool) (d : Dy) (sticky : Bool := false) : Nat × BitVec 6 :=
  if d.m = 0 ∧ !sticky then (signed f d.neg 0, 0)
  else
    let ex := if d.m = 0 then d.e - 1 else d.expo
    let q := (if ex < f.emin then f.emin else ex) - f.fbits
    let (n, inexact) := roundAt mode d.neg d.m d.e q sticky
    let maxN := 2 ^ f.fbits + f.maxCode % 2 ^ f.fbits
    let maxQ : Int := (f.maxCode / 2 ^ f.fbits : Nat) - f.bias - f.fbits
    -- the unrounded magnitude is above the largest finite one (the test of .sr, 02 R60), or the rounded one is (02 R46)
    let big := (⟨false, maxN, maxQ⟩ : Dy)
    let tooBig := (⟨false, n, q⟩ : Dy).cmp big == .gt ||
      (match mode with | .sr _ => (⟨false, d.m, d.e⟩ : Dy).cmp big == .gt | _ => false)
    if tooBig then (overflowCode f mode sat d.neg, fOverflow ||| fInexact)
    else
      -- tininess after rounding with an unbounded exponent range; under .sr on the neighbour chosen
      let tiny := match mode with
        | .sr _ => decide (n < 2 ^ f.fbits)
        | _ => if f.emin ≤ ex then false
               else decide ((⟨false, (roundAt mode d.neg d.m d.e (ex - f.fbits) sticky).1, ex - f.fbits⟩ : Dy).cmp ⟨false, 1, f.emin⟩ = .lt)
      if ftz ∧ 0 < n ∧ n < 2 ^ f.fbits then (signed f d.neg 0, fUnderflow ||| fInexact)
      else (signed f d.neg (if n = 2 ^ (f.fbits + 1) then codeOf f (2 ^ f.fbits) (q + 1) else codeOf f n q),
            flagIf inexact fInexact ||| flagIf (tiny && inexact) fUnderflow)

/-- Rounds a value known exactly, or passes a NaN or infinity; NaN gives the default NaN. -/
def roundVal (f : Fmt) (mode : Rnd) (sat ftz : Bool) (v : FpVal) : Nat × BitVec 6 :=
  match v with
  | .nan _ => (f.nanCode, 0)
  | .inf neg => ((match f.infCode with | some c => signed f neg c | none => f.nanCode), 0)
  | .fin d => roundTo f mode sat ftz d

/-- Reads a source under .ftz: a subnormal reads as a zero of its own sign (02 R47). -/
def ftzIn (f : Fmt) (ftz : Bool) (v : FpVal) : FpVal :=
  match v with
  | .fin d => if ftz ∧ d.m < 2 ^ f.fbits then .fin ⟨d.neg, 0, 0⟩ else v
  | _ => v

/-- Reads an encoding under .ftz. -/
def fpRead (f : Fmt) (ftz : Bool) (w : Nat) : FpVal := ftzIn f ftz (fpDecode f w)

namespace FpVal
def isNan : FpVal → Bool
  | .nan _ => true
  | _ => false
def isSig : FpVal → Bool
  | .nan s => s
  | _ => false
def isInf : FpVal → Bool
  | .inf _ => true
  | _ => false
def isFin : FpVal → Bool
  | .fin _ => true
  | _ => false
def isZero : FpVal → Bool
  | .fin d => d.m == 0
  | _ => false
def neg : FpVal → Bool
  | .nan _ => false
  | .inf n => n
  | .fin d => d.neg
def negate : FpVal → FpVal
  | .nan s => .nan s
  | .inf n => .inf (!n)
  | .fin d => .fin d.negate
/-- Exact value of a finite one; zero otherwise. -/
def dy : FpVal → Dy
  | .fin d => d
  | _ => ⟨false, 0, 0⟩
/-- Ordering of two values that are not NaN; none when one is. -/
def cmp : FpVal → FpVal → Option Ordering
  | .nan _, _ => none
  | _, .nan _ => none
  | .inf a, .inf b => some (if a = b then .eq else if a then .lt else .gt)
  | .inf a, .fin _ => some (if a then .lt else .gt)
  | .fin _, .inf b => some (if b then .gt else .lt)
  | .fin a, .fin b => some (a.cmp b)
end FpVal

/-- The flag of signalling NaNs among sources (02 R37). -/
def sigFlag (vs : List FpVal) : BitVec 6 := flagIf (vs.any FpVal.isSig) fInvalid

/-- An exact operation's value before rounding, with its flags: the sum of two values (02 R48, R49). -/
def exactAdd (rd : Bool) (a b : FpVal) : FpVal × BitVec 6 :=
  match a, b with
  | .nan _, _ => (.nan false, sigFlag [a, b])
  | _, .nan _ => (.nan false, sigFlag [a, b])
  | .inf x, .inf y => if x = y then (.inf x, 0) else (.nan false, fInvalid)
  | .inf x, _ => (.inf x, 0)
  | _, .inf y => (.inf y, 0)
  | .fin x, .fin y => (.fin (x.add rd y), 0)

/-- The product of two values. -/
def exactMul (a b : FpVal) : FpVal × BitVec 6 :=
  if a.isNan || b.isNan then (.nan false, sigFlag [a, b])
  else if a.isInf || b.isInf then
    if a.isZero || b.isZero then (.nan false, fInvalid) else (.inf (a.neg != b.neg), 0)
  else (.fin (a.dy.mul b.dy), 0)

/-- a × b + c: an infinite or invalid product, then the sum (02 R48, R49). -/
def exactFma (rd : Bool) (a b c : FpVal) : FpVal × BitVec 6 :=
  let (p, fp) := exactMul a b
  if a.isNan || b.isNan then (.nan false, sigFlag [a, b, c])
  else match p with
    | .nan _ => (.nan false, fp)
    | _ =>
      let (v, fv) := exactAdd rd p c
      (v, fv)

/-- Whether a mode is toward −∞. -/
def Rnd.isRd : Rnd → Bool
  | .rd => true
  | _ => false

/-- Rounds an exact operation: a NaN or infinity passes, flags join. -/
def roundOp (f : Fmt) (mode : Rnd) (sat ftz : Bool) (v : FpVal × BitVec 6) : Nat × BitVec 6 :=
  let (c, fl) := roundVal f mode sat ftz v.1
  (c, fl ||| v.2)

/-- Round to nearest even with no flag kept. -/
def rn (f : Fmt) (d : Dy) : Nat := (roundTo f .rne false false d).1
/-- The value rounded to nearest even, as a value of the format. -/
def rnVal (f : Fmt) (d : Dy) : FpVal := fpDecode f (rn f d)

end Sys2Proof.Machine
end

