-- ==== Sys2Proof/Machine/FpSpecial.lean ====
section
/-! DEFINITION. The special functions of 05 R135: each the exact function rounded once. RCP, RSQ and SQRT are exact by integer
division; the others are pinned between neighbouring multiples of a power of two far below the result's last place (log 11). -/

namespace Sys2Proof.Machine

/-- A nonzero result known as a floor: the dyadic, with more beyond its last bit when sticky. -/
structure Pin where
  d : Dy
  sticky : Bool
  deriving Repr

/-- Rounds a pinned result. -/
def roundPin (f : Fmt) (mode : Rnd) (ftz : Bool) (p : Pin) : Nat × BitVec 6 := roundTo f mode false ftz p.d p.sticky

/-- Floor of the square root, one bit at a time from bit n down. -/
def isqrtFrom : Nat → Nat → Nat → Nat
  | 0, _, r => r
  | n + 1, v, r =>
    let c := r + 2 ^ n
    isqrtFrom n v (if c * c ≤ v then c else r)
def isqrt (v : Nat) : Nat := isqrtFrom (Nat.log2 v / 2 + 1) v 0

/-- 1 / d. -/
def pinRcp (d : Dy) : Pin :=
  let k := Nat.log2 d.m + 64
  ⟨⟨d.neg, 2 ^ k / d.m, -(k : Int) - d.e⟩, 2 ^ k % d.m ≠ 0⟩
/-- √d of a positive number. -/
def pinSqrt (d : Dy) : Pin :=
  let odd := d.e % 2 ≠ 0
  let m := (if odd then 2 * d.m else d.m) * 4 ^ 40
  let e := (if odd then d.e - 1 else d.e) - 80
  let r := isqrt m
  ⟨⟨false, r, e / 2⟩, r * r ≠ m⟩
/-- 1 / √d of a positive number. -/
def pinRsq (d : Dy) : Pin :=
  let odd := d.e % 2 ≠ 0
  let m := if odd then 2 * d.m else d.m
  let e := if odd then d.e - 1 else d.e
  let k := Nat.log2 m / 2 + 64
  let r := isqrt (4 ^ k / m)
  ⟨⟨false, r, -(k : Int) - e / 2⟩, r * r * m ≠ 4 ^ k⟩

/-- Fixed-point places of the series below. -/
def fixP : Nat := 192
/-- π/2 × 2^512 and ln 2 × 2^256, rounded down. -/
def halfPi : Nat := 0x1921fb54442d18469898cc51701b839a252049c1114cf98e804177d4c76273644a29410f31c6809bbdf2a33679a748636605614dbe4be286e9fc26adadaa3848b
def lnTwo : Nat := 0xb17217f7d1cf79abc9e3b39803f2f6af40f343267298b62d8a0d175b8baafa2b
def lnTwoP : Nat := lnTwo >>> 64

/-- The sum of a power series: the next term is term × z / 2^P / (the product of the divisors), alternating when alt. -/
def series : Nat → Nat → Nat → Nat → Nat → Bool → Bool → Int → Int
  | 0, _, _, _, _, _, _, acc => acc
  | n + 1, term, z, k, step, alt, minus, acc =>
    let t := term * z / 2 ^ fixP / (if step = 1 then k else k * (k + 1))
    let minus' := alt && !minus
    if t = 0 then acc else series n t z (k + step) step alt minus' (if minus' then acc - t else acc + t)

/-- e^y, sin y, cos y for a fixed-point y below 2. -/
def expFix (y : Nat) : Int := series 80 (2 ^ fixP) y 1 1 false false (2 ^ fixP : Nat)
def sinFix (y : Nat) : Int := series 60 y (y * y / 2 ^ fixP) 2 2 true false (y : Int)
def cosFix (y : Nat) : Int := series 60 (2 ^ fixP) (y * y / 2 ^ fixP) 1 2 true false (2 ^ fixP : Nat)
/-- The sum of z^(2k+1) / (2k+1): the inverse hyperbolic tangent of z. -/
def atanhFrom : Nat → Nat → Nat → Nat → Nat → Nat
  | 0, _, _, _, acc => acc
  | n + 1, p, z2, k, acc => if p = 0 then acc else atanhFrom n (p * z2 / 2 ^ fixP) z2 (k + 2) (acc + p / k)
def atanhFix (z : Nat) : Nat := atanhFrom 120 z (z * z / 2 ^ fixP) 1 0

/-- Pins a positive value v × 2^−P known within 2^32 units: the first of three widths at which both ends have one floor. -/
def pinFix (neg : Bool) (v : Nat) (shift : Int) : Pin :=
  let err := 2 ^ 32
  let g := if (v - err) >>> 44 = (v + err) >>> 44 then 44 else if (v - err) >>> 60 = (v + err) >>> 60 then 60 else 76
  ⟨⟨neg, v >>> g, (g : Int) - fixP + shift⟩, true⟩

/-- A dyadic in fixed point, rounded down. -/
def toFix (m : Nat) (e : Int) : Nat := shiftInt m (e + fixP)

/-- A value just below (m × 2^e) in magnitude, by less than 2^−40 of its last place. -/
def justBelow (neg : Bool) (m : Nat) (e : Int) : Pin := ⟨⟨neg, m * 2 ^ 40 - 1, e - 40⟩, true⟩
/-- A value just above or below 1 in magnitude, by less than 2^−64. -/
def nearOne (neg above : Bool) : Pin := ⟨⟨neg, if above then 2 ^ 64 else 2 ^ 64 - 1, -64⟩, true⟩

/-- 2^x for a finite nonzero x. -/
def pinExp2 (d : Dy) : Pin :=
  if d.expo < -70 then nearOne false (!d.neg)
  else if 11 < d.expo then ⟨⟨false, 1, if d.neg then -4000 else 4000⟩, false⟩
  else
    let x := d.at_ (-200)
    let i := x / 2 ^ 200
    let fr := (x % 2 ^ 200).toNat
    if fr = 0 then ⟨⟨false, 1, i⟩, false⟩
    else pinFix false (expFix ((fr >>> 8) * lnTwoP / 2 ^ fixP)).toNat i

/-- log₂ x for a finite positive x that is not 1. -/
def pinLog2 (d : Dy) : Pin :=
  let k := Nat.log2 d.m
  let ex : Int := d.e + k
  if d.m = 2 ^ k then ⟨⟨decide (ex < 0), ex.natAbs, 0⟩, false⟩
  else
    -- t = m / 2^k lies in (1, 2); from 3/2 on, half of it is taken and the exponent raised
    let up := decide (3 * 2 ^ k ≤ 2 * d.m)
    let den := if up then 2 ^ (k + 1) else 2 ^ k
    let ex' := if up then ex + 1 else ex
    let below := decide (d.m < den)
    let z := ((if below then den - d.m else d.m - den) <<< fixP) / (d.m + den)
    let l := 2 * atanhFix z * 2 ^ fixP / lnTwoP
    let v : Int := ex' * 2 ^ fixP + (if below then -(l : Int) else l)
    pinFix (decide (v < 0)) v.natAbs 0

/-- The quadrant of |x| and its remainder in fixed point (05 R135: reduced exactly). -/
def reduceAngle (d : Dy) : Nat × Nat :=
  let x := shiftInt d.m (d.e + 512)
  (x / halfPi % 4, (x % halfPi) >>> (512 - fixP))

/-- sin x and cos x for a finite nonzero x. -/
def pinSin (d : Dy) : Pin :=
  if d.expo < -40 then justBelow d.neg d.m d.e
  else
    let (q, r) := reduceAngle d
    let v := if q % 2 = 0 then sinFix r else cosFix r
    pinFix (d.neg != decide (2 ≤ q)) v.toNat 0
def pinCos (d : Dy) : Pin :=
  if d.expo < -40 then nearOne false false
  else
    let (q, r) := reduceAngle d
    let v := if q % 2 = 0 then cosFix r else sinFix r
    pinFix (q == 1 || q == 2) v.toNat 0
/-- tanh x for a finite nonzero x. -/
def pinTanh (d : Dy) : Pin :=
  if d.expo < -40 then justBelow d.neg d.m d.e
  else if 5 < d.expo then nearOne d.neg false
  else
    let y := toFix (2 * d.m) d.e
    let k := y / lnTwoP
    let e := (expFix (y % lnTwoP)).toNat <<< k
    pinFix d.neg (((e - 2 ^ fixP) <<< fixP) / (e + 2 ^ fixP)) 0

/-- The special functions (05 Table 5.2), as instructions name them. -/
inductive Sfu where
  | rcp | rsq | sqrt | exp2 | log2 | sin | cos | tanh
  deriving DecidableEq, Repr

/-- A special function of a value: Table 5.2 for special operands, else the function rounded once. -/
def sfu (k : Sfu) (f : Fmt) (mode : Rnd) (ftz : Bool) (a : FpVal) : Nat × BitVec 6 :=
  let nan := (f.nanCode, fInvalid)
  let inf := fun n => signed f n (f.infCode.getD 0)
  let one := fun n => (roundTo f .rne false false ⟨n, 1, 0⟩).1
  match a with
  | .nan s => (f.nanCode, flagIf s fInvalid)
  | .inf n =>
    match k with
    | .rcp => (signed f n 0, 0)
    | .rsq => if n then nan else (0, 0)
    | .sqrt => if n then nan else (inf false, 0)
    | .exp2 => if n then (0, 0) else (inf false, 0)
    | .log2 => if n then nan else (inf false, 0)
    | .sin | .cos => nan
    | .tanh => (one n, 0)
  | .fin d =>
    if d.m = 0 then
      match k with
      | .rcp | .rsq => (inf (k = .rcp && d.neg || k = .rsq && d.neg), fDivZero)
      | .sqrt | .sin | .tanh => (signed f d.neg 0, 0)
      | .exp2 | .cos => (one false, 0)
      | .log2 => (inf true, fDivZero)
    else
      match k with
      | .rcp => roundPin f mode ftz (pinRcp d)
      | .rsq => if d.neg then nan else roundPin f mode ftz (pinRsq d)
      | .sqrt => if d.neg then nan else roundPin f mode ftz (pinSqrt d)
      | .exp2 => roundPin f mode ftz (pinExp2 d)
      | .log2 => if d.neg then nan else if d.eqv ⟨false, 1, 0⟩ then (0, 0) else roundPin f mode ftz (pinLog2 d)
      | .sin => roundPin f mode ftz (pinSin d)
      | .cos => roundPin f mode ftz (pinCos d)
      | .tanh => roundPin f mode ftz (pinTanh d)

end Sys2Proof.Machine
end

