-- ==== Sys2Proof/Machine/Expansion.lean ====
section
/-! DEFINITION. Error-free transforms and expansions (02 R50 to R53; 05 R144 to R153), and MX blocks (02 R41, R42). -/

namespace Sys2Proof.Machine

/-- A finite number with a zero written +0. -/
def plusZero (d : Dy) : Dy := if d.m = 0 then ⟨false, 0, 0⟩ else d

/-- Rounds to nearest even; none when the result is not finite. -/
def rnFin (f : Fmt) (d : Dy) : Option Dy :=
  match rnVal f d with
  | .fin r => some r
  | _ => none

/-- TSUM (02 R50, R51, Table 2.5): sum, error, flags. -/
def tsum (f : Fmt) (a b : FpVal) : Nat × Nat × BitVec 6 :=
  let x := exactAdd false a b
  let (s, fl) := roundOp f .rne false false x
  match a, b, fpDecode f s with
  | .fin _, .fin _, .fin sv => (s, rn f (plusZero (x.1.dy.sub false sv)), fl)
  | _, _, _ => (s, f.nanCode, fl)

/-- TPROD. -/
def tprod (f : Fmt) (a b : FpVal) : Nat × Nat × BitVec 6 :=
  let x := exactMul a b
  let (p, fl) := roundOp f .rne false false x
  match a, b, fpDecode f p with
  | .fin _, .fin _, .fin pv =>
    let e := x.1.dy.sub false pv
    let c := rn f e
    let c := if (fpDecode f c).isZero then 0 else c
    (p, c, fl ||| flagIf (!(fpDecode f c).dy.eqv e) (fUnderflow ||| fInexact))
  | _, _, _ => (p, f.nanCode, fl)

/-- FMAE: result, two error terms, flags. -/
def fmae (f : Fmt) (a b c : FpVal) : Nat × Nat × Nat × BitVec 6 :=
  let x := exactFma false a b c
  let (r, fl) := roundOp f .rne false false x
  match a, b, c, fpDecode f r with
  | .fin _, .fin _, .fin _, .fin rv =>
    let rem := x.1.dy.sub false rv
    let e1 := plusZero (rnVal f rem).dy
    let rem2 := rem.sub false e1
    let e2 := plusZero (rnVal f rem2).dy
    (r, rn f e1, rn f e2, fl ||| flagIf (!e2.eqv rem2) (fUnderflow ||| fInexact))
  | _, _, _, _ => (r, f.nanCode, f.nanCode, fl)

/-- TS of 05 R144: sum and error; an infinite sum gives the sign of the exact one. -/
def ts (f : Fmt) (a b : Dy) : Except Bool (Dy × Dy) :=
  let x := a.add false b
  match rnFin f x with
  | some s => .ok (s, plusZero (x.sub false s))
  | none => .error x.neg
/-- TP of 05 R144. -/
def tp (f : Fmt) (a b : Dy) : Except Bool (Dy × Dy) :=
  let x := a.mul b
  match rnFin f x with
  | some p => .ok (p, plusZero (rnVal f (x.sub false p)).dy)
  | none => .error x.neg
/-- RN_f of a product. -/
def rp (f : Fmt) (a b : Dy) : Except Bool Dy :=
  match rnFin f (a.mul b) with
  | some p => .ok p
  | none => .error (a.neg != b.neg)

/-- Stage 1 of RENORM: the sweep upward, from the last pair to the first. -/
def sweepUp (f : Fmt) : List Dy → Except Bool (List Dy)
  | [] => .ok []
  | [a] => .ok [a]
  | a :: r => do
    match ← sweepUp f r with
    | b :: r' => let (s, e) ← ts f a b; return s :: e :: r'
    | [] => return [a]
/-- Stage 2: extract at most k components. -/
def extract (f : Fmt) (k : Nat) : List Dy → Dy → List Dy → Except Bool (List Dy)
  | [], acc, ys => .ok (if ys.length < k then ys ++ [acc] else ys)
  | t :: r, acc, ys => do
    if ys.length < k then
      let (hi, lo) ← ts f acc t
      if lo.m ≠ 0 then extract f k r lo (ys ++ [hi]) else extract f k r hi ys
    else return ys
/-- One pass of stage 3. -/
def settlePass (f : Fmt) : List Dy → Except Bool (List Dy)
  | a :: b :: r => do
    let (s, e) ← ts f a b
    let r' ← settleTail f e r
    return s :: r'
  | l => .ok l
where
  settleTail (f : Fmt) (e : Dy) : List Dy → Except Bool (List Dy)
    | [] => .ok [e]
    | b :: r => do
      let (s, e') ← ts f e b
      let r' ← settleTail f e' r
      return s :: r'
def settleN (f : Fmt) : Nat → List Dy → Except Bool (List Dy)
  | 0, l => .ok l
  | n + 1, l => do settleN f n (← settlePass f l)
/-- The components after the first zero one are +0. -/
def zeroTail : List Dy → List Dy
  | [] => []
  | a :: r => if a.m = 0 then a :: r.map fun _ => ⟨false, 0, 0⟩ else a :: zeroTail r
/-- RENORM (05 R145). -/
def renorm (f : Fmt) (t : List Dy) (k : Nat) : Except Bool (List Dy) := do
  let t1 ← sweepUp f t
  match t1 with
  | [] => return List.replicate k ⟨false, 0, 0⟩
  | a :: r =>
    let y ← extract f k r a []
    let y := y ++ List.replicate (k - y.length) ⟨false, 0, 0⟩
    return zeroTail (← settleN f (k - 1) y)

/-- An expansion whose x0 is a code and whose other components are +0. -/
def headOnly (k code : Nat) : List Nat := code :: List.replicate (k - 1) 0
/-- The result of a step that rounds to ±∞ (05 Table 5.7). -/
def overflowed (f : Fmt) (k : Nat) (neg : Bool) : List Nat × BitVec 6 :=
  (headOnly k (signed f neg (f.infCode.getD 0)), fOverflow ||| fInexact)
/-- The codes of a finite result, or the overflow row. -/
def finishX (f : Fmt) (k : Nat) (r : Except Bool (List Dy)) : List Nat × BitVec 6 :=
  match r with
  | .ok l => (l.map (rn f), 0)
  | .error neg => overflowed f k neg

/-- The XADD rows of 05 Table 5.7 over all components; none when every one is finite. -/
def addRows (f : Fmt) (k : Nat) (vs : List FpVal) : Option (List Nat × BitVec 6) :=
  if vs.any FpVal.isNan then some (headOnly k f.nanCode, sigFlag vs)
  else
    let infs := vs.filter FpVal.isInf
    match infs with
    | [] => none
    | v :: r => if r.all (fun w => w.neg == v.neg) then some (headOnly k (signed f v.neg (f.infCode.getD 0)), 0)
                else some (headOnly k f.nanCode, fInvalid)

/-- Two lists' elements by turns. -/
def interleave {α : Type} : List α → List α → List α
  | a :: r, b :: t => a :: b :: interleave r t
  | l, [] => l
  | [], l => l

/-- XADD (05 R146). -/
def xadd (f : Fmt) (a b : List FpVal) : List Nat × BitVec 6 :=
  let k := a.length
  match addRows f k (a ++ b) with
  | some r => r
  | none => finishX f k (renorm f (interleave (a.map FpVal.dy) (b.map FpVal.dy)) k)

/-- One diagonal of XMUL's list: the products a[i] × b[n−i] for i = 0 to n, with their errors. -/
def diagonal (f : Fmt) (a b : List Dy) (n : Nat) : List Nat → Except Bool (List Dy × List Dy)
  | [] => .ok ([], [])
  | i :: r => do
    let (p, e) ← tp f (a.getD i ⟨false, 0, 0⟩) (b.getD (n - i) ⟨false, 0, 0⟩)
    let (ps, es) ← diagonal f a b n r
    return (p :: ps, e :: es)
/-- The diagonals from n on; ends with the last diagonal's errors. -/
def diagonals (f : Fmt) (a b : List Dy) : List Nat → List Dy → Except Bool (List Dy × List Dy)
  | [], es => .ok ([], es)
  | n :: r, es => do
    let (ps, es') ← diagonal f a b n (List.range (n + 1))
    let (ts, last) ← diagonals f a b r es'
    return (ps ++ es ++ ts, last)
/-- The rounded products of the last diagonal. -/
def lastRow (f : Fmt) (a b : List Dy) (k : Nat) : List Nat → Except Bool (List Dy)
  | [] => .ok []
  | i :: r => do
    let p ← rp f (a.getD i ⟨false, 0, 0⟩) (b.getD (k - i) ⟨false, 0, 0⟩)
    return p :: (← lastRow f a b k r)
/-- Sign of the leading nonzero component. -/
def leadNeg (l : List FpVal) : Bool :=
  match l.find? fun v => !v.isZero with
  | some v => v.neg
  | none => (l.headD (.fin ⟨false, 0, 0⟩)).neg
/-- An exact sum of finite components is zero. -/
def sumDy : List Dy → Dy
  | [] => ⟨false, 0, 0⟩
  | [a] => a
  | a :: r => a.add false (sumDy r)

/-- XMUL (05 R147). -/
def xmul (f : Fmt) (a b : List FpVal) : List Nat × BitVec 6 :=
  let k := a.length
  let zero := fun (l : List FpVal) => l.all FpVal.isFin && (sumDy (l.map FpVal.dy)).m == 0
  if (a ++ b).any FpVal.isNan then (headOnly k f.nanCode, sigFlag (a ++ b))
  else if (a ++ b).any FpVal.isInf then
    if zero a || zero b then (headOnly k f.nanCode, fInvalid)
    else (headOnly k (signed f (leadNeg a != leadNeg b) (f.infCode.getD 0)), 0)
  else
    let x := a.map FpVal.dy
    let y := b.map FpVal.dy
    finishX f k (do
      let (ts, last) ← diagonals f x y (List.range k) []
      let row ← lastRow f x y k ((List.range k).drop 1)
      renorm f (ts ++ row ++ last) k)

/-- XRENORM and XCOMP (05 R151): RENORM to j components. -/
def xcomp (f : Fmt) (a : List FpVal) (j : Nat) : List Nat × BitVec 6 :=
  match addRows f j a with
  | some r => r
  | none => finishX f j (renorm f (a.map FpVal.dy) j)

/-- XNEG: codes of the components. -/
def xneg (f : Fmt) (cs : List Nat) : List Nat × BitVec 6 :=
  let flip := fun c => if 2 ^ (f.width - 1) ≤ c then c - 2 ^ (f.width - 1) else c + 2 ^ (f.width - 1)
  match cs with
  | [] => ([], 0)
  | c :: r =>
    match fpDecode f c with
    | .nan s => (headOnly cs.length f.nanCode, flagIf s fInvalid)
    | .inf _ => (headOnly cs.length (flip c), 0)
    | .fin _ => (flip c :: r.map fun x => if (fpDecode f x).isZero then 0 else flip x, 0)
/-- XABS. -/
def xabs (f : Fmt) (cs : List Nat) : List Nat × BitVec 6 :=
  match fpDecode f (cs.headD 0) with
  | .nan s => (headOnly cs.length f.nanCode, flagIf s fInvalid)
  | .inf _ => (headOnly cs.length (f.infCode.getD 0), 0)
  | .fin d => if d.neg then xneg f cs else (cs, 0)
/-- XHEAD. -/
def xhead (f : Fmt) (cs : List Nat) : List Nat × BitVec 6 :=
  match fpDecode f (cs.headD 0) with
  | .nan s => ([f.nanCode], flagIf s fInvalid)
  | _ => ([cs.headD 0], 0)

/-- XSPLIT (05 R152) of an FP32 value. -/
def xsplit (a : FpVal) : List Nat × BitVec 6 :=
  match a with
  | .nan s => ([0x7FC0, 0, 0], flagIf s fInvalid)
  | .inf n => ([signed .bf16 n 0x7F80, 0, 0], 0)
  | .fin d =>
    let s0 := match rnFin .bf16 d with
      | some r => r
      | none => (fpDecode .bf16 (roundTo .bf16 .rz false false d).1).dy
    let s0 := if s0.m = 0 then (if d.m = 0 then d else ⟨false, 0, 0⟩) else s0
    let r1 := d.sub false s0
    let s1 := plusZero (rnVal .bf16 r1).dy
    let r2 := r1.sub false s1
    let s2 := plusZero (rnVal .bf16 r2).dy
    ([rn .bf16 s0, rn .bf16 s1, rn .bf16 s2], flagIf (!s2.eqv r2) (fUnderflow ||| fInexact))

/-- Whether infinities of both signs occur. -/
def bothInfs (vs : List FpVal) : Bool := vs.any (fun v => v.isInf && v.neg) && vs.any (fun v => v.isInf && !v.neg)
/-- The infinity among values, if there is one. -/
def infAmong (vs : List FpVal) : Option Bool := (vs.find? FpVal.isInf).map FpVal.neg

/-- XJOIN (05 R153) to format d. A zero expansion carries the sign of x0 (02 R52); a signalling NaN among the components raises invalid (R48). -/
def xjoin (d : Fmt) (mode : Rnd) (vs : List FpVal) : Nat × BitVec 6 :=
  let x0 := vs.headD (.nan false)
  match x0 with
  | .nan _ => (d.nanCode, sigFlag vs)
  | .inf n => (signed d n (d.infCode.getD 0), sigFlag vs)
  | .fin _ =>
    if bothInfs vs then (d.nanCode, fInvalid)
    else if vs.any FpVal.isNan then (d.nanCode, sigFlag vs)
    else match infAmong vs with
      | some n => (signed d n (d.infCode.getD 0), 0)
      | none =>
        let t := sumDy (vs.map FpVal.dy)
        if t.m = 0 then (signed d (if vs.all FpVal.isZero then x0.neg else mode.isRd) 0, 0)
        else roundTo d mode false false t

/-- The value XCMP compares: the exact sum of the components over the extended reals (05 R150). -/
def xvalue (vs : List FpVal) : FpVal :=
  if vs.any FpVal.isNan then .nan (vs.any FpVal.isSig)
  else match vs.headD (.nan false) with
    | .inf n => .inf n
    | _ =>
      if bothInfs vs then .nan false
      else match infAmong vs with
        | some n => .inf n
        | none => .fin (sumDy (vs.map FpVal.dy))

/-- XCMP (05 R150): the condition and its flags. -/
def xcmp (code : Nat) (a b : List FpVal) : Bool × BitVec 6 :=
  let x := xvalue a
  let y := xvalue b
  let nan := x.isNan || y.isNan
  (condFloat code (x.cmp y), flagIf (x.isSig || y.isSig || (nan && decide (2 ≤ code) && decide (code ≤ 5))) fInvalid)

/-! ### MX blocks -/

/-- The exact value of an element under a scale code (02 R41). -/
def mxValue (f : Fmt) (elt scale : Nat) : FpVal :=
  if scale = 255 then .nan false
  else match fpDecode f elt with
    | .fin d => .fin (d.scale ((scale : Int) - 127))
    | v => v

/-- The largest exponent of an element type (02 R42). -/
def Fmt.emaxMx : Fmt → Int
  | .e4m3 => 8 | .e5m2 => 15 | _ => 2

/-- Quantises exact values into a block (02 R42): scale, elements, flags; mode i rounds element i. -/
def mxQuantise (f : Fmt) (mode : Nat → Rnd) (vs : List FpVal) : Nat × List Nat × BitVec 6 :=
  if vs.any fun v => !v.isFin then (255, vs.map fun _ => if f = .e2m1 then 0 else f.nanCode, fInvalid)
  else
    let big := vs.filter fun v => v.dy.m != 0
    match big with
    | [] => (0, vs.map fun v => signed f v.neg 0, 0)
    | v :: r =>
      let top := r.foldl (fun m w => if m < w.dy.expo then w.dy.expo else m) v.dy.expo
      let x := top - f.emaxMx + 127
      let x : Int := if x < 0 then 0 else if 254 < x then 254 else x
      let rs := (List.range vs.length).map fun i => roundTo f (mode i) true false ((vs.getD i (.fin ⟨false, 0, 0⟩)).dy.scale (127 - x))
      (x.toNat, rs.map (·.1), rs.foldl (fun m p => m ||| p.2) 0)

end Sys2Proof.Machine
end

