-- ==== Sys2Proof/Machine/Slice.lean ====
section
/-! DEFINITION. Atomic actions, and the slices that own the package's HBM: partial copies and their merging, sealed lines, eviction, reads,
writes and atomic actions of one sector, doorbells (08 R214, R215; 14 R343 to R362; 15 R376; 16 R396, R410). -/

namespace Sys2Proof.Machine

/-! ### Atomic actions (08 R214, R215) -/

/-- FMIN and FMAX (05 R132): −0 is less than +0; one NaN gives the other operand, two the default NaN. -/
def fpMinMax (f : Fmt) (max : Bool) (a b : FpVal) : Nat × BitVec 6 :=
  let code := fun v => (roundVal f .rne false false v).1
  let fl := sigFlag [a, b]
  if a.isNan && b.isNan then (f.nanCode, fl)
  else if a.isNan then (code b, fl)
  else if b.isNan then (code a, fl)
  else
    let lt := match a.cmp b with
      | some .lt => true
      | some .eq => a.isZero && a.neg && !b.neg
      | _ => false
    (code (if lt != max then a else b), fl)

/-- Bytes of an atomic type. -/
def atomSize : AtomTy → Nat
  | .b32 | .s32 | .n32 | .f32 => 4
  | _ => 8
def atomTys : List AtomTy := [.b32, .b64, .s32, .n32, .s64, .n64, .f32, .f32x2]
def atomOps : List AtomOp := [.add, .min, .max, .and, .or, .xor, .xchg, .cas, .xadd2]

/-- .xadd2 (08 R215): the new leading and trailing words. -/
def xadd2 (m0 m1 x0 x1 : Nat) : Nat × Nat :=
  let v := [m0, m1, x0, x1].map (fpDecode .f32)
  match addRows .f32 2 v with
  | some r => (r.1.headD 0, 0)
  | none =>
    let d := fun n => (fpDecode .f32 n).dy
    let r : Except Bool (Dy × Dy) := do
      let (s, e) ← ts .f32 (d m0) (d x0)
      let a := (d m1).add false (d x1)
      let t1 ← match rnFin .f32 a with | some t => Except.ok t | none => .error a.neg
      let b := e.add false t1
      let t2 ← match rnFin .f32 b with | some t => Except.ok t | none => .error b.neg
      ts .f32 s t2
    match r with
    | .ok (a, b) => (rn .f32 a, rn .f32 b)
    | .error neg => (signed .f32 neg 0x7F800000, 0)

/-- The new value m′ of a memory value m (08 Table 8.5). -/
def atomApply (op : AtomOp) (ty : AtomTy) (m x c : W64) : W64 :=
  let w := 8 * atomSize ty
  let mn := m.toNat % 2 ^ w
  let xn := x.toNat % 2 ^ w
  let sg := match ty with | .s32 | .s64 => true | _ => false
  let val := fun (n : Nat) => (if sg then signedOf w n else (n : Int) : Int)
  let f := fun n => fpDecode .f32 n
  let n : Nat :=
    match op with
    | .add =>
      match ty with
      | .f32 => (roundOp .f32 .rne false false (exactAdd false (f mn) (f xn))).1
      | _ => (mn + xn) % 2 ^ w
    | .min =>
      match ty with
      | .f32 => (fpMinMax .f32 false (f mn) (f xn)).1
      | _ => if val mn ≤ val xn then mn else xn
    | .max =>
      match ty with
      | .f32 => (fpMinMax .f32 true (f mn) (f xn)).1
      | _ => if val xn ≤ val mn then mn else xn
    | .and => mn &&& xn
    | .or => mn ||| xn
    | .xor => mn ^^^ xn
    | .xchg => xn
    | .cas => if mn = xn then c.toNat % 2 ^ w else mn
    | .xadd2 =>
      let r := xadd2 (mn % 2 ^ 32) (mn >>> 32) (xn % 2 ^ 32) (xn >>> 32)
      r.1 + r.2 * 2 ^ 32
  BitVec.ofNat 64 n

/-- The identity of an eligible op (14 R354). -/
def atomIdentity (op : AtomOp) (ty : AtomTy) : W64 :=
  match op, ty with
  | .and, _ => -1
  | .min, .f32 => 0x7F800000
  | .max, .f32 => 0xFF800000
  | .min, .s32 => 0x7FFFFFFF
  | .min, .s64 => 0x7FFFFFFFFFFFFFFF
  | .min, _ => -1
  | .max, .s32 => 0x80000000
  | .max, .s64 => 0x8000000000000000
  | _, _ => 0

/-! ### The owning slice -/

/-- Whether die d's links reach die e (14 R361). -/
def State.linked (s : State) (d e : Nat) : Bool := d = e || !((s.die d).deadLinks.contains e)
/-- A write to the Chofer area is dropped and counted (16 R396). -/
def State.dropChofer (s : State) : State := { s with chofer := { s.chofer with dropped := s.chofer.dropped + 1 } }

/-- The bytes of a line as HBM holds them. -/
def State.hbmLine (s : State) (line : Nat) : List Byte := (List.range 256).map fun i => tget 0 s.hbm (256 * line + i)
/-- Writes bytes to HBM itself, past its slice. -/
def State.putHbm (s : State) (t : Nat) (bs : List Byte) : State :=
  { s with hbm := (List.range bs.length).foldl (fun m i => tset 0 m (t + i) (bs.getD i 0)) s.hbm,
           llc := s.llc.filter fun b => !decide (t ≤ b.1 ∧ b.1 < t + bs.length) }
/-- The entry of a line in its die's tag region (16 R410): the address of its tag and, 16 bytes on, of its write count. -/
def State.tagEntry (s : State) (line : Nat) : Nat :=
  ((s.die (ownerDie (256 * line))).config.getD 8 0).toNat + 256 * line % 2 ^ 37 / 8
/-- Whether the tag that the tag region holds is that of the line as HBM holds it. A line whose write count is 0 has never been written under a
key and has no tag to fail: the spec does not say what it reads as (log 13). -/
def State.tagHolds (s : State) (ctx line : Nat) : Bool :=
  let at_ := s.tagEntry line
  let count := s.readMem (at_ + 16) 8
  count == 0 || s.readMem at_ 16 == (Config.gcmTag ctx line count (s.hbmLine line)).toNat
/-- Writes a line of a context to HBM under a new write count, with its tag (16 R410). A line that no context owns has no tag. -/
def State.sealLine (s : State) (line : Nat) : State :=
  let ctx := tget 0 s.owners line
  if ctx = 0 then s
  else
    let n := tget 0 s.sealedLines line + 1
    let at_ := s.tagEntry line
    let s1 := { s with sealedLines := tset 0 s.sealedLines line n }
    (s1.putHbm at_ (bytesOf 16 (Config.gcmTag ctx line n (s1.hbmLine line)).toNat)).putHbm (at_ + 16) (bytesOf 8 n)

/-! ### Room in a slice (00 R1; 14 R346, R347) -/

/-- A sector leaves its slice: its masked bytes are written to HBM. -/
def State.writeOut (s : State) (sec : Nat) : State :=
  let masked := s.llc.any fun b => b.1 / 64 = sec
  let s2 := { s with hbm := s.llc.foldl (fun m b => if b.1 / 64 = sec then tset 0 m b.1 b.2 else m) s.hbm,
                     llc := s.llc.filter fun b => b.1 / 64 != sec,
                     present := tdel s.present sec }
  if masked then s2.sealLine (sec / 4) else s2
/-- The lines of a die's slice: 1 GiB (00 Table 0.2). -/
def Config.linesPerSlice : Nat := 4194304
/-- Makes room in a slice whose lines are all in use: the first of them that is neither the line wanted nor a C line leaves (log 10). -/
def State.makeWay (s : State) (own line : Nat) : State :=
  let mine := s.present.filter fun e => ownerDie (64 * e.1) = own
  if mine.length < Config.linesPerSlice then s
  else if (mine.map fun e => e.1 / 4).eraseDups.length < Config.linesPerSlice then s
  else match mine.find? fun e => e.1 / 4 != line && s.diesT.all fun d => d.2.partials.all fun p => p.line != e.1 / 4 with
    | some e => (List.range 4).foldl (fun (st : State) k => if tget false st.present (e.1 / 4 * 4 + k) then st.writeOut (e.1 / 4 * 4 + k) else st) s
    | none => s
/-- The sector of an address is present in its slice, which has made room for it. -/
def State.allot (s : State) (t : Nat) : State :=
  if tget false s.present (t / 64) then s
  else
    let s0 := s.makeWay (ownerDie t) (t / 256)
    { s0 with present := tset false s0.present (t / 64) true }

/-! ### Lines of contexts (16 R410) -/

/-- The line's bytes become unspecified: what was plaintext of a context is not to be read without it (16 R410, R413). -/
def State.scramble (s : State) (line : Nat) : State :=
  (List.range 32).foldl (fun (st : State) i => st.putBytes (256 * line + 8 * i) (bytesOf 8 (s.free (0x1C0000 + i)).toNat)) s
/-- A line that fails its tag: every word is poisoned, and carries the code of its cause; the event is counted and posted (16 R410, R417; log 13). -/
def State.sealFails (s : State) (line : Nat) : State :=
  let c := s.chofer
  ({ s with poison := (List.range 32).foldl (fun p i => tset false p (32 * line + i) true) s.poison,
            sealBad := (List.range 32).foldl (fun p i => tset false p (32 * line + i) true) s.sealBad,
            chofer := { c with integrity := c.integrity + 1 } }).post 0x10 line
/-- A read of a line whose owner differs from the accessing context, or whose tag is not that of its contents, fails (16 R410). -/
def State.sealCheck (s : State) (t ctx : Nat) : State × Bool :=
  let line := t / 256
  if tget 0 s.owners line = ctx ∧ (tget false s.present (t / 64) ∨ s.tagHolds ctx line) then (s, false)
  else (s.sealFails line, true)

/-- How a slice answers an access to a line: it is open to it; its die's link is down; its seal fails; or it belongs to a context that the
access does not carry. -/
inductive Reach where
  | open_ | dead | failed | hidden
  deriving DecidableEq, Repr

/-- The owner of a line after a write for a context or none; what the line held for another context is no longer read. -/
def State.claimLine (s : State) (ctx t : Nat) (r : Reach) : State :=
  let s1 := match r with | .failed | .hidden => s.scramble (t / 256) | _ => s
  { s1 with owners := tset 0 s1.owners (t / 256) ctx }

/-! ### Partial copies (14 R353 to R357) -/

/-- Applies one partial copy to its line, which leaves poisoned words poisoned (14 R355, R357, R360); the line answers as to any write of the
context that the REDs carried, or of none (16 R410). -/
def State.applyPartial (s : State) (p : Partial) : State :=
  let t := 256 * p.line
  let r := if p.ctx ≠ 0 then s.sealCheck t p.ctx else (s, tget 0 s.owners p.line ≠ 0)
  p.words.foldl (fun st w =>
    let n := atomSize p.ty
    let m := BitVec.ofNat 64 (st.readMem w.1 n)
    let bad := p.bad || st.anyPoison w.1 n
    let st1 := (st.allot w.1).putBytes w.1 (bytesOf n (atomApply p.op p.ty m w.2 0).toNat)
    if bad then st1.poisonWrite w.1 n true else st1) (r.1.claimLine p.ctx t (if r.2 then .hidden else .open_))
/-- Applies die k's partial copy of a line, which it no longer holds. -/
def State.takePartial (s : State) (k line : Nat) : State :=
  let d := s.die k
  match d.partials.find? fun p => p.line == line with
  | none => s
  | some p =>
    let s1 := (s.applyPartial p).setDie k { d with partials := d.partials.filter fun q => q.line != line }
    let mask := tget 0 s1.cLines line
    { s1 with cLines := tset 0 s1.cLines line (if mask.testBit k then mask - 2 ^ k else mask) }

/-- Flushes die k's partial copy of a line (14 R355). The owning die's slice counts it, which applies it: the spec does not say which slice does
(R364; log 76). -/
def State.flushPartial (s : State) (k line : Nat) : State :=
  if (s.die k).partials.any fun p => p.line == line then (s.takePartial k line).countSlice (ownerDie (256 * line)) 0x04 1 else s

/-- Merges a C line: the partials that dies hold of it, in ascending die number (14 R356). A partial whose join is still on its way is
merged too: the access that merges may follow its RED in happens-before (log 21). -/
def State.mergeLine (s : State) (line : Nat) : State :=
  let ks := (List.range Config.dies).filter fun k => (s.die k).partials.any fun p => p.line == line
  if ks.isEmpty then s
  else
    let s1 := ks.foldl (fun st k => st.takePartial k line) s
    { s1 with cLines := tset 0 s1.cLines line 0 }.countSlice (ownerDie (256 * line)) 0x03 1

/-- Evicts a sector: its masked bytes are written to HBM (14 R347). A C line is merged first (R356). -/
def State.evict (s : State) (sec : Nat) : State := (s.mergeLine (sec / 4)).writeOut sec

/-- Brings a sector into its slice, counting a hit or a miss, and a request of another die (14 R347, R364). -/
def State.touchSector (s : State) (d t : Nat) : State :=
  let own := ownerDie t
  let s1 := (s.allot t).countSlice own (if tget false s.present (t / 64) then 0 else 1) 1
  if d = own then s1 else s1.countSlice own 2 1

/-- What a slice does first for a read or a write of die d at an address, for a context through an encrypted range or none (14 R347, R356, R361;
16 R410). A write reads no line, and so meets no tag. -/
def State.openLine (s : State) (d ctx t : Nat) (write : Bool := false) : State × Reach :=
  if !s.linked d (ownerDie t) then (s, .dead)
  else
    let s1 := s.mergeLine (t / 256)
    if ctx ≠ 0 ∧ !write then
      let r := s1.sealCheck t ctx
      (r.1.touchSector d t, if r.2 then .failed else .open_)
    else (s1.touchSector d t, if tget 0 s1.owners (t / 256) ≠ ctx ∧ tget 0 s1.owners (t / 256) ≠ 0 then .hidden else .open_)

/-- The free value of a byte or word that an access may not see, by its address. -/
def State.unseen (s : State) (t : Nat) : BitVec 64 := s.free (0x180000 + t % 0x10000)

/-- Base of a die's task area (15 R376). -/
def State.taskBase (s : State) (d : Nat) : Nat := ((s.die d).config.getD 5 0).toNat
/-- The n-th dword of a die's configuration block (16 Table 16.6). -/
def State.configWord (s : State) (d n : Nat) : Nat := ((s.die d).config.getD n 0).toNat
/-- Target address of the space-table entry of an address space, as die d was given the table's base (13 R333). -/
def State.spaceEntry (s : State) (d asid : Nat) : Nat := s.configWord d 7 + 16 * asid
/-- Whether n bytes from t meet the space-table entry, or the directory of 2 MiB, of an address space that some launch uses: only RANGE
instructions write them (13 R334, R335). -/
def State.inSpaces (s : State) (t n : Nat) : Bool :=
  s.tasks.any fun k => k.2.state != .free && !(s.die (k.1 / 4096)).config.isEmpty &&
    (let e := s.spaceEntry (k.1 / 4096) k.2.launch.asid
     let dir := s.readMem e 8 % 2 ^ 56
     decide (e < t + n ∧ t < e + 16) || decide (dir < t + n ∧ t < dir + 2 ^ 21))
/-- The task slot whose doorbell an access of w bytes at t touches. -/
def State.doorbellOf (s : State) (t w : Nat) : Option Nat :=
  let base := s.taskBase (ownerDie t)
  if (s.die (ownerDie t)).config.isEmpty ∨ t + w ≤ base ∨ base + 256 * Config.taskSlots ≤ t then none
  else
    let k := (t + w - 1 - base) / 256
    let bell := base + 256 * k + 0x88
    if bell < t + w ∧ t < bell + 8 then some k else none
/-- A byte as its slice reads it: those of a doorbell, and those of the Chofer area beyond the capability list, read 0 (15 R376, 16 R396). -/
def State.sliceByte (s : State) (t : Nat) : Byte :=
  if (inChofer t ∧ choferBase + 0x10000 ≤ t) ∨ (s.doorbellOf t 1).isSome then 0 else s.byteAt t
/-- The poison code of a byte's word: 6 where a failed tag poisoned it (16 R417). -/
def State.wordCode (s : State) (t : Nat) : Nat := if !s.poisoned t then 0 else if tget false s.sealBad (t / 8) then 6 else 1
/-- The poison code of a byte of an open or failed line. -/
def State.sliceBad (s : State) (r : Reach) (t : Nat) : Nat :=
  match r with
  | .dead => 5
  | .failed => 6
  | .hidden => 0
  | .open_ => s.wordCode t

/-- What a read gives: the state after, the value, and its poison code (0 none). -/
structure Got where
  s   : State
  v   : Nat
  bad : Nat

/-- The lowest poison code of several, 0 when none is poisoned (01 R34). -/
def lowestOf (l : List Nat) : Nat := (leastOf (l.filter (· ≠ 0))).getD 0
/-- The poison code of data that came in several parts, 0 when none is poisoned: a part that a link that is down has lost is a fault of its own
(14 R361), else the lowest (01 R34). -/
def worstOf (l : List Nat) : Nat := if l.contains 5 then 5 else lowestOf l

/-- n bytes of one sector from t as die d reads them, with the poison code of each. -/
def State.readSlice (s : State) (d ctx t n : Nat) : State × List Byte × List Nat :=
  let (s1, r) := s.openLine d ctx t
  let at_ := fun i => match r with
    | .open_ => s1.sliceByte (t + i)
    | _ => (s1.unseen (t + i)).setWidth 8
  (s1, (List.range n).map at_, (List.range n).map fun i => s1.sliceBad r (t + i))
/-- A read of w bytes of HBM by die d, for a context through an encrypted range or none (14 R347, R356, R360, R361; 16 R396, R410). -/
def State.readHbm (s : State) (d ctx t w : Nat) : Got :=
  let r := s.readSlice d ctx t w
  ⟨r.1, ofBytes r.2.1, worstOf r.2.2⟩

/-- The poison of one 8-byte word that a write covers in part or whole (14 R360). A word that fails persistently stays poisoned (R362). -/
def State.wordPoison (s : State) (w : Nat) (whole bad : Bool) : State :=
  let s1 := if whole then { s with sealBad := tset false s.sealBad w false } else s
  if bad || s.deadWords.contains w then { s1 with poison := tset false s1.poison w true }
  else if whole then { s1 with poison := tset false s1.poison w false } else s1
/-- Whether an address lies in its die's task area, whose slots only the scheduler writes, but for their doorbells (15 R376). -/
def State.inTasks (s : State) (t : Nat) : Bool :=
  !(s.die (ownerDie t)).config.isEmpty && decide (s.taskBase (ownerDie t) ≤ t ∧ t < s.taskBase (ownerDie t) + 256 * Config.taskSlots)
/-- What an agent has written of a task slot beside its doorbell, or of a space table or a directory in use, is unspecified from then on (00 R7;
13 R335; 15 R376). -/
def State.misused (s : State) (t n : Nat) : State := if s.inTasks t || s.inSpaces t n then s.spoil t n else s
/-- A write of the marked bytes of one sector by die d: bytes, marks, and by word of the sector whether the data is poisoned. -/
def State.writeSector (s : State) (d ctx t : Nat) (bytes : List Byte) (mask : BitVec 64) (bad : Nat → Bool) : State :=
  if inChofer t then s.dropChofer
  else if !s.linked d (ownerDie t) then s
  else
    let (s1, r) := s.openLine d ctx t true
    let s2 := s1.claimLine ctx t r
    let s3 := (List.range 64).foldl (fun (st : State) i => if mask.getLsbD i then st.putByte (t + i) (bytes.getD i 0) else st) s2
    let s4 := if s.inTasks t || s.inSpaces t 64 then (List.range 64).foldl (fun (st : State) i => if mask.getLsbD i then st.misused (t + i) 1 else st) s3 else s3
    (List.range 8).foldl (fun (st : State) k =>
      let m := mask.extractLsb' (8 * k) 8
      if m = 0 then st else st.wordPoison (t / 8 + k) (m == 0xFF) (bad k)) s4

/-- A write to a doorbell: an 8-byte one with its resv field 0 is a decrement for the die's scheduler, any other is dropped and counted
(15 R376). -/
def State.ringBell (s : State) (t w v slot : Nat) : State :=
  let d := ownerDie t
  let die := s.die d
  if w = 8 ∧ t % 8 = 0 ∧ bitsOf v 47 16 = 0 then
    let h : BitVec 32 := BitVec.ofNat 32 (bitsOf v 63 48 * 2 ^ 16 + 0x8000 + fieldAt d 3 12 + slot)
    s.setDie d { die with decrements := die.decrements ++ [⟨h, v % 2 ^ 16, none⟩] }
  else s.countSluice d 0x06 1

/-- A write of w bytes of HBM by die d at its slice, for a context through an encrypted range or none (14 R347, R360; 16 R410). -/
def State.writeOpen (s : State) (d ctx t w v : Nat) (bad : Bool) : State :=
  let (s1, r) := s.openLine d ctx t true
  (s1.claimLine ctx t r).writeMem t w v bad
/-- A write of w bytes of HBM by die d that an agent makes (14 R361; 15 R376; 16 R396). -/
def State.writeHbm (s : State) (d ctx t w v : Nat) (bad : Bool) : State :=
  if inChofer t then s.dropChofer
  else if !s.linked d (ownerDie t) then s
  else match s.doorbellOf t w with
  | some slot => s.ringBell t w v slot
  | none => (s.writeOpen d ctx t w v bad).misused t w
/-- An atomic action of w bytes of HBM by die d as one request: the old value with its poison code is what f is given, and what it answers
is written; a poisoned word stays so (14 R360, R364). -/
def State.atomHbm (s : State) (d ctx t w : Nat) (f : Nat → Nat) : Got :=
  let r := s.readSlice d ctx t w
  let old := ofBytes r.2.1
  let bad := worstOf r.2.2
  if inChofer t then ⟨r.1.dropChofer, old, bad⟩
  else if bad = 5 then ⟨r.1, old, bad⟩
  else match r.1.doorbellOf t w with
  | some slot => ⟨r.1.ringBell t w (f old) slot, old, bad⟩
  | none =>
    let own := tget 0 r.1.owners (t / 256)
    let reach : Reach := if own ≠ 0 ∧ own ≠ ctx then .hidden else .open_
    ⟨((r.1.claimLine ctx t reach).writeMem t w (f old) (bad ≠ 0)).misused t w, old, bad⟩

end Sys2Proof.Machine
end

