-- ==== Sys2Proof/Machine/Ops.lean ====
section
/-! DEFINITION. The named operations over the state: rings in memory, faults and their records, taking a fault, entering and leaving a user
handler, ending a group, range records and translation. -/

namespace Sys2Proof.Machine

/-! ### Structures of the hardware's own in memory (08 R223; 15 R384; 16 R412) -/

/-- The sectors of a line that its partial copies touch, which the host may hold: merging writes them (14 R356; 17 R422). -/
def State.mergeHeld (s : State) (line : Nat) : List Nat :=
  (s.diesT.flatMap fun (d : Nat × DieSt) => d.2.partials.flatMap fun (p : Partial) =>
    if p.line = line then p.words.map fun (w : Nat × W64) => w.1 / 64 else []).eraseDups.filter fun sec => (tfind s.host.held sec).isSome
/-- The sectors of n bytes from t, and those of their lines to which partial copies are to be merged, that the host may hold (17 R422). -/
def State.hostHolds (s : State) (t n : Nat) : List Nat :=
  ((List.range ((t % 64 + n + 63) / 64)).map (t / 64 + ·)).filter (fun sec => (tfind s.host.held sec).isSome) ++ s.mergeHeld (t / 256)
/-- A write by die d of n bytes of a structure of its own, for a context's structure or none: dropped in the Chofer area, lost on a link that is
down (14 R361; 16 R396). -/
def State.ownNow (s : State) (d ctx t n v : Nat) : State :=
  if inChofer t then s.dropChofer else if !s.linked d (ownerDie t) then s else s.writeOpen d ctx t n v false
/-- The same, once the host has answered for what it may hold, and behind the die's writes that wait for that (17 R422). -/
def State.ownWrite (s : State) (d ctx t n v : Nat) : State :=
  if (s.die d).own.isEmpty && (s.hostHolds t n).isEmpty then s.ownNow d ctx t n v
  else
    let s1 := (s.hostHolds t n).foldl (fun (st : State) sec => st.askHost (64 * sec) 1) s
    s1.setDie d { s1.die d with own := (s1.die d).own ++ [(t, ctx, n, v)] }
/-- A read by die d of n bytes of such a structure: the state after, and the value (14 R347, R356). Of a sector that the host may hold exclusive it
gives what memory holds (log 62). -/
def State.ownRead (s : State) (d ctx t n : Nat) : State × Nat :=
  match (s.die d).own.reverse.find? fun x => x.1 == t with
  | some x => (s, x.2.2.2)
  | none => let g := s.readHbm d ctx t n; (g.s, g.v)
/-- The writes of a die that need wait no longer are made, in order. -/
def State.drainOwn (s : State) (d : Nat) : Nat → State
  | 0 => s
  | fuel + 1 => match (s.die d).own with
    | (t, ctx, n, v) :: r =>
      if (s.hostHolds t n).isEmpty then ((s.setDie d { s.die d with own := r }).ownNow d ctx t n v).drainOwn d fuel else s
    | [] => s

/-! ### Rings in memory (08 R223, 10 R291, 11 R307) -/

/-- Whether a ring of a die, or of a context, has room for n records: the state after its head is read, and whether it has. -/
def State.ringRoom (s : State) (d ctx : Nat) (r : Ring) (n : Nat) : State × Bool :=
  let h := s.ownRead d ctx (r.header + 8) 8
  (h.1, decide (r.written - h.2 + n ≤ 2 ^ r.log2cap))
/-- Writes the record words of i into a ring of records of n bytes, then the tail; none when the ring is full. -/
def State.ringWrite (s : State) (d ctx : Nat) (r : Ring) (n : Nat) (words : List W64) : Option (State × Ring) :=
  let room := s.ringRoom d ctx r 1
  if room.2 then
    let at_ := r.header + 0x100 + n * (r.written % 2 ^ r.log2cap)
    let s1 := (List.range words.length).foldl (fun st i => st.ownWrite d ctx (at_ + 8 * i) 8 (words.getD i 0).toNat) room.1
    some (s1.ownWrite d ctx r.header 8 (r.written + 1), { r with written := r.written + 1 })
  else none
/-- Counts a record that found its ring full in the word at 0x18. -/
def State.ringFull (s : State) (d ctx : Nat) (r : Ring) : State :=
  let c := s.ownRead d ctx (r.header + 0x18) 8
  c.1.ownWrite d ctx (r.header + 0x18) 8 (c.2 + 1)

/-- The ring of a context by its place in the context block: 0 fault, 1 note, 2 sample, 3 trace (16 Table 16.9). -/
def State.ctxRing (s : State) (ctx i : Nat) : Option Ring :=
  (tfind s.chofer.contexts ctx).bind fun c => c.rings[i]?
def State.setCtxRing (s : State) (ctx i : Nat) (r : Ring) : State :=
  { s with chofer := { s.chofer with contexts := tmod s.chofer.contexts ctx fun c => { c with rings := c.rings.set i r } } }

/-- Writes a fault record to the ring of a die (ctx = 0) or of a context; a full or absent ring keeps it pending behind the earlier
pending records (08 R223). -/
def State.faultOut (s : State) (die ctx : Nat) (words : List W64) : State :=
  let d := s.die die
  let ring := if ctx = 0 then d.faultRing else s.ctxRing ctx 0
  let wait := fun (st : State) => st.setDie die { st.die die with pending := (st.die die).pending ++ [⟨ctx, words⟩] }
  if d.pending.any fun p => p.ctx = ctx then wait (match ring with | some r => s.ringFull die ctx r | none => s)
  else match ring with
    | none => wait s
    | some r =>
      match s.ringWrite die ctx r 64 words with
      | some (s1, r1) => if ctx = 0 then s1.setDie die { s1.die die with faultRing := some r1 } else s1.setCtxRing ctx 0 r1
      | none => wait (s.ringFull die ctx r)

/-- Writes a record of a die's note, sample or trace ring (i = 1, 2, 3) or of a context's; a record that finds the ring full is
discarded and counted. -/
def State.recordOut (s : State) (die ctx i n : Nat) (words : List W64) : State :=
  let d := s.die die
  let ring := if ctx = 0 then (if i = 1 then d.noteRing else if i = 2 then d.sampleRing else d.traceRing) else s.ctxRing ctx i
  match ring with
  | none => s
  | some r =>
    match s.ringWrite die ctx r n words with
    | some (s1, r1) =>
      let d1 := s1.die die
      if ctx = 0 then s1.setDie die (if i = 1 then { d1 with noteRing := some r1 } else if i = 2 then { d1 with sampleRing := some r1 }
        else { d1 with traceRing := some r1 })
      else s1.setCtxRing ctx i r1
    | none => s.ringFull die ctx r

/-! ### Faults (01 R31 to R34, R458) -/

/-- One fault of an instruction: class, code, the lanes that raise it, the lowest address and the range index there. -/
structure Flt where
  cls   : Nat
  code  : Nat
  lanes : LaneMask := 0
  addr  : Option Nat := none
  index : Option Nat := none
  deriving DecidableEq, Repr

/-- The place of a class in the order of 01 R34. -/
def classRank (c : Nat) : Nat :=
  match c with
  | 0x01 => 0 | 0x02 => 1 | 0x0F => 2 | 0x03 => 3 | 0x08 => 4 | 0x04 => 5 | 0x05 => 6 | 0x06 => 7 | 0x07 => 8
  | n => 9 + n

/-- The fault with the lower address. -/
def lowerAddr (a b : Flt) : Flt :=
  match a.addr, b.addr with
  | some x, some y => if y < x then b else a
  | none, some _ => b
  | _, _ => a

/-- Joins two faults of one class: the lowest code, every lane, the lowest address with its index. -/
def joinFault (a b : Flt) : Flt :=
  { cls := a.cls, code := min a.code b.code, lanes := a.lanes ||| b.lanes, addr := (lowerAddr a b).addr, index := (lowerAddr a b).index }

/-- The fault a record names when an instruction meets several (01 R34). -/
def pickFault : List Flt → Option Flt
  | [] => none
  | a :: r => match pickFault r with
    | none => some a
    | some b => if a.cls = b.cls then some (joinFault a b) else if classRank a.cls ≤ classRank b.cls then some a else some b

/-- Bit 10 of a fault record (01 Table 1.8). -/
def restartable (cls code : Nat) : Bool :=
  match cls with
  | 0x05 | 0x06 | 0x07 => true
  | 0x08 => code == 9
  | 0x0D => code == 1
  | 0x10 => code == 2 || code == 3 || code == 4
  | 0x12 => code != 1
  | _ => false

/-- Bit 8 of a fault record (01 Table 1.8). -/
def addrValid (cls code : Nat) : Bool :=
  match cls with
  | 0x03 => code == 0x10 || code == 0x11
  | 0x04 | 0x05 | 0x06 | 0x07 => true
  | 0x08 => code == 9
  | 0x09 => code == 3
  | 0x10 => code == 2 || code == 3 || code == 4
  | 0x12 => code == 2
  | _ => false

/-- The identification word of a group (01 Table 1.7, offset 0x10). -/
def State.ident (s : State) (gid : Nat) (g : Group) : W64 :=
  BitVec.ofNat 64 (fieldAt (s.team g.team).index 32 32 + fieldAt s.chofer.package 8 24 + fieldAt (dieOf gid) 3 16 +
    fieldAt (coreOf gid % 16) 8 8 + slotOf gid)

/-- The four region entries of a record, top first (11 R302). -/
def regionWord (c : Ctx) : W64 :=
  let r := fun i => (c.regions.getD i 0).toNat
  BitVec.ofNat 64 (fieldAt (r 3) 16 48 + fieldAt (r 2) 16 32 + fieldAt (r 1) 16 16 + r 0)

/-- A fault record of a group (01 Table 1.7). -/
def State.faultWords (s : State) (gid : Nat) (g : Group) (pc : Addr) (f : Flt) : List W64 :=
  let l := s.launchOf g
  let av := addrValid f.cls f.code
  [ BitVec.ofNat 64 (fieldAt l.ctx 32 32 + fieldAt f.code 16 16 + (if 16 < g.ctx.rdepth then 2 ^ 12 else 0) +
      (if restartable f.cls f.code then 2 ^ 10 else 0) + (if f.index.isSome then 2 ^ 9 else 0) + (if av then 2 ^ 8 else 0) + f.cls),
    BitVec.ofNat 64 pc.toNat,
    s.ident gid g,
    BitVec.ofNat 64 (fieldAt l.asid 12 48 + fieldAt (f.index.getD 0) 16 32 + (s.handle g.task).toNat),
    f.lanes.extractLsb' 0 64, f.lanes.extractLsb' 64 64,
    BitVec.ofNat 64 (if av then (f.addr.getD 0) % 2 ^ 56 else 0),
    regionWord g.ctx ]

/-- What a die's fault queue receives of a record whose launch runs in a confidential context: class, code, restartable bit, context,
identification word and launch (01 R33). -/
def withheld (w : List W64) : List W64 :=
  let h := (w.getD 0 0).toNat
  [ BitVec.ofNat 64 (bitsOf h 63 32 * 2 ^ 32 + bitsOf h 31 16 * 2 ^ 16 + 2 ^ 11 + bitsOf h 10 10 * 2 ^ 10 + bitsOf h 7 0),
    0, w.getD 2 0, BitVec.ofNat 64 (bits (w.getD 3 0) 31 0), 0, 0, 0, 0 ]

/-- Takes a fault: the group parks (parked: fault) with its record, and the record goes to the die's fault queue, and in a confidential
context also whole to the context's encrypted area (01 R31 to R33). The PC of the record is the group's own. -/
def State.takeFault (s : State) (gid : Nat) (g : Group) (f : Flt) (length : Option Nat) (after : Bool := false) : State :=
  let words := s.faultWords gid g g.ctx.pc f
  let ctx := (s.launchOf g).ctx
  let plain := if ctx = 0 then words else withheld words
  let rec_ : FaultRec := { words := words, plain := plain, restartable := restartable f.cls f.code, length := length, after := after }
  let kept := { g.ctx with fpsr := g.outst.foldl (fun m o => m ||| o.flags) g.ctx.fpsr }
  let s1 := s.setGroup gid { g with stat := .parkedFault, fault := some rec_, ctx := kept, outst := [], ra := none, stop := none, answers := [],
                                    age := 0, aged := false, released := false, granted := none }
  let s1 := { s1 with replies := s1.replies.filter fun r => r.who != gid, needs := s1.needs.filter fun n => n.1 != gid }
  let s2 := { s1 with chofer := { s1.chofer with faults := s1.chofer.faults + 1 } }
  let s3 := if ctx = 0 then s2 else s2.faultOut (dieOf gid) ctx words
  s3.faultOut (dieOf gid) 0 plain

/-- Enters the user handler at base H for trap n: the return PC and AM are saved, AM := T, in handler, continue at H + 64n (04 R120). -/
def Ctx.enterHandler (c : Ctx) (h : Addr) (n : Nat) (ret : Addr) (t : LaneMask) : Ctx :=
  { c with inHandler := true, trapPc := ret, trapAm := c.am, am := t, pc := h + BitVec.ofNat 56 (64 * n) }
/-- Returns from the handler: the saved PC, AM := saved AM and LIVE, not in handler (04 R121). -/
def Ctx.leaveHandler (c : Ctx) : Ctx :=
  { c with inHandler := false, pc := c.trapPc, am := c.trapAm &&& c.live }

/-! ### Registers of a context -/

def Ctx.vGet (c : Ctx) (name lane : Nat) : W32 := tget 0 c.v (128 * name + lane)
def Ctx.vBad (c : Ctx) (name lane : Nat) : Nat := tget 0 c.vPoison (128 * name + lane)
def Ctx.gGet (c : Ctx) (i : Nat) : W64 := tget 0 c.g i
def Ctx.gBad (c : Ctx) (i : Nat) : Nat := tget 0 c.gPoison i
def Ctx.maskGet (c : Ctx) (i : Nat) : LaneMask := tget 0 c.masks i
/-- A predicate lane: p0 reads true; 0b11 reads undecided (01 R25). -/
def Ctx.predGet (c : Ctx) (p lane : Nat) : BitVec 2 :=
  if p = 0 then 1 else
    let v := tget 0 c.preds (128 * p + lane)
    if v = 3 then 2 else v
/-- Writes one lane of a vector register, with its poison (01 R29). -/
def Ctx.vSet (c : Ctx) (name lane : Nat) (v : W32) (bad : Nat) : Ctx :=
  { c with v := tset 0 c.v (128 * name + lane) v, vPoison := tset 0 c.vPoison (128 * name + lane) bad }
/-- Writes a uniform register, with its poison. -/
def Ctx.gSet (c : Ctx) (i : Nat) (v : W64) (bad : Nat) : Ctx :=
  { c with g := tset 0 c.g i v, gPoison := tset 0 c.gPoison i bad }
/-- Writes one lane of a predicate; writes to p0 are discarded (01 R25). -/
def Ctx.predSet (c : Ctx) (p lane : Nat) (v : BitVec 2) : Ctx :=
  if p = 0 then c else { c with preds := tset 0 c.preds (128 * p + lane) v }
def Ctx.maskSet (c : Ctx) (i : Nat) (m : LaneMask) : Ctx := { c with masks := tset 0 c.masks i m }
/-- Removes every lane of a name: it reads as 0 with poison clear (01 R17). -/
def Ctx.clearName (c : Ctx) (name : Nat) : Ctx :=
  { c with v := c.v.filter fun e => e.1 / 128 != name, vPoison := c.vPoison.filter fun e => e.1 / 128 != name,
           bound := c.bound.filter (· != name) }
/-- Binds a name (01 R17): it is in the bound set, in rising order. -/
def insertName (n : Nat) : List Nat → List Nat
  | [] => [n]
  | m :: r => if n < m then n :: m :: r else if n = m then m :: r else m :: insertName n r
def Ctx.bind (c : Ctx) (name : Nat) : Ctx := { c with bound := insertName name c.bound }

/-! ### Ending a group (04 R108) -/

/-- Completes a barrier phase when its arrivals reach the participants: the count goes to 0 and the parity flips (08 R225). -/
def Team.complete (t : Team) (id : Nat) : Team :=
  if tget 0 t.arrivals id ≠ 0 ∧ t.members ≤ tget 0 t.arrivals id then
    { t with arrivals := tset 0 t.arrivals id 0, parity := tset false t.parity id (!tget false t.parity id) }
  else t
/-- Adds an arrival, which may complete the phase. -/
def Team.arrive (t : Team) (id : Nat) : Team :=
  { t with arrivals := tset 0 t.arrivals id (tget 0 t.arrivals id + 1) }.complete id

/-- The group ends: it stops counting toward its team at that moment, its trap state is discarded, and a barrier phase may complete
(04 R108, 08 R225). -/
def State.finishGroup (s : State) (gid : Nat) (g : Group) : State :=
  let t := s.team g.team
  let t1 := if g.spawned then t else { t with members := t.members - 1 }
  let t2 := if g.spawned then t1 else (((t1.complete 0).complete 1).complete 2).complete 3
  (s.setTeam g.team t2).setGroup gid
    { g with stat := .ended, ra := none, fault := none, ctx := { g.ctx with live := 0, am := 0, inHandler := false, trapPc := 0, trapAm := 0 } }

/-- Its names and its slot are freed and it leaves its team. -/
def State.freeGroup (s : State) (gid : Nat) (g : Group) : State :=
  let t := s.team g.team
  { (s.setTeam g.team { t with groups := t.groups.filter (· != gid) }) with groups := tdel s.groups gid }

/-! ### Range records (10 R274, R275) and translation (R276 to R278) -/

namespace RangeRec
def valid (r : RangeRec) : Bool := r.w0.getLsbD 63
def alias_ (r : RangeRec) : Bool := r.w0.getLsbD 62
def part (r : RangeRec) : Bool := r.w0.getLsbD 61
def enc (r : RangeRec) : Bool := r.w0.getLsbD 60
def notify (r : RangeRec) : Bool := r.w0.getLsbD 59
def moving (r : RangeRec) : Bool := r.w0.getLsbD 58
def base (r : RangeRec) : Nat := bits r.w0 55 6 * 64
def permA (r : RangeRec) : Bool := r.w0.getLsbD 3
def permX (r : RangeRec) : Bool := r.w0.getLsbD 2
def permW (r : RangeRec) : Bool := r.w0.getLsbD 1
def permR (r : RangeRec) : Bool := r.w0.getLsbD 0
def asid (r : RangeRec) : Nat := bits r.w1 63 52
def limit (r : RangeRec) : Nat := bits r.w1 49 0 * 64
def size (r : RangeRec) : Nat := r.limit - r.base
def ctx (r : RangeRec) : Nat := bits r.w2 63 52
def target (r : RangeRec) : Nat := bits r.w2 49 0 * 64
def rhi (r : RangeRec) : Nat := bits r.w3 63 32
def rlo (r : RangeRec) : Nat := bits r.w3 31 0
/-- The new target of a migrating range: bits [39:8] from the record, bits [55:40] those of the target. -/
def newTarget (r : RangeRec) : Nat := bitsOf r.target 55 40 * 2 ^ 40 + bits r.w3 63 32 * 256
def cursor (r : RangeRec) : Nat := bits r.w3 31 0
def elemTy (r : RangeRec) : Nat := bits r.w3 63 62
def scaleBase (r : RangeRec) : Nat := bits r.w3 55 0
def covers (r : RangeRec) (va : Nat) : Bool := r.base ≤ va && va < r.limit
/-- Bytes of element data that back a 64-byte block: 32, or 16 for E2M1 (10 R278). -/
def blockBytes (r : RangeRec) : Nat := if r.elemTy = 2 then 16 else 32

/-- What RCOMP requires of a range's old and new extents (10 R288). -/
def moveOk (base limit target new : Nat) : Bool :=
  base % 256 = 0 && limit % 256 = 0 && target % 256 = 0 && new % 256 = 0 && limit - base ≤ 2 ^ 40 &&
  new / 2 ^ 40 = target / 2 ^ 40 && !(target < new && new < target + (limit - base))

/-- A valid record (10 R275). -/
def ok (r : RangeRec) : Bool :=
  r.valid && (r.alias_.toNat + r.part.toNat + r.moving.toNat ≤ 1) &&
  bits r.w0 57 56 = 0 && bits r.w0 5 4 = 0 && bits r.w1 51 50 = 0 && bits r.w2 51 50 = 0 &&
  decide (r.base < r.limit) && decide (r.target + r.size ≤ 2 ^ 56) &&
  (r.enc == decide (r.ctx ≠ 0)) &&
  (!r.alias_ || (!r.permX && !r.enc && decide (r.elemTy ≠ 3) && bits r.w3 61 56 = 0)) &&
  (!r.part || (decide (r.rlo ≤ r.rhi) && decide (r.rhi ≤ r.size / 64) && decide (r.size ≤ 2 ^ 38))) &&
  (!r.moving || (moveOk r.base r.limit r.target r.newTarget && decide (r.cursor ≤ r.size / 256))) &&
  (r.alias_ || r.part || r.moving || r.w3 = 0)
end RangeRec

/-- How an access uses a range (10 Table 10.2). -/
inductive Acc where
  | read | write | fetch | atomic | hint
  deriving DecidableEq, Repr

/-- Where a translated address lies. -/
inductive Place where
  /-- A team's scratchpad on a side of its pair, at an offset. -/
  | scratch (side off : Nat)
  /-- The pair's other scratchpad, through the pair link. -/
  | aperture (side off : Nat)
  /-- HBM of this package. -/
  | hbm (t : Nat)
  /-- Host memory, by host physical address. -/
  | host (h : Nat)
  /-- A local target of another package. -/
  | fabric (pkg t : Nat)
  /-- Offset of a conversion alias range. -/
  | alias_ (r : RangeRec) (off : Nat)
  deriving DecidableEq, Repr

/-- What translation gives: a place with the covering entry, a fault (class, code, range index), or a walk to wait for. -/
inductive Xlat where
  | ok (p : Place) (e : Option RangeEntry)
  | fault (cls code : Nat) (index : Option Nat)
  | walk
  deriving DecidableEq, Repr

/-- The port a package's accesses take: the first of its route entry that is up, else the second (17 R426). -/
def State.route (s : State) (pkg : Nat) : Option Nat :=
  match tfind s.chofer.routes pkg with
  | none => none
  | some (a, b) =>
    match a.filter fun p => (s.port p).up with
    | some p => some p
    | none => b.filter fun p => (s.port p).up

/-- The package a fabric address names: its field [55:48], the issuing package's own number naming package 0 (17 R425). -/
def State.packageOf (s : State) (t : Nat) : Nat :=
  let f := bitsOf t 55 48
  if f = s.chofer.package then 0 else f

/-- Whether the tag region of its die covers a local HBM address (16 R410). -/
def State.tagCovers (s : State) (t : Nat) : Bool :=
  let size := ((s.die (ownerDie t)).config.getD 9 0).toNat
  t % 2 ^ 37 < 8 * size

/-- The codes of a target that no memory backs, or that is out of reach (14 R344; 17 R419, R426). -/
def State.backCodes (s : State) (t : Nat) : List Nat :=
  if bitsOf t 55 48 = 0 then
    (if hbmEnd ≤ t ∧ t < hostBase then [7] else []) ++
    (if hostBase ≤ t ∧ !s.host.opened then [8] else [])
  else
    (if (bitsOf t 47 0 ≥ hbmEnd) then [7] else []) ++
    (if (s.route (s.packageOf t)).isNone then [9] else [])

/-- The range-permission codes that apply to an access of w bytes through a record to target address t, ascending; x is the address of the
block's scale byte in an alias range (10 Table 10.2, R278; 14 R344; 16 R410; 17 R419, R426). -/
def State.permCodes (s : State) (r : RangeRec) (ctx : Nat) (a : Acc) (w t x : Nat) : List Nat :=
  (if (a = .read ∨ a = .hint) ∧ !r.permR then [1] else []) ++
  (if a = .write ∧ !r.permW then [2] else []) ++
  (if a = .fetch ∧ !r.permX then [3] else []) ++
  (if a = .atomic ∧ !(r.permR && r.permW && r.permA) then [4] else []) ++
  (if r.enc ∧ r.ctx ≠ ctx then [5] else []) ++
  (if r.alias_ ∧ (a = .atomic ∨ w = 1) then [6] else []) ++
  (leastOf (s.backCodes t ++ if r.alias_ then s.backCodes x else [])).toList ++
  (if r.enc ∧ (if bitsOf t 55 48 = 0 then t < hbmEnd ∧ !s.tagCovers t
     else !Config.farCovered (s.packageOf t) (bitsOf t 47 0)) then [10] else [])

/-- The place of a target address. -/
def State.placeOf (s : State) (t : Nat) : Place :=
  if bitsOf t 55 48 = 0 then (if hostBase ≤ t then .host (t - hostBase) else .hbm t)
  else .fabric (s.packageOf t) (bitsOf t 47 0)

/-- The target address of an offset of a range that is no alias (10 R277). -/
def RangeRec.targetOf (r : RangeRec) (off : Nat) : Nat :=
  if r.moving ∧ off / 256 < r.cursor then r.newTarget + off else r.target + off

/-- The index of the directory record that covers va, where this copy does (13 R334). -/
def RangeEntry.indexAt (e : RangeEntry) (va : Nat) : Nat := e.more.foldl (fun n x => if x.1 ≤ va then x.2 else n) e.index
/-- Translation of an access of w bytes at va through a covering record (10 R277). -/
def State.through (s : State) (e : RangeEntry) (ctx : Nat) (a : Acc) (w va : Nat) : Xlat :=
  let r := e.image
  let off := va - r.base
  let t := if r.alias_ then r.target + r.blockBytes * (off / 64) else r.targetOf off
  match s.permCodes r ctx a w t (r.scaleBase + off / 64) with
  | c :: _ => .fault 6 c (some (e.indexAt va))
  | [] =>
    if r.part ∧ (off < 64 * r.rlo ∨ 64 * r.rhi ≤ off) then .fault 7 1 (some (e.indexAt va))
    else if r.alias_ then .ok (.alias_ r off) (some e)
    else .ok (s.placeOf t) (some e)

/-- The entry of a core's range table that covers va in an address space (10 R276). -/
def CoreSt.find (c : CoreSt) (asid va : Nat) : Option RangeEntry :=
  c.rtable.find? fun e => e.image.asid = asid ∧ e.image.covers va
/-- The entry becomes the most recently used; a new one replaces the least recently used (10 R276). -/
def CoreSt.use (c : CoreSt) (e : RangeEntry) : CoreSt :=
  { c with rtable := (e :: c.rtable.filter fun x => !(x.image.asid = e.image.asid ∧ x.image.base = e.image.base)).take Config.rangeTableSize }

/-- The walk answer a group holds for va. -/
def Group.answer (g : Group) (asid va : Nat) : Option WalkResult :=
  (g.answers.find? fun a => a.asid == asid && !a.raw && (match a.res with
    | .found e => e.image.covers va
    | .miss _ _ => decide (a.va = va))).map (·.res)

/-- Translation of a global address for a group: by its core's range table, else by the answer of a walk, else a walk (10 R276). -/
def State.xlat (s : State) (gid : Nat) (g : Group) (a : Acc) (w va : Nat) : Xlat :=
  let l := s.launchOf g
  match (s.core (coreOf gid)).find l.asid va with
  | some e => s.through e l.ctx a w va
  | none =>
    match g.answer l.asid va with
    | some (.found e) => s.through e l.ctx a w va
    | some (.miss c _) => .fault 5 c none
    | none => .walk

/-- Counts an event of a core for a group (11 R313, R314). -/
def State.countFor (s : State) (gid : Nat) (g : Group) (e n : Nat) : State :=
  s.countCtx (s.launchOf g).ctx (coreOf gid / 16) (coreOf gid % 16) e n
/-- Asks the cluster's walker for addresses and makes the group wait (10 R276, 13 R332). -/
def State.askWalk (s : State) (gid : Nat) (g : Group) (vas : List Nat) (ra : Bool) (why : Nat := 0) : State :=
  let cl := clusterOf gid
  let c := s.cluster cl
  let asid := (s.launchOf g).asid
  let reqs := vas.eraseDups.map fun va => ({ gid := some gid, core := coreOf gid, asid := asid, va := va, ra := ra, why := why } : WalkReq)
  (s.setCluster cl { c with queue := c.queue ++ reqs }).countFor gid g 0x21 vas.eraseDups.length

end Sys2Proof.Machine
end

