-- ==== Sys2Proof/Machine/Operands.lean ====
section
/-! DEFINITION. Issue: which lanes execute, the operand forms with their faults, poison and hazards, the register pool, and what
follows an instruction's effect (01 R14 to R30; 03 R65 to R69; 07 R180 to R186; 10 R295). -/

namespace Sys2Proof.Machine

/-! ### Outstanding results (07 R180 to R183) -/

/-- Whether a result with a fixed distance may be read by the instruction that issues as number n (07 R181, case 2). -/
def Outst.reached (o : Outst) (n : Nat) : Bool :=
  match o.fixed with
  | some d => o.seq + d ≤ n
  | none => false
/-- The flags of results. -/
def flagsOf (l : List Outst) : BitVec 6 := l.foldl (fun m o => m ||| o.flags) 0
/-- Results whose distance has passed are written before the next instruction issues. -/
def Group.settled (g : Group) : Group :=
  { g with outst := g.outst.filter fun o => !o.reached g.issued,
           ctx := { g.ctx with fpsr := g.ctx.fpsr ||| flagsOf (g.outst.filter fun o => o.reached g.issued) } }
/-- Every outstanding result is written. -/
def Group.written (g : Group) : Group := { g with outst := [], ctx := { g.ctx with fpsr := g.ctx.fpsr ||| flagsOf g.outst } }
/-- Whether a lane of a vector register, a uniform register or a lane of a predicate has an outstanding write. -/
def Group.pendV (g : Group) (name lane : Nat) : Bool := g.outst.any fun o => o.regs.any fun r => r.1 == name && r.2.getLsbD lane
def Group.pendG (g : Group) (i : Nat) : Bool := g.outst.any fun o => o.gs.contains i
def Group.pendP (g : Group) (p lane : Nat) : Bool := g.outst.any fun o => o.preds.any fun r => r.1 == p && r.2.getLsbD lane

/-! ### An instruction at issue -/

/-- What the issue of an instruction knows: its group, itself, its launch and its executing lanes (01 R26). -/
structure Iss where
  gid   : Nat
  g     : Group
  o     : Op
  f     : Fields
  l     : Launch
  lanes : LaneMask

namespace Iss
def ctx (i : Iss) : Ctx := i.g.ctx
def width (i : Iss) : Nat := i.g.width
def list (i : Iss) : List Nat := lanesOf i.g.width i.lanes
def pc (i : Iss) : Addr := i.g.ctx.pc
/-- PC + 4 × (1 + X). -/
def next (i : Iss) : Addr := i.g.ctx.pc + (if i.f.x then 8 else 4)
def length (i : Iss) : Nat := if i.f.x then 8 else 4
def ra (i : Iss) : Bool := i.g.ra.isSome
def mb (i : Iss) (hi lo : Nat) : Nat := i.f.mb i.o hi lo
def mbit (i : Iss) (n : Nat) : Bool := i.f.mbit i.o n
def ty (i : Iss) : Ty := i.f.ty i.o
end Iss

/-- What a predicate lane reads as: an unspecified value while its write is outstanding (07 R181; log 5). -/
def State.readPred (s : State) (g : Group) (p lane : Nat) : BitVec 2 :=
  if p ≠ 0 ∧ g.pendP p lane then
    let v := (s.free (0x110000 + 128 * p + lane)).setWidth 2
    if v = 3 then 2 else v
  else g.ctx.predGet p lane

/-- Whether a predicate value satisfies a guard mode (01 Table 1.4). -/
def modeHolds (mode : Nat) (v : BitVec 2) : Bool :=
  match mode with
  | 0 => v == 1
  | 1 => v == 0
  | 2 => v == 2
  | _ => v == 0 || v == 2

/-- The executing lanes of an instruction (01 R26, 03 R68). -/
def State.execLanes (s : State) (g : Group) (f : Fields) : LaneMask :=
  if f.g = 0 then g.ctx.am
  else maskOf ((lanesOf g.width g.ctx.am).filter fun l => modeHolds f.gm.toNat (s.readPred g f.g.toNat l))

/-- How the effect of an instruction ends. -/
inductive Res where
  /-- Performed: the state, the issuing group (not yet put back), its next PC and its outstanding result. -/
  | done (s : State) (g : Group) (pc : Addr) (out : Option Outst)
  /-- Performed, and the group parks until what it waits for (BAR.hold). -/
  | hold (s : State) (g : Group) (pc : Addr) (w : Wait)
  /-- Performed, and the group ends (04 R107, R108). -/
  | leaves (s : State) (g : Group)
  /-- No effect: the group parks and issues the instruction again. -/
  | wait (s : State) (g : Group) (w : Wait)
  /-- Performed in every lane, and then the group parks with this fault (06 R159). -/
  | faulted (s : State) (g : Group) (f : Flt) (out : Option Outst)
  /-- Faults; the record names one of them (01 R34). -/
  | fault (s : State) (fs : List Flt)
  /-- Not issued: runahead ends (10 Table 10.6). -/
  | endRunahead

/-! ### Operand forms -/

/-- What a 7-bit register field names (01 R14). -/
inductive Reg where
  | v (field : Nat)
  | g (i : Nat)
  | q (i : Nat)
  deriving DecidableEq, Repr

def regOf (fld : BitVec 7) : Reg :=
  let n := fld.toNat
  if n < 112 then .v n else if n < 124 then .g (n - 112) else .q (n - 124)

/-- A source operand: its field, the registers it spans and their alignment (01 Table 1.2), whether a g register may supply it, and the
data-poison code its role gives (01 R31). -/
structure Src where
  fld  : BitVec 7
  n    : Nat := 1
  al   : Nat := 1
  gOk  : Bool := true
  role : Nat := 1

/-- A destination: a register of n words, a predicate, or none. -/
inductive Dst where
  | reg (fld : BitVec 7) (n al : Nat) (gOk signed : Bool)
  | pred (p : Nat)
  | none

/-- The faults of a vector field of n registers with alignment al (01 R16, R18). What the field alone breaks names no lane: the spec does not say
which lanes raise it (log 43). -/
def vecFaults (i : Iss) (fld n al : Nat) : List Flt :=
  (if i.l.regs < i.ctx.wbase + fld + n - 1 then [⟨3, 1, 0, none, none⟩] else []) ++
  (if fld % al ≠ 0 ∨ 111 < fld + n - 1 then [⟨3, 2, 0, none, none⟩] else [])

/-- The faults of a source (01 R16, R18, R19, R23). -/
def srcFaults (i : Iss) (a : Src) : List Flt :=
  match regOf a.fld with
  | .v n => vecFaults i n a.n a.al
  | .g _ => if a.gOk then [] else [⟨3, 3, 0, none, none⟩]
  | .q 1 => [⟨3, 6, 0, none, none⟩]
  | .q _ => if a.gOk && a.n == 1 then [] else [⟨3, 6, 0, none, none⟩]

/-- The faults of an instruction with a g destination (01 R21). -/
def uniformFaults (i : Iss) (srcs : List Src) : List Flt :=
  (if srcs.any fun a => match regOf a.fld with | .g _ => false | _ => true then [⟨3, 4, 0, none, none⟩] else []) ++
  (if i.f.g ≠ 0 ∨ i.f.gm ≠ 0 then [⟨3, 5, 0, none, none⟩] else [])

/-- The faults of a destination (01 R16, R18, R19, R21, R23). -/
def dstFaults (i : Iss) (srcs : List Src) : Dst → List Flt
  | .reg fld n al gOk _ =>
    match regOf fld with
    | .v k => vecFaults i k n al
    | .g _ => (if gOk then [] else [⟨3, 3, 0, none, none⟩]) ++ uniformFaults i srcs
    | .q _ => [⟨3, 6, 0, none, none⟩]
  | _ => []

/-- Naming a queue register in more than one field (01 R23). -/
def queueTwice (fields : List (BitVec 7)) : List Flt :=
  if 1 < (fields.filter fun f => match regOf f with | .q _ => true | _ => false).length then [⟨3, 6, 0, none, none⟩] else []

/-- The fields an instruction names as registers. -/
def dstFields : Dst → List (BitVec 7)
  | .reg fld _ _ _ _ => [fld]
  | _ => []

/-- Every illegal-operand fault of sources and destination. -/
def operandFaults (i : Iss) (srcs : List Src) (d : Dst) : List Flt :=
  srcs.flatMap (srcFaults i) ++ dstFaults i srcs d ++ queueTwice (dstFields d ++ srcs.map (·.fld))

/-- A group-level instruction needs G = 0 and gm 00 (illegal operand 0x0005). -/
def groupLevel (i : Iss) : List Flt := if i.f.g ≠ 0 ∨ i.f.gm ≠ 0 then [⟨3, 5, 0, none, none⟩] else []
/-- Fields that must each name a g register (illegal operand 0x0008); queue registers in two of them are 01 R23's fault. -/
def mustG (flds : List (BitVec 7)) : List Flt :=
  flds.flatMap (fun fld => match regOf fld with | .g _ => [] | _ => [⟨3, 8, 0, none, none⟩]) ++ queueTwice flds
/-- Data poison of the uniform registers that a group-level instruction reads as data, and as addresses (01 R30, R31). The lane mask of a record
of such an instruction is empty: the spec does not say which lanes raise it (log 43). -/
def gPoisonFaults (i : Iss) (gs : List Nat) (addrs : List Nat := []) : List Flt :=
  let role := fun (n r : Nat) =>
    let c := if i.g.pendG n then 0 else i.ctx.gBad n
    if c = 0 then none else some (⟨8, if c = 1 then r else c, 0, none, none⟩ : Flt)
  if i.ra then [] else gs.filterMap (fun n => role n 1) ++ addrs.filterMap fun n => role n 3
/-- The g register a field names. -/
def gIndex (fld : BitVec 7) : Nat := fld.toNat - 112

/-! ### Reading -/

/-- One lane of a vector register as operand k: unspecified while its write is outstanding (07 R181; log 5). -/
def State.readV (s : State) (g : Group) (k name lane : Nat) : W32 :=
  if g.pendV name lane then (s.free (0x200000 + 0x10000 * k + 128 * name + lane)).setWidth 32 else g.ctx.vGet name lane
/-- A uniform register as operand k. -/
def State.readG (s : State) (g : Group) (k n : Nat) : W64 :=
  if g.pendG n then s.free (0x120000 + 16 * k + n) else g.ctx.gGet n

/-- The words a source supplies to a lane; pop is the word a queue source popped. -/
def State.readSrc (s : State) (i : Iss) (k : Nat) (pop : W32) (lane : Nat) (a : Src) : List W32 :=
  match regOf a.fld with
  | .v n => (List.range a.n).map fun j => s.readV i.g k (i.ctx.wbase + n + j) lane
  | .g n => (halves (s.readG i.g k n)).take a.n
  | .q _ => (pop :: List.replicate (a.n - 1) 0)

/-- The data-poison code a source gives in a lane, 0 for none (01 R30, R31): its role's code, or the code that the poison itself carries;
what is unspecified carries no poison. -/
def srcPoison (i : Iss) (lane : Nat) (a : Src) : Nat :=
  let code := fun n => if n = 0 then 0 else if n = 1 then a.role else n
  match regOf a.fld with
  | .v n => lowestOf ((List.range a.n).map fun j =>
      if i.g.pendV (i.ctx.wbase + n + j) lane then 0 else code (i.ctx.vBad (i.ctx.wbase + n + j) lane))
  | .g n => if i.g.pendG n then 0 else code (i.ctx.gBad n)
  | .q _ => 0

/-- Data-poison faults of sources over lanes (01 R30, R34). -/
def poisonFaults (i : Iss) (lanes : List Nat) (srcs : List Src) : List Flt :=
  srcs.flatMap fun a => lanes.filterMap fun l =>
    let c := srcPoison i l a
    if c = 0 then none else some ⟨8, c, laneBit l, none, none⟩

/-- The poisoned lanes of some source. -/
def poisonLanes (i : Iss) (lanes : List Nat) (srcs : List Src) : List Nat :=
  lanes.filter fun l => srcs.any fun a => srcPoison i l a ≠ 0

/-! ### Queues (01 R23, R24) -/

/-- The queue source among the fields, if any. -/
def queueSource (srcs : List Src) : Option Nat :=
  srcs.findSome? fun a => match regOf a.fld with | .q n => some n | _ => none

/-- The key of q2 or q3 of the group's team on its core. -/
def teamQueue (s : State) (gid : Nat) (g : Group) (q : Nat) : Nat := (if (s.team g.team).paired then 4 * sideOf gid else 0) + q

/-- Pops a queue: the word and the state after, or none when it is empty. -/
def State.popQueue (s : State) (gid : Nat) (g : Group) (q : Nat) : Option (W32 × State) :=
  if q = 0 then
    let u := s.unit (unitOf gid)
    match u.q0 with
    | [] => none
    | w :: r => some (w, s.setUnit (unitOf gid) { u with q0 := r })
  else
    let t := s.team g.team
    let k := teamQueue s gid g q
    match tget [] t.queues k with
    | [] => none
    | w :: r => some (w, (s.setTeam g.team { t with queues := tset [] t.queues k r }).modGroup gid fun g => { g with acquiring := true })

/-! ### The register pool (07 R185, R186) -/

/-- Slices a group holds: those of its bound names, of bindings freed while their writes are outstanding (R185), and those kept for an
instruction that has acted on another package. -/
def slicesOf (g : Group) : Nat :=
  match g.stat with
  | .saved _ _ => 0
  | _ => ((match g.ra with
    | none => g.ctx.bound.length
    | some r => r.saved.bound.length + r.bound.length) + (g.outst.flatMap (·.freed)).eraseDups.length) * (g.width / 32) + ((g.granted.map (·.1)).getD 0)
/-- Free slices of a quarter. -/
def State.freeSlices (s : State) (u : Nat) : Nat :=
  Config.slicesPerQuarter - (s.groups.filter fun e => unitOf e.1 = u).foldl (fun n e => n + slicesOf e.2) 0
/-- Whether a group is the oldest of its quarter among groups that are not saved. -/
def State.oldest (s : State) (gid : Nat) (g : Group) : Bool :=
  s.groups.all fun e => !(unitOf e.1 = unitOf gid) || e.1 == gid ||
    (match e.2.stat with | .saved _ _ => true | _ => decide (g.stamp < e.2.stamp))
/-- Whether a group may allocate n slices when free slices are free (07 R186; in runahead 10 R295). -/
def State.admits (s : State) (gid : Nat) (g : Group) (n : Nat) : Bool :=
  let free := s.freeSlices (unitOf gid)
  n == 0 || (if g.ra.isNone && s.oldest gid g then decide (n ≤ free) else decide (n + 64 ≤ free))

/-! ### Last-read bits and writes -/

/-- Pairs each source with the last-read bit of the field it stands in: sources stand in the order of their fields a, b, c, d. -/
def lastRead : List (BitVec 7 × Bool) → List Src → List (Src × Bool)
  | _, [] => []
  | fs, a :: r => match fs.findIdx? fun f => f.1 == a.fld with
    | some k => (a, ((fs[k]?).map (·.2)).getD false) :: lastRead (fs.eraseIdx k) r
    | none => (a, false) :: lastRead fs r
/-- The fields of an instruction that may name vector sources, in order, with their last-read bits; d has none. -/
def sourceFields (i : Iss) : List (BitVec 7 × Bool) :=
  ([(vecA i.o i.f, i.f.a, i.f.la), (vecB i.o i.f, i.f.b, i.f.lb), (vecC i.o i.f, i.f.c, i.f.lc), (true, i.f.d, false)].filter (·.1)).map (·.2)
/-- The vector names that the last-read bits free (03 R69). -/
def freedNames (i : Iss) (srcs : List Src) : List Nat :=
  (lastRead (sourceFields i) srcs).flatMap fun x =>
    if x.2 then match regOf x.1.fld with
      | .v n => (List.range x.1.n).map fun j => i.ctx.wbase + n + j
      | _ => []
    else []

/-- Takes names out of what results still write, for instruction number n; every result that writes a binding so freed keeps its slices until it
comes (R185). -/
def dropNames (n : Nat) (names : List Nat) (l : List Outst) : List Outst :=
  l.map fun o => { o with regs := o.regs.filter fun x => !names.contains x.1,
                          freed := o.freed ++ ((o.regs.map (·.1)).filter names.contains).map (512 * n + ·) }
/-- Frees names: in runahead only the runahead bindings (10 R295). -/
def Group.free (g : Group) (names : List Nat) : Group :=
  { g with ctx := names.foldl Ctx.clearName g.ctx,
           outst := dropNames g.issued names g.outst,
           ra := g.ra.map fun (r : Runahead) => { r with bound := r.bound.filter fun n => !names.contains n } }

/-- The names a destination of n registers at a field needs slices for: unbound ones, and in runahead those not bound in it. -/
def Group.needs (g : Group) (names : List Nat) : List Nat :=
  match g.ra with
  | none => names.filter fun n => !g.ctx.bound.contains n
  | some r => names.filter fun n => !r.bound.contains n

/-- Binds names for a write. -/
def Group.bindNames (g : Group) (names : List Nat) : Group :=
  { g with ctx := names.foldl Ctx.bind g.ctx, ra := g.ra.map fun (r : Runahead) => { r with bound := names.foldl (fun b n => insertName n b) r.bound } }

/-- Whether a lane of a vector register, or a uniform register, whose earlier write is still outstanding ends with that write: value and
poison (07 R182; log 5). -/
def State.keepsV (s : State) (g : Group) (name lane : Nat) : Bool := g.pendV name lane && (s.free (0x300000 + 128 * name + lane)).getLsbD 0
def State.keepsG (s : State) (g : Group) (n : Nat) : Bool := g.pendG n && (s.free (0x140000 + n)).getLsbD 0
/-- What it ends with: either one. -/
def State.mergeV (s : State) (g : Group) (name lane : Nat) (v : W32) : W32 := if s.keepsV g name lane then g.ctx.vGet name lane else v
def State.mergeVBad (s : State) (g : Group) (name lane bad : Nat) : Nat := if s.keepsV g name lane then g.ctx.vBad name lane else bad
def State.mergeG (s : State) (g : Group) (n : Nat) (v : W64) : W64 := if s.keepsG g n then g.ctx.gGet n else v
def State.mergeGBad (s : State) (g : Group) (n bad : Nat) : Nat := if s.keepsG g n then g.ctx.gBad n else bad
def State.mergeP (s : State) (g : Group) (p lane : Nat) (v : BitVec 2) : BitVec 2 :=
  if g.pendP p lane ∧ (s.free (0x150000 + 128 * p + lane)).getLsbD 0 then g.ctx.predGet p lane else v

/-- Writes the words of one lane from a name on. -/
def State.putWords (s : State) (g0 : Group) (c : Ctx) (name lane : Nat) (ws : List W32) (bad : Nat) : Ctx :=
  (List.range ws.length).foldl (fun c j => c.vSet (name + j) lane (s.mergeV g0 (name + j) lane (ws.getD j 0)) (s.mergeVBad g0 (name + j) lane bad)) c

/-- The 64-bit value written to a g register from the result's words: a 32-bit result is sign-extended for .s types and zero-extended
for every other (01 R21). -/
def gValue (signed : Bool) (ws : List W32) : W64 :=
  match ws with
  | [w] => if signed then w.signExtend 64 else w.setWidth 64
  | _ => join64 ws

/-- Clk until a load's data comes, by the level it goes to: the typical figures of 14 Table 14.3, which the spec does not promise (log 7). What
the host and other packages answer is awaited before the load is performed. -/
def latencyOf (level : Nat) : Nat := match level with | 3 => 160 | 4 => 330 | 5 => 620 | _ => 0

/-- What a lane's computation gives: result words or a predicate value, flags, and a fault of the lane. -/
structure LaneRes where
  words : List W32 := []
  pred  : BitVec 2 := 0
  flags : BitVec 6 := 0
  flt   : Option Flt := none
  /-- The lane writes nothing. -/
  skip  : Bool := false
  /-- The poison of the result: 0 none (runahead, and loads of poisoned data, set it). -/
  bad   : Nat := 0
  /-- The empty-interval code of a creating lane (06 R158, Table 6.8), 0 for none, and for ILD its address. -/
  made  : Nat := 0
  madeAt : Option Nat := none

/-- Writes lane results to a destination: the group after, and the result entry. -/
def State.writeDst (s : State) (i : Iss) (g : Group) (d : Dst) (fixed : Option Nat) (load : Bool) (rs : List (Nat × LaneRes)) :
    Group × Option Outst :=
  let flags := rs.foldl (fun m r => m ||| r.2.flags) 0
  let live := rs.filter fun r => !r.2.skip
  let lanes := maskOf (live.map (·.1))
  let o : Outst := { fixed := fixed, seq := g.issued, time := s.clock, load := load, regs := [], gs := [], preds := [], flags := flags,
                     due := if load then s.clock + latencyOf g.memLevel else 0,
                     pc := if load then i.pc else 0, crossed := if load then g.crossed else [] }
  match d with
  | .reg fld n _ _ signed =>
    match regOf fld with
    | .v k =>
      if live.isEmpty then (g, if flags = 0 then none else some o)
      else
        let name := i.ctx.wbase + k
        let names := (List.range n).map (name + ·)
        let g1 := g.bindNames names
        ({ g1 with ctx := live.foldl (fun c r => s.putWords g c name r.1 r.2.words r.2.bad) g1.ctx },
         some { o with regs := names.map fun m => (m, lanes) })
    | .g n =>
      match live with
      | [] => (g, none)
      | r :: _ => ({ g with ctx := g.ctx.gSet n (s.mergeG g n (gValue signed r.2.words)) (s.mergeGBad g n r.2.bad) }, some { o with gs := [n] })
    | .q _ => (g, none)
  | .pred p =>
    if live.isEmpty then (g, if flags = 0 then none else some o)
    else ({ g with ctx := live.foldl (fun c r => c.predSet p r.1 (s.mergeP g p r.1 r.2.pred)) g.ctx },
          some { o with preds := if p = 0 then [] else [(p, lanes)] })
  | .none => (g, if flags = 0 then none else some o)

/-- The vector names a destination binds. -/
def dstNames (i : Iss) : Dst → List Nat
  | .reg fld n _ _ _ => match regOf fld with
    | .v k => (List.range n).map (i.ctx.wbase + k + ·)
    | _ => []
  | _ => []

/-- Whether a destination is a uniform register. -/
def Dst.isG : Dst → Bool
  | .reg fld _ _ _ _ => match regOf fld with | .g _ => true | _ => false
  | _ => false

/-- The lanes an instruction computes: its executing lanes, or once (as lane 0) for a g destination (01 R21). A fault of that one computation
names lane 0: the spec does not say which lanes of a uniform instruction raise it (log 43). -/
def Iss.compute (i : Iss) (d : Dst) : List Nat := if d.isG then [0] else i.list

/-- Fixed distance of an instruction's result (07 Table 7.3, R183): 2 on the uniform ALU. -/
def fixedOf (d : Dst) (n : Nat) (alu : Bool) : Option Nat := some (if d.isG && alu then 2 else n)

/-- Whether an instruction over these sources pops q0 without holding the unit (09 R243): matrix not reserved, code 0x0002. -/
def queueFaults (s : State) (i : Iss) (q : Option Nat) : List Flt :=
  if q = some 0 ∧ (s.unit (unitOf i.gid)).holder ≠ some i.g.team then [⟨0x0E, 2, 0, none, none⟩] else []

/-- A lane's result in runahead when a source is poisoned (10 R295): unspecified bits with poison, an undecided predicate. -/
def LaneRes.taint (r : LaneRes) (s : State) (l : Nat) : LaneRes :=
  { r with bad := 1, pred := 2, flags := 0, flt := none, made := 0, words := r.words.map fun _ => (s.free (0x160000 + l)).setWidth 32 }
/-- A creating lane in runahead writes its interval with poison (06 R160). -/
def LaneRes.quiet (r : LaneRes) : LaneRes := if r.made = 0 then r else { r with bad := 1, made := 0 }

/-- The fault of the creating lanes (06 R159). -/
def madeFault (rs : List (Nat × LaneRes)) : Option Flt :=
  match rs.filter fun r => r.2.made ≠ 0 with
  | [] => none
  | r :: t => some ⟨9, r.2.made, maskOf ((r :: t).map (·.1)), leastOf ((r :: t).filterMap fun x => x.2.madeAt), none⟩

/-- The end of a lane-wise instruction: the faults of its lanes, allocation, frees and the write, and a creating lane's fault (06 R159). -/
def commitLanes (srcs : List Src) (d : Dst) (fixed : Option Nat) (load : Bool) (rs0 : List (Nat × LaneRes)) (i : Iss) (s : State) : Res :=
  let rs := if i.ra then rs0.map fun r => (r.1, r.2.quiet) else rs0
  let lf := rs.filterMap fun r => r.2.flt.map fun x => { x with lanes := laneBit r.1 }
  if !lf.isEmpty then .fault s lf
  else
    let g1 := i.g.free (freedNames i srcs)
    let need := if (rs.filter fun r => !r.2.skip).isEmpty then [] else g1.needs (dstNames i d)
    let n := need.length * (i.width / 32)
    if i.g.granted.isNone && !(s.setGroup i.gid g1).admits i.gid g1 n then (if i.ra then .endRunahead else .wait s i.g (.pool n (freedNames i srcs)))
    else
      let made := madeFault rs
      let rs1 := if made.isSome then rs.map fun r => (r.1, { r.2 with flags := r.2.flags ||| (if r.2.made = 0 then 0 else 0x20) }) else rs
      let (g2, out) := s.writeDst i g1 d fixed load rs1
      match made with
      | some f => if i.l.emptyMask then .done s g2 i.next out else .faulted s g2 f out
      | none => .done s g2 i.next out

/-- The lane-wise shape of an instruction: operand checks, a queue pop, poison, the computation of each lane, allocation, frees and the
write. dist is the fixed distance of its result in vector form, alu whether its uniform form runs on the uniform ALU. -/
def lanewise (srcs : List Src) (d : Dst) (dist : Nat) (alu : Bool) (fn : State → Iss → Nat → List (List W32) → LaneRes)
    (i : Iss) (s : State) : Res :=
  let lanes := i.compute d
  let q := if lanes.isEmpty then none else queueSource srcs
  let flts := operandFaults i srcs d ++ queueFaults s i q
  if !flts.isEmpty then .fault s (flts ++ if i.ra then [] else poisonFaults i lanes srcs)
  else if i.ra && (queueSource srcs).isSome then .endRunahead
  else
    let pf := poisonFaults i lanes srcs
    if !i.ra && !pf.isEmpty then .fault s pf
    else
      match (match q with | none => some ((0 : W32), s) | some n => s.popQueue i.gid i.g n) with
      | none => .wait s i.g (.pop (q.getD 0))
      | some (pop, s1) =>
        let rs := lanes.map fun l =>
          let r := fn s i l ((List.range srcs.length).map fun k => s.readSrc i k pop l (srcs.getD k ⟨0, 1, 1, true, 1⟩))
          (l, if i.ra && srcs.any (fun a => srcPoison i l a ≠ 0) then r.taint s l else r)
        match commitLanes srcs d (fixedOf d dist alu) false rs i s1 with
        | .wait _ g w => .wait s g w
        | r => r

/-! ### After the effect -/

/-- Ends runahead: the checkpoint is restored; the group is ready when its entry results have been written, and parked: switch
otherwise (10 R297). -/
def State.exitRunahead (s : State) (gid : Nat) (g : Group) : State :=
  match g.ra with
  | none => s
  | some r => s.setGroup gid { g with ctx := r.saved, outst := r.entry, ra := none, ranAhead := true,
                                      stat := if r.entry.isEmpty then .ready else .parkedSwitch, age := 0, aged := false }

/-- Slices of the group without an executing lane (07 R176). -/
def skippedSlices (w : Nat) (m : LaneMask) : Nat :=
  ((List.range (w / 32)).filter fun k => m.extractLsb' (32 * k) 32 = 0).length

/-- The quarter's sampling: counts an issued instruction toward the next tag, or tags it (11 R304). -/
def State.sampleIssue (s : State) (i : Iss) (g : Group) (out : Option Outst) : State :=
  let results := match out with | some o => !(o.regs.isEmpty && o.gs.isEmpty && o.preds.isEmpty) | none => false
  let u := s.unit (unitOf i.gid)
  let word := (s.core (coreOf i.gid)).sampling
  if !word.getLsbD 63 || !(bits word 51 48).testBit (quarterOf i.gid) || u.tagged.isSome then s
  else if u.tagNext then
    let rec_ : List W64 :=
      [ BitVec.ofNat 64 (0x01 * 2 ^ 56 + i.pc.toNat), s.ident i.gid g,
        BitVec.ofNat 64 (fieldAt i.l.ctx 32 32 + (s.handle g.task).toNat),
        s.free 0x170000,
        BitVec.ofNat 64 ((if results then bits (s.free 0x170001) 63 48 * 2 ^ 48 else 0) + (if 16 < g.ctx.rdepth then 2 ^ 39 else 0) + (if i.lanes = 0 then 2 ^ 38 else 0) +
          fieldAt g.memLevel 8 40 + (encodeFirst i.o i.f).toNat),
        BitVec.ofNat 64 s.clock, BitVec.ofNat 64 g.memAddr, regionWord g.ctx ]
    s.setUnit (unitOf i.gid) { u with tagNext := false, toTag := none, tagged := some (i.gid, rec_), tagSeq := g.issued }
  else match u.toTag with
    | some (n + 1) => s.setUnit (unitOf i.gid) { u with toTag := some n }
    | _ => s

/-- Counts an instruction issued outside runahead, and the slices it skips (11 R313). -/
def State.countIssue (s : State) (i : Iss) (g : Group) : State :=
  let s1 := s.countFor i.gid g (quarterOf i.gid) 1
  let skipped := skippedSlices g.width i.lanes
  if skipped = 0 then s1 else s1.countFor i.gid g (8 + quarterOf i.gid) skipped

/-- A write to a g register that an operation of the group in its unit names leaves what the operation writes unspecified (09 R255). -/
def State.taintG (s : State) (gid : Nat) (gs : List Nat) : State :=
  let u := s.unit (unitOf gid)
  if u.ops.any fun o => o.gid == gid && !o.ended && o.gs.any gs.contains then
    s.setUnit (unitOf gid) { u with ops := u.ops.map fun o => if o.gid == gid && !o.ended && o.gs.any gs.contains then { o with tainted := true } else o }
  else s
/-- The g registers an instruction wrote. -/
def writtenG (i : Iss) (out : Option Outst) : List Nat :=
  (match out with | some o => o.gs | none => []) ++ (if (i.o = .call ∨ i.o = .calli) ∧ (i.f.g = 0 ∨ i.lanes ≠ 0) then [11] else [])

/-- How an instruction leaves its group at its next PC (03 Table 3.12). -/
def viaOf (i : Iss) : Nat :=
  match i.o with
  | .bra | .call | .bri | .calli | .ret => if i.f.g = 0 ∨ i.lanes ≠ 0 then 1 else 2
  | .trap => if i.lanes = 0 then 2 else 3
  | .eret => 3
  | _ => 2

/-- Puts the issuing group back after an instruction's effect: its next PC, its outstanding result, S (07 R180), the count of
instructions, and the quarter's sampling. -/
def State.finish (s : State) (i : Iss) (g : Group) (pc : Addr) (out : Option Outst) : State :=
  let s := State.taintG { s with replies := s.replies.filter fun r => r.who != i.gid, needs := s.needs.filter fun n => n.1 != i.gid } i.gid (if i.ra then [] else writtenG i out)
  let g1 : Group := { g with ctx := { g.ctx with pc := pc, via := viaOf i }, issued := g.issued + 1, age := 0, aged := false, answers := [],
                             acks := ((s.group? i.gid).getD g).acks, acquiring := ((s.group? i.gid).getD g).acquiring, memAddr := 0, memLevel := 0, crossed := [], waitLimit := none,
                             released := false, granted := none,
                             outst := g.outst ++ out.toList, stat := .ready }
  match g1.ra with
  | some r =>
    let g2 := if i.f.s then g1.written else g1
    let g3 := { g2 with stat := .runahead, ra := some { r with count := r.count + 1 } }
    if 512 ≤ r.count + 1 then s.exitRunahead i.gid g3 else s.setGroup i.gid g3
  | none =>
    let park := (i.f.s && !g1.outst.isEmpty) || g1.stop.isSome
    let g2 := { g1 with stat := if park then .parkedSwitch else .ready, ranAhead := if park then false else g1.ranAhead }
    ((s.sampleIssue i g out).setGroup i.gid g2).countIssue i g2

/-- The instructions that end runahead whatever their operands (10 Table 10.6). -/
def endsRunahead : Op → Bool
  | .st | .ist | .atom | .red | .waita | .bar | .barPass | .ifence | .icsync | .spawn | .ibis | .trap | .brk | .eret | .exit
  | .copy | .tdec | .launch | .tstat | .rset | .rsetRepl | .rsplit | .rmerge | .rinv | .rqry | .rcomp
  | .mma | .mres | .mrel | .mwait | .mfence | .mzero | .mlda | .msta | .mldb | .mdrain
  | .tdef | .tdefCommit | .tkill | .tinfo | .ctwr | .watch | .sampl | .cntrd | .gresume | .gresumeNext | .gkill => true
  | _ => false

/-- The sub-ops that only supervisor code may issue (03 Table 3.11, R80). -/
def supervisorOnly : Op → Bool
  | .gresume | .gresumeNext | .gkill | .rset | .rsetRepl | .rsplit | .rmerge | .rinv | .rqry | .rcomp | .watch | .sampl => true
  | _ => false

/-- What becomes of the machine when an instruction's effect has ended so. -/
def State.conclude (s0 : State) (i : Iss) (r : Res) : State :=
  match r with
  | .done s g pc out => s.finish i g pc out
  | .hold s g pc w =>
    let w1 := match i.f.s && !g.outst.isEmpty, w with
      | true, .barrier id par back => .barrier id par back true
      | true, .arriving id back => .arriving id back true
      | _, w => w
    (s.finish i g pc none).modGroup i.gid fun x => { x with stat := .waiting w1 }
  | .leaves s g =>
    let s1 := s.finish i g i.next none
    (match s1.group? i.gid with | some g1 => s1.finishGroup i.gid g1 | none => s1)
  | .wait s g w =>
    let s1 := s.setGroup i.gid { g with stat := .waiting w, acks := ((s.group? i.gid).getD g).acks }
    (match w with | .pool _ _ => s1.countFor i.gid g (0x14 + quarterOf i.gid) 1 | _ => s1)
  | .fault s fs =>
    if i.ra then s0.exitRunahead i.gid i.g
    else match pickFault fs with
      | some f => s.takeFault i.gid i.g f (some i.length)
      | none => s
  | .faulted s g f out =>
    let g0 := (s.group? i.gid).getD g
    ((s.sampleIssue i g out).countIssue i g).takeFault i.gid
      { g with issued := g.issued + 1, outst := g.outst ++ out.toList, acks := g0.acks, acquiring := g0.acquiring, memAddr := 0, memLevel := 0, crossed := [], waitLimit := none, released := false, granted := none }
      f (some i.length)
  | .endRunahead => s0.exitRunahead i.gid i.g

/-- The issuing group and its instruction, ready to be judged. -/
def State.issOf (s : State) (gid : Nat) (g : Group) (o : Op) (f : Fields) : Iss :=
  ⟨gid, g, o, f, s.launchOf g, s.execLanes g f⟩

/-- Issues an instruction for the current group: runahead's rules (10 Table 10.6), the privilege of its sub-op (03 R80), then its effect.
The step's counter of free values advances. -/
def issue (o : Op) (f : Fields) (s : State) (body : Iss → State → Res) : Host.Outcome State Fault Refusal :=
  match s.cur with
  | none => .fault .noIssuingGroup
  | some gid =>
    match s.group? gid with
    | none => .fault .noIssuingGroup
    | some g0 =>
      let g := g0.settled
      let i := s.issOf gid g o f
      let r := if i.ra && endsRunahead o then Res.endRunahead
        else if supervisorOnly o && !i.l.super then .fault s [⟨0xF, 1, 0, none, none⟩]
        else body i s
      let s' := s.conclude i r
      .next { s' with freeCtr := s.freeCtr + 1 }

end Sys2Proof.Machine
end

