-- ==== Sys2Proof/Machine/Memory.lean ====
section
/-! DEFINITION. Memory as accesses reach it: for whom they are made, the host's sectors, other packages, alias blocks, the scratchpads, L1, the
stash, and releases and acquires (08; 14 R350 to R352; 17 R419 to R428). -/

namespace Sys2Proof.Machine

/-! ### For whom an access is made -/

/-- For whom an access is made: the requester's number (a group, or 2²⁰ + the id of a copy), the group whose place it has, its team, address
space, context and participant; whether it is an engine's, and then whether a matrix unit's, an agent of the cluster; its scope; and whether it
acquires at .die or wider, so that nothing a cache holds may serve it. -/
structure Who where
  who  : Nat
  gid  : Nat
  team : Nat
  asid : Nat
  ctx  : Nat
  part : Nat
  engine : Bool := false
  unit : Bool := false
  scope : Nat := 5
  fresh : Bool := false

/-- The scope field of a memory instruction (08 R75, Table 8.4, R222); a load of an image or a block is .plain at .grp (R456). -/
def Iss.scope (i : Iss) : Nat :=
  match i.o with
  | .ld | .st | .ild | .ist => i.mb 8 6
  | .atom | .red => i.mb 6 4
  | .waita => i.mb 7 5
  | _ => 0
/-- Whether a load or WAITA acquires at .die or wider (08 R206, R222, R228). -/
def Iss.fresh (i : Iss) : Bool :=
  match i.o with
  | .ld | .ild => i.mb 5 4 == 1 && decide (3 ≤ i.scope)
  | .waita => decide (3 ≤ i.scope)
  | _ => false
/-- The requester of an issuing group. -/
def Iss.who (i : Iss) (s : State) : Who :=
  { who := i.gid, gid := i.gid, team := i.g.team, asid := i.l.asid, ctx := i.l.ctx, part := (s.task i.g.task).part, scope := i.scope,
    fresh := i.fresh }
/-- Whether memory at a local target is owned by another die than the requester's. -/
def remote (w : Who) (t : Nat) : Bool := ownerDie t != dieOf w.gid
/-- Counts an outstanding write of a group (08 R236). -/
def State.addAck (s : State) (w : Who) : State := if w.engine then s else s.modGroup w.gid fun g => { g with acks := g.acks + 1 }
/-- Counts an event of a core for a requester that is a group or a matrix unit (11 R313, R314). -/
def State.countWho (s : State) (w : Who) (e n : Nat) : State :=
  if w.engine && !w.unit then s else s.countCtx w.ctx (dieOf w.gid) (coreOf w.gid % 16) e n

/-- Whether a requester is noted to wait for something, and notes it. -/
def State.needing (s : State) (w : Who) (n : Need) : Bool := s.needs.any fun x => x.1 == w.who && x.2 == n
def State.need (s : State) (w : Who) (n : Need) : State := if s.needing w n then s else { s with needs := s.needs ++ [(w.who, n)] }
/-- A requester's note leaves: what it waited for has come and is used. -/
def State.needed (s : State) (w : Who) (n : Need) : State := { s with needs := s.needs.filter fun x => !(x.1 == w.who && x.2 == n) }

/-- Forgets the answers that a requester has used, and what it is noted to wait for. -/
def State.forget (s : State) (who : Nat) : State :=
  { s with replies := s.replies.filter fun r => r.who != who
           needs := s.needs.filter fun n => n.1 != who
           cores := s.cores.map fun c => (c.1, { c.2 with answers := c.2.answers.filter fun a => a.1 != who }) }
/-- The reply a requester holds for an address. -/
def State.reply (s : State) (who va : Nat) : Option Reply := s.replies.find? fun r => r.who = who ∧ r.va = va

/-! ### Flits (17 R424, R429) -/

/-- What a flit carries, as dwords: the model's own order of them, since the spec gives the payload's length and not its layout (log 74). -/
def SliceOp.words : SliceOp → List W64
  | .read => [0]
  | .write v bad => [1, v, if bad then 1 else 0]
  | .atom op ty xs => [2, BitVec.ofNat 64 (atomOps.idxOf op), BitVec.ofNat 64 (atomTys.idxOf ty)] ++ xs.flatMap fun x => [x.1, x.2]
  | .swap v => [3, v]
def FlitBody.words : FlitBody → List W64
  | .idle | .ack => []
  | .request r => [r.target, r.bytes, r.ctx, r.tag].map (BitVec.ofNat 64 ·) ++ SliceOp.words r.op
  | .response v bad => [v, BitVec.ofNat 64 bad]
  | .collective c => [c.group, c.generation, c.rank, c.status].map (BitVec.ofNat 64 ·) ++ c.send ++ c.tails ++ c.params.map (BitVec.ofNat 64 ·)
  | .management n => [BitVec.ofNat 64 n]
/-- Bytes 0x00 to 0x0F of a flit (17 Table 17.4), which its seal authenticates. What every link changes, the hops taken and the link sequence, stands
as 0: with them no forwarded flit would open (log 74). -/
def Flit.header (f : Flit) : List W64 :=
  [BitVec.ofNat 64 (fieldAt f.kind 4 60 + fieldAt f.channel 2 58 + fieldAt (bits f.resv 13 12) 2 56 + fieldAt f.dst 8 48 + fieldAt f.src 8 40 +
     fieldAt (bits f.resv 11 8) 4 32),
   BitVec.ofNat 64 (fieldAt f.ctx 12 52 + fieldAt f.part 4 48 + fieldAt f.length 8 40 + fieldAt (bits f.resv 7 0) 8 32 + fieldAt f.tag 32 0)]
/-- The tag of a flit under the link key of its participant. -/
def Flit.tagOf (f : Flit) : BitVec 128 := Config.flitTag f.ctx f.part f.iv (Flit.header f ++ FlitBody.words f.body)
/-- Whether the package holds a link key for a participant of a context (16 R409, R415). -/
def State.holdsKey (s : State) (ctx part : Nat) : Bool :=
  match tfind s.chofer.contexts ctx with
  | none => false
  | some c => !c.revoked.contains part && c.parts.any fun p => p.1 == part
/-- A port sends a flit, under the next number of its link. One of this package's own that carries a context is sealed under its participant's key,
with a count that the port never repeats; without that key nothing can leave (R429; log 74). One that is forwarded goes on as it is. -/
def State.sendAt (s : State) (k : Nat) (f : Flit) : State :=
  let p := s.port k
  let f1 := { f with sequence := p.sequence % 2 ^ 32 }
  if f.ctx = 0 ∨ f.hops ≠ 0 then s.setPort k { p with sent := p.sent ++ [f1], sequence := p.sequence + 1 }
  else if !s.holdsKey f.ctx f.part then s
  else
    let f2 := { f1 with iv := BitVec.ofNat 96 (f.src % 2 ^ 8 * 2 ^ 88 + k % 2 ^ 4 * 2 ^ 84 + p.sealedFlits % 2 ^ 84) }
    s.setPort k { p with sent := p.sent ++ [{ f2 with tagBytes := Flit.tagOf f2 }], sequence := p.sequence + 1, sealedFlits := p.sealedFlits + 1 }
/-- The payload length of a flit of this package's own, which the spec does not give for what the flit carries (log 74). -/
def State.flitLength (s : State) : Nat := (s.free 0x1F0000).toNat % 29

/-- The number by which a core asks other packages for what it prefetches into L1. -/
def prefWho (core : Nat) : Nat := 2 ^ 42 + core
/-- The core of a requester that is a group or that prefetches into L1. -/
def coreOfWho (who : Nat) : Option Nat := if who < 2 ^ 20 then some (coreOf who) else if 2 ^ 42 ≤ who ∧ who < 2 ^ 43 then some (who - 2 ^ 42) else none
/-- Whether two requesters are one, or are of one core, whose groups see their accesses as one interleaving (08 R232). -/
def sameCore (a b : Nat) : Bool := a == b || ((coreOfWho a).isSome && coreOfWho a == coreOfWho b)
/-- Whether two requesters are one, or are of one cluster, whose agents share its stashes. -/
def sameCluster (a b : Nat) : Bool := a == b || ((coreOfWho a).isSome && (coreOfWho a).map (· / 4) == (coreOfWho b).map (· / 4))

/-- What a requester's cluster holds of bytes that it now writes in another package, or has asked for, is older than that write. -/
def State.outdate (s : State) (who pkg t n : Nat) : State :=
  let old := fun (r : Reply) => sameCluster r.who who && r.package == pkg && decide (r.target < t + n ∧ t < r.target + 8)
  let asked := fun (x : Trans) => sameCluster x.who who && !x.ack && x.package == pkg && decide (x.target < t + n ∧ t < x.target + x.bytes)
  { s with replies := s.replies.map fun r => if old r then { r with stale := true } else r
           ports := s.ports.map fun p => (p.1, { p.2 with waiting := p.2.waiting.map fun x => if asked x then { x with stale := true } else x }) }
/-- Sends a request of another package's slice by its route, through an encrypted range when enc (17 R425 to R427); a write counts in its group's
acknowledgement counter. A tag names its port in bits [31:28]. With no route the access cannot be delivered: a write acknowledges at once (R428). -/
def State.sendFabric (s : State) (w : Who) (enc : Bool) (pkg t n va : Nat) (op : SliceOp) (ack : Bool) : State :=
  match s.route pkg with
  | none => s
  | some k =>
    let p := s.port k
    let tag := k * 2 ^ 28 + p.nextTag % 2 ^ 28
    let req : SliceReq := { target := t, bytes := n, op := op, ctx := if enc then w.ctx else 0, package := s.chofer.package, tag := tag,
                            sealCtx := w.ctx, part := w.part }
    let fl : Flit := { kind := 1, channel := 0, dst := pkg, src := s.chofer.package, hops := 0, ctx := w.ctx, part := w.part, length := s.flitLength,
                       tag := tag, body := .request req }
    let s1 := match op with | .read => s | _ => (if ack then s.addAck w else s).outdate w.who pkg t n
    let s2 := s1.sendAt k fl
    s2.setPort k { s2.port k with
                         nextTag := (p.nextTag + 1) % 2 ^ 28,
                         waiting := (s2.port k).waiting ++ [{ tag := tag, who := w.who, va := va, target := t, bytes := n, ack := ack, package := pkg,
                                                              time := s.clock, atom := !ack && (match op with | .atom _ _ _ | .swap _ => true | _ => false) }] }

/-! ### Host sectors at their home slice (17 R419, R420) -/

/-- The die whose slice is home to a host address. -/
def homeDie (h : Nat) : Nat := bitsOf h 10 8
/-- The state of a host sector in its home slice. -/
def State.mesi (s : State) (h : Nat) : Mesi := match tfind s.host.sectors (h / 64) with | some x => x.state | none => .i
/-- Counts a request of a requester that reaches the home slice of a host sector: a hit or a miss, and a request of another die (14 R364). -/
def State.countHost (s : State) (w : Who) (h e : Nat) : State :=
  let s1 := s.countSlice (homeDie h) e 1
  if dieOf w.gid = homeDie h then s1 else s1.countSlice (homeDie h) 2 1
/-- An access to a host sector that its home slice holds. One that waited for the host's data was counted when it missed. -/
def State.touchHost (s : State) (w : Who) (h : Nat) : State :=
  if s.needing w (.sector (h / 64)) then s.needed w (.sector (h / 64)) else s.countHost w h 0
/-- A read of n bytes of host memory. -/
def State.readHost (s : State) (w : Who) (h n : Nat) : Got :=
  if !s.linked (dieOf w.gid) (homeDie h) then ⟨s, (s.unseen h).toNat % 2 ^ (8 * n), 5⟩
  else
    let s1 := s.touchHost w h
    match tfind s.host.sectors (h / 64) with
    | none => ⟨s1, (s.unseen h).toNat % 2 ^ (8 * n), 0⟩
    | some x => ⟨s1, ofBytes ((x.data.drop (h % 64)).take n), if (List.range n).any fun i => x.bad.getLsbD ((h + i) % 64 / 8) then 1 else 0⟩

/-- Replaces bytes of a list from a place. -/
def spliceBytes (bs : List Byte) (at_ : Nat) (d : List Byte) : List Byte := bs.take at_ ++ d ++ bs.drop (at_ + d.length)
/-- Poison by 8-byte word after a write of n bytes at a place of a sector (14 R360). -/
def sectorPoison (old : BitVec 8) (at_ n : Nat) (bad : Bool) : BitVec 8 :=
  (wordsCovered at_ n).foldl (fun m w =>
    if bad then m ||| BitVec.ofNat 8 (2 ^ (w.1 % 8)) else if w.2 then m &&& ~~~BitVec.ofNat 8 (2 ^ (w.1 % 8)) else m) old
/-- A write of n bytes of host memory: the home slice holds the sector, in M after it. The write of an action that has read counts no request. -/
def State.writeHost (s : State) (w : Who) (h n v : Nat) (bad : Bool) (count : Bool := true) : State :=
  if !s.linked (dieOf w.gid) (homeDie h) then s
  else
    let s1 := if count then s.touchHost w h else s
    let x := (tfind s1.host.sectors (h / 64)).getD ⟨.i, List.replicate 64 0, 0⟩
    let x1 : HostSector := ⟨.m, spliceBytes x.data (h % 64) (bytesOf n v), sectorPoison x.bad (h % 64) n bad⟩
    { s1 with host := { s1.host with sectors := tput s1.host.sectors (h / 64) x1 } }

/-! ### Conversion alias ranges (14 R350 to R352) -/

/-- The element format of an alias range. -/
def aliasFmt (r : RangeRec) : Fmt := if r.elemTy = 0 then .e4m3 else if r.elemTy = 1 then .e5m2 else .e2m1
/-- The target of the element bytes of block j, and of its scale byte (10 R278). -/
def RangeRec.blockAt (r : RangeRec) (j : Nat) : Nat := r.target + r.blockBytes * j
def RangeRec.scaleAt (r : RangeRec) (j : Nat) : Nat := r.scaleBase + j
/-- The number by which a requester asks another package for a backing word: none of its virtual addresses. -/
def backKey (t : Nat) : Nat := 2 ^ 60 + t
/-- What the slice of a backing address does first: the state after, and the code that the data carries because of it. -/
def State.openBack (s : State) (w : Who) (t : Nat) : State × Reach :=
  match s.placeOf t with
  | .hbm a => s.openLine (dieOf w.gid) 0 a
  | .host h => if s.linked (dieOf w.gid) (homeDie h) then (s.touchHost w h, .open_) else (s, .dead)
  | _ => (s, .open_)
/-- A backing byte with its poison code, as an open place gives it: of another package, as the reply to the word that holds it. -/
def State.backByte (s : State) (w : Who) (t : Nat) : Byte × Nat :=
  match s.placeOf t with
  | .hbm a => (s.sliceByte a, s.wordCode a)
  | .host h => match tfind s.host.sectors (h / 64) with
    | some x => (x.data.getD (h % 64) 0, if x.bad.getLsbD (h % 64 / 8) then 1 else 0)
    | none => ((s.unseen h).setWidth 8, 0)
  | .fabric _ _ => match s.reply w.who (backKey (t / 8 * 8)) with
    | some r => (BitVec.ofNat 8 (r.v.toNat >>> (8 * (t % 8))), r.bad)
    | none => ((s.unseen t).setWidth 8, 7)
  | _ => (0, 0)
/-- Writes backing bytes, at most 8 within one word, to a place that the block's action has opened. What a context's line held is no longer read (16
R410), and a doorbell takes no part of a block (15 R376). -/
def State.putBack (s : State) (w : Who) (t : Nat) (bs : List Byte) (bad : Bool) : State :=
  match s.placeOf t with
  | .hbm a =>
    let s0 := if remote w a then s.addAck w else s
    if inChofer a then s0.dropChofer
    else if (s.doorbellOf a bs.length).isSome then s0.countSluice (ownerDie a) 0x06 1
    else (((s0.claimLine 0 a (if tget 0 s.owners (a / 256) = 0 then .open_ else .hidden)).allot a).writeMem a bs.length (ofBytes bs) bad).misused a bs.length
  | .host h => (s.writeHost w h bs.length (ofBytes bs) bad false).addAck w
  | .fabric pkg a => s.sendFabric w false pkg a bs.length (backKey t) (.write (BitVec.ofNat 64 (ofBytes bs)) bad) true
  | _ => s

/-- A block of an alias range as it is read: the state after, its elements' encodings, its scale, and its poison code (14 R352). What a
context's line holds is not read. -/
def State.readBlock (s : State) (w : Who) (r : RangeRec) (j : Nat) : State × List Nat × Nat × Nat :=
  let t := r.blockAt j
  let x := r.scaleAt j
  let (s1, ra) := s.openBack w t
  let (s2, rb) := s1.openBack w x
  let get := fun (reach : Reach) (a : Nat) => match reach with
    | .dead => (((s2.unseen a).setWidth 8 : Byte), 5)
    | .hidden => ((s2.unseen a).setWidth 8, 0)
    | _ => s2.backByte w a
  let bs := (List.range r.blockBytes).map fun i => get ra (t + i)
  let sc := get rb x
  let elts := if aliasFmt r = .e2m1 then bs.flatMap fun b => [b.1.toNat % 16, b.1.toNat / 16] else bs.map fun b => b.1.toNat
  (s2, elts, sc.1.toNat, worstOf (sc.2 :: bs.map (·.2)))

/-- A read of w bytes at an offset of an alias range: each BF16 element converted alone. -/
def State.readAlias (s : State) (w : Who) (r : RangeRec) (off n : Nat) : Got :=
  let (s1, elts, scale, bad) := s.readBlock w r (off / 64)
  let vals := (List.range (n / 2)).map fun k =>
    (roundVal .bf16 .rne false false (mxValue (aliasFmt r) (elts.getD (off % 64 / 2 + k) 0) scale)).1
  ⟨s1, (List.range vals.length).foldl (fun n k => n + (vals.getD k 0) <<< (16 * k)) 0, bad⟩

/-- The bytes of a block's elements. -/
def packElts (f : Fmt) (es : List Nat) : List Byte :=
  if f = .e2m1 then (List.range (es.length / 2)).map fun i => BitVec.ofNat 8 (es.getD (2 * i) 0 + 16 * es.getD (2 * i + 1) 0)
  else es.map (BitVec.ofNat 8 ·)

/-- A write of some BF16 elements of block j: one atomic action that quantises the block again (14 R351, R352). -/
def State.writeBlock (s : State) (w : Who) (r : RangeRec) (j : Nat) (new : Nat → Option Nat) (bad : Bool) : State :=
  let (s1, elts, scale, old) := s.readBlock w r j
  let f := aliasFmt r
  let vs := (List.range 32).map fun i => match new i with
    | some e => fpDecode .bf16 e
    | none => mxValue f (elts.getD i 0) scale
  let q := mxQuantise f (fun _ => .rne) vs
  let poison := bad || old ≠ 0
  if old = 5 then s1.addAck w
  else
    let es := if poison then elts else q.2.1
    let bs := packElts f es
    let s2 := (List.range (r.blockBytes / 8)).foldl (fun (st : State) k => st.putBack w (r.blockAt j + 8 * k) ((bs.drop (8 * k)).take 8) poison) s1
    let s3 := s2.putBack w (r.scaleAt j) [BitVec.ofNat 8 (if poison then scale else q.1)] poison
    if poison || q.1 = scale then s3 else match s.placeOf (r.blockAt j) with
      | .hbm a => s3.countSlice (ownerDie a) 0x05 1
      | .host h => s3.countSlice (homeDie h) 0x05 1
      | _ => s3
/-- A write of w bytes at an offset of an alias range. -/
def State.writeAlias (s : State) (w : Who) (r : RangeRec) (off n v : Nat) (bad : Bool) : State :=
  let first := off % 64 / 2
  s.writeBlock w r (off / 64) (fun i => if first ≤ i ∧ i < first + n / 2 then some (bitsOf v (16 * (i - first) + 15) (16 * (i - first))) else none) bad

/-! ### Scratchpads (08 R205) -/

/-- Poison of a scratchpad by 4-byte word: as 14 R360 with words of 4 bytes. -/
def scratchPoisonWrite (p : Table Bool) (key n : Nat) (bad : Bool) : Table Bool :=
  (List.range ((key % 4 + n + 3) / 4)).foldl (fun q i =>
    let w := key / 4 + i
    if bad then tset false q w true
    else if key ≤ 4 * w ∧ 4 * w + 4 ≤ key + n then tset false q w false else q) p
/-- A scratchpad byte: what was written, else unspecified (08 R205). -/
def Team.scratchByte (t : Team) (key : Nat) : Byte := (tfind t.scratch key).getD (Config.freeByte (t.seed * 2 ^ 21 + key))
def Team.readScratch (t : Team) (key n : Nat) : Nat := ofBytes ((List.range n).map fun i => t.scratchByte (key + i))
def Team.scratchBad (t : Team) (key n : Nat) : Bool := (List.range n).any fun i => tget false t.scratchPoison ((key + i) / 4)
def putScratch (m : Table Byte) (key : Nat) : List Byte → Table Byte
  | [] => m
  | b :: r => putScratch (tput m key b) (key + 1) r
/-- The value of a byte as a past one, written at a clock. -/
def Team.pastByte (t : Team) (key time : Nat) (unit : Option Nat) : Past := ⟨time, (t.scratchByte key).setWidth 32, t.scratchBad key 1, unit⟩
/-- A write at a clock, by a matrix unit or by another agent. -/
def Team.writeScratch (t : Team) (key n v now : Nat) (bad : Bool) (unit : Option Nat := none) : Team :=
  let t1 := { t with scratch := putScratch t.scratch key (bytesOf n v), scratchPoison := scratchPoisonWrite t.scratchPoison key n bad }
  { t1 with past := (List.range n).foldl (fun p i =>
      tput p (key + i) (t1.pastByte (key + i) now unit :: (tfind p (key + i)).getD [t.pastByte (key + i) 0 none])) t.past }
/-- The key of a scratchpad byte. -/
def scratchKey (side off : Nat) : Nat := side * 2 ^ 20 + off

/-! ### Sectors of L1 and of the stashes (08 R206, R209) -/

/-- The mask of n bits from a bit. -/
def runMask (m at_ n : Nat) : BitVec m := BitVec.ofNat m ((2 ^ n - 1) <<< at_)

namespace Sector
/-- Whether a sector holds n bytes from a place. -/
def holds (x : Sector) (at_ n : Nat) : Bool := runMask 64 at_ n &&& ~~~x.valid == 0
/-- The value of n bytes from a place, and its poison code. -/
def get (x : Sector) (at_ n : Nat) : Nat × Nat :=
  (ofBytes ((x.bytes.drop at_).take n), worstOf ((List.range n).map fun i => x.bad.getD ((at_ + i) / 8) 0))
/-- The poison of words after a write of n bytes at a place (14 R360). -/
def poisonAfter (old : List Nat) (at_ n : Nat) (bad : Bool) : List Nat :=
  (List.range 8).map fun k =>
    if 8 * k + 8 ≤ at_ ∨ at_ + n ≤ 8 * k then old.getD k 0
    else if bad then 1 else if at_ ≤ 8 * k ∧ 8 * k + 8 ≤ at_ + n then 0 else old.getD k 0
/-- Writes n bytes, which become dirty or, once written through, clean. -/
def put (x : Sector) (at_ n v : Nat) (bad dirty : Bool) : Sector :=
  { x with bytes := spliceBytes x.bytes at_ (bytesOf n v), valid := x.valid ||| runMask 64 at_ n,
           dirty := if dirty then x.dirty ||| runMask 64 at_ n else x.dirty &&& ~~~runMask 64 at_ n, bad := poisonAfter x.bad at_ n bad }
/-- Takes the bytes that memory holds into those of a mask that are not dirty. -/
def refill (x : Sector) (bytes : List Byte) (bad : List Nat) (mask : BitVec 64) : Sector :=
  let take := mask &&& ~~~x.dirty
  { x with bytes := (List.range 64).map fun i => if take.getLsbD i then bytes.getD i 0 else x.bytes.getD i 0,
           valid := x.valid ||| mask,
           bad := (List.range 8).map fun k => if take.extractLsb' (8 * k) 8 = 0 ∨ (x.bad.getD k 0 ≠ 0 ∧ x.dirty.extractLsb' (8 * k) 8 ≠ 0) then x.bad.getD k 0 else bad.getD (8 * k) 0 }
/-- The sector without its clean bytes. -/
def onlyDirty (x : Sector) : Sector := { x with valid := x.dirty }
/-- A sector that holds nothing yet. -/
def empty (h : Home) (ctx : Nat) : Sector := { home := h, bytes := List.replicate 64 0, bad := List.replicate 8 0, ctx := ctx }
end Sector

/-- The naturally aligned parts of an 8-byte word that a mask of its bytes covers, the largest first: each is written at one instant (08 R234). -/
def maskParts (m : BitVec 8) : List (Nat × Nat) :=
  let full := fun (at_ n : Nat) => m &&& runMask 8 at_ n == runMask 8 at_ n
  if full 0 8 then [(0, 8)]
  else [0, 4].flatMap fun h => if full h 4 then [(h, 4)]
    else [h, h + 2].flatMap fun p => if full p 2 then [(p, 2)] else [p, p + 1].filterMap fun b => if m.getLsbD b then some (b, 1) else none

/-- Writes back the dirty bytes of a sector, and only those: to a slice by words, to an alias block as one action, to another package by the parts
of each word. -/
def State.writeBackSector (s : State) (w : Who) (x : Sector) : State :=
  if x.dirty = 0 then s
  else match x.home with
  | .hbm t => (if remote w t then s.addAck w else s).writeSector (dieOf w.gid) x.ctx t x.bytes x.dirty fun k => x.bad.getD k 0 != 0
  | .alias_ r off =>
    s.writeBlock w r (off / 64) (fun i => if x.dirty.getLsbD (2 * i) then some ((x.bytes.getD (2 * i) 0).toNat + 256 * (x.bytes.getD (2 * i + 1) 0).toNat) else none)
      ((List.range 8).any fun k => x.bad.getD k 0 ≠ 0 && x.dirty.extractLsb' (8 * k) 8 != 0)
  | .fabric pkg t =>
    (List.range 8).foldl (fun (st : State) k => (maskParts (x.dirty.extractLsb' (8 * k) 8)).foldl (fun (st : State) p =>
      let at_ := 8 * k + p.1
      st.sendFabric w (x.ctx != 0) pkg (t + at_) p.2 (backKey (t + at_)) (.write (BitVec.ofNat 64 (ofBytes ((x.bytes.drop at_).take p.2))) (x.bad.getD k 0 != 0)) true) st) s

/-! ### L1 (08 R209) -/

/-- The number of the sector of a home in L1; an alias range is served by its slice alone (14 R350). -/
def Home.l1Key : Home → Option Nat
  | .hbm t => some (t / 64)
  | .fabric pkg t => some (2 ^ 60 + pkg * 2 ^ 50 + t / 64)
  | .alias_ _ _ => none
/-- The sector of L1 with a number. -/
def CoreSt.sector (c : CoreSt) (key : Nat) : Option Sector := (c.l1.find? fun l => l.1 == key / 4).bind fun l => tfind l.2 (key % 4)
/-- Every sector of L1 with its number. -/
def CoreSt.sectors (c : CoreSt) : List (Nat × Sector) := c.l1.flatMap fun l => l.2.map fun x => (4 * l.1 + x.1, x.2)
/-- Applies a function to every sector of L1; a sector without valid bytes leaves, and so does a line without sectors. -/
def CoreSt.mapSectors (c : CoreSt) (f : Nat → Sector → Sector) : CoreSt :=
  { c with l1 := c.l1.filterMap fun l =>
      let xs := (l.2.map fun x => (x.1, f (4 * l.1 + x.1) x.2)).filter fun x => x.2.valid != 0
      if xs.isEmpty then none else some (l.1, xs) }
/-- The lines of L1: 256 KiB (00 Table 0.2). -/
def Config.l1Lines : Nat := 1024
/-- Whether the host may hold a sector of local HBM that is to be written back. -/
def State.heldByHost (s : State) (x : Sector) : Bool :=
  x.dirty != 0 && match x.home with | .hbm t => (tfind s.host.held (t / 64)).isSome | _ => false
/-- Writes back and drops what L1 holds beyond its lines: the least recently used line that needs no answer of the host (log 10). -/
def State.trimL1 (s : State) (w : Who) : State :=
  let core := coreOf w.gid
  let c := s.core core
  if c.l1.length ≤ Config.l1Lines then s
  else match c.l1.reverse.find? fun l => !l.2.any fun x => s.heldByHost x.2 with
    | none => s
    | some l =>
      let s1 := l.2.foldl (fun (st : State) x => st.writeBackSector w x.2) s
      s1.setCore core { s1.core core with l1 := (s1.core core).l1.filter fun m => m.1 != l.1 }
/-- Puts a sector into L1; its line becomes the most recently used. -/
def State.setL1 (s : State) (w : Who) (key : Nat) (x : Sector) : State :=
  let core := coreOf w.gid
  let c := s.core core
  let line := ((c.l1.find? fun l => l.1 == key / 4).map (·.2)).getD []
  (s.setCore core { c with l1 := (key / 4, tput line (key % 4) x) :: c.l1.filter fun l => l.1 != key / 4 }).trimL1 w
/-- Writes back the dirty bytes of some sectors of a core's L1 and drops them: what is performed past L1 follows them (R232). -/
def State.flushL1 (s : State) (w : Who) (keys : List Nat) : State :=
  let core := coreOf w.gid
  let s1 := ((s.core core).sectors.filter fun x => keys.contains x.1).foldl (fun (st : State) x => st.writeBackSector w x.2) s
  s1.setCore core ((s1.core core).mapSectors fun k x => if keys.contains k then { x with valid := 0 } else x)
/-- Writes back every dirty byte of a core's L1. -/
def State.cleanL1 (s : State) (w : Who) : State :=
  let core := coreOf w.gid
  let s1 := (s.core core).sectors.foldl (fun (st : State) x => st.writeBackSector w x.2) s
  s1.setCore core ((s1.core core).mapSectors fun _ x => { x with dirty := 0 })
/-- The widest scope at which L1 may serve a team's loads and keep its stores: .team, or .grp where the team spans a pair (13 R328). -/
def State.narrow (s : State) (team : Nat) : Nat := if (s.team team).paired then 0 else 1

/-! ### The stash (08 R206, 13 R327) -/

/-- Fills a stash sector from its point of coherence; one of another package from the words that it has answered. -/
def State.fillSector (s : State) (w : Who) (ctx va : Nat) (p : Place) : State × Option Sector :=
  match p with
  | .hbm t =>
    let r := s.readSlice (dieOf w.gid) ctx t 64
    (r.1, some ((Sector.empty (.hbm t) ctx).refill r.2.1 r.2.2 (-1)))
  | .alias_ r off =>
    let g := (List.range 8).foldl (fun (a : List Byte) i => a ++ bytesOf 8 (s.readAlias w r (off + 8 * i) 8).v) []
    let one := s.readAlias w r off 8
    (one.s, some ((Sector.empty (.alias_ r off) 0).refill g (List.replicate 64 one.bad) (-1)))
  | .fabric pkg t =>
    let rs := (List.range 8).map fun i => s.reply w.who (va + 8 * i)
    if rs.all (·.isSome) then
      let ws := rs.filterMap id
      (s, some ((Sector.empty (.fabric pkg t) ctx).refill (ws.flatMap fun r => bytesOf 8 r.v.toNat) (ws.flatMap fun r => List.replicate 8 r.bad) (-1)))
    else (s, none)
  | _ => (s, none)

/-- The confidential context of a team's launch. -/
def State.teamCtx (s : State) (t : Team) : Nat := (s.task t.task).launch.ctx
/-- The side of a team whose core's stash holds an address: the lines of a paired team's window alternate between its two stashes (log 66). -/
def Team.stashSide (t : Team) (va : Nat) : Nat := if t.paired then va / 256 % 2 else 0
/-- The number of the stash sector of an address. -/
def Team.stashKey (t : Team) (va : Nat) : Nat := t.stashSide va * 2 ^ 50 + va / 64
/-- Writes back every dirty byte of a team's stash; drop also empties it. -/
def State.cleanStash (s : State) (w : Who) (team : Nat) (drop : Bool) : State :=
  let s1 := (s.team team).stash.foldl (fun (st : State) e => st.writeBackSector w e.2) s
  let t := s1.team team
  s1.setTeam team { t with stash := if drop then [] else t.stash.map fun e => (e.1, { e.2 with dirty := 0 }) }

/-- The team whose stash serves a virtual address for an agent of a cluster: its own team's, or one of the cluster in the same address space. -/
def State.stashOf (s : State) (w : Who) (va : Nat) : Option Nat :=
  let covers := fun (t : Team) =>
    let l := (s.task t.task).launch
    l.stash ≠ 0 && l.asid == w.asid && !t.saved && decide (l.stashBase.toNat ≤ va ∧ va < l.stashBase.toNat + l.stash * 2 ^ 17) && t.core / 4 == coreOf w.gid / 4
  if covers (s.team w.team) then some w.team
  else (s.teams.find? fun e => covers e.2).map (·.1)

/-! ### Releases and acquires (08 R206, R209, R228 to R236; 13 R330) -/

/-- Whether a release of the group at a scope may take effect: its aperture stores are performed (R232) and, at .team or wider, its
acknowledgement counter reads 0 (R236). -/
def State.mayRelease (s : State) (gid : Nat) (g : Group) (scope : Nat) : Bool :=
  (scope == 0 || g.acks == 0) && !((s.cluster (clusterOf gid)).aperture.any fun a => a.gid == gid)
/-- What a release waits for. -/
def State.releaseWait (g : Group) (scope : Nat) : Wait := if scope = 0 ∨ g.acks = 0 then .aperture else .acks
/-- A group as the requester of what a release or an acquire of it writes back. -/
def State.groupWho (s : State) (gid : Nat) (g : Group) : Who :=
  let l := s.launchOf g
  { who := gid, gid := gid, team := g.team, asid := l.asid, ctx := l.ctx, part := (s.task g.task).part }
/-- The teams whose stashes serve a group: its own, and those of its cluster in its address space (08 R206). -/
def State.stashTeams (s : State) (gid : Nat) (g : Group) : List Nat :=
  let asid := (s.launchOf g).asid
  (s.teams.filter fun e => e.2.core / 4 == clusterOf gid && !e.2.saved && !e.2.stash.isEmpty && (s.task e.2.task).launch.asid == asid).map (·.1)
/-- What is written back before a release at a scope: at .die or wider the stashes, beyond the scopes that L1 serves the core's L1. -/
def State.writeBack (s : State) (gid : Nat) (g : Group) (scope : Nat) : State :=
  let s1 := if 3 ≤ scope then (s.stashTeams gid g).foldl (fun (st : State) k => st.cleanStash (s.groupWho gid g) k false) s else s
  if s.narrow g.team < scope then s1.cleanL1 (s.groupWho gid g) else s1
/-- An acquire at a scope: at .die or wider the stashes are written back and dropped; beyond the scopes that L1 serves, the clean bytes of the
core's L1 are dropped and its masked bytes kept. -/
def State.acquire (s : State) (gid : Nat) (g : Group) (scope : Nat) : State :=
  let s1 := if 3 ≤ scope then (s.stashTeams gid g).foldl (fun (st : State) k => st.cleanStash (s.groupWho gid g) k true) s else s
  if s.narrow g.team < scope then s1.setCore (coreOf gid) ((s1.core (coreOf gid)).mapSectors fun _ x => x.onlyDirty) else s1

end Sys2Proof.Machine
end

