-- ==== Sys2Proof/Machine/Access.lean ====
section
/-! DEFINITION. Accesses: where each goes, the faults that are decided before any takes effect, what an access must first ask of the walker,
the host or another package, and the performance of a read, a write and an atomic action at each place (08 R204 to R216, R232 to R236;
13 R328 to R330; 14 R347 to R361; 17 R419 to R427). -/

namespace Sys2Proof.Machine

/-- The side of a group's own scratchpad: 0 for a team on one core. -/
def State.ownSide (s : State) (gid team : Nat) : Nat := if (s.team team).paired then sideOf gid else 0

/-- One access: its lane, virtual address and width in bytes. -/
structure Access where
  lane : Nat
  va   : Nat
  w    : Nat
  deriving DecidableEq, Repr

/-- An access with its place and the range entry that covers it. -/
structure Located where
  x : Access
  p : Place
  e : Option RangeEntry
  deriving DecidableEq, Repr

/-! ### Where an access goes (08 R204) -/

/-- Start of the local aperture block in the 56-bit address space. -/
def localBase : Nat := 0xFF000000000000
/-- Bytes of a team's scratchpad on one core. -/
def State.scratchSize (s : State) (team : Nat) : Nat := (s.task (s.team team).task).launch.scratch * 2 ^ 17

/-- The place of an address in the aperture block, or the code of its illegal-operand fault. -/
def State.localPlace (s : State) (gid team va : Nat) : Except Nat Place :=
  let off := va - localBase
  let size := s.scratchSize team
  if off < 0x100000 then (if off < size then .ok (.scratch (s.ownSide gid team) off) else .error 0x10)
  else if off < 0x200000 then
    (if !(s.team team).paired then .error 0x11
     else if off - 0x100000 < size then .ok (.aperture (1 - sideOf gid) (off - 0x100000)) else .error 0x10)
  else .error 0x11

/-- The kind of a translated access (10 Table 10.2) and its lane: a place, a fault, or a walk to wait for. -/
inductive Found where
  | at_ (l : Located)
  | flt (f : Flt)
  | walk (va : Nat)
  deriving DecidableEq, Repr

/-- Locates one access of a group. -/
def State.locate (s : State) (i : Iss) (a : Acc) (x : Access) : Found :=
  if localBase ≤ x.va then
    match s.localPlace i.gid i.g.team x.va with
    | .ok p => .at_ ⟨x, p, none⟩
    | .error c => .flt ⟨3, c, laneBit x.lane, some x.va, none⟩
  else match s.xlat i.gid i.g a x.w x.va with
    | .ok p e => .at_ ⟨x, p, e⟩
    | .fault cls code ix => .flt ⟨cls, code, laneBit x.lane, some x.va, ix⟩
    | .walk => .walk x.va

/-- The alignment faults of accesses (08 R211, R214, R222). -/
def alignFaults (code al : Nat) (xs : List Access) : List Flt :=
  xs.filterMap fun x => if x.va % al = 0 then none else some ⟨4, code, laneBit x.lane, some x.va, none⟩

def foundAt (l : List Found) : List Located := l.filterMap fun f => match f with | .at_ x => some x | _ => none
def foundFaults (l : List Found) : List Flt := l.filterMap fun f => match f with | .flt x => some x | _ => none
def foundWalks (l : List Found) : List Nat := l.filterMap fun f => match f with | .walk x => some x | _ => none

/-- The ranges used become the most recently used of the core's table (10 R276). -/
def State.useRanges (s : State) (core : Nat) (ls : List Located) : State :=
  let es := ls.filterMap (·.e)
  let c := s.core core
  let used := es.filter fun e => c.rtable.any fun x => x.image.asid = e.image.asid ∧ x.image.base = e.image.base
  s.setCore core (used.foldl CoreSt.use c)

/-- Decides the address faults of a group's accesses before any takes effect (08 R211, 01 R34): pre are the faults of operands, poison and
alignment, and those of classes that follow the range faults; what precedes these is taken first; then walks are awaited; then the others; then the
accesses, located. -/
def memoryStage (a : Acc) (xs : List Access) (pre : List Flt) (i : Iss) (s : State) (k : List Located → State → Res) : Res :=
  let fd := xs.map (s.locate i a)
  let fs := foundFaults fd
  let hard := (pre ++ fs).filter fun f => classRank f.cls ≤ classRank 4
  let rest := (pre ++ fs).filter fun f => classRank 4 < classRank f.cls
  let walks := foundWalks fd
  if !hard.isEmpty then .fault s hard
  else if !walks.isEmpty then .wait (s.askWalk i.gid i.g walks false) i.g (.walk walks)
  else if !rest.isEmpty then .fault s rest
  else k (foundAt fd) (s.useRanges (coreOf i.gid) (foundAt fd))

/-! ### What an access must first ask for -/

/-- What an access does at its place. -/
inductive Kind where
  | read | write | atom
  deriving DecidableEq, Repr

/-- The sectors for which the host must answer before an access to an address in the package's HBM, each with whether the package writes it: the
access's own, and those that the merging of its line writes (17 R422; 14 R356). -/
def State.snoops (s : State) (k : Kind) (t : Nat) : List (Nat × Bool) :=
  let merged := s.mergeHeld (t / 256)
  (match tfind s.host.held (t / 64) with
   | some excl => if (k != .read || excl) && !merged.contains (t / 64) then [(t / 64, k != .read)] else []
   | none => []) ++ merged.map (·, true)
def State.snoopNeeded (s : State) (k : Kind) (t : Nat) : Bool := !(s.snoops k t).isEmpty
/-- Sends back-invalidation snoops of sectors, unless one is under way, and notes that a requester waits for their answers. -/
def State.snoopAll (s : State) (w : Who) (l : List (Nat × Bool)) : State :=
  l.foldl (fun (st : State) x =>
    (if (tfind st.host.snooping x.1).isSome then st
     else { st with host := { st.host with snooping := tput st.host.snooping x.1 x.2,
                                           sent := st.host.sent ++ [if x.2 then .biSnpInv x.1 else .biSnpData x.1] } }).need w (.snoop x.1)) s
def State.sendSnoop (s : State) (w : Who) (k : Kind) (t : Nat) : State := s.snoopAll w (s.snoops k t)

/-- Whether a host sector must be asked for (17 Table 17.2). -/
def State.hostNeeded (s : State) (k : Kind) (h : Nat) : Bool :=
  match s.mesi h with
  | .i => true
  | .s => k != .read
  | _ => false
/-- The miss of an access to a host sector: it is counted once, and RdShared or RdOwn is sent unless the sector is already asked for. -/
def State.sendHost (s : State) (w : Who) (k : Kind) (h : Nat) : State :=
  let sec := h / 64
  let s1 := if s.needing w (.sector sec) then s else (s.countHost w h 1).need w (.sector sec)
  if s1.host.asked.contains sec then s1
  else { s1 with host := { s1.host with asked := s1.host.asked ++ [sec], owning := if k = .read then s1.host.owning else s1.host.owning ++ [sec],
                                        sent := s1.host.sent ++ [if k = .read then .rdShared sec else .rdOwn sec] } }

/-- Whether an access of a requester to a package overlaps an earlier one of its core that is not answered (08 R232; 17 R427). -/
def State.overlapping (s : State) (who pkg t n : Nat) : Bool :=
  s.ports.any fun p => p.2.waiting.any fun x => sameCore x.who who && x.package = pkg && decide (x.target < t + n ∧ t < x.target + x.bytes)
/-- Whether a request of a requester for an address is under way. -/
def State.asking (s : State) (who va : Nat) : Bool :=
  s.ports.any fun p => p.2.waiting.any fun x => x.who = who ∧ x.va = va ∧ !x.ack

/-- Whether an access goes through an encrypted range, and the context that it then carries. -/
def Located.enc (l : Located) : Bool := match l.e with | some e => e.image.enc | none => false
def Located.ctx (l : Located) (w : Who) : Nat := if l.enc then w.ctx else 0

/-- The team whose stash serves a located global access, if one does: never host data (17 R419; log 22), and never for an engine outside the
cluster. What the slices keep for themselves, doorbells and the Chofer area, is not held either (log 23). -/
def State.stashFor (s : State) (w : Who) (l : Located) : Option Nat :=
  if w.engine && !w.unit then none
  else match l.p with
  | .hbm t => if inChofer t ∨ (s.doorbellOf t l.x.w).isSome then none else s.stashOf w l.x.va
  | .fabric pkg t => if l.x.w = 8 ∧ Config.farDoorbell pkg t then none else s.stashOf w l.x.va
  | .alias_ _ _ => s.stashOf w l.x.va
  | _ => none
/-- The number of the L1 sector of an access that L1 may hold: global data of no engine outside the core that no stash serves. -/
def State.l1For (s : State) (w : Who) (l : Located) : Option Nat :=
  if (w.engine && !w.unit) || (s.stashFor w l).isSome then none
  else match l.p with
  | .hbm t => if inChofer t ∨ (s.doorbellOf t l.x.w).isSome then none else (Home.hbm t).l1Key
  | .fabric pkg t => if l.x.w = 8 ∧ Config.farDoorbell pkg t then none else (Home.fabric pkg t).l1Key
  | _ => none
/-- Whether L1 serves a load: one at a narrow scope that finds its bytes there, reached for the same context. -/
def State.l1Hit (s : State) (w : Who) (l : Located) : Option Sector :=
  if s.narrow w.team < w.scope || w.engine then none
  else (s.l1For w l).bind fun key => ((s.core (coreOf w.gid)).sector key).filter fun x => x.ctx == l.ctx w && x.holds (l.x.va % 64) l.x.w

/-- Asks another package for a word unless the answer is here or under way; none when it is here, or when no route leads there. -/
def State.askWord (s : State) (w : Who) (enc : Bool) (pkg t n key : Nat) (op : SliceOp) : Option State :=
  if (s.reply w.who key).isSome || (s.route pkg).isNone then none
  else if s.asking w.who key then some s
  else if s.overlapping w.who pkg t n then some (s.need w (.bytes pkg t n))
  else some (s.sendFabric w enc pkg t n key op false)
/-- Waits for the earlier accesses of its core that a write to another package overlaps. -/
def State.askOver (s : State) (w : Who) (pkg t n : Nat) : Option State :=
  if s.overlapping w.who pkg t n then some (s.need w (.bytes pkg t n)) else none
/-- Joins what several parts ask for. -/
def State.askEach {α : Type} (s : State) (l : List α) (f : State → α → Option State) : Option State :=
  match l with
  | [] => none
  | x :: r => match f s x with
    | none => s.askEach r f
    | some s1 => some (r.foldl (fun (st : State) y => (f st y).getD st) s1)

/-- What a backing address of an alias block asks for (10 R278): its element bytes and its scale are read, and written, where they lie. -/
def State.askBack (s : State) (w : Who) (k : Kind) (t : Nat) : Option State :=
  match s.placeOf t with
  | .hbm a => if s.snoopNeeded k a then some (s.sendSnoop w k a) else none
  | .host h => if s.linked (dieOf w.gid) (homeDie h) && s.hostNeeded k h then some (s.sendHost w k h) else none
  | .fabric pkg a => s.askWord w false pkg (a / 8 * 8) 8 (backKey (t / 8 * 8)) .read
  | _ => none
/-- The backing addresses of the block at an offset: a word of element bytes each, and the scale byte. -/
def aliasTargets (r : RangeRec) (off : Nat) : List Nat :=
  (List.range (r.blockBytes / 8)).map (fun i => r.blockAt (off / 64) + 8 * i) ++ [r.scaleAt (off / 64)]
/-- What an access through an alias range asks for. -/
def State.askAlias (s : State) (w : Who) (k : Kind) (r : RangeRec) (off : Nat) : Option State :=
  s.askEach (aliasTargets r off) fun st t => st.askBack w k t

/-- What writing a sector back asks for (17 R422, R427). -/
def State.askBackOf (s : State) (w : Who) (x : Sector) : Option State :=
  if x.dirty = 0 then none
  else match x.home with
  | .hbm t => if s.snoopNeeded .write t then some (s.sendSnoop w .write t) else none
  | .alias_ r off => s.askAlias w .write r off
  | .fabric pkg t => s.askOver w pkg t 64

/-! ### What goes out of an access's way (08 R206, R232) -/

/-- The sectors of L1 that lie under a global access that L1 does not serve: they are written back and dropped first (08 R232). -/
def State.underL1 (s : State) (l : Located) : List Nat :=
  match l.p with
  | .alias_ r off => (aliasTargets r off).filterMap fun t => match s.placeOf t with
    | .hbm a => (Home.hbm a).l1Key
    | .fabric pkg a => (Home.fabric pkg a).l1Key
    | _ => none
  | .hbm t => (Home.hbm t).l1Key.toList
  | .fabric pkg t => (Home.fabric pkg t).l1Key.toList
  | _ => []
/-- Writes back and drops them, for an agent of the core. -/
def State.clearL1 (s : State) (w : Who) (l : Located) : State :=
  if w.engine && !w.unit then s
  else
    let keys := (s.underL1 l).filter fun k => ((s.core (coreOf w.gid)).sector k).isSome
    if keys.isEmpty then s else s.flushL1 w keys

/-- The stash sectors of an access's line, with their keys. -/
def State.stashLine (s : State) (team : Nat) (l : Located) : List (Nat × Sector) :=
  (List.range 4).filterMap fun k =>
    let key := (s.team team).stashKey (l.x.va / 256 * 256 + 64 * k)
    (tfind (s.team team).stash key).map fun x => (key, x)
/-- What an atomic access at .die or wider, or one that is applied elsewhere, first takes out of its core's way: the line that a stash holds and
the sector that L1 holds are written back and dropped (08 R206, R232). -/
def State.clearFor (s : State) (w : Who) (wide : Bool) (l : Located) : State :=
  let s0 := match (if wide then s.stashFor w l else none) with
    | some team =>
      let xs := s.stashLine team l
      if xs.isEmpty then s
      else
        let s1 := xs.foldl (fun (st : State) x => st.writeBackSector w x.2) s
        s1.setTeam team { s1.team team with stash := (s1.team team).stash.filter fun e => !xs.any fun x => x.1 == e.1 }
    | none => s
  if wide || (s.stashFor w l).isNone then s0.clearL1 w l else s0

/-- Whether L1 keeps what a store writes: at a narrow scope, for the memory of its own die (08 R209; log 10). -/
def State.keepsL1 (s : State) (w : Who) (l : Located) : Bool :=
  decide (w.scope ≤ s.narrow w.team) && !w.engine && (s.l1For w l).isSome && (match l.p with | .hbm t => !remote w t | _ => false)
/-- What the write-back of the L1 sectors under an access asks for, unless L1 serves the access itself. -/
def State.askUnder (s : State) (w : Who) (k : Kind) (l : Located) : Option State :=
  let c := s.core (coreOf w.gid)
  let served := k != .atom && !w.engine && match s.l1For w l with | some key => (c.sector key).all fun x => x.ctx == l.ctx w | none => false
  if (w.engine && !w.unit) || served then none
  else s.askEach ((s.underL1 l).filterMap c.sector) fun st x => st.askBackOf w x

/-! ### What fills a stash line (08 R206) -/

/-- The sectors of the 256-byte line of an access that its range covers and that the stash does not hold, or all that the range covers, with their
places; a sector whose translation faults is left to its own first touch. -/
def State.lineParts (s : State) (w : Who) (team : Nat) (l : Located) (a : Acc) (all : Bool) : List (Nat × Place) :=
  match l.e with
  | none => []
  | some e => (List.range 4).filterMap fun k =>
    let va := l.x.va / 256 * 256 + 64 * k
    if !e.image.covers va || (!all && (tfind (s.team team).stash ((s.team team).stashKey va)).isSome) then none
    else match s.through e w.ctx a 64 va with
      | .ok p _ => some (va, p)
      | _ => none
/-- What the fill of one sector still asks of other agents. Words that another package has returned and that are outdated are asked for again. -/
def State.askSector (s : State) (w : Who) (enc : Bool) (va : Nat) (p : Place) : Option State :=
  match p with
  | .hbm t => if s.snoopNeeded .read t then some (s.sendSnoop w .read t) else none
  | .alias_ r off => s.askAlias w .read r off
  | .fabric pkg t =>
    let s0 := { s with replies := s.replies.filter fun r => !(r.who = w.who && r.stale && decide (va ≤ r.va ∧ r.va < va + 64)) }
    s0.askEach (List.range 8) fun st i => st.askWord w enc pkg (t + 8 * i) 8 (va + 8 * i) .read
  | _ => none
/-- What the fill of the stash line of an access still asks for: its first touch fills the line. -/
def State.askFill (s : State) (w : Who) (team : Nat) (l : Located) (a : Acc) : Option State :=
  if !w.fresh && (tfind (s.team team).stash ((s.team team).stashKey l.x.va)).isSome then none
  else s.askEach (s.lineParts w team l a w.fresh) fun st p => st.askSector w l.enc p.1 p.2
/-- What an acquiring access to another package finds dirty in its stash line is written back first, and what was asked for before is outdated. -/
def State.washLine (s : State) (w : Who) (team : Nat) (l : Located) : State :=
  if w.fresh && (s.stashLine team l).any fun x => x.2.dirty != 0 then
    { s.clearFor w true l with replies := s.replies.filter fun r => !(r.who = w.who && decide (r.va / 256 = l.x.va / 256)) }
  else s

/-! ### What an access asks for -/

/-- The unit of a migrating record that an access meets while a slice holds it (10 R289; 14 R346). -/
def State.unitHeld (s : State) (l : Located) : Option Need :=
  match l.e with
  | none => none
  | some e =>
    if e.image.moving then
      (s.moves.find? fun m => m.held && m.asid == e.image.asid && m.base == e.image.base && (l.x.va - m.base) / 256 == m.done).map fun m =>
        .unit m.asid m.base m.done
    else none

/-- What an access asks for where a stash serves it. One at .die or wider also reaches memory: a store is written through, an atomic action is
performed there when the line has been written back. -/
def State.askStashed (s : State) (w : Who) (team : Nat) (k : Kind) (op : SliceOp) (l : Located) : Option State :=
  let wide := decide (3 ≤ w.scope)
  match l.p, k, wide with
  | .fabric pkg t, .atom, true =>
    if (s.reply w.who l.x.va).isSome then none
    else (s.askEach ((s.stashLine team l).map (·.2)) fun st x => st.askBackOf w x) <|> (s.clearFor w true l).askWord w l.enc pkg t l.x.w l.x.va op
  | .hbm t, .atom, true =>
    s.askEach (Sum.inl t :: (s.stashLine team l).map fun x => Sum.inr x.2) fun st x => match x with
      | .inl t => if st.snoopNeeded .atom t then some (st.sendSnoop w .atom t) else none
      | .inr x => st.askBackOf w x
  | .fabric pkg t, .write, true => s.askFill w team l .write <|> s.askOver w pkg (t / 64 * 64) 64
  | .hbm t, .write, true => s.askFill w team l .write <|> if s.snoopNeeded .write t then some (s.sendSnoop w .write t) else none
  | .alias_ r off, .write, true => s.askFill w team l .write <|> s.askAlias w .write r off
  | .fabric _ _, _, _ => (s.washLine w team l).askFill w team l .read
  | _, .write, _ => s.askFill w team l .write
  | _, _, _ => s.askFill w team l .read
/-- What an access asks for where no stash serves it. -/
def State.askPlace (s : State) (w : Who) (k : Kind) (op : SliceOp) (l : Located) : Option State :=
  match l.p with
  | .scratch _ _ => none
  | .aperture _ _ =>
    if k ≠ .write ∧ (s.cluster (clusterOf w.gid)).aperture.any (fun a => a.gid == w.gid) then some s else none
  | .hbm t =>
    if (k = .read ∧ (s.l1Hit w l).isSome) ∨ (k = .write ∧ s.keepsL1 w l) then none
    else if s.snoopNeeded k t then some (s.sendSnoop w k t) else none
  | .alias_ r off => s.askAlias w k r off
  | .host h => if s.linked (dieOf w.gid) (homeDie h) && s.hostNeeded k h then some (s.sendHost w k h) else none
  | .fabric pkg t => match k with
    | .write => s.askOver w pkg t l.x.w
    | .read => if (s.l1Hit w l).isSome then none else s.askWord w l.enc pkg t l.x.w l.x.va op
    | .atom => s.askWord w l.enc pkg t l.x.w l.x.va op
/-- What one access asks for before it can be performed: the state after asking, or none when it need not wait. -/
def State.ask (s : State) (w : Who) (k : Kind) (op : SliceOp) (l : Located) : Option State :=
  match s.unitHeld l with
  | some n => some (s.need w n)
  | none => s.askUnder w k l <|> match s.stashFor w l with
    | some team => s.askStashed w team k op l
    | none => s.askPlace w k op l
/-- What an action in another package that returns nothing asks for: what its core's caches hold of it has been written back, and answered. -/
def State.askFarRed (s : State) (w : Who) (l : Located) (pkg t : Nat) : Option State :=
  match s.unitHeld l with
  | some n => some (s.need w n)
  | none => s.askUnder w .atom l <|>
    (match s.stashFor w l with
     | some team => s.askEach ((s.stashLine team l).map (·.2)) fun st x => st.askBackOf w x
     | none => none) <|> (s.clearFor w true l).askOver w pkg t l.x.w

/-- Asks for everything that accesses need; none when all can be performed. -/
def State.askAll (s : State) (w : Who) (k : Kind) (ls : List (Located × SliceOp)) : Option State :=
  s.askEach ls fun st l => st.ask w k l.2 l.1

/-- Which wait a group that asked takes: its own aperture stores, or an answer. -/
def askedWait (ls : List Located) (k : Kind) : Wait :=
  if k ≠ .write ∧ ls.any (fun l => match l.p with | .aperture _ _ => true | _ => false) then .aperture else .reply

/-! ### Reads -/

/-- Fills the 256-byte line of an access, as far as its range covers it; the touching access has taken any fault of its own range (08 R206). -/
def State.fillLine (s : State) (w : Who) (team : Nat) (l : Located) (a : Acc) : State :=
  let parts := s.lineParts w team l a false
  if parts.isEmpty then s
  else
    let s0 := if (s.stashLine team l).isEmpty then s.countWho w 0x23 1 else s
    parts.foldl (fun st p => match st.fillSector w (l.ctx w) p.1 p.2 with
      | (st1, some ln) => st1.setTeam team { st1.team team with stash := tput (st1.team team).stash ((st1.team team).stashKey p.1) ln }
      | (st1, none) => st1) s0

/-- The level that a place is reached at (11 Table 11.3): a sector that its slice holds there, and one that it does not in HBM, unless it is only
written (14 R347); a host sector that its home slice holds there, and one that is asked for at the host. -/
def State.placeLevel (s : State) (w : Who) (k : Kind) (p : Place) : Nat :=
  let slice := fun d => if d = dieOf w.gid then 3 else 4
  let hbm := fun (k : Kind) t => if k != .write && !tget false s.present (t / 64) then 5 else slice (ownerDie t)
  let host := fun h => if s.needing w (.sector (h / 64)) || s.mesi h == .i then 7 else slice (homeDie h)
  match p with
  | .scratch _ _ | .aperture _ _ => 1
  | .host h => host h
  | .fabric _ _ => 6
  | .hbm t => hbm k t
  | .alias_ r off => (aliasTargets r off).foldl (fun m t => max m (match s.placeOf t with
    | .hbm a => hbm .read a
    | .host h => host h
    | _ => 6)) 0
/-- The level of an access as the state before it has it (11 R306): a stash that misses goes as far as its fill, an atomic action past the stash and
L1 as far as where it is performed, and a lazy one no farther than its die's slice. -/
def State.levelOf (s : State) (w : Who) (k : Kind) (lazy : Bool) (l : Located) : Nat :=
  match s.stashFor w l with
  | some team =>
    if k = .atom ∧ 3 ≤ w.scope then (if lazy then 3 else (s.clearFor w true l).placeLevel w k l.p)
    else if (tfind (s.team team).stash ((s.team team).stashKey l.x.va)).isSome then 1 else s.placeLevel w .read l.p
  | none =>
    if k = .atom then (if lazy then 3 else (s.clearFor w true l).placeLevel w k l.p)
    else if (k = .read ∧ (s.l1Hit w l).isSome) ∨ (k = .write ∧ s.keepsL1 w l) then 2
    else s.placeLevel w k l.p

/-- A read at the point of coherence, past every cache of the core. -/
def State.readFar (s : State) (w : Who) (l : Located) : Got :=
  let n := l.x.w
  match l.p with
  | .scratch side off | .aperture side off =>
    let t := s.team w.team
    let key := scratchKey side off
    ⟨s, t.readScratch key n, if t.scratchBad key n then 1 else 0⟩
  | .host h => s.readHost w h n
  | .fabric _ _ =>
    match s.reply w.who l.x.va with
    | some r => ⟨s, r.v.toNat % 2 ^ (8 * n), r.bad⟩
    | none => ⟨s, 0, 7⟩
  | .hbm t => s.readHbm (dieOf w.gid) (l.ctx w) t n
  | .alias_ r off => s.readAlias w r off n

/-- A load by way of L1 (08 R209): a hit; else the sector is read at the point of coherence, its dirty bytes stay, and L1 keeps it. Data that a
link that is down or a failed seal spoils is not kept, nor what a later store of the core has outdated. -/
def State.readL1 (s : State) (w : Who) (key : Nat) (l : Located) : Got :=
  let at_ := l.x.va % 64
  match s.l1Hit w l with
  | some x => let g := x.get at_ l.x.w; ⟨s.setL1 w key x, g.1, g.2⟩
  | none =>
    let old := (s.core (coreOf w.gid)).sector key
    let s0 := if old.isSome then s else s.countWho w 0x22 1
    let home : Home := match l.p with | .fabric pkg t => .fabric pkg (t / 64 * 64) | .hbm t => .hbm (t / 64 * 64) | _ => .hbm 0
    let s1 := match old with | some x => if x.ctx = l.ctx w then s0 else s0.flushL1 w [key] | none => s0
    let base := (((s1.core (coreOf w.gid)).sector key).getD (.empty home (l.ctx w)))
    match l.p with
    | .hbm t =>
      let r := s1.readSlice (dieOf w.gid) (l.ctx w) (t / 64 * 64) 64
      let x := base.refill r.2.1 r.2.2 (-1)
      let g := x.get at_ l.x.w
      ⟨if r.2.2.any (1 < ·) then r.1 else r.1.setL1 w key x, g.1, g.2⟩
    | _ =>
      let r := s1.readFar w l
      let x := base.refill (List.replicate at_ 0 ++ bytesOf l.x.w r.v) (List.replicate 64 r.bad) (runMask 64 at_ l.x.w)
      let g := x.get at_ l.x.w
      ⟨if r.bad = 0 && (s.reply w.who l.x.va).all (!·.stale) then r.s.setL1 w key x else r.s, g.1, g.2⟩

/-- A read by a requester where its place is. Words of a stash line that nothing could deliver are poison (17 R428). -/
def State.placeRead (s : State) (w : Who) (l : Located) : Got :=
  match s.stashFor w l with
  | some team =>
    let s1 := (s.clearL1 w l).fillLine w team l .read
    match tfind (s1.team team).stash ((s1.team team).stashKey l.x.va) with
    | some x => let g := x.get (l.x.va % 64) l.x.w; ⟨s1, g.1, g.2⟩
    | none => ⟨s1, (s.unseen l.x.va).toNat % 2 ^ (8 * l.x.w), 7⟩
  | none => match (if w.engine then none else s.l1For w l) with
    | some key => s.readL1 w key l
    | none => (s.clearL1 w l).readFar w l

/-! ### Writes -/

/-- A write at the point of coherence, past every cache of the core. -/
def State.writeFar (s : State) (w : Who) (l : Located) (v : Nat) (bad : Bool) : State :=
  let n := l.x.w
  match l.p with
  | .scratch side off => s.setTeam w.team ((s.team w.team).writeScratch (scratchKey side off) n v s.clock bad)
  | .aperture side off =>
    let cl := clusterOf w.gid
    let c := s.cluster cl
    s.setCluster cl { c with aperture := c.aperture ++ [⟨w.gid, w.team, side, off, bytesOf n v, bad⟩] }
  | .host h => (s.writeHost w h n v bad).addAck w
  | .fabric pkg t => s.sendFabric w l.enc pkg t n l.x.va (.write (BitVec.ofNat 64 v) bad) true
  | .hbm t =>
    let s1 := s.writeHbm (dieOf w.gid) (l.ctx w) t n v bad
    if remote w t then s1.addAck w else s1
  | .alias_ r off => s.writeAlias w r off n v bad

/-- A store that is made at the point of coherence updates the L1 sector of its bytes. -/
def State.updateL1 (s : State) (w : Who) (key : Nat) (l : Located) (v : Nat) (bad : Bool) : State :=
  match (s.core (coreOf w.gid)).sector key with
  | some x => s.setL1 w key (x.put (l.x.va % 64) l.x.w v bad false)
  | none => s
/-- A store by way of L1 (08 R209): at a narrow scope the bytes become dirty in L1; at a wider one they are written through and update it. L1
evicts at once what it would keep for the memory of another die or package, whose write the group's counter awaits (log 10). -/
def State.writeL1 (s : State) (w : Who) (key : Nat) (l : Located) (v : Nat) (bad : Bool) : State :=
  let at_ := l.x.va % 64
  let keep := s.keepsL1 w l
  let home : Home := match l.p with | .hbm t => .hbm (t / 64 * 64) | _ => .hbm 0
  let s1 := match (s.core (coreOf w.gid)).sector key with | some x => if x.ctx = l.ctx w then s else s.flushL1 w [key] | none => s
  if keep then s1.setL1 w key ((((s1.core (coreOf w.gid)).sector key).getD (.empty home (l.ctx w))).put at_ l.x.w v bad true)
  else (s1.writeFar w l v bad).updateL1 w key l v bad

/-- A write at a local target that goes past the record of a migrating range: the values of both its extents are unspecified from then on
(10 R289; 00 R7). -/
def State.strayed (s : State) (e : Option RangeEntry) (t : Nat) : State :=
  s.moves.foldl (fun (st : State) m =>
    let own := match e with | some e => e.image.moving && m.asid == e.image.asid && m.base == e.image.base | none => false
    if own || !(decide (m.src ≤ t ∧ t < m.src + m.size) || decide (m.dst ≤ t ∧ t < m.dst + m.size)) then st
    else (st.spoil m.src m.size).spoil m.dst m.size) s
/-- The elements of a collective's buffers that an access of w bytes at va touches: those of its send buffers that a write meets, and those of its
receive buffers (17 R438). -/
def meetsIn (buffers : List (Bool × Nat × Nat × Nat)) (write : Bool) (va w : Nat) : List (Bool × Nat) :=
  buffers.flatMap fun b =>
    if write || b.1 then
      (List.range' ((va - b.2.1) / b.2.2.1) ((va + w - b.2.1 + b.2.2.1 - 1) / b.2.2.1 - (va - b.2.1) / b.2.2.1)).filterMap fun i =>
        if i < b.2.2.2 then some (b.1, i) else none
    else []
/-- A contribution some of whose send elements are unspecified. -/
def loosenFlit (c : CollFlit) (draw : Nat → W64) (is : List Nat) : CollFlit :=
  { c with send := is.foldl (fun l i => l.set i (draw i)) c.send, tails := is.foldl (fun l i => l.set i (draw (i + 0x8000))) c.tails }
/-- What a program touches of the buffers of a rank between its push and its completion becomes unspecified (17 R438; 00 R7). While the block is not
accepted its buffers are not known: the accesses are kept with it. -/
def State.touches (s : State) (w : Who) (l : Located) (write : Bool) : State :=
  if 2 ^ 41 ≤ w.who || s.ports.all fun p => p.2.running.isEmpty && p.2.handed.isEmpty then s
  else
    let hit := fun (c : Coll) => if (s.task c.task).launch.asid = w.asid then meetsIn c.buffers write l.x.va l.x.w else []
    let note := fun (h : Handed) => if (s.task h.task).launch.asid = w.asid then { h with seen := h.seen ++ [(write, l.x.va, l.x.w)] } else h
    let sends := s.ports.flatMap fun p => p.2.running.map fun c => (c, (hit c).filterMap fun x => if x.1 then none else some x.2)
    let early := fun (e : CollFlit) => sends.foldl (fun (e : CollFlit) x =>
      if e.rank = x.1.rank ∧ e.group = bits (x.1.block.getD 0 0) 15 0 ∧ e.generation = bits (x.1.block.getD 0 0) 31 16 then
        loosenFlit e (fun i => s.free (0x1E0000 + i % 0x10000)) x.2 else e) e
    { s with ports := s.ports.map fun p =>
        (p.1, { p.2 with running := p.2.running.map (fun c => { c with touched := (hit c ++ c.touched).eraseDups }), early := p.2.early.map early,
                         handed := p.2.handed.map note }) }
/-- Whether a program's read meets a receive buffer of a rank whose collective runs: what it reads is unspecified (17 R438; 18 R452). -/
def State.midColl (s : State) (w : Who) (l : Located) : Bool :=
  decide (w.who < 2 ^ 41) && s.ports.any fun p => p.2.running.any fun c =>
    (s.task c.task).launch.asid == w.asid && !(meetsIn c.buffers false l.x.va l.x.w).isEmpty
/-- A write that an access has made, judged so. -/
def State.judged (s : State) (w : Who) (l : Located) : State :=
  (match l.p with | .hbm t => s.strayed l.e t | _ => s).touches w l true

/-- A read by a requester of an access that need not wait. -/
def State.performRead (s : State) (w : Who) (l : Located) : Got :=
  let g := s.placeRead w l
  { g with s := g.s.touches w l false, v := if s.midColl w l then (s.unseen l.x.va).toNat % 2 ^ (8 * l.x.w) else g.v }

/-- A write by a requester where its place is: in a stash, by way of L1, or past both. -/
def State.placeWrite (s : State) (w : Who) (l : Located) (v : Nat) (bad : Bool) : State :=
  match s.stashFor w l with
  | some team =>
    let s1 := (s.clearL1 w l).fillLine w team l .write
    let tm := s1.team team
    match tfind tm.stash (tm.stashKey l.x.va) with
    | some x => s1.setTeam team { tm with stash := tput tm.stash (tm.stashKey l.x.va) (x.put (l.x.va % 64) l.x.w v bad true) }
    | none => s1
  | none => match (if w.engine then none else s.l1For w l) with
    | some key => s.writeL1 w key l v bad
    | none => (s.clearL1 w l).writeFar w l v bad
/-- A write by a requester. -/
def State.performWrite (s : State) (w : Who) (l : Located) (v : Nat) (bad : Bool) : State := (s.placeWrite w l v bad).judged w l

/-! ### Atomic actions (08 R216; 14 R353, R354, R360) -/

/-- One action of the lanes that share an address: each lane's old and new value, and the final value. -/
def atomChain (op : AtomOp) (ty : AtomTy) (v : W64) : List (W64 × W64) → List (W64 × W64) × W64
  | [] => ([], v)
  | (x, c) :: r =>
    let n := atomApply op ty v x c
    let t := atomChain op ty n r
    ((v, n) :: t.1, t.2)

/-- An atomic action of a group that is performed at once where its data is: in the stash at .clu or narrower, else where memory is. Gives each
lane's old and new value and the old value's poison. -/
def State.performAtom (s : State) (w : Who) (op : AtomOp) (ty : AtomTy) (l : Located) (xs : List (W64 × W64)) :
    State × List (W64 × W64) × Nat :=
  let chain := fun v => atomChain op ty (BitVec.ofNat 64 v) xs
  match (if 3 ≤ w.scope then none else s.stashFor w l) with
  | some _ =>
    let r := s.performRead w l
    (r.s.performWrite w l (chain r.v).2.toNat (r.bad ≠ 0), (chain r.v).1, r.bad)
  | none =>
    let s0 := s.clearFor w true l
    match l.p with
    | .hbm t =>
      let r := s0.atomHbm (dieOf w.gid) (l.ctx w) t l.x.w fun v => (chain v).2.toNat
      ((if remote w t then r.s.addAck w else r.s).judged w l, (chain r.v).1, r.bad)
    | .fabric _ _ =>
      let r := s0.readFar w l
      (r.s.judged w l, (chain r.v).1, r.bad)
    | .host h =>
      let r := s0.readHost w h l.x.w
      (((r.s.writeHost w h l.x.w (chain r.v).2.toNat (r.bad ≠ 0) false).addAck w).judged w l, (chain r.v).1, r.bad)
    | .aperture side off =>
      let t := s0.team w.team
      let key := scratchKey side off
      let c := chain (t.readScratch key l.x.w)
      let bad := t.scratchBad key l.x.w
      (s0.setTeam w.team (t.writeScratch key l.x.w c.2.toNat s.clock bad), c.1, if bad then 1 else 0)
    | _ =>
      let r := s0.readFar w l
      ((r.s.writeFar w l (chain r.v).2.toNat (r.bad ≠ 0)).judged w l, (chain r.v).1, r.bad)

/-- Whether a RED may be applied lazily (14 R353). -/
def lazyRed (w : Who) (op : AtomOp) (ty : AtomTy) (l : Located) : Bool :=
  4 ≤ w.scope &&
  (match op, ty with
   | .add, .f32 => false
   | .min, _ | .max, _ | .and, _ | .or, _ | .xor, _ | .add, _ => true
   | _, _ => false) &&
  (match l.p with | .hbm t => remote w t | _ => false)

/-- Whether a RED is applied lazily: one to a doorbell is a write that its slice answers for (15 R376). -/
def State.lazyAt (s : State) (w : Who) (op : AtomOp) (ty : AtomTy) (l : Located) : Bool :=
  lazyRed w op ty l && match l.p with | .hbm t => (s.doorbellOf t l.x.w).isNone | _ => false

/-- The partial copy that a lazy RED of a die makes it flush: one of the line with another op, type or context, or the least recently used. -/
def State.ousted (s : State) (k : Nat) (op : AtomOp) (ty : AtomTy) (ctx line : Nat) : Option Partial :=
  let ps := (s.die k).partials
  match ps.find? fun p => p.line == line with
  | some p => if p.op = op ∧ p.ty = ty ∧ p.ctx = ctx then none else some p
  | none => if ps.length < Config.partialsPerSlice then none else ps.getLast?
/-- What a lazy RED asks for: the unit of a migrating range that a slice holds, what its core's caches write back, and the host where a partial
copy must leave (14 R346, R354; 17 R422). -/
def State.askLazy (s : State) (w : Who) (op : AtomOp) (ty : AtomTy) (l : Located) (t : Nat) : Option State :=
  match s.unitHeld l with
  | some n => some (s.need w n)
  | none => s.askUnder w .atom l <|>
    (match s.stashFor w l with
     | some team => s.askEach ((s.stashLine team l).map (·.2)) fun st x => st.askBackOf w x
     | none => none) <|>
    (match s.ousted (dieOf w.gid) op ty (l.ctx w) (t / 256) with
     | some p => let held := s.mergeHeld p.line; if held.isEmpty then none else some (s.snoopAll w (held.map (·, true)))
     | none => none)

/-- Applies an eligible RED to its die's partial copy (14 R354). One to the Chofer area is dropped and counted (16 R396). -/
def State.performLazy (s : State) (w : Who) (op : AtomOp) (ty : AtomTy) (ctx t : Nat) (xs : List (W64 × W64)) : State :=
  let k := dieOf w.gid
  let line := t / 256
  if inChofer t then s.dropChofer.addAck w
  else if !s.linked k (ownerDie t) then s.addAck w
  else
    let s1 := match s.ousted k op ty ctx line with | some p => s.flushPartial k p.line | none => s
    let d := s1.die k
    let p := (d.partials.find? fun p => p.line == line).getD { line := line, op := op, ty := ty, words := [], ctx := ctx }
    let m := (tfind p.words t).getD (atomIdentity op ty)
    let p1 := { p with words := tput p.words t (atomChain op ty m xs).2, waiting := if p.joined then p.waiting else p.waiting ++ [w.gid] }
    (s1.setDie k { d with partials := p1 :: d.partials.filter fun q => q.line != line }).addAck w
/-- The value that a lazy RED finds in coherence order (08 R216, R231): that of its line merged with every partial copy of it (14 R356). -/
def State.lazyOld (s : State) (w : Who) (t n : Nat) : W64 :=
  if s.linked (dieOf w.gid) (ownerDie t) then BitVec.ofNat 64 ((s.mergeLine (t / 256)).readMem t n) else s.unseen t

/-! ### Releases and acquires that may have to wait -/

/-- What the write-back of the stashes, and of the core's L1, asks for. -/
def State.askStash (s : State) (gid : Nat) (g : Group) (scope : Nat) : Option State :=
  if scope < 3 then none
  else s.askEach ((s.stashTeams gid g).flatMap fun k => (s.team k).stash.map (·.2)) fun st x => st.askBackOf (s.groupWho gid g) x
def State.askL1 (s : State) (gid : Nat) (g : Group) (scope : Nat) : Option State :=
  if scope ≤ s.narrow g.team then none else s.askEach ((s.core (coreOf gid)).sectors.map (·.2)) fun st x => st.askBackOf (s.groupWho gid g) x
/-- A release of a group at a scope (08 R228, R236): its aperture stores are performed first; L1 and the stash are written back; then the
counter must read 0. It gives what the release waits for, or the state in which it has taken effect. -/
def State.releaseOr (s : State) (gid : Nat) (g : Group) (scope : Nat) : Except (State × Wait) State :=
  match s.askStash gid g scope, s.askL1 gid g scope with
  | some s1, _ => .error (s1, .reply)
  | none, some s1 => .error (s1, .reply)
  | none, none =>
    let s1 := s.writeBack gid g scope
    let g1 : Group := { g with acks := ((s1.group? gid).getD g).acks }
    if s1.mayRelease gid g1 scope then .ok s1 else .error (s1, State.releaseWait g1 scope)
/-- A release that an instruction makes once, whatever it waits for after it. -/
def State.releaseOnce (s : State) (gid : Nat) (g : Group) (scope : Nat) : Except (State × Wait) (State × Group) :=
  if g.released then .ok (s, g)
  else match s.releaseOr gid g scope with
    | .error e => .error e
    | .ok s1 => .ok (s1, { g with released := true })
/-- An acquire of a group at a scope. -/
def State.acquireOr (s : State) (gid : Nat) (g : Group) (scope : Nat) : Except (State × Wait) State :=
  match s.askStash gid g scope with
  | some s1 => .error (s1, .reply)
  | none => .ok (s.acquire gid g scope)
/-- The acquire at .sys of q2 and q3 pops acts before the group's next instruction that reads or writes memory (15 R372, 17 R438). -/
def acquired (i : Iss) (s : State) (k : State → Res) : Res :=
  if i.ra || !i.g.acquiring then k s
  else match s.acquireOr i.gid i.g 5 with
    | .error (s1, w) => .wait s1 i.g w
    | .ok s1 => k (s1.modGroup i.gid fun g => { g with acquiring := false })

/-- Whether a group has stores through the pair aperture that are not performed (13 R329). -/
def State.storing (s : State) (gid : Nat) : Bool := (s.cluster (clusterOf gid)).aperture.any fun a => a.gid == gid

/-- Writes back a stash sector that a store at .die or wider marked, so that the store reaches every agent of its scope (08 R231; log 23). -/
def State.pushSector (s : State) (w : Who) (l : Located) : State :=
  match s.stashFor w l with
  | none => s
  | some team =>
    let key := (s.team team).stashKey l.x.va
    match tfind (s.team team).stash key with
    | none => s
    | some ln =>
      let s1 := s.writeBackSector w ln
      s1.setTeam team { s1.team team with stash := tput (s1.team team).stash key { ln with dirty := 0 } }

/-! ### Notes (10 R291, R292) -/

/-- Posts a note; in a confidential context the die's ring receives only kind, context, launch and address space. -/
def State.postNote (s : State) (d ctx w0 asid index launch : Nat) (ident : W64) (bit : Nat) : State :=
  let note : List W64 := [BitVec.ofNat 64 w0, BitVec.ofNat 64 (fieldAt asid 12 48 + fieldAt index 16 32 + launch), ident,
    BitVec.ofNat 64 (fieldAt ctx 32 32 + bit)]
  if ctx = 0 then s.recordOut d 0 1 32 note
  else (s.recordOut d ctx 1 32 note).recordOut d 0 1 32
    [BitVec.ofNat 64 (bitsOf w0 63 56 * 2 ^ 56), BitVec.ofNat 64 (fieldAt asid 12 48 + launch), 0, BitVec.ofNat 64 (fieldAt ctx 32 32)]

/-! ### Traces and watches (11 R309 to R312) -/

/-- A watch slot of a die: its four dwords. -/
def State.slot (s : State) (d k : Nat) : List W64 := tget [] (s.die d).watch k
/-- Whether an access of a group hits slot k. -/
def State.slotHit (s : State) (i : Iss) (k : Nat) (store : Bool) (x : Access) : Bool :=
  let sl := s.slot (dieOf i.gid) k
  let kind := bits (sl.getD 2 0) 3 0
  decide (x.va < localBase) && (kind == 3 || ((kind == 1 || kind == 2) && store)) && bits (sl.getD 2 0) 63 52 == i.l.asid &&
    decide (x.va < (sl.getD 1 0).toNat % 2 ^ 56 ∧ (sl.getD 0 0).toNat % 2 ^ 56 < x.va + x.w)
/-- The hits of accesses, in ascending lane order: lane access and slot. A lane that hits several slots gives a record for each, in slot order: the
spec says one for each hitting lane (log 77). -/
def State.hits (s : State) (i : Iss) (store : Bool) (xs : List Access) : List (Access × Nat) :=
  if i.ra then [] else xs.flatMap fun x => (List.range 4).filterMap fun k => if s.slotHit i k store x then some (x, k) else none

/-- The trace records that a die keeps room for: those of instructions that have acted on another package. -/
def State.promised (s : State) (d : Nat) : Nat :=
  s.groups.foldl (fun n e => if dieOf e.1 = d then n + (match e.2.granted with | some x => x.2 | none => 0) else n) 0
/-- Free records of a die's trace ring that no instruction is promised. In a confidential context too it is the die's ring that overflow 1 waits
for: a context's own ring that is full drops the complete record (log 67). -/
def State.traceRoom (s : State) (d : Nat) : Nat :=
  match (s.die d).traceRing with
  | none => 0
  | some r => 2 ^ r.log2cap - (r.written - (s.ownRead d 0 (r.header + 8) 8).2) - s.promised d
/-- How many records must have room before the instruction takes effect: those of an instruction that hits a slot with overflow 1. -/
def State.traceDemand (s : State) (i : Iss) (hs : List (Access × Nat)) : Nat :=
  if (hs.any fun h => (s.slot (dieOf i.gid) h.2).getD 2 0 |>.getLsbD 4) && (s.die (dieOf i.gid)).traceRing.isSome then hs.length else 0
/-- How many records it still waits for. -/
def State.traceNeed (s : State) (i : Iss) (hs : List (Access × Nat)) : Nat :=
  if i.g.granted.isNone && s.traceRoom (dieOf i.gid) < s.traceDemand i hs then s.traceDemand i hs else 0

def log2w (w : Nat) : Nat := if w = 1 then 0 else if w = 2 then 1 else if w = 4 then 2 else 3
/-- A trace record (11 Table 11.5). -/
def State.traceWords (s : State) (i : Iss) (h : Access × Nat) (old new : Nat) : List W64 :=
  let kind := bits ((s.slot (dieOf i.gid) h.2).getD 2 0) 3 0
  [ BitVec.ofNat 64 ((if kind = 1 then 0x10 else 0x11) * 2 ^ 56 + h.1.va), BitVec.ofNat 64 old, BitVec.ofNat 64 new, BitVec.ofNat 64 i.pc.toNat,
    s.ident i.gid i.g,
    BitVec.ofNat 64 (fieldAt h.1.lane 8 56 + fieldAt h.2 2 54 + fieldAt (log2w h.1.w) 3 51 + (s.handle i.g.task).toNat),
    BitVec.ofNat 64 s.clock, regionWord i.ctx ]
/-- What a die's ring receives of a record of a confidential launch (11 R308): kind, identification word, launch id, context id, bit 36. -/
def withheldTrace (ctx : Nat) (w : List W64) : List W64 :=
  [ BitVec.ofNat 64 (bits (w.getD 0 0) 63 56 * 2 ^ 56), 0, BitVec.ofNat 64 (fieldAt ctx 32 32), 0, w.getD 4 0,
    BitVec.ofNat 64 (bits (w.getD 5 0) 31 0 + 2 ^ 36), 0, 0 ]

/-- Writes a trace record to a die's ring; one that is not promised takes no room that another is. -/
def State.traceOut (s : State) (d : Nat) (granted : Bool) (words : List W64) : State :=
  match (s.die d).traceRing with
  | some r => if !granted && s.promised d ≠ 0 && s.traceRoom d = 0 then s.ringFull d 0 r else s.recordOut d 0 3 64 words
  | none => s
/-- Writes the trace records of hits, with each lane's old and new value, and notes the stop of hits on kinds 2 and 3 (11 R311). -/
def State.traced (s : State) (i : Iss) (g : Group) (hs : List (Access × Nat)) (val : Nat → Nat × Nat) : State × Group :=
  let s1 := hs.foldl (fun st h =>
    let r := st.traceWords i h (val h.1.lane).1 (val h.1.lane).2
    if i.l.ctx = 0 then st.traceOut (dieOf i.gid) i.g.granted.isSome r
    else (st.recordOut (dieOf i.gid) i.l.ctx 3 64 r).traceOut (dieOf i.gid) i.g.granted.isSome (withheldTrace i.l.ctx r)) s
  let stops := hs.filter fun h => 2 ≤ bits ((s.slot (dieOf i.gid) h.2).getD 2 0) 3 0
  match stops with
  | [] => (s1, g)
  | _ => (s1, { g with stop := some (2, BitVec.ofNat 56 ((leastOf (stops.map (·.1.va))).getD 0), maskOf (stops.map (·.1.lane))) })

/-- Notes what a memory instruction's sample shows, as its accesses find the caches: its lowest address and farthest level (11 R305, R306). -/
def State.noteAccess (s : State) (w : Who) (k : Kind) (lazy : Located → Bool) (ls : List Located) (g : Group) : Group :=
  let far := ls.filterMap fun l => match l.p with
    | .hbm t => if 3 ≤ s.levelOf w k (lazy l) l ∧ remote w t then some (ownerDie t, laneBit l.x.lane) else none
    | .host h => if homeDie h ≠ dieOf w.gid then some (homeDie h, laneBit l.x.lane) else none
    | _ => none
  { g with memAddr := (leastOf (ls.map (·.x.va))).getD 0, memLevel := ls.foldl (fun m l => max m (s.levelOf w k (lazy l) l)) 0, crossed := far }

end Sys2Proof.Machine
end

