-- ==== Sys2Proof/Machine/IntArith.lean ====
section
/-! DEFINITION. Integer arithmetic and logic, SEL, MOVI and ADDI (04 R94 to R99; 03 R70, R71). -/

namespace Sys2Proof.Machine

/-- An operand of an integer type in a field. -/
def intSrc (fld : BitVec 7) (t : Ty) : Src := { fld := fld, n := t.iwords, al := t.iwords }
/-- A one-register operand. -/
def wordSrc (fld : BitVec 7) : Src := { fld := fld }
/-- A destination of an integer type. -/
def intDst (fld : BitVec 7) (t : Ty) : Dst := .reg fld t.iwords t.iwords true t.isSigned
/-- Operand k of a lane. -/
def opn (ops : List (List W32)) (k : Nat) : List W32 := ops.getD k []
/-- Operand k as an integer of a type. -/
def opInt (t : Ty) (ops : List (List W32)) (k : Nat) : Int := intVal t (opn ops k)

/-- An instruction of two integer operands of its type: the exact result, written by 02 R44. -/
def intBinary (fn : Ty → Int → Int → Int) (i : Iss) (s : State) : Res :=
  let t := i.ty
  lanewise [intSrc i.f.a t, intSrc i.f.b t] (intDst i.f.d t) 4 true
    (fun _ i _ ops => { words := intWords t (i.mbit 5) (fn t (opInt t ops 0) (opInt t ops 1)) }) i s

/-- ADD (04 R94, R96): b is shifted left by opx[3:1]; with opx[0] it is one 32-bit register read as .s32 (log 16). -/
def addEffect (i : Iss) (s : State) : Res :=
  let t := i.ty
  let ix := i.mbit 0
  let tb := if ix then Ty.s32 else t
  lanewise [intSrc i.f.a t, intSrc i.f.b tb] (intDst i.f.d t) 4 true
    (fun _ i _ ops => { words := intWords t (i.mbit 5) (opInt t ops 0 + opInt tb ops 1 * 2 ^ (i.mb 3 1)) }) i s

/-- Truncated quotient and remainder of 04 R95: by zero, all ones and the dividend. -/
def divOf (t : Ty) (sat : Bool) (a b : Int) : Int :=
  if b = 0 then (if t.isSigned then -1 else 2 ^ t.ibits - 1)
  else if t.isSigned ∧ a = -(2 ^ (t.ibits - 1)) ∧ b = -1 then (if sat then 2 ^ (t.ibits - 1) - 1 else -(2 ^ (t.ibits - 1)))
  else Int.tdiv a b
def remOf (t : Ty) (a b : Int) : Int :=
  if b = 0 then a
  else if t.isSigned ∧ a = -(2 ^ (t.ibits - 1)) ∧ b = -1 then 0
  else Int.tmod a b

/-- SHL and SHR (04 R97): the count is one 32-bit register, not reduced. -/
def shiftEffect (fn : Ty → Int → Nat → Int) (i : Iss) (s : State) : Res :=
  let t := i.ty
  lanewise [intSrc i.f.a t, wordSrc i.f.b] (intDst i.f.d t) 4 true
    (fun _ _ _ ops => { words := intWords t false (fn t (opInt t ops 0) ((opn ops 1).getD 0 0).toNat) }) i s
def shlOf (t : Ty) (a : Int) (n : Nat) : Int := if t.ibits ≤ n then 0 else a * 2 ^ n
def shrOf (t : Ty) (a : Int) (n : Nat) : Int :=
  if t.ibits ≤ n then (if t.isSigned ∧ a < 0 then -1 else 0) else a / 2 ^ n

/-- A bitwise instruction of a raw type. -/
def bitwise (fn : W32 → W32 → W32) (i : Iss) (s : State) : Res :=
  let t := i.ty
  lanewise [intSrc i.f.a t, intSrc i.f.b t] (intDst i.f.d t) 4 true
    (fun _ _ _ ops => { words := (List.range t.iwords).map fun k => fn ((opn ops 0).getD k 0) ((opn ops 1).getD k 0) }) i s

/-- OR into q1 (01 Table 1.3, 09 R243): each executing lane in ascending order pushes its result's words to the unit's A-operand queue,
which holds 1,024; the group waits for room. -/
def pushQ1 (i : Iss) (s : State) (rs : List (List W32)) : Res :=
  let u := s.unit (unitOf i.gid)
  let ws := rs.flatten
  if rs.isEmpty then .done s (i.g.free (freedNames i [intSrc i.f.a i.ty, intSrc i.f.b i.ty])) i.next none
  else if u.holder ≠ some i.g.team then .fault s [⟨0x0E, 2, 0, none, none⟩]
  else if 1024 < u.q1.length + ws.length then .wait s i.g (.push 1 ws.length)
  else .done (s.setUnit (unitOf i.gid) { u with q1 := u.q1 ++ ws }) (i.g.free (freedNames i [intSrc i.f.a i.ty, intSrc i.f.b i.ty])) i.next none

/-- The port whose collective processor a group uses (17 R430). -/
def portOf (gid : Nat) : Nat := 2 * dieOf gid + coreOf gid % 16 / 8

/-- OR.b64 into q3 (01 Table 1.3, 17 R430): the lowest executing lane hands the address of a parameter block to the port's processor. -/
def pushQ3 (i : Iss) (s : State) (rs : List (List W32)) : Res :=
  let p := s.port (portOf i.gid)
  match rs with
  | [] => .done s (i.g.free (freedNames i [intSrc i.f.a i.ty, intSrc i.f.b i.ty])) i.next none
  | ws :: _ =>
    let addr := (join64 ws).toNat
    if addr % 128 ≠ 0 then .fault s [⟨4, 7, 0, some (addr % 2 ^ 56), none⟩]
    else if 64 ≤ p.handed.length + p.running.length then .wait s i.g (.push 3 1)
    else match s.releaseOr i.gid i.g 5 with
    | .error (s1, w) => .wait s1 i.g w
    | .ok s1 =>
      let p := s1.port (portOf i.gid)
      .done (s1.setPort (portOf i.gid) { p with handed := p.handed ++ [⟨i.gid, i.g.team, sideOf i.gid, i.g.task, BitVec.ofNat 56 addr, []⟩] })
        (i.g.free (freedNames i [intSrc i.f.a i.ty, intSrc i.f.b i.ty])) i.next none

/-- OR (04 R94): bitwise, and the only push to q1 and q3 (01 R23). -/
def orEffect (i : Iss) (s : State) : Res :=
  match regOf i.f.d with
  | .q q =>
    let t := i.ty
    let srcs := [intSrc i.f.a t, intSrc i.f.b t]
    let flts := srcs.flatMap (srcFaults i) ++ queueTwice [i.f.d, i.f.a, i.f.b] ++
      (if q = 1 ∨ (q = 3 ∧ t = .b64) then [] else [⟨3, 6, 0, none, none⟩])
    if !flts.isEmpty then .fault s flts
    else if i.ra then .endRunahead
    else
      let pf := poisonFaults i i.list srcs
      if !pf.isEmpty then .fault s pf
      else
        let rs := i.list.map fun l => (List.range t.iwords).map fun k =>
          ((s.readSrc i 0 0 l (intSrc i.f.a t)).getD k 0) ||| ((s.readSrc i 1 0 l (intSrc i.f.b t)).getD k 0)
        if q = 1 then pushQ1 i s rs else pushQ3 i s rs
  | _ => bitwise (· ||| ·) i s

/-- SEL (04 R99): a g destination reads the selecting predicate in lane 0. -/
def selEffect (i : Iss) (s : State) : Res :=
  let t := i.ty
  let p := i.mb 8 6
  lanewise [intSrc i.f.a t, intSrc i.f.b t] (intDst i.f.d t) 4 true
    (fun s i l ops =>
      let v := s.readPred i.g p l
      { words := if v = 1 ∨ (v = 2 ∧ i.mbit 5) then opn ops 0 else opn ops 1 }) i s

/-- The pattern MOVI writes (03 R70). -/
def moviPattern (f : Fields) : W32 :=
  if f.x then (f.c.extractLsb' 0 4 ++ (f.mod ++ f.imm14) : BitVec 32) else f.imm14.signExtend 32

/-- MOVI: the pattern in each executing lane. -/
def moviEffect (i : Iss) (s : State) : Res :=
  lanewise [] (.reg i.f.d 1 1 true true) 4 true (fun _ i _ _ => { words := [moviPattern i.f] }) i s

/-- The type of ADDI's extended form (03 R71). -/
def addiTy (f : Fields) : Ty :=
  match bitsOf f.mod.toNat 13 12 with
  | 0 => .s32 | 1 => .n32 | 2 => .s64 | _ => .n64

/-- ADDI (03 R71): d := d + imm14, or with an extension word c + a 24-bit immediate under a type. -/
def addiEffect (i : Iss) (s : State) : Res :=
  if i.f.x then
    let t := addiTy i.f
    let imm := ((i.f.mod.extractLsb' 0 10 ++ i.f.imm14 : BitVec 24)).toInt
    lanewise [intSrc i.f.c t] (intDst i.f.d t) 4 true
      (fun _ i _ ops => { words := intWords t (bitOf i.f.mod.toNat 11) (opInt t ops 0 + imm) }) i s
  else
    lanewise [wordSrc i.f.d] (.reg i.f.d 1 1 true true) 4 true
      (fun _ i _ ops => { words := intWords .s32 false (opInt .s32 ops 0 + i.f.imm14.toInt) }) i s

/-- CMP (04 R98). -/
def cmpEffect (i : Iss) (s : State) : Res :=
  let t := i.ty
  lanewise [intSrc i.f.a t, intSrc i.f.b t] (.pred (bitsOf i.f.d.toNat 2 0)) 4 true
    (fun _ i _ ops => { pred := predOf (condInt (bitsOf i.f.d.toNat 6 3) (opInt t ops 0) (opInt t ops 1)) }) i s

def execAdd (f : Fields) (s : State) : Host.Outcome State Fault Refusal := issue .add f s addEffect
def execSub (f : Fields) (s : State) : Host.Outcome State Fault Refusal := issue .sub f s (intBinary fun _ a b => a - b)
def execMul (f : Fields) (s : State) : Host.Outcome State Fault Refusal := issue .mul f s (intBinary fun _ a b => a * b)
def execMulh (f : Fields) (s : State) : Host.Outcome State Fault Refusal :=
  issue .mulh f s (intBinary fun t a b => a * b / 2 ^ t.ibits)
/-- MAD (04 R94): a × b + c, clamped or wrapped once. -/
def execMad (f : Fields) (s : State) : Host.Outcome State Fault Refusal :=
  issue .mad f s fun i s =>
    let t := i.ty
    lanewise [intSrc i.f.a t, intSrc i.f.b t, intSrc i.f.c t] (intDst i.f.d t) 4 true
      (fun _ i _ ops => { words := intWords t (i.mbit 5) (opInt t ops 0 * opInt t ops 1 + opInt t ops 2) }) i s
/-- DIV (04 R95): .sat turns the one overflow into the largest value. -/
def execDiv (f : Fields) (s : State) : Host.Outcome State Fault Refusal :=
  issue .div f s fun i s => intBinary (fun t a b => divOf t (i.mbit 5) a b) i s
def execRem (f : Fields) (s : State) : Host.Outcome State Fault Refusal := issue .rem f s (intBinary remOf)
def execMin (f : Fields) (s : State) : Host.Outcome State Fault Refusal := issue .min f s (intBinary fun _ a b => if a ≤ b then a else b)
def execMax (f : Fields) (s : State) : Host.Outcome State Fault Refusal := issue .max f s (intBinary fun _ a b => if a ≤ b then b else a)
def execAnd (f : Fields) (s : State) : Host.Outcome State Fault Refusal := issue .and f s (bitwise (· &&& ·))
def execOr (f : Fields) (s : State) : Host.Outcome State Fault Refusal := issue .or f s orEffect
def execXor (f : Fields) (s : State) : Host.Outcome State Fault Refusal := issue .xor f s (bitwise (· ^^^ ·))
def execShl (f : Fields) (s : State) : Host.Outcome State Fault Refusal := issue .shl f s (shiftEffect shlOf)
def execShr (f : Fields) (s : State) : Host.Outcome State Fault Refusal := issue .shr f s (shiftEffect shrOf)
def execCmp (f : Fields) (s : State) : Host.Outcome State Fault Refusal := issue .cmp f s cmpEffect
def execSel (f : Fields) (s : State) : Host.Outcome State Fault Refusal := issue .sel f s selEffect
def execMovi (f : Fields) (s : State) : Host.Outcome State Fault Refusal := issue .movi f s moviEffect
def execMoviWide (f : Fields) (s : State) : Host.Outcome State Fault Refusal := issue .moviWide f s moviEffect
def execAddi (f : Fields) (s : State) : Host.Outcome State Fault Refusal := issue .addi f s addiEffect
def execAddiWide (f : Fields) (s : State) : Host.Outcome State Fault Refusal := issue .addiWide f s addiEffect

end Sys2Proof.Machine
end

