-- ==== Sys2Proof/Machine/Float.lean ====
section
/-! DEFINITION. Floating-point arithmetic, comparison and special functions (05 R128 to R135). -/

namespace Sys2Proof.Machine

/-- The encoding a word holds of a format: its low bits (05 R128). -/
def fcode (f : Fmt) (w : W32) : Nat := w.toNat % 2 ^ f.width
/-- Operand k as a scalar of a format, under .ftz. -/
def fopn (f : Fmt) (ftz : Bool) (ops : List (List W32)) (k : Nat) : FpVal := fpRead f ftz (fcode f ((opn ops k).getD 0 0))
/-- A scalar result: the code in the low bits, zeros above, and the flags. -/
def fres (r : Nat × BitVec 6) : LaneRes := { words := [BitVec.ofNat 32 r.1], flags := r.2 }
/-- A scalar floating-point destination. -/
def fdst (fld : BitVec 7) : Dst := .reg fld 1 1 true false

/-- FADD, FSUB, FMUL, FFMA (05 R131): the exact value rounded once. -/
def farith (n : Nat) (fn : Bool → List FpVal → FpVal × BitVec 6) (i : Iss) (s : State) : Res :=
  let f := i.ty.fmt
  let mode := Rnd.ofCode (i.mb 8 6)
  lanewise ([wordSrc i.f.a, wordSrc i.f.b, wordSrc i.f.c].take n) (fdst i.f.d) 4 false
    (fun _ i _ ops => fres (roundOp f mode (i.mbit 5) (i.mbit 4) (fn mode.isRd ((List.range n).map fun k => fopn f (i.mbit 4) ops k)))) i s

/-- Values of a list by place. -/
def fv (vs : List FpVal) (k : Nat) : FpVal := vs.getD k (.nan false)

/-- FMIN and FMAX (05 R132). -/
def fminmax (max : Bool) (i : Iss) (s : State) : Res :=
  let f := i.ty.fmt
  lanewise [wordSrc i.f.a, wordSrc i.f.b] (fdst i.f.d) 4 false
    (fun _ i _ ops => fres (fpMinMax f max (fopn f (i.mbit 4) ops 0) (fopn f (i.mbit 4) ops 1))) i s

/-- FCMP (05 R133). -/
def fcmpEffect (i : Iss) (s : State) : Res :=
  let f := i.ty.fmt
  let code := bitsOf i.f.d.toNat 6 3
  lanewise [wordSrc i.f.a, wordSrc i.f.b] (.pred (bitsOf i.f.d.toNat 2 0)) 4 false
    (fun _ i _ ops =>
      let a := fopn f (i.mbit 4) ops 0
      let b := fopn f (i.mbit 4) ops 1
      { pred := predOf (condFloat code (a.cmp b)),
        flags := flagIf (a.isSig || b.isSig || ((a.isNan || b.isNan) && decide (2 ≤ code) && decide (code ≤ 5))) fInvalid }) i s

/-- FSFU (05 R134, R135). -/
def sfuEffect (k : Sfu) (i : Iss) (s : State) : Res :=
  let f := i.ty.fmt
  lanewise [wordSrc i.f.a] (fdst i.f.d) 12 false
    (fun _ i _ ops => fres (sfu k f (Rnd.ofCode (i.mb 8 6)) (i.mbit 4) (fopn f (i.mbit 4) ops 0))) i s

def execFadd (f : Fields) (s : State) : Host.Outcome State Fault Refusal :=
  issue .fadd f s (farith 2 fun rd vs => exactAdd rd (fv vs 0) (fv vs 1))
/-- FSUB: a + (−b). -/
def execFsub (f : Fields) (s : State) : Host.Outcome State Fault Refusal :=
  issue .fsub f s (farith 2 fun rd vs => exactAdd rd (fv vs 0) (fv vs 1).negate)
def execFmul (f : Fields) (s : State) : Host.Outcome State Fault Refusal :=
  issue .fmul f s (farith 2 fun _ vs => exactMul (fv vs 0) (fv vs 1))
def execFfma (f : Fields) (s : State) : Host.Outcome State Fault Refusal :=
  issue .ffma f s (farith 3 fun rd vs => exactFma rd (fv vs 0) (fv vs 1) (fv vs 2))
def execFmin (f : Fields) (s : State) : Host.Outcome State Fault Refusal := issue .fmin f s (fminmax false)
def execFmax (f : Fields) (s : State) : Host.Outcome State Fault Refusal := issue .fmax f s (fminmax true)
def execFcmp (f : Fields) (s : State) : Host.Outcome State Fault Refusal := issue .fcmp f s fcmpEffect
def execRcp (f : Fields) (s : State) : Host.Outcome State Fault Refusal := issue .rcp f s (sfuEffect .rcp)
def execRsq (f : Fields) (s : State) : Host.Outcome State Fault Refusal := issue .rsq f s (sfuEffect .rsq)
def execSqrt (f : Fields) (s : State) : Host.Outcome State Fault Refusal := issue .sqrt f s (sfuEffect .sqrt)
def execExp2 (f : Fields) (s : State) : Host.Outcome State Fault Refusal := issue .exp2 f s (sfuEffect .exp2)
def execLog2 (f : Fields) (s : State) : Host.Outcome State Fault Refusal := issue .log2 f s (sfuEffect .log2)
def execSin (f : Fields) (s : State) : Host.Outcome State Fault Refusal := issue .sin f s (sfuEffect .sin)
def execCos (f : Fields) (s : State) : Host.Outcome State Fault Refusal := issue .cos f s (sfuEffect .cos)
def execTanh (f : Fields) (s : State) : Host.Outcome State Fault Refusal := issue .tanh f s (sfuEffect .tanh)

end Sys2Proof.Machine
end

