-- ==== Sys2Proof/Machine/Cvt.lean ====
section
/-! DEFINITION. CVT: conversions among integer and floating-point types, packing, MX blocks (04 R102, R103; 05 R136 to R141). -/

namespace Sys2Proof.Machine

/-- A value converted to a format (05 R136; 02 R46 for what E4M3 and E2M1 do not hold). An infinite source converted to E4M3 raises no flag at all
(log 70). -/
def cvtF (f : Fmt) (mode : Rnd) (sat ftz : Bool) (v : FpVal) : Nat × BitVec 6 :=
  match v with
  | .nan sig => if f = .e2m1 then (0, fInvalid) else (f.nanCode, flagIf sig fInvalid)
  | .inf neg =>
    if f = .e2m1 then (signed f neg f.maxCode, fInvalid)
    else match f.infCode with
      | some c => (signed f neg c, 0)
      | none => ((if sat then signed f neg f.maxCode else f.nanCode), 0)
  | .fin d => roundTo f mode sat ftz d

/-- A finite number rounded to an integer, and whether that changed it. -/
def roundInt (mode : Rnd) (d : Dy) : Int × Bool :=
  let r := roundAt mode d.neg d.m d.e 0 false
  (if d.neg then -(r.1 : Int) else r.1, r.2)

/-- F2I (05 R137): the words and flags. -/
def f2i (t : Ty) (mode : Rnd) (sat : Bool) (v : FpVal) : List W32 × BitVec 6 :=
  let bad := flagIf (!sat) fInvalid
  match v with
  | .nan sig => (intWords t false 0, flagIf (!sat || sig) fInvalid)
  | .inf neg => (intWords t false (if neg then intMin t else intMax t), bad)
  | .fin d =>
    let r := roundInt mode d
    if r.1 < intMin t then (intWords t false (intMin t), bad)
    else if intMax t < r.1 then (intWords t false (intMax t), bad)
    else (intWords t false r.1, flagIf r.2 fInexact)

/-- Element k of a word of elements of w bits (02 Table 2.2). -/
def elementOf (w : W32) (bits k : Nat) : Nat := bitsOf w.toNat (bits * k + bits - 1) (bits * k)

/-- F2F: under .sr the operand is the value and its draw (05 R138). -/
def f2fEffect (i : Iss) (s : State) : Res :=
  let sf := (Ty.ofCode (i.f.cvtSrc .f2f)).fmt
  let df := (Ty.ofCode i.f.cvtDst).fmt
  let ftz := i.f.cvtFtz .f2f
  let src : Src := if i.f.cvtRnd = 5 then { fld := i.f.a, n := 2, al := 2 } else wordSrc i.f.a
  lanewise [src] (fdst i.f.d) 4 false
    (fun _ i _ ops => fres (cvtF df (Rnd.ofCode i.f.cvtRnd ((opn ops 0).getD 1 0)) i.f.cvtSat ftz (fopn sf ftz ops 0))) i s

def f2iEffect (i : Iss) (s : State) : Res :=
  let sf := (Ty.ofCode (i.f.cvtSrc .f2i)).fmt
  let t := Ty.ofCode i.f.cvtDst
  lanewise [wordSrc i.f.a] (intDst i.f.d t) 4 false
    (fun _ i _ ops =>
      let r := f2i t (Rnd.ofCode i.f.cvtRnd) i.f.cvtSat (fopn sf (i.f.cvtFtz .f2i) ops 0)
      { words := r.1, flags := r.2 }) i s

def i2fEffect (i : Iss) (s : State) : Res :=
  let t := Ty.ofCode (i.f.cvtSrc .i2f)
  let df := (Ty.ofCode i.f.cvtDst).fmt
  lanewise [intSrc i.f.a t] (fdst i.f.d) 4 false
    (fun _ i _ ops => fres (roundTo df (Rnd.ofCode i.f.cvtRnd) i.f.cvtSat false (Dy.ofInt (opInt t ops 0) 0))) i s

def i2iEffect (i : Iss) (s : State) : Res :=
  let st := Ty.ofCode (i.f.cvtSrc .i2i)
  let dt := Ty.ofCode i.f.cvtDst
  lanewise [intSrc i.f.a st] (intDst i.f.d dt) 4 true
    (fun _ i _ ops => { words := intWords dt i.f.cvtSat (opInt st ops 0) }) i s

/-- Joins two packed elements of w bits; 16-bit elements as patterns (log 19). -/
def packTwo (w a c : Nat) : List W32 := [BitVec.ofNat 32 (a % 2 ^ w + (c % 2 ^ w) <<< w)]

def packEffect (i : Iss) (s : State) : Res :=
  let st := Ty.ofCode (i.f.cvtSrc .pack)
  let dt := Ty.ofCode i.f.cvtDst
  let isF := st = .f32
  lanewise [wordSrc i.f.a, wordSrc i.f.c] (if isF then fdst i.f.d else intDst i.f.d dt) 4 (!isF)
    (fun _ i _ ops =>
      if isF then
        let ftz := i.f.cvtFtz .pack
        let c := fun k => cvtF dt.fmt (Rnd.ofCode i.f.cvtRnd) i.f.cvtSat ftz (fopn .f32 ftz ops k)
        { words := packTwo dt.fmt.width (c 0).1 (c 1).1, flags := (c 0).2 ||| (c 1).2 }
      else
        let c := fun k => ((intWords dt i.f.cvtSat (opInt st ops k)).getD 0 0).toNat
        { words := packTwo dt.ibits (c 0) (c 1) }) i s

def unpackEffect (i : Iss) (s : State) : Res :=
  let st := Ty.ofCode (i.f.cvtSrc .unpack)
  let dt := Ty.ofCode i.f.cvtDst
  let isF := dt = .f32
  lanewise [wordSrc i.f.a] (if isF then fdst i.f.d else intDst i.f.d dt) 4 (!isF)
    (fun _ i _ ops =>
      let w := (opn ops 0).getD 0 0
      if isF then fres (cvtF .f32 .rne false false (fpDecode st.fmt (elementOf w st.fmt.width i.f.cvtIdx)))
      else { words := intWords dt i.f.cvtSat (intVal st [BitVec.ofNat 32 (elementOf w st.ibits i.f.cvtIdx)]) }) i s

/-- MXQ on the slice of a lane (05 R140): the lanes that do not execute count as +0. -/
def mxqLane (i : Iss) (src : Src) (s : State) (l : Nat) : LaneRes :=
  let f := i.ty.fmt
  let base := l / 32 * 32
  let word := fun k => s.readSrc i 0 0 (base + k) src
  let vs := (List.range 32).map fun k => if i.lanes.getLsbD (base + k) then fpDecode .f32 ((word k).getD 0 0).toNat else .fin ⟨false, 0, 0⟩
  let q := mxQuantise f (fun k => Rnd.ofCode (i.mb 8 6) ((word k).getD 1 0)) vs
  { words := [BitVec.ofNat 32 (q.2.1.getD (l - base) 0 + 256 * q.1)], flags := q.2.2 }

/-- MXQ (05 R139). Its refusal of a d that is no vector register, and of a q as the .sr pair a, is the code 0x000E that R139 gives, although R128, R23 and
R21 give these operands lower codes too, which R34 would record (log 81). -/
def mxqEffect (i : Iss) (s : State) : Res :=
  let src : Src := if i.mb 8 6 = 5 then { fld := i.f.a, n := 2, al := 2 } else wordSrc i.f.a
  let notV := fun fld => match regOf fld with | .v _ => false | _ => true
  let special : List Flt := if notV i.f.d || notV i.f.a then [⟨3, 0xE, 0, none, none⟩] else []
  let vf := (if notV i.f.a then [] else srcFaults i src) ++ (if notV i.f.d then [] else dstFaults i [] (fdst i.f.d))
  if !special.isEmpty then .fault s (special ++ vf)
  else lanewise [src] (fdst i.f.d) 6 false (fun s i l _ => mxqLane i src s l) i s

/-- An element's encoding as .ftz reads it: a subnormal one is a zero of its sign (02 R47). -/
def flushElt (f : Fmt) (ftz : Bool) (elt : Nat) : Nat :=
  match fpDecode f elt with
  | .fin d => if ftz ∧ d.m < 2 ^ f.fbits then signed f d.neg 0 else elt
  | _ => elt
/-- MXD (05 R141); .ftz acts on the element and on the result (02 R47). -/
def mxdEffect (i : Iss) (s : State) : Res :=
  let t := i.ty.fmt
  let ef : Fmt := match i.mb 3 2 with | 0 => .e4m3 | 1 => .e5m2 | _ => .e2m1
  lanewise [wordSrc i.f.a] (fdst i.f.d) 4 false
    (fun _ i _ ops =>
      let w := ((opn ops 0).getD 0 0).toNat
      fres (cvtF t (Rnd.ofCode (i.mb 8 6)) (i.mbit 5) (i.mbit 4) (mxValue ef (flushElt ef (i.mbit 4) (w % 2 ^ ef.width)) (bitsOf w 15 8)))) i s

def execF2f (f : Fields) (s : State) : Host.Outcome State Fault Refusal := issue .f2f f s f2fEffect
def execF2i (f : Fields) (s : State) : Host.Outcome State Fault Refusal := issue .f2i f s f2iEffect
def execI2f (f : Fields) (s : State) : Host.Outcome State Fault Refusal := issue .i2f f s i2fEffect
def execI2i (f : Fields) (s : State) : Host.Outcome State Fault Refusal := issue .i2i f s i2iEffect
def execPack (f : Fields) (s : State) : Host.Outcome State Fault Refusal := issue .pack f s packEffect
def execUnpack (f : Fields) (s : State) : Host.Outcome State Fault Refusal := issue .unpack f s unpackEffect
def execMxq (f : Fields) (s : State) : Host.Outcome State Fault Refusal := issue .mxq f s mxqEffect
def execMxd (f : Fields) (s : State) : Host.Outcome State Fault Refusal := issue .mxd f s mxdEffect

end Sys2Proof.Machine
end

