-- ==== Sys2Proof/Machine/Bits.lean ====
section
/-! DEFINITION. BITS: the bit operations and the keyed counter generator (04 R100, R101; 02 R59). -/

namespace Sys2Proof.Machine

/-- The number that an operand's words hold. -/
def opNat (ops : List (List W32)) (k : Nat) : Nat := (join64 (opn ops k)).toNat

/-- Number of one bits among the low w bits. -/
def popcount (w n : Nat) : Nat := ((List.range w).filter fun i => n.testBit i).length
/-- The low w bits in reverse order. -/
def reverseBits (w n : Nat) : Nat := (List.range w).foldl (fun m i => if n.testBit i then m + 2 ^ (w - 1 - i) else m) 0
/-- Number of zero bits above the highest one bit of w bits. -/
def leadingZeros (w n : Nat) : Nat := if n = 0 then w else w - 1 - Nat.log2 n

/-- A bit operation of one operand of the raw type; wide: the result has the type's width. -/
def bitUnary (wide : Bool) (fn : Nat → Nat → Nat) (i : Iss) (s : State) : Res :=
  let t := i.ty
  lanewise [intSrc i.f.a t] (if wide then intDst i.f.d t else .reg i.f.d 1 1 true false) 4 true
    (fun _ _ _ ops =>
      let r := BitVec.ofNat 64 (fn t.ibits (opNat ops 0))
      { words := (halves r).take (if wide then t.iwords else 1) }) i s

/-- BFX: the field at pos of len bits. -/
def bfxEffect (i : Iss) (s : State) : Res :=
  let len := i.mb 9 5 + 1
  let pos := i.mb 4 0
  lanewise [wordSrc i.f.a] (.reg i.f.d 1 1 true (i.mbit 13)) 4 true
    (fun _ i _ ops =>
      let v := bitsOf ((opn ops 0).getD 0 0).toNat (pos + len - 1) pos
      { words := [if i.mbit 13 then BitVec.ofInt 32 (signedOf len v) else BitVec.ofNat 32 v] }) i s

/-- BFI: d with the field replaced. -/
def bfiEffect (i : Iss) (s : State) : Res :=
  let len := i.mb 9 5 + 1
  let pos := i.mb 4 0
  let m : W32 := BitVec.ofNat 32 ((2 ^ len - 1) <<< pos)
  lanewise [wordSrc i.f.d, wordSrc i.f.a] (.reg i.f.d 1 1 true false) 4 true
    (fun _ _ _ ops =>
      let d := (opn ops 0).getD 0 0
      let a := (opn ops 1).getD 0 0
      { words := [(d &&& ~~~m) ||| ((a <<< pos) &&& m)] }) i s

/-- The keyed counter generator (02 R59). -/
def kcgRound (k0 k1 x y : W32) (i : Nat) : W32 × W32 :=
  let c : W32 := BitVec.ofNat 32 (0x9E3779B9 * (i + 1))
  let k := (if i % 2 = 0 then k0 else k1) + c
  let x1 := (x.rotateRight 8 + y) ^^^ k
  (x1, y.rotateLeft 3 ^^^ x1)
def kcg (k n : W64) : W32 :=
  let r := (List.range 6).foldl (fun (p : W32 × W32) i => kcgRound (k.setWidth 32) ((k >>> 32).setWidth 32) p.1 p.2 i)
    (n.setWidth 32, (n >>> 32).setWidth 32)
  r.1 + r.2

/-- KCG: a key and a counter, each an even pair or a g register. -/
def kcgEffect (i : Iss) (s : State) : Res :=
  lanewise [{ fld := i.f.a, n := 2, al := 2 }, { fld := i.f.c, n := 2, al := 2 }] (.reg i.f.d 1 1 true false) 6 false
    (fun _ _ _ ops => { words := [kcg (join64 (opn ops 0)) (join64 (opn ops 1))] }) i s

def execPopc (f : Fields) (s : State) : Host.Outcome State Fault Refusal := issue .popc f s (bitUnary false popcount)
def execClz (f : Fields) (s : State) : Host.Outcome State Fault Refusal := issue .clz f s (bitUnary false leadingZeros)
def execBrev (f : Fields) (s : State) : Host.Outcome State Fault Refusal := issue .brev f s (bitUnary true reverseBits)
def execBfx (f : Fields) (s : State) : Host.Outcome State Fault Refusal := issue .bfx f s bfxEffect
def execBfi (f : Fields) (s : State) : Host.Outcome State Fault Refusal := issue .bfi f s bfiEffect
def execKcg (f : Fields) (s : State) : Host.Outcome State Fault Refusal := issue .kcg f s kcgEffect

end Sys2Proof.Machine
end

