-- ==== Sys2Proof/Machine/Xops.lean ====
section
/-! DEFINITION. Error-free transforms and expansion instructions (05 R142 to R153). -/

namespace Sys2Proof.Machine

/-- Components of an expansion type (02 R52). -/
def comps : Ty → Nat
  | .f32x2 | .f16x2 | .bf16x2 => 2
  | .f32x3 | .f16x3 | .bf16x3 => 3
  | .f32x4 | .f16x4 | .bf16x4 => 4
  | _ => 1
/-- Registers of k components of a format, and their alignment (01 Table 1.2). -/
def xregs (f : Fmt) (k : Nat) : Nat := if f = .f32 then k else (k + 1) / 2
def xalign (f : Fmt) (k : Nat) : Nat := if f = .f32 then (if k = 1 then 1 else if k = 2 then 2 else 4) else if k ≤ 2 then 1 else 2
/-- The codes of k components in words. -/
def xread (f : Fmt) (k : Nat) (ws : List W32) : List Nat :=
  (List.range k).map fun j => if f = .f32 then (ws.getD j 0).toNat else bitsOf (ws.getD (j / 2) 0).toNat (16 * (j % 2) + 15) (16 * (j % 2))
/-- The words of component codes; an unused upper half is +0. -/
def xwrite (f : Fmt) (cs : List Nat) : List W32 :=
  (List.range (xregs f cs.length)).map fun j =>
    if f = .f32 then BitVec.ofNat 32 (cs.getD j 0) else BitVec.ofNat 32 (cs.getD (2 * j) 0 + cs.getD (2 * j + 1) 0 * 65536)
def xsrc (fld : BitVec 7) (f : Fmt) (k : Nat) : Src := { fld := fld, n := xregs f k, al := xalign f k, gOk := false }
/-- An expansion destination; a scalar result (k = 1) may name a g register (05 R128). -/
def xdst (fld : BitVec 7) (f : Fmt) (k : Nat) (scalar : Bool := false) : Dst := .reg fld (xregs f k) (xalign f k) scalar false
def xvals (f : Fmt) (cs : List Nat) : List FpVal := cs.map (fpDecode f)
def xres (f : Fmt) (r : List Nat × BitVec 6) : LaneRes := { words := xwrite f r.1, flags := r.2 }

/-- TSUM, TPROD, FMAE (05 R142, R143). -/
def eftEffect (n k : Nat) (fn : Fmt → List FpVal → List Nat × BitVec 6) (i : Iss) (s : State) : Res :=
  let f := i.ty.fmt
  lanewise ([wordSrc i.f.a, wordSrc i.f.b, wordSrc i.f.c].take n) (xdst i.f.d f k) 8 false
    (fun _ _ _ ops => xres f (fn f ((List.range n).map fun j => fopn f false ops j))) i s

/-- XADD and XMUL (05 R146 to R148). -/
def xbinary (fn : Fmt → List FpVal → List FpVal → List Nat × BitVec 6) (i : Iss) (s : State) : Res :=
  let f := i.ty.fmt
  let k := comps i.ty
  lanewise [xsrc i.f.a f k, xsrc i.f.b f k] (xdst i.f.d f k) 8 false
    (fun _ _ _ ops => xres f (fn f (xvals f (xread f k (opn ops 0))) (xvals f (xread f k (opn ops 1))))) i s

/-- XCMP (05 R150). -/
def xcmpEffect (i : Iss) (s : State) : Res :=
  let f := i.ty.fmt
  let k := comps i.ty
  lanewise [xsrc i.f.a f k, xsrc i.f.b f k] (.pred (bitsOf i.f.d.toNat 2 0)) 8 false
    (fun _ i _ ops =>
      let r := xcmp (bitsOf i.f.d.toNat 6 3) (xvals f (xread f k (opn ops 0))) (xvals f (xread f k (opn ops 1)))
      { pred := predOf r.1, flags := r.2 }) i s

/-- An XOPS sub-op from the codes of its source to k codes (05 Table 5.8). -/
def xunary (k : Nat) (scalar : Bool) (fn : Fmt → List Nat → List Nat × BitVec 6) (i : Iss) (s : State) : Res :=
  let f := i.ty.fmt
  let n := comps i.ty
  lanewise [xsrc i.f.a f n] (xdst i.f.d f k scalar) 8 false (fun _ _ _ ops => xres f (fn f (xread f n (opn ops 0)))) i s

/-- XSPLIT (05 R152). -/
def xsplitEffect (i : Iss) (s : State) : Res :=
  lanewise [wordSrc i.f.a] (xdst i.f.d .bf16 3) 8 false (fun _ _ _ ops => xres .bf16 (xsplit (fopn .f32 false ops 0))) i s

/-- XJOIN (05 R153). -/
def xjoinEffect (i : Iss) (s : State) : Res :=
  let f := i.ty.fmt
  let n := comps i.ty
  let d : Fmt := if i.mbit 0 then .f32 else f
  lanewise [xsrc i.f.a f n] (fdst i.f.d) 8 false
    (fun _ i _ ops => fres (xjoin d (Rnd.ofCode (i.mb 8 6)) (xvals f (xread f n (opn ops 0))))) i s

def execTsum (f : Fields) (s : State) : Host.Outcome State Fault Refusal :=
  issue .tsum f s (eftEffect 2 2 fun f v => let r := tsum f (fv v 0) (fv v 1); ([r.1, r.2.1], r.2.2))
def execTprod (f : Fields) (s : State) : Host.Outcome State Fault Refusal :=
  issue .tprod f s (eftEffect 2 2 fun f v => let r := tprod f (fv v 0) (fv v 1); ([r.1, r.2.1], r.2.2))
def execFmae (f : Fields) (s : State) : Host.Outcome State Fault Refusal :=
  issue .fmae f s (eftEffect 3 3 fun f v => let r := fmae f (fv v 0) (fv v 1) (fv v 2); ([r.1, r.2.1, r.2.2.1], r.2.2.2))
def execXadd (f : Fields) (s : State) : Host.Outcome State Fault Refusal := issue .xadd f s (xbinary xadd)
def execXmul (f : Fields) (s : State) : Host.Outcome State Fault Refusal := issue .xmul f s (xbinary xmul)
def execXcmp (f : Fields) (s : State) : Host.Outcome State Fault Refusal := issue .xcmp f s xcmpEffect
def execXrenorm (f : Fields) (s : State) : Host.Outcome State Fault Refusal :=
  issue .xrenorm f s fun i s => xunary (comps i.ty) false (fun f cs => xcomp f (xvals f cs) (comps i.ty)) i s
def execXcomp (f : Fields) (s : State) : Host.Outcome State Fault Refusal :=
  issue .xcomp f s fun i s => xunary (i.mb 1 0) (i.mb 1 0 == 1) (fun f cs => xcomp f (xvals f cs) (i.mb 1 0)) i s
def execXneg (f : Fields) (s : State) : Host.Outcome State Fault Refusal :=
  issue .xneg f s fun i s => xunary (comps i.ty) false xneg i s
def execXabs (f : Fields) (s : State) : Host.Outcome State Fault Refusal :=
  issue .xabs f s fun i s => xunary (comps i.ty) false xabs i s
def execXhead (f : Fields) (s : State) : Host.Outcome State Fault Refusal := issue .xhead f s (xunary 1 true xhead)
def execXsplit (f : Fields) (s : State) : Host.Outcome State Fault Refusal := issue .xsplit f s xsplitEffect
def execXjoin (f : Fields) (s : State) : Host.Outcome State Fault Refusal := issue .xjoin f s xjoinEffect

end Sys2Proof.Machine
end

