-- ==== Sys2Proof/Machine/Intervals.lean ====
section
/-! DEFINITION. Intervals: reading, arithmetic, comparison and IOPS (02 R54, R55; 06 R156 to R165). -/

namespace Sys2Proof.Machine

/-- A nonempty interval: its bounds, neither a NaN, the lower not +∞ and the upper not −∞. -/
structure Iv where
  lo : FpVal
  hi : FpVal
  deriving DecidableEq, Repr

/-- The entire interval. -/
def Iv.entire : Iv := ⟨.inf true, .inf false⟩
/-- A bound with a zero taken unsigned. -/
def zeroPlain (v : FpVal) : FpVal :=
  match v with
  | .fin d => .fin (plusZero d)
  | v => v
/-- a < b, a ≤ b, a = b of values that are not NaN. -/
def FpVal.lt (a b : FpVal) : Bool := a.cmp b == some .lt
def FpVal.le (a b : FpVal) : Bool := a.cmp b == some .lt || a.cmp b == some .eq
def FpVal.eqv (a b : FpVal) : Bool := a.cmp b == some .eq
def minVal (a b : FpVal) : FpVal := if b.lt a then b else a
def maxVal (a b : FpVal) : FpVal := if a.lt b then b else a

/-- Reads an interval operand from its two codes; none when it is read as empty (02 R54). -/
def ivRead (f : Fmt) (cs : List Nat) : Option Iv :=
  let lo := fpDecode f (cs.getD 0 0)
  let hi := fpDecode f (cs.getD 1 0)
  if lo.isNan || hi.isNan then some .entire
  else if lo == .inf false || hi == .inf true || hi.lt lo then none
  else some ⟨zeroPlain lo, zeroPlain hi⟩

/-- The code of a bound that needs no rounding, a zero as +0. -/
def boundCode (f : Fmt) (v : FpVal) : Nat := (roundVal f .rne false false (zeroPlain v)).1
/-- The codes of a set whose bounds need no rounding. -/
def ivCodes (f : Fmt) (v : Iv) : List Nat := [boundCode f v.lo, boundCode f v.hi]
/-- The canonical empty interval (02 R55). -/
def emptyCodes (f : Fmt) : List Nat := [f.infCode.getD 0, signed f true (f.infCode.getD 0)]

/-- A value known by a pin rounded down (up = false) or up, as a bound; zero unsigned. -/
def boundPin (f : Fmt) (up : Bool) (p : Pin) : FpVal :=
  zeroPlain (fpDecode f (roundPin f (if up then .ru else .rd) false p).1)
/-- A bound rounded outward (06 R157). -/
def bound (f : Fmt) (up : Bool) (v : FpVal) : FpVal :=
  match v with
  | .fin d => boundPin f up ⟨d, false⟩
  | v => v
/-- A set rounded outward. -/
def outward (f : Fmt) (lo hi : FpVal) : List Nat := ivCodes f ⟨bound f false lo, bound f true hi⟩

/-- Sums and products of bounds: 0 × ∞ is 0 (06 R162). -/
def addB (a b : FpVal) : FpVal := (exactAdd false a b).1
def mulB (a b : FpVal) : FpVal := if a.isZero || b.isZero then .fin ⟨false, 0, 0⟩ else (exactMul a b).1
/-- The hull of the products of two intervals. -/
def mulIv (a b : Iv) : Iv :=
  let p := [mulB a.lo b.lo, mulB a.lo b.hi, mulB a.hi b.lo, mulB a.hi b.hi]
  ⟨p.foldl minVal (p.headD (.inf false)), p.foldl maxVal (p.headD (.inf true))⟩

/-- A quotient of finite numbers, the divisor not zero, to well below any format's precision. -/
def pinDiv (a b : Dy) : Pin :=
  let k := 160 + Nat.log2 b.m
  let n := a.m <<< k
  ⟨⟨a.neg != b.neg, n / b.m, a.e - b.e - k⟩, n % b.m != 0⟩
/-- The limit of x / y as y goes to a bound of the divisors, rounded: 0 stands for a divisor approached from the side of sign neg. -/
def divB (f : Fmt) (up neg : Bool) (x y : FpVal) : FpVal :=
  if x.isZero then .fin ⟨false, 0, 0⟩
  else if y.isInf then .fin ⟨false, 0, 0⟩
  else if y.isZero then .inf (x.neg != neg)
  else if x.isInf then .inf (x.neg != y.neg)
  else boundPin f up (pinDiv x.dy y.dy)
/-- IDIV over the divisors of one sign between two bounds. -/
def divPart (f : Fmt) (a : Iv) (neg : Bool) (lo hi : FpVal) : Iv :=
  let c := fun up => [divB f up neg a.lo lo, divB f up neg a.lo hi, divB f up neg a.hi lo, divB f up neg a.hi hi]
  ⟨(c false).foldl minVal (.inf false), (c true).foldl maxVal (.inf true)⟩
/-- The smallest interval that holds two. -/
def hullIv (a b : Iv) : Iv := ⟨minVal a.lo b.lo, maxVal a.hi b.hi⟩
/-- IDIV; none for division by [0, 0] (06 R162). -/
def divIv (f : Fmt) (a b : Iv) : Option Iv :=
  let z : FpVal := .fin ⟨false, 0, 0⟩
  let pos := if z.lt b.hi then some (divPart f a false (maxVal b.lo z) b.hi) else none
  let ngt := if b.lo.lt z then some (divPart f a true b.lo (minVal b.hi z)) else none
  match pos, ngt with
  | some p, some n => some (hullIv p n)
  | some p, none => some p
  | none, some n => some n
  | none, none => none

/-- What a lane of an interval instruction gives: codes, and the empty-interval code when it creates one (06 R158). -/
abbrev IvOut := List Nat × Nat

/-- A binary operation, propagating an empty operand (06 R162). -/
def ivBin (f : Fmt) (a b : Option Iv) (fn : Iv → Iv → IvOut) : IvOut :=
  match a, b with
  | some x, some y => fn x y
  | _, _ => (emptyCodes f, 0)

def iaddOf (f : Fmt) (x y : Iv) : IvOut := (outward f (addB x.lo y.lo) (addB x.hi y.hi), 0)
def isubOf (f : Fmt) (x y : Iv) : IvOut := (outward f (addB x.lo y.hi.negate) (addB x.hi y.lo.negate), 0)
def imulOf (f : Fmt) (x y : Iv) : IvOut := let p := mulIv x y; (outward f p.lo p.hi, 0)
def idivOf (f : Fmt) (x y : Iv) : IvOut :=
  match divIv f x y with
  | some q => (ivCodes f q, 0)
  | none => (emptyCodes f, 4)
def imeetOf (f : Fmt) (x y : Iv) : IvOut :=
  let lo := maxVal x.lo y.lo
  let hi := minVal x.hi y.hi
  if hi.lt lo then (emptyCodes f, 1) else (ivCodes f ⟨lo, hi⟩, 0)
/-- IHULL: an empty operand contributes nothing. -/
def ihullOf (f : Fmt) (a b : Option Iv) : IvOut :=
  match a, b with
  | some x, some y => (ivCodes f (hullIv x y), 0)
  | some x, none => (ivCodes f x, 0)
  | none, some y => (ivCodes f y, 0)
  | none, none => (emptyCodes f, 0)
/-- IFMA: the bounds of x × y + z, each rounded once. -/
def ifmaOf (f : Fmt) (a b c : Option Iv) : IvOut :=
  match a, b, c with
  | some x, some y, some z => let p := mulIv x y; (outward f (addB p.lo z.lo) (addB p.hi z.hi), 0)
  | _, _, _ => (emptyCodes f, 0)

/-- ICMP (06 Table 6.2): 1 true, 0 false, 2 undecided. -/
def icmpOf (code : Nat) (a b : Option Iv) : BitVec 2 :=
  match a, b with
  | some x, some y =>
    let sep := x.hi.lt y.lo || y.hi.lt x.lo
    let same := x.lo.eqv x.hi && x.hi.eqv y.lo && y.lo.eqv y.hi
    let r := fun (t f : Bool) => if t then (1 : BitVec 2) else if f then 0 else 2
    match code with
    | 0 => r same sep
    | 1 => r sep same
    | 2 => r (x.hi.lt y.lo) (y.hi.le x.lo)
    | 3 => r (x.hi.le y.lo) (y.hi.lt x.lo)
    | 4 => r (y.hi.lt x.lo) (x.hi.le y.lo)
    | _ => r (y.hi.le x.lo) (x.hi.lt y.lo)
  | _, _ => 2

/-- ±largest. -/
def largest (f : Fmt) (neg : Bool) : FpVal := fpDecode f (signed f neg f.maxCode)
/-- IMAKE (06 R165). -/
def imakeOf (f : Fmt) (v : FpVal) : IvOut :=
  match v with
  | .nan _ => (ivCodes f .entire, 0)
  | .inf neg => (ivCodes f (if neg then ⟨.inf true, largest f true⟩ else ⟨largest f false, .inf false⟩), 0)
  | v => (ivCodes f ⟨v, v⟩, 0)
def imakeTwoOf (f : Fmt) (lo hi : FpVal) : IvOut :=
  if lo.isNan || hi.isNan then (ivCodes f .entire, 0)
  else
    let l := if lo == .inf false then largest f false else lo
    let h := if hi == .inf true then largest f true else hi
    if h.lt l then (emptyCodes f, 5) else (ivCodes f ⟨l, h⟩, 0)
/-- IMID of a nonempty interval (06 R165). -/
def imidOf (f : Fmt) (x : Iv) : FpVal :=
  match x.lo, x.hi with
  | .fin a, .fin b => zeroPlain (rnVal f ((a.add false b).scale (-1)))
  | .inf _, .inf _ => .fin ⟨false, 0, 0⟩
  | .inf _, _ => largest f true
  | _, _ => largest f false
/-- IWID of a nonempty interval. -/
def iwidOf (f : Fmt) (x : Iv) : FpVal :=
  match x.lo, x.hi with
  | .fin a, .fin b => boundPin f true ⟨b.sub false a, false⟩
  | _, _ => .inf false
def iabsIv (x : Iv) : Iv :=
  let z : FpVal := .fin ⟨false, 0, 0⟩
  if z.le x.lo then x else if x.hi.le z then ⟨x.hi.negate, x.lo.negate⟩ else ⟨z, maxVal x.lo.negate x.hi⟩
def isqrOf (f : Fmt) (x : Iv) : IvOut := let a := iabsIv x; (outward f (mulB a.lo a.lo) (mulB a.hi a.hi), 0)
/-- The root of a bound that is not negative, rounded outward. -/
def sqrtB (f : Fmt) (up : Bool) (v : FpVal) : FpVal :=
  match v with
  | .fin d => if d.m = 0 then .fin ⟨false, 0, 0⟩ else boundPin f up (pinSqrt d)
  | v => v
def isqrtIvOf (f : Fmt) (x : Iv) : IvOut :=
  let z : FpVal := .fin ⟨false, 0, 0⟩
  if x.hi.lt z then (emptyCodes f, 2) else (ivCodes f ⟨sqrtB f false (maxVal x.lo z), sqrtB f true x.hi⟩, 0)
def ihalfOf (f : Fmt) (upper : Bool) (x : Iv) : IvOut :=
  let m := imidOf f x
  (ivCodes f (if upper then ⟨m, x.hi⟩ else ⟨x.lo, m⟩), 0)
/-- A set-valued operation of one interval. -/
def ivUn (f : Fmt) (a : Option Iv) (fn : Iv → IvOut) : IvOut :=
  match a with
  | some x => fn x
  | none => (emptyCodes f, 0)

/-! ### The instructions -/

def ivRes (f : Fmt) (r : IvOut) : LaneRes := { words := xwrite f r.1, made := r.2 }
def ivOpn (f : Fmt) (ops : List (List W32)) (k : Nat) : Option Iv := ivRead f (xread f 2 (opn ops k))

/-- An instruction of n interval sources and an interval destination. -/
def ivEffect (n : Nat) (fn : Fmt → List (Option Iv) → IvOut) (i : Iss) (s : State) : Res :=
  let f := i.ty.fmt
  lanewise (([i.f.a, i.f.b, i.f.c].take n).map fun r => xsrc r f 2) (xdst i.f.d f 2) 8 false
    (fun _ _ _ ops => ivRes f (fn f ((List.range n).map fun k => ivOpn f ops k))) i s
def ia (l : List (Option Iv)) (k : Nat) : Option Iv := l.getD k none

def icmpEffect (i : Iss) (s : State) : Res :=
  let f := i.ty.fmt
  lanewise [xsrc i.f.a f 2, xsrc i.f.b f 2] (.pred (bitsOf i.f.d.toNat 2 0)) 8 false
    (fun _ i _ ops => { pred := icmpOf (bitsOf i.f.d.toNat 6 3) (ivOpn f ops 0) (ivOpn f ops 1) }) i s

/-- A scalar of an interval; empty gives its own code (06 Table 6.3). -/
def ivScalar (fn : Fmt → Iv → FpVal) (empty : Fmt → Nat) (i : Iss) (s : State) : Res :=
  let f := i.ty.fmt
  lanewise [xsrc i.f.a f 2] (fdst i.f.d) 8 false
    (fun _ _ _ ops => fres (match ivOpn f ops 0 with | some x => boundCode f (fn f x) | none => empty f, 0)) i s

def imakeEffect (i : Iss) (s : State) : Res :=
  let f := i.ty.fmt
  if i.mbit 0 then
    lanewise [wordSrc i.f.a, wordSrc i.f.c] (xdst i.f.d f 2) 8 false
      (fun _ _ _ ops => ivRes f (imakeTwoOf f (fopn f false ops 0) (fopn f false ops 1))) i s
  else lanewise [wordSrc i.f.a] (xdst i.f.d f 2) 8 false (fun _ _ _ ops => ivRes f (imakeOf f (fopn f false ops 0))) i s

def iisemptyEffect (i : Iss) (s : State) : Res :=
  let f := i.ty.fmt
  lanewise [xsrc i.f.a f 2] (.pred (bitsOf i.f.d.toNat 2 0)) 8 false
    (fun _ _ _ ops => { pred := predOf (ivOpn f ops 0).isNone }) i s

def execIadd (f : Fields) (s : State) : Host.Outcome State Fault Refusal :=
  issue .iadd f s (ivEffect 2 fun f l => ivBin f (ia l 0) (ia l 1) (iaddOf f))
def execIsub (f : Fields) (s : State) : Host.Outcome State Fault Refusal :=
  issue .isub f s (ivEffect 2 fun f l => ivBin f (ia l 0) (ia l 1) (isubOf f))
def execImul (f : Fields) (s : State) : Host.Outcome State Fault Refusal :=
  issue .imul f s (ivEffect 2 fun f l => ivBin f (ia l 0) (ia l 1) (imulOf f))
def execIdiv (f : Fields) (s : State) : Host.Outcome State Fault Refusal :=
  issue .idiv f s (ivEffect 2 fun f l => ivBin f (ia l 0) (ia l 1) (idivOf f))
def execIfma (f : Fields) (s : State) : Host.Outcome State Fault Refusal :=
  issue .ifma f s (ivEffect 3 fun f l => ifmaOf f (ia l 0) (ia l 1) (ia l 2))
def execIcmp (f : Fields) (s : State) : Host.Outcome State Fault Refusal := issue .icmp f s icmpEffect
def execIhull (f : Fields) (s : State) : Host.Outcome State Fault Refusal :=
  issue .ihull f s (ivEffect 2 fun f l => ihullOf f (ia l 0) (ia l 1))
def execImeet (f : Fields) (s : State) : Host.Outcome State Fault Refusal :=
  issue .imeet f s (ivEffect 2 fun f l => ivBin f (ia l 0) (ia l 1) (imeetOf f))
def execImake (f : Fields) (s : State) : Host.Outcome State Fault Refusal := issue .imake f s imakeEffect
def execIlo (f : Fields) (s : State) : Host.Outcome State Fault Refusal :=
  issue .ilo f s (ivScalar (fun _ x => x.lo) fun f => f.infCode.getD 0)
def execIhi (f : Fields) (s : State) : Host.Outcome State Fault Refusal :=
  issue .ihi f s (ivScalar (fun _ x => x.hi) fun f => signed f true (f.infCode.getD 0))
def execImid (f : Fields) (s : State) : Host.Outcome State Fault Refusal := issue .imid f s (ivScalar imidOf Fmt.nanCode)
def execIwid (f : Fields) (s : State) : Host.Outcome State Fault Refusal := issue .iwid f s (ivScalar iwidOf Fmt.nanCode)
def execIneg (f : Fields) (s : State) : Host.Outcome State Fault Refusal :=
  issue .ineg f s (ivEffect 1 fun f l => ivUn f (ia l 0) fun x => (ivCodes f ⟨x.hi.negate, x.lo.negate⟩, 0))
def execIabs (f : Fields) (s : State) : Host.Outcome State Fault Refusal :=
  issue .iabs f s (ivEffect 1 fun f l => ivUn f (ia l 0) fun x => (ivCodes f (iabsIv x), 0))
def execIsqr (f : Fields) (s : State) : Host.Outcome State Fault Refusal :=
  issue .isqr f s (ivEffect 1 fun f l => ivUn f (ia l 0) (isqrOf f))
def execIsqrt (f : Fields) (s : State) : Host.Outcome State Fault Refusal :=
  issue .isqrt f s (ivEffect 1 fun f l => ivUn f (ia l 0) (isqrtIvOf f))
def execIhalf (f : Fields) (s : State) : Host.Outcome State Fault Refusal :=
  issue .ihalf f s fun i s => ivEffect 1 (fun f l => ivUn f (ia l 0) (ihalfOf f (i.mbit 0))) i s
def execIisempty (f : Fields) (s : State) : Host.Outcome State Fault Refusal := issue .iisempty f s iisemptyEffect

end Sys2Proof.Machine
end

