-- ==== Sys2Proof/Machine/MemOps.lean ====
section
/-! DEFINITION. Loads, stores, atomics, reductions, prefetches and waits on memory (08 R210 to R222; 06 R166, R167; 10 Table 10.6). -/

namespace Sys2Proof.Machine

/-! ### Operands of memory instructions -/

/-- Bytes of a MEM type (08 Table 8.3; 06 R166). -/
def memWidth : Ty → Nat
  | .s8 | .n8 | .e4m3 | .e5m2 => 1
  | .s16 | .n16 | .f16 | .bf16 => 2
  | .b64 | .s64 | .n64 | .f32iv => 8
  | _ => 4
/-- A 64-bit address operand. -/
def addrSrc (fld : BitVec 7) : Src := { fld := fld, n := 2, al := 2, role := 3 }
/-- Base and, with I = 1, index (03 R75). -/
def memSrcs (i : Iss) : List Src :=
  addrSrc i.f.a :: (if i.mbit 3 then [{ fld := i.f.b, role := 3 }] else [])
/-- The address of a lane from its base and index words (08 R211). -/
def memAddress (i : Iss) (w : Nat) (ops : List (List W32)) : Nat :=
  let base := (join64 (opn ops 0)).toNat
  let ix : Int := if i.mbit 3 then ((opn ops 1).getD 0 0).toInt else 0
  (((base : Int) + ix + i.f.c.toInt * w) % 2 ^ 56).toNat
/-- The words operands supply to a lane. -/
def State.operands (s : State) (i : Iss) (pop : W32) (l : Nat) (srcs : List Src) : List (List W32) :=
  (List.range srcs.length).map fun k => s.readSrc i k pop l (srcs.getD k { fld := 0 })

/-- Pops the queue that a source names, when some lane executes: the word and the state after; none when it is empty. -/
def State.popFor (s : State) (i : Iss) (lanes : List Nat) (srcs : List Src) : Option (W32 × State) :=
  match (if lanes.isEmpty then none else queueSource srcs) with
  | none => some (0, s)
  | some q => s.popQueue i.gid i.g q
/-- The faults of operands and poison of a memory instruction. -/
def memFaults (s : State) (i : Iss) (lanes : List Nat) (srcs : List Src) (d : Dst) : List Flt :=
  operandFaults i srcs d ++ queueFaults s i (if lanes.isEmpty then none else queueSource srcs) ++ poisonFaults i lanes srcs

/-- Whether an address operand pops a queue. -/
def addrPops (srcs : List Src) : Bool := srcs.any fun a => a.role == 3 && match regOf a.fld with | .q _ => true | _ => false
/-- The word that a queue source pops is read before the effect and popped with it; an empty queue makes the group wait (01 R23, R24). Where the unit
of q0 is not held, the body still finds the faults that its addresses raise, which precede that of the queue (R34). -/
def withPop (lanes : List Nat) (srcs : List Src) (d : Dst) (i : Iss) (s : State) (body : W32 → Res) : Res :=
  match s.popFor i lanes srcs with
  | none =>
    let fs := memFaults s i lanes srcs d
    if fs.isEmpty then .wait s i.g (.pop ((queueSource srcs).getD 0))
    else if addrPops srcs || (fs.any fun f => f.cls != 0x0E) then .fault s fs
    else body 0
  | some (pop, _) =>
    let popped := fun (s1 : State) => match s1.popFor i lanes srcs with | some (_, s2) => s2 | none => s1
    match body pop with
    | .done s1 g pc out => .done (popped s1) g pc out
    | .faulted s1 g f out => .faulted (popped s1) g f out
    | r => r

/-- The words a load of a type writes from the bytes it read (08 Table 8.3). -/
def loadWords (t : Ty) (v : Nat) : List W32 :=
  match t with
  | .f16 | .bf16 | .e4m3 | .e5m2 | .f32 => [BitVec.ofNat 32 v]
  | _ => intWords t false v
/-- The words ILD writes, and whether the pair is read as empty (06 R167): bounds are as memory holds them, zeros as +0. -/
def ildWords (f : Fmt) (v : Nat) : List W32 × Bool :=
  let cs := xread f 2 (halves (BitVec.ofNat 64 v))
  match ivRead f cs with
  | none => (xwrite f (emptyCodes f), true)
  | some x => (xwrite f (ivCodes f x), false)

/-! ### Loads -/

/-- The destination of LD or ILD. -/
def loadDst (i : Iss) : Dst :=
  let t := i.ty
  match t with
  | .f32iv | .f16iv | .bf16iv => xdst i.f.d t.fmt 2
  | _ => intDst i.f.d t

/-- What a lane of a load writes. -/
def loadRes (t : Ty) (x : Access) (v bad : Nat) : LaneRes :=
  match t with
  | .f32iv | .f16iv | .bf16iv =>
    let r := ildWords t.fmt v
    { words := r.1, bad := bad, made := if r.2 then 3 else 0, madeAt := some x.va }
  | _ => { words := loadWords t v, bad := bad }

/-- Reads located accesses in lane order. -/
def State.readAll (s : State) (w : Who) (ls : List Located) : State × List (Located × Nat × Nat) :=
  ls.foldl (fun a l => let r := a.1.performRead w l; (r.s, a.2 ++ [(l, r.v, r.bad)])) (s, [])

/-- The data-poison faults of loads that met a link that is down (14 R361). -/
def linkFaults (rs : List (Located × Nat × Nat)) : List Flt :=
  rs.filterMap fun r => if r.2.2 = 5 then some ⟨8, 5, laneBit r.1.x.lane, none, none⟩ else none

/-- Whether any access is global. -/
def anyGlobal (ls : List Located) : Bool := ls.any fun l => decide (l.x.va < localBase)

/-- A core as the requester of what it prefetches, for a context or none. -/
def prefetcher (core ctx part : Nat) : Who := { who := prefWho core, gid := 256 * core, team := 0, asid := 0, ctx := ctx, part := part }
/-- Brings a sector of HBM into its slice, and with l1 into L1, which completes what it holds of it. -/
def State.prefetchSector (s : State) (core ctx t : Nat) (l1 : Bool) : State :=
  let w := prefetcher core ctx 0
  if !l1 then (s.openLine (dieOf w.gid) ctx t).1
  else
    let old := ((s.core core).sector (t / 64)).getD (.empty (.hbm (t / 64 * 64)) ctx)
    if old.ctx ≠ ctx ∨ old.valid = -1 then s
    else
      let r := s.readSlice (dieOf w.gid) ctx (t / 64 * 64) 64
      if r.2.2.any (1 < ·) then r.1 else r.1.setL1 w (t / 64) (old.refill r.2.1 r.2.2 (-1))
/-- Brings the sectors of the 256-byte line of an access into its slice, and with l1 into L1: those that its range covers with the permission to
read; for one that the host may hold exclusive once the host has answered, and for one of another package as its words come back. A sector beyond a
link that is down is passed over. -/
def State.prefetchLine (s : State) (w : Who) (l1 : Bool) (l : Located) : State :=
  match l.e with
  | none => s
  | some e =>
    (List.range 4).foldl (fun st k =>
      let va := l.x.va / 256 * 256 + 64 * k
      if !e.image.covers va then st
      else match st.through e w.ctx .hint 64 va with
      | .ok (.hbm t) _ =>
        let core := coreOf w.gid
        if !st.linked (dieOf w.gid) (ownerDie t) then st
        else if st.snoopNeeded .read t then
          let s1 := st.sendSnoop (prefetcher core 0 0) .read t
          s1.setCore core { s1.core core with wanted := (s1.core core).wanted ++ [(t / 64, 2 * l.ctx w + l1.toNat)] }
        else st.prefetchSector core (l.ctx w) t l1
      | .ok (.alias_ r off) _ => (st.readBlock { w with engine := true } r (off / 64)).1
      | .ok (.fabric pkg t) _ =>
        if !l1 then st
        else
          let p := { prefetcher (coreOf w.gid) w.ctx w.part with asid := w.asid }
          (List.range 8).foldl (fun (st : State) i =>
            let key := 2 ^ 50 * l.ctx w + t + 8 * i
            if st.asking p.who key || st.overlapping p.who pkg (t + 8 * i) 8 then st
            else st.sendFabric p l.enc pkg (t + 8 * i) 8 key .read false) st
      | _ => st) s
/-- A word that another package returns for a core's prefetch comes into L1. -/
def State.prefetched (s : State) (core pkg at_ : Nat) (v : W64) : State :=
  let t := at_ % 2 ^ 50
  let ctx := at_ / 2 ^ 50
  match (Home.fabric pkg t).l1Key with
  | none => s
  | some key =>
    let w := prefetcher core ctx 0
    let x := ((s.core core).sector key).getD (.empty (.fabric pkg (t / 64 * 64)) ctx)
    if x.ctx ≠ ctx then s
    else s.setL1 w key (x.refill (List.replicate (t % 64) 0 ++ bytesOf 8 v.toNat) (List.replicate 64 0) (runMask 64 (t % 64) 8))

/-- A lane of a load in runahead (10 Table 10.6, R296): the state after and what the lane writes. Global data comes from an L1 hit, or in a stash
window from a stash hit, which fills nothing; any other lane issues a prefetch to L1 and writes poison. -/
def State.runaheadLane (s : State) (i : Iss) (w : Who) (t : Ty) (x : Access) (bad : Bool) : State × LaneRes :=
  let poisonRes : LaneRes := (loadRes t x 0 1).taint s x.lane
  let drop := fun (st : State) => st.countFor i.gid i.g 0x20 1
  let good := fun (v b : Nat) => if b = 0 then (loadRes t x v 0).quiet else poisonRes
  if bad then (s, poisonRes)
  else match s.locate i .read x with
  | .walk va => (s.askWalk i.gid i.g [va] true 1, poisonRes)
  | .flt _ => (drop s, poisonRes)
  | .at_ l =>
    match l.p with
    | .scratch _ _ | .aperture _ _ => let r := s.performRead w l; (r.s, (loadRes t x r.v r.bad).quiet)
    | .host _ => (drop s, poisonRes)
    | _ =>
      if (s.unitHeld l).isSome then (drop s, poisonRes) else
      let held := match s.stashFor w l with
        | some team => tfind (s.team team).stash ((s.team team).stashKey x.va)
        | none => s.l1Hit { w with scope := 0 } l
      match held with
      | some y => let g := y.get (x.va % 64) x.w; (s, good g.1 g.2)
      | none => ((s.prefetchLine w true l).countFor i.gid i.g (0x10 + quarterOf i.gid) 1, poisonRes)

/-- Posts the residency note of a lane that lies outside the window of a range, at most one for a range in a period (10 R296). -/
def State.noteLane (s : State) (gid : Nat) (g : Group) (e : RangeEntry) (va : Nat) : State × Group :=
  let l := s.launchOf g
  match g.ra with
  | some r =>
    if e.image.notify && !r.noted.contains e.image.base then
      (s.postNote (dieOf gid) l.ctx (0x01 * 2 ^ 56 + va) l.asid (e.indexAt va) (s.handle g.task).toNat (s.ident gid g) 0,
       { g with ra := some { r with noted := e.image.base :: r.noted } })
    else (s, g)
  | none => (s, g)
/-- The residency note of a runahead lane outside a partial window. -/
def State.residencyNote (s : State) (i : Iss) (g : Group) (x : Access) : State × Group :=
  match s.xlat i.gid i.g .read x.w x.va with
  | .fault 7 _ _ =>
    let e := match (s.core (coreOf i.gid)).find i.l.asid x.va with
      | some e => some e
      | none => match g.answer i.l.asid x.va with | some (.found e) => some e | _ => none
    match e with
    | some e => s.noteLane i.gid g e x.va
    | none => (s, g)
  | _ => (s, g)

/-- LD and ILD in runahead. -/
def runaheadLoad (i : Iss) (s : State) : Res :=
  let t := i.ty
  let wd := memWidth t
  let srcs := memSrcs i
  let d := loadDst i
  let lanes := i.compute d
  let w := i.who s
  if !(operandFaults i srcs d).isEmpty || (queueSource srcs).isSome then .endRunahead
  else
    let xs := lanes.map fun l => (⟨l, memAddress i wd (s.operands i 0 l srcs), wd⟩ : Access)
    let clean := fun (x : Access) => !srcs.any fun a => srcPoison i x.lane a ≠ 0
    let cx := xs.filter clean
    let badLocal := cx.any fun x => localBase ≤ x.va && (match s.localPlace i.gid i.g.team x.va with | .error _ => true | .ok _ => false)
    if !(alignFaults 1 wd cx).isEmpty || badLocal then .endRunahead
    else
      let (s1, g1) := cx.foldl (fun a x => a.1.residencyNote i a.2 x) (s, i.g)
      let (s2, rs) := xs.foldl (fun (a : State × List (Nat × LaneRes)) x =>
        let r := a.1.runaheadLane i w t x (!clean x); (r.1, a.2 ++ [(x.lane, r.2)])) (s1, [])
      commitLanes srcs d none false rs { i with g := g1 } s2

/-- The end of a load or an atomic instruction: its writes with the trace records of its hits, the latter unless it waits or faults (11 R311). -/
def commitTraced (srcs : List Src) (d : Dst) (load : Bool) (rs : List (Nat × LaneRes)) (i : Iss) (s : State) (g : Group) (s1 : State)
    (hs : List (Access × Nat)) (val : Nat → Nat × Nat) : Res :=
  match commitLanes srcs d none load rs { i with g := g } s1 with
  | .wait _ _ wt => .wait s i.g wt
  | .done s2 g2 pc out =>
    if hs.isEmpty then .done s2 g2 pc out
    else
      let r := s1.traced i g hs val
      commitLanes srcs d none load rs { i with g := r.2 } r.1
  | r => r

/-- LD and ILD (08 R211; 06 R167): an acquire acts before the read that may return a released value. -/
def loadEffect (i : Iss) (s : State) : Res :=
  if i.ra then runaheadLoad i s
  else
    let t := i.ty
    let wd := memWidth t
    let srcs := memSrcs i
    let d := loadDst i
    let lanes := i.compute d
    let scope := i.mb 8 6
    let w := i.who s
    withPop lanes srcs d i s fun pop =>
      let xs := lanes.map fun l => (⟨l, memAddress i wd (s.operands i pop l srcs), wd⟩ : Access)
      let hs := s.hits i false xs
      memoryStage .read xs (memFaults s i lanes srcs d ++ alignFaults 1 wd xs) i s fun ls s1 =>
        match s1.askAll w .read (ls.map fun l => (l, .read)) with
        | some s2 => .wait s2 i.g (askedWait ls .read)
        | none =>
          if s1.traceNeed i hs ≠ 0 then .wait s1 i.g (.trace (s1.traceNeed i hs))
          else match (if i.mb 5 4 = 1 then s1.acquireOr i.gid i.g scope else .ok s1) with
          | .error (s2, wt) => .wait s2 i.g wt
          | .ok s2 =>
            let (s3, rd) := s2.readAll w ls
            let lf := linkFaults rd
            if !lf.isEmpty then .fault s lf
            else
              let rs := rd.map fun r => (r.1.x.lane, loadRes t r.1.x r.2.1 r.2.2)
              let val := fun l => (((rd.find? fun r => r.1.x.lane = l).map (·.2.1)).getD 0, 0)
              commitTraced srcs d (anyGlobal ls) rs i s (s2.noteAccess w .read (fun _ => false) ls i.g) s3 hs val

/-! ### Stores -/

/-- The data operand of ST or IST (08 R211): poison in it has code 0x0002. -/
def storeSrc (i : Iss) : Src :=
  let t := i.ty
  match t with
  | .f32iv | .f16iv | .bf16iv => { fld := i.f.d, n := xregs t.fmt 2, al := xalign t.fmt 2, gOk := false, role := 2 }
  | _ => { fld := i.f.d, n := t.iwords, al := t.iwords, role := 2 }

/-- Host sectors in I or S that the lanes of one store cover whole (17 Table 17.2), with their bytes. -/
def State.wholeSectors (s : State) (ls : List (Located × Nat)) : List (Nat × List Byte) :=
  let hs := ls.filterMap fun l => match l.1.p with | .host h => some (h, l.1.x.w, l.2) | _ => none
  let secs := (hs.map fun x => x.1 / 64).eraseDups
  secs.filterMap fun sec =>
    if s.mesi (64 * sec) = .i ∨ s.mesi (64 * sec) = .s then
      let at_ := fun k => (hs.reverse.find? fun x => x.1 ≤ 64 * sec + k ∧ 64 * sec + k < x.1 + x.2.1).map fun x =>
        BitVec.ofNat 8 (x.2.2 >>> (8 * (64 * sec + k - x.1)))
      let bs := (List.range 64).filterMap at_
      if bs.length = 64 then some (sec, bs) else none
    else none

/-- Sends ItoMWr for whole sectors by way of their home slices; the group's counter waits for the host's completion (17 R419, R421). -/
def State.sendWhole (s : State) (w : Who) (l : List (Nat × List Byte)) : State :=
  l.foldl (fun st x =>
    if !st.linked (dieOf w.gid) (homeDie (64 * x.1)) then st
    else
      let st1 := (st.countHost w (64 * x.1) 1).addAck w
      { st1 with host := { st1.host with
          sectors := tdel st1.host.sectors x.1, writing := st1.host.writing ++ [(x.1, w.gid)], sent := st1.host.sent ++ [HostMsg.itoMWr x.1 x.2] } }) s

/-- Whether an access writes a whole doorbell: it carries release at .sys for its group (15 R376). -/
def State.rings (s : State) (l : Located) : Bool :=
  match l.p with
  | .hbm t => l.x.w == 8 && t % 8 == 0 && (s.doorbellOf t 8).isSome
  | .fabric pkg t => l.x.w == 8 && t % 8 == 0 && Config.farDoorbell pkg t
  | _ => false

/-- How a lane of a store reaches memory: by itself; in a whole sector of the host; or with the lanes that store to the same bytes of another
package, of which one request carries the last (17 R427). -/
inductive Lane where
  | alone | whole | joint (last : Bool)
  deriving DecidableEq, Repr
/-- The way of each lane. -/
def State.laneKind (s : State) (w : Who) (whole : List (Nat × List Byte)) (ls : List Located) (l : Located) : Lane :=
  match l.p with
  | .host h => if whole.any fun x => x.1 = h / 64 then .whole else .alone
  | .fabric _ _ => if (s.stashFor w l).isSome then .alone else .joint (ls.all fun m => m.p ≠ l.p || decide (m.x.lane ≤ l.x.lane))
  | _ => .alone
/-- What a store's lanes ask for: nothing for a whole sector; the value it replaces for a traced request to another package (11 R310). -/
def State.askStore (s : State) (w : Who) (way : Located → Lane) (traced : Located → Bool) (data : Located → W64) (ls : List Located) : Option State :=
  s.askEach ls fun st l => match way l with
    | .alone => st.ask w .write (.write 0 false) l
    | .whole => match st.unitHeld l with | some n => some (st.need w n) | none => none
    | .joint last => if !last then none else if traced l then st.ask w .atom (.swap (data l)) l else st.ask w .write (.write 0 false) l
/-- A number for the place of an access whose bytes several lanes may store to. -/
def Located.spot (l : Located) : Nat := match l.p with | .host h => h | .fabric pkg t => 2 ^ 60 + pkg * 2 ^ 50 + t | _ => 0
/-- The value that a lane's store replaces, for a trace (11 R310): what a read gives; in a sector or a request that several lanes share, under the
earlier lanes what was there, which for a host sector that its home slice does not hold nothing in the package knows (log 49). -/
def State.oldValue (s0 s : State) (w : Who) (way : Located → Lane) (earlier : List (Located × Nat)) (l : Located) : Nat :=
  let base : Nat → Byte := fun n => match l.p with
    | .host h => match tfind s0.host.sectors (h / 64) with
      | some x => x.data.getD (n % 64) 0
      | none => Config.freeByte (s0.freeCtr * 2 ^ 41 + n % 2 ^ 41)
    | _ => match s0.reply w.who l.x.va with
      | some r => BitVec.ofNat 8 (r.v.toNat >>> (8 * (n - l.spot)))
      | none => (s0.unseen n).setWidth 8
  match way l with
  | .alone => (s.performRead w l).v
  | _ => ofBytes ((List.range l.x.w).map fun i =>
      let n := l.spot + i
      match earlier.reverse.find? fun e => decide (e.1.spot ≤ n ∧ n < e.1.spot + e.1.x.w) with
      | some e => BitVec.ofNat 8 (e.2 >>> (8 * (n - e.1.spot)))
      | none => base n)
/-- A lane's store. A traced request to another package has been made. -/
def State.storeLane (s : State) (w : Who) (way : Located → Lane) (traced : Located → Bool) (l : Located) (v : Nat) : State :=
  match way l with
  | .alone => s.performWrite w l v false
  | .whole => s.judged w l
  | .joint last =>
    if !last then s
    else if traced l then (match s.l1For w l with | some key => s.updateL1 w key l v false | none => s).judged w l
    else s.performWrite w l v false

/-- What a store waits for as a release, or the state in which it has taken effect; one to a doorbell is a release at .sys (15 R376). -/
def State.storeRelease (s : State) (i : Iss) (ls : List Located) : Except (State × Wait) (State × Group) :=
  if ls.any s.rings then s.releaseOnce i.gid i.g 5 else if i.mb 5 4 = 2 then s.releaseOnce i.gid i.g (i.mb 8 6) else .ok (s, i.g)
/-- The data that a lane of a store writes: its last source. -/
def State.storeData (s : State) (i : Iss) (srcs : List Src) (l : Nat) (pop : W32 := 0) : Nat :=
  (join64 (opn (s.operands i pop l srcs) (memSrcs i).length)).toNat % 2 ^ (8 * memWidth i.ty)

/-- ST and IST (08 R211, R233): lanes in ascending order, so the highest lane that stores to a byte prevails. A release acts before the store asks
for anything. -/
def storeEffect (i : Iss) (s : State) : Res :=
  let t := i.ty
  let wd := memWidth t
  let srcs := memSrcs i ++ [storeSrc i]
  let lanes := i.list
  let scope := i.mb 8 6
  let w := i.who s
  withPop lanes srcs .none i s fun pop =>
    let xs := lanes.map fun l => (⟨l, memAddress i wd (s.operands i pop l srcs), wd⟩ : Access)
    let data := fun l => s.storeData i srcs l pop
    let hs := s.hits i true xs
    let traced := fun (l : Located) => hs.any fun h => h.1.va = l.x.va
    memoryStage .write xs (memFaults s i lanes srcs .none ++ alignFaults 1 wd xs) i s fun ls s1 =>
      if s1.traceNeed i hs ≠ 0 then .wait s1 i.g (.trace (s1.traceNeed i hs))
      else match s1.storeRelease i ls with
      | .error (s2, wt) => .wait s2 i.g wt
      | .ok (s2, g) =>
        let whole := s2.wholeSectors (ls.map fun l => (l, data l.x.lane))
        let way := s2.laneKind w whole ls
        match s2.askStore w way traced (fun l => BitVec.ofNat 64 (data l.x.lane)) ls with
        | some s3 =>
          let sends := ls.any fun l => traced l && way l == .joint true
          .wait s3 { g with granted := if sends then some (0, s2.traceDemand i hs) else g.granted } (askedWait ls .write)
        | none =>
          let g0 := s2.noteAccess w .write (fun _ => false) ls g
          let step := fun (a : State × Table Nat × List (Located × Nat)) (l : Located) =>
            let old := if traced l then s2.oldValue a.1 w way a.2.2 l else 0
            (a.1.storeLane w way traced l (data l.x.lane), tput a.2.1 l.x.lane old, a.2.2 ++ (if way l = .alone then [] else [(l, data l.x.lane)]))
          let r := ls.foldl step (s2, [], [])
          let s3 := if 3 ≤ scope then ls.foldl (fun st l => st.pushSector w l) r.1 else r.1
          let (s5, g1) := (s3.sendWhole w whole).traced i g0 hs fun l => (tget 0 r.2.1 l, data l)
          .done s5 (g1.free (freedNames i srcs)) i.next none

/-! ### Atomics and reductions (08 R213 to R218) -/

def atomOp (i : Iss) : AtomOp := atomOps.getD (i.mb 13 10) .add
def atomTy (i : Iss) : AtomTy := atomTys.getD (i.mb 9 7) .b32
def atomSigned (t : AtomTy) : Bool := match t with | .s32 | .s64 => true | _ => false
/-- The operands of ATOM and RED: a pair of expansion words takes no g register (01 R19). -/
def atomSrcs (i : Iss) : List Src :=
  let n := atomSize (atomTy i) / 4
  let opSrc := fun (fld : BitVec 7) => ({ fld := fld, n := n, al := n, gOk := atomOp i != .xadd2 } : Src)
  [addrSrc i.f.a, opSrc i.f.b] ++ (if atomOp i = .cas then [opSrc i.f.c] else [])
def atomDst (returns : Bool) (i : Iss) : Dst :=
  let n := atomSize (atomTy i) / 4
  if returns then .reg i.f.d n n (atomOp i != .xadd2) (atomSigned (atomTy i)) else .none
/-- The accesses of n bytes at the address operands of lanes. -/
def State.accessesAt (s : State) (i : Iss) (pop : W32) (srcs : List Src) (lanes : List Nat) (n : Nat) : List Access :=
  lanes.map fun l => ⟨l, (join64 (opn (s.operands i pop l srcs) 0)).toNat % 2 ^ 56, n⟩
/-- The operand and the comparand of a lane. -/
def State.atomArg (s : State) (i : Iss) (pop : W32) (l : Nat) : W64 × W64 :=
  let ops := s.operands i pop l (atomSrcs i)
  (join64 (opn ops 1), join64 (opn ops 2))

/-- The accesses of one instruction by distinct address, in ascending order of the lowest lane that names each (08 R216). -/
def byAddress (ls : List Located) : List (Located × List Nat) :=
  (ls.map (·.x.va)).eraseDups.filterMap fun va =>
    match ls.filter fun l => l.x.va = va with
    | [] => none
    | l :: r => some (l, (l :: r).map (·.x.lane))

/-- What ATOM and RED wait for as a release, or the state in which it has taken effect; one to a doorbell is a release at .sys (15 R376). -/
def State.atomRelease (s : State) (i : Iss) (ls : List Located) : Except (State × Wait) (State × Group) :=
  let order := i.mb 3 2
  if ls.any s.rings then s.releaseOnce i.gid i.g 5 else if order = 2 ∨ order = 3 then s.releaseOnce i.gid i.g (i.mb 6 4) else .ok (s, i.g)
/-- What they wait for as an acquire, which follows the answers of other agents. -/
def State.atomAcquire (s : State) (i : Iss) (g : Group) : Except (State × Wait) State :=
  let order := i.mb 3 2
  if order = 1 ∨ order = 3 then s.acquireOr i.gid g (i.mb 6 4) else .ok s
/-- The action of the lanes that share one address: lazily in the die's partial copy, as a write that another package acknowledges, or at once.
Gives each lane's old and new value, and the poison of the old one. -/
def State.atomAt (s : State) (w : Who) (op : AtomOp) (ty : AtomTy) (lazy far traced : Bool) (l : Located) (args : List (W64 × W64)) :
    State × List (W64 × W64) × Nat :=
  match l.p, lazy, far with
  | .hbm t, true, _ =>
    let s1 := s.clearFor w true l
    let old := if traced then s1.lazyOld w t (atomSize ty) else 0
    ((s1.performLazy w op ty (l.ctx w) t args).judged w l, (atomChain op ty old args).1, 0)
  | .fabric pkg t, _, true =>
    ((s.clearFor w true l).sendFabric w l.enc pkg t (atomSize ty) l.x.va (.atom op ty args) true, [], 0)
  | _, _, _ => s.performAtom w op ty l args
/-- The actions of one instruction in turn: the state after, and for each lane its old value, its new value and the old one's poison. -/
def State.atomAll (s : State) (w : Who) (op : AtomOp) (ty : AtomTy) (lazy far traced : Located → Bool) (arg : Nat → W64 × W64)
    (acts : List (Located × List Nat)) : State × List (Nat × Nat × Nat × Nat) :=
  acts.foldl (fun (a : State × List (Nat × Nat × Nat × Nat)) x =>
    let r := a.1.atomAt w op ty (lazy x.1) (far x.1) (traced x.1) x.1 (x.2.map arg)
    (r.1, a.2 ++ (x.2.zip r.2.1).map fun y => (y.1, y.2.1.toNat, y.2.2.toNat, r.2.2))) (s, [])

/-- How the action of an address is made: in another package, where it is awaited or, when nothing waits for its old value, only acknowledged;
lazily; or where its data is. -/
inductive Way where
  | far | quiet | lazy | near
  deriving DecidableEq, Repr
/-- An action of another package's word is performed there, but for one at .clu or narrower that a stash serves (08 R206, R217). -/
def State.wayOf (s : State) (w : Who) (returns : Bool) (op : AtomOp) (ty : AtomTy) (traced : Located → Bool) (l : Located) : Way :=
  let out := match l.p with | .fabric _ _ => (s.stashFor w l).isNone || decide (3 ≤ w.scope) | _ => false
  if out then (if returns || traced l then .far else .quiet)
  else if !returns && s.lazyAt w op ty l then .lazy else .near
/-- What the actions of one instruction ask for. -/
def State.askActs (s : State) (w : Who) (op : AtomOp) (ty : AtomTy) (way : Located → Way) (arg : Nat → W64 × W64) (acts : List (Located × List Nat)) :
    Option State :=
  s.askEach acts fun st a => match way a.1, a.1.p with
    | .lazy, .hbm t => st.askLazy w op ty a.1 t
    | .quiet, .fabric pkg t => st.askFarRed w a.1 pkg t
    | _, _ => st.ask w .atom (.atom op ty (a.2.map arg)) a.1

/-- ATOM (returns) and RED. What other packages perform is sent once the instruction has its slices (07 R186), the room for its trace records (11
R310) and its release (08 R229, R236), so that nothing it then waits for comes after its effect; its acquire follows the answer. -/
def atomEffect (returns : Bool) (i : Iss) (s : State) : Res :=
  let op := atomOp i
  let ty := atomTy i
  let wd := atomSize ty
  let srcs := atomSrcs i
  let d := atomDst returns i
  let lanes := i.compute d
  let w := i.who s
  withPop lanes srcs d i s fun pop =>
    let xs := s.accessesAt i pop srcs lanes wd
    let arg := s.atomArg i pop
    let hs := s.hits i true xs
    memoryStage .atomic xs (memFaults s i lanes srcs d ++ alignFaults 1 wd xs) i s fun ls s1 =>
      let acts := byAddress ls
      let traced := fun (l : Located) => hs.any fun h => h.1.va = l.x.va
      let way := s1.wayOf w returns op ty traced
      let sends := acts.any fun a => way a.1 == .far
      let frees := freedNames i srcs
      let after := i.g.free frees
      let slices := (if lanes.isEmpty then [] else after.needs (dstNames i d)).length * (i.width / 32)
      if returns && s1.storing i.gid then .wait s1 i.g .aperture
      else if sends && i.g.granted.isNone && !(s1.setGroup i.gid after).admits i.gid after slices then .wait s i.g (.pool slices frees)
      else if s1.traceNeed i hs ≠ 0 then .wait s1 i.g (.trace (s1.traceNeed i hs))
      else match s1.atomRelease i ls with
      | .error (s2, wt) => .wait s2 i.g wt
      | .ok (s2, g) =>
        match s2.askActs w op ty way arg acts with
        | some s3 =>
          let kept := some (slicesOf after + slices - slicesOf i.g, s2.traceDemand i hs)
          .wait s3 { g with granted := if sends && g.granted.isNone then kept else g.granted } (askedWait ls .atom)
        | none => match s2.atomAcquire i g with
        | .error (s3, wt) => .wait s3 g wt
        | .ok s3 =>
          let g0 := s3.noteAccess w .atom (fun l => way l == .lazy) ls g
          let s4 := s3.countFor i.gid i.g 0x24 acts.length
          let (s5, vals) := s4.atomAll w op ty (fun l => way l == .lazy) (fun l => way l == .quiet) traced arg acts
          let lf := if returns then vals.filterMap fun v => if v.2.2.2 = 5 then some (⟨8, 5, laneBit v.1, none, none⟩ : Flt) else none else []
          if !lf.isEmpty then .fault s lf
          else
            let val := fun l => match vals.find? fun v => v.1 = l with | some v => (v.2.1, v.2.2.1) | none => (0, 0)
            let rs := lanes.map fun l => match vals.find? fun v => v.1 = l with
              | some v => (l, ({ words := (halves (BitVec.ofNat 64 v.2.1)).take (wd / 4), bad := v.2.2.2 } : LaneRes))
              | none => (l, { skip := true })
            commitTraced srcs d (anyGlobal ls) rs i s g0 s5 hs val

/-! ### PREF (08 R220; 10 R291) -/

/-- One lane of a prefetch: a line into L1 and its slice, or into its slice alone, with a residency hint at level 2 (08 R220, 10 R291). -/
def State.prefetch (s : State) (gid : Nat) (g : Group) (w : Who) (level : Nat) (l : Located) : State :=
  let s1 := s.prefetchLine w (level = 0 && (s.stashFor w l).isNone) l
  match level, l.e with
  | 2, some e =>
    if e.image.notify then
      s1.postNote (dieOf gid) (s.launchOf g).ctx (0x02 * 2 ^ 56 + l.x.va) w.asid (e.indexAt l.x.va) (s.handle g.task).toNat (s.ident gid g) 0
    else s1
  | _, _ => s1

/-- PREF: dropped lanes raise no fault and are counted. -/
def prefEffect (i : Iss) (s : State) : Res :=
  let srcs := [addrSrc i.f.a]
  let lanes := i.list
  let w := i.who s
  let fs := operandFaults i srcs .none ++ (if i.ra then [] else poisonFaults i lanes srcs)
  if !fs.isEmpty then .fault s fs
  else
    let lanes := if i.ra then lanes.filter fun l => srcPoison i l { fld := i.f.a, n := 2, al := 2 } = 0 else lanes
    let off : Int := (BitVec.ofNat 8 (i.mb 11 4)).toInt * 256
    let xs := lanes.map fun l =>
      let va := ((((join64 (opn (s.operands i 0 l srcs) 0)).toNat : Int) + off) % 2 ^ 56).toNat
      (⟨l, va, 1⟩ : Access)
    let inner := xs.filter fun x => x.va < localBase
    let fd := inner.map fun x => s.locate i .hint x
    let walks := foundWalks fd
    if !i.ra && !walks.isEmpty then .wait (s.askWalk i.gid i.g walks false) i.g (.walk walks)
    else
      let s1 := if walks.isEmpty then s else s.askWalk i.gid i.g walks true (4 + i.mb 13 12)
      let good := (foundAt fd).filter fun l => (s.unitHeld l).isNone && match l.p with | .host _ => false | _ => true
      let dropped := lanes.length - good.length - walks.length
      let s2 := good.foldl (fun st l => st.prefetch i.gid i.g w (i.mb 13 12) l) (s1.useRanges (coreOf i.gid) good)
      let s3 := if dropped = 0 then s2 else s2.countFor i.gid i.g 0x20 dropped
      let s3 := if i.ra && !good.isEmpty then s3.countFor i.gid i.g (0x10 + quarterOf i.gid) good.length else s3
      let g1 : Group := { s.noteAccess w .read (fun _ => false) good i.g with memAddr := (leastOf (xs.map (·.va))).getD 0 }
      .done s3 (g1.free (freedNames i srcs)) i.next none

/-! ### WAITA (08 R222) -/

def waitaTy (i : Iss) : Ty := match i.mb 9 8 with | 0 => .s32 | 1 => .n32 | 2 => .s64 | _ => .n64
/-- clk of a time limit. -/
def waitaLimit (n clock : Nat) : Option Nat := if n = 0 then none else some (clock + 2 ^ (n + 7))

def waitaEffect (i : Iss) (s : State) : Res :=
  let t := waitaTy i
  let wd := t.ibits / 8
  let srcs := [addrSrc i.f.a, intSrc i.f.b t]
  let d := intDst i.f.d t
  let lanes := i.compute d
  let scope := i.mb 7 5
  let w := i.who s
  withPop lanes srcs d i s fun pop =>
    let ops := fun l => s.operands i pop l srcs
    let xs := s.accessesAt i pop srcs lanes wd
    let hs := s.hits i false xs
    memoryStage .read xs (memFaults s i lanes srcs d ++ alignFaults 1 wd xs) i s fun ls s1 =>
      if s1.storing i.gid then .wait s1 i.g .aperture
      else match s1.askAll w .read (ls.map fun l => (l, .read)) with
      | some s2 => .wait s2 i.g (askedWait ls .read)
      | none => match s1.acquireOr i.gid i.g scope with
        | .error (s2, wt) => .wait s2 i.g wt
        | .ok s2 =>
          let (s3, rd) := s2.readAll w ls
          let lf := linkFaults rd
          let pf := rd.filterMap fun r => if r.2.2 = 0 ∨ r.2.2 = 5 then none else some (⟨8, 9, laneBit r.1.x.lane, some r.1.x.va, none⟩ : Flt)
          if !(lf ++ pf).isEmpty then .fault s (lf ++ pf)
          else
            let limit := match i.g.waitLimit with | some l => some l | none => waitaLimit (i.mb 4 0) s.clock
            let hold := rd.all fun r => condInt (i.mb 13 10) (intVal t (halves (BitVec.ofNat 64 r.2.1))) (intVal t (opn (ops r.1.x.lane) 1))
            let late := match limit with | some l => decide (l ≤ s.clock) | none => false
            if !hold && !late then
              .wait { s3 with replies := s3.replies.filter fun r => r.who != i.gid } { i.g with waitLimit := limit } (.waita limit i.f)
            else if s3.traceNeed i hs ≠ 0 then .wait s3 i.g (.trace (s3.traceNeed i hs))
            else
              let rs := rd.map fun r => (r.1.x.lane, loadRes t r.1.x r.2.1 0)
              let val := fun l => (((rd.find? fun r => r.1.x.lane = l).map (·.2.1)).getD 0, 0)
              commitTraced srcs d false rs i s (s2.noteAccess w .read (fun _ => false) ls i.g) s3 hs val

/-- Issues a memory instruction. -/
def memIssue (o : Op) (f : Fields) (s : State) (body : Iss → State → Res) : Host.Outcome State Fault Refusal :=
  issue o f s fun i s => acquired i s (body i)

def execLd (f : Fields) (s : State) : Host.Outcome State Fault Refusal := memIssue .ld f s loadEffect
def execSt (f : Fields) (s : State) : Host.Outcome State Fault Refusal := memIssue .st f s storeEffect
def execIld (f : Fields) (s : State) : Host.Outcome State Fault Refusal := memIssue .ild f s loadEffect
def execIst (f : Fields) (s : State) : Host.Outcome State Fault Refusal := memIssue .ist f s storeEffect
def execAtom (f : Fields) (s : State) : Host.Outcome State Fault Refusal := memIssue .atom f s (atomEffect true)
def execRed (f : Fields) (s : State) : Host.Outcome State Fault Refusal := memIssue .red f s (atomEffect false)
def execPref (f : Fields) (s : State) : Host.Outcome State Fault Refusal := memIssue .pref f s prefEffect
def execWaita (f : Fields) (s : State) : Host.Outcome State Fault Refusal := memIssue .waita f s waitaEffect

end Sys2Proof.Machine
end

