-- ==== Sys2Proof/Machine/Fences.lean ====
section
/-! DEFINITION. FENCE, IFENCE and the team barriers (08 R219, R221, R224, R225; 13 R331). -/

namespace Sys2Proof.Machine

/-- The acquire half of a FENCE: the dirty bytes of the core's L1 are written back before any FENCE beyond the scopes that L1 serves (08 R209). -/
def State.acquireClean (s : State) (gid : Nat) (g : Group) (scope : Nat) : Except (State × Wait) State :=
  match s.askL1 gid g scope with
  | some s1 => .error (s1, .reply)
  | none => (if s.narrow g.team < scope then s.cleanL1 (s.groupWho gid g) else s).acquireOr gid g scope
/-- FENCE: its release half waits as R236 says, and every FENCE acts after the group's earlier stores (08 R232). In runahead it has no effect. -/
def fenceEffect (rel acq : Bool) (i : Iss) (s : State) : Res :=
  let scope := i.mb 8 6
  if i.ra then .done s i.g i.next none
  else if s.storing i.gid then .wait s i.g .aperture
  else match (if rel then s.releaseOr i.gid i.g scope else .ok s) with
  | .error (s1, w) => .wait s1 i.g w
  | .ok s1 => match (if acq then s1.acquireClean i.gid i.g scope else .ok s1) with
    | .error (s2, w) => .wait s2 i.g w
    | .ok s2 => .done s2 i.g i.next none

/-- An arrival of a group at a barrier of its team: counted at once, or on its way to the barrier unit for a team of a pair. -/
def State.arrive (s : State) (i : Iss) (id : Nat) (hold : Bool) : State :=
  let t := s.team i.g.team
  if t.paired then
    let c := s.cluster (clusterOf i.gid)
    s.setCluster (clusterOf i.gid) { c with arrivals := c.arrivals ++ [(i.gid, i.g.team, id, hold)] }
  else s.setTeam i.g.team (t.arrive id)

/-- BAR: each arrival is a release at .team (08 R225). -/
def barEffect (hold : Bool) (i : Iss) (s : State) : Res :=
  let fs := groupLevel i ++ (if i.g.spawned then [⟨3, 0x12, 0, none, none⟩] else [])
  let id := i.mb 11 10
  if !fs.isEmpty then .fault s fs
  else match s.releaseOr i.gid i.g 1 with
  | .error (s1, w) => .wait s1 i.g w
  | .ok s1 =>
    let t := s1.team i.g.team
    let s2 := s1.arrive i id hold
    if hold then .hold s2 i.g i.next (if t.paired then .arriving id i.pc else .barrier id (tget false t.parity id) i.pc)
    else .done s2 i.g i.next none

def execFence (f : Fields) (s : State) : Host.Outcome State Fault Refusal :=
  memIssue .fence f s fun i s => fenceEffect (i.mb 5 4 != 1) (i.mb 5 4 != 2) i s
/-- IFENCE acts as FENCE.rel at its scope, and at every scope what its group stored leaves the stash and L1: an instruction word is read past
both, at the next fetch after an ICSYNC (08 R221; log 9). -/
def ifenceEffect (i : Iss) (s : State) : Res :=
  if s.storing i.gid then .wait s i.g .aperture
  else match s.releaseOr i.gid i.g (max 3 (i.mb 8 6)) with
  | .error (s1, w) => .wait s1 i.g w
  | .ok s1 => .done s1 i.g i.next none
def execIfence (f : Fields) (s : State) : Host.Outcome State Fault Refusal := memIssue .ifence f s ifenceEffect
def execBar (f : Fields) (s : State) : Host.Outcome State Fault Refusal := memIssue .bar f s (barEffect true)
def execBarPass (f : Fields) (s : State) : Host.Outcome State Fault Refusal := memIssue .barPass f s (barEffect false)

end Sys2Proof.Machine
end

