-- ==== Sys2Proof/Machine/Control.lean ====
section
/-! DEFINITION. Branches, calls, EXIT and YIELD (04 R104 to R110). -/

namespace Sys2Proof.Machine

/-- PC-relative target (04 R104; 03 R72). -/
def relTarget (i : Iss) : Addr := i.pc + BitVec.ofInt 56 (4 * i.f.off21.toInt)
/-- The faults of a register-held target or entry address (04 R104). BRI, CALLI, RET and SPAWN are guarded, and the spec does not say which lanes the
record of a bad value names: the model names none, as for a poisoned one (log 43). -/
def targetFaults (v : W64) : List Flt :=
  (if bits v 63 56 ≠ 0 then [⟨3, 9, 0, none, none⟩] else []) ++
  (if v.toNat % 4 ≠ 0 then [⟨4, 0x100, 0, some (v.toNat % 2 ^ 56), none⟩] else [])

/-- The transfer itself (04 R105): T is the set of executing lanes. -/
def transfer (call : Bool) (i : Iss) (s : State) (tgt : Addr) : Res :=
  let c := i.ctx
  let c1 := if i.f.g ≠ 0 ∧ i.lanes ≠ c.am then { c.maskSet 7 (c.am &&& ~~~i.lanes) with am := i.lanes } else c
  let c2 := if call then c1.gSet 11 (s.mergeG i.g 11 (i.next.setWidth 64)) 0 else c1
  .done s { i.g with ctx := c2 } tgt none

/-- BRA and CALL. -/
def branchEffect (call : Bool) (i : Iss) (s : State) : Res :=
  if i.f.g ≠ 0 ∧ i.lanes = 0 then .done s i.g i.next none else transfer call i s (relTarget i)

/-- BRI, CALLI and RET: a target in a g register; in runahead a poisoned target ends it (10 Table 10.6). -/
def registerBranch (call : Bool) (n : Nat) (i : Iss) (s : State) : Res :=
  if i.f.g ≠ 0 ∧ i.lanes = 0 then .done s i.g i.next none
  else if i.ra && !i.g.pendG n && i.ctx.gBad n != 0 then .endRunahead
  else
    let v := s.readG i.g 0 n
    let fs := gPoisonFaults i [] [n] ++ targetFaults v
    if !fs.isEmpty then .fault s fs else transfer call i s (v.setWidth 56)

/-- BRI and CALLI name their g register. -/
def namedBranch (call : Bool) (i : Iss) (s : State) : Res :=
  if !(mustG [i.f.a]).isEmpty then .fault s (mustG [i.f.a]) else registerBranch call (gIndex i.f.a) i s

/-- EXIT (04 R107). -/
def exitEffect (i : Iss) (s : State) : Res :=
  let c := { i.ctx with live := i.ctx.live &&& ~~~i.lanes, am := i.ctx.am &&& ~~~i.lanes }
  if i.lanes ≠ 0 ∧ c.live = 0 then .leaves s { i.g with ctx := c } else .done s { i.g with ctx := c } i.next none

/-- YIELD (04 R109): the quarter has no current group. -/
def yieldEffect (i : Iss) (s : State) : Res :=
  .done (s.setUnit (unitOf i.gid) { s.unit (unitOf i.gid) with current := none }) i.g i.next none

def execBra (f : Fields) (s : State) : Host.Outcome State Fault Refusal := issue .bra f s (branchEffect false)
def execCall (f : Fields) (s : State) : Host.Outcome State Fault Refusal := issue .call f s (branchEffect true)
def execBri (f : Fields) (s : State) : Host.Outcome State Fault Refusal := issue .bri f s (namedBranch false)
def execCalli (f : Fields) (s : State) : Host.Outcome State Fault Refusal := issue .calli f s (namedBranch true)
def execRet (f : Fields) (s : State) : Host.Outcome State Fault Refusal := issue .ret f s (registerBranch false 11)
def execExit (f : Fields) (s : State) : Host.Outcome State Fault Refusal := issue .exit f s exitEffect
def execYield (f : Fields) (s : State) : Host.Outcome State Fault Refusal := issue .yield f s yieldEffect

end Sys2Proof.Machine
end

