-- ==== Sys2Proof/Machine/Masks.lean ====
section
/-! DEFINITION. MASK, VOTE and SHFL (04 R111 to R113). -/

namespace Sys2Proof.Machine

/-- The mask a selector names: m0 to m7, AM, LIVE, no lane, lanes 0 to W−1. -/
def maskSel (i : Iss) (sel : Nat) : LaneMask :=
  if sel ≤ 7 then i.ctx.maskGet sel
  else if sel = 8 then i.ctx.am else if sel = 9 then i.ctx.live else if sel = 10 then 0 else onesMask i.width
/-- A mask op that writes md, a combination of masks. -/
def maskOp (m : Iss → LaneMask) (i : Iss) (s : State) : Res :=
  if !(groupLevel i).isEmpty then .fault s (groupLevel i)
  else .done s { i.g with ctx := i.ctx.maskSet (i.mb 13 10) (m i) } i.next none

/-- MSET (04 Table 4.5): of the active lanes, those whose predicate satisfies the mode or whose register is not 0; in runahead a poisoned
lane writes 0. -/
def msetEffect (i : Iss) (s : State) : Res :=
  let act := lanesOf i.width i.ctx.am
  if i.mbit 9 then
    let src : Src := wordSrc i.f.a
    let isQ := match regOf i.f.a with | .q _ => true | _ => false
    let fs := groupLevel i ++ (if isQ then [⟨3, 6, 0, none, none⟩] else srcFaults i src) ++ (if i.ra then [] else poisonFaults i act [src])
    if !fs.isEmpty then .fault s fs
    else
      let m := maskOf (act.filter fun l => (s.readSrc i 0 0 l src).getD 0 0 ≠ 0 ∧ srcPoison i l src = 0)
      .done s ((({ i.g with ctx := i.ctx.maskSet (i.mb 13 10) m } : Group)).free (freedNames i [src])) i.next none
  else
    maskOp (fun i => maskOf (act.filter fun l => modeHolds (i.mb 4 3) (s.readPred i.g (i.mb 7 5) l))) i s

/-- MACT. -/
def mactEffect (i : Iss) (s : State) : Res :=
  if !(groupLevel i).isEmpty then .fault s (groupLevel i)
  else .done s { i.g with ctx := { i.ctx with am := maskSel i (i.mb 9 6) &&& i.ctx.live } } i.next none

/-- MRD. -/
def mrdEffect (i : Iss) (s : State) : Res :=
  let w : W32 := (maskSel i (i.mb 9 6)).extractLsb' (32 * i.mb 1 0) 32
  let d : Dst := .reg i.f.d 1 1 true false
  let fs := groupLevel i ++ dstFaults i [] d
  if !fs.isEmpty then .fault s fs
  else
    let lanes := if d.isG then [0] else lanesOf i.width i.ctx.am
    commitLanes [] d none false (lanes.map fun l => (l, { words := [w] })) i s

/-- VOTE: over the lanes of ms and AM, whether some, each, none or an odd number satisfy the mode. -/
def voteOf (kind n total : Nat) : Bool :=
  match kind with
  | 0 => decide (0 < n)
  | 1 => n == total
  | 2 => n == 0
  | _ => n % 2 == 1
def voteEffect (i : Iss) (s : State) : Res :=
  if !(groupLevel i).isEmpty then .fault s (groupLevel i)
  else
    let u := lanesOf i.width (maskSel i (i.mb 13 10) &&& i.ctx.am)
    let n := (u.filter fun l => modeHolds (i.mb 4 3) (s.readPred i.g (i.mb 7 5) l)).length
    let v := predOf (voteOf (i.mb 9 8) n u.length)
    commitLanes [] (.pred (i.mb 2 0)) (some 4) false ((List.range i.width).map fun l => (l, { pred := v })) i s

/-- The lane that an active lane reads in SHFL, or none when it keeps its own (04 R113): n is the segment, x the operand. -/
def shflLane (mode n : Nat) (x : W32) (l : Nat) : Option Nat :=
  let base := l / n * n
  match mode with
  | 0 => if x.toNat < n then some (base + x.toNat) else none
  | 1 => some (base + (l - base + x.toNat) % n)
  | 2 =>
    let j : Int := l + x.toInt
    if (base : Int) ≤ j ∧ j < (base + n : Nat) then some j.toNat else none
  | _ =>
    let j := l ^^^ x.toNat
    if base ≤ j ∧ j < base + n then some j else none
/-- Lanes of a segment (04 R112). -/
def shflSegment (w s : Nat) : Nat := if s = 7 ∨ w < 2 ^ (s + 1) then w else 2 ^ (s + 1)

/-- SHFL: every source is read before any lane is written; the poison that matters is that of the lane selected. -/
def shflEffect (i : Iss) (s : State) : Res :=
  let n := if i.mbit 8 then 2 else 1
  let isV := fun fld => match regOf fld with | .v _ => true | _ => false
  let special : List Flt := if isV i.f.d && isV i.f.a then [] else [⟨3, 0xA, 0, none, none⟩]
  let a : Src := { fld := i.f.a, n := n, al := n }
  let d : Dst := .reg i.f.d n n true false
  let imm := i.mbit 7
  let x : Src := wordSrc i.f.b
  let xs := if imm then [] else [x]
  let qx := !imm && (match regOf i.f.b with | .q _ => true | _ => false)
  let fs := special ++ (if isV i.f.a then srcFaults i a else []) ++ (if isV i.f.d then dstFaults i [] d else []) ++
    (if qx then [⟨3, 6, 0, none, none⟩] else xs.flatMap (srcFaults i)) ++ (if d.isG then uniformFaults i (a :: xs) else []) ++
    queueTwice (i.f.d :: i.f.a :: xs.map (·.fld))
  if !fs.isEmpty then .fault s fs
  else
    let sel := fun l =>
      let v : W32 := if imm then (if i.mb 13 12 = 2 then i.f.c.signExtend 32 else i.f.c.setWidth 32) else (s.readSrc i 1 0 l x).getD 0 0
      (shflLane (i.mb 13 12) (shflSegment i.width (i.mb 11 9)) v l).getD l
    let pf := poisonFaults i i.list xs ++ i.list.filterMap fun l =>
      let c := srcPoison i (sel l) a
      if c = 0 then none else some ⟨8, c, laneBit l, none, none⟩
    if !i.ra && !pf.isEmpty then .fault s pf
    else
      let rs := i.list.map fun l =>
        let r : LaneRes := { words := s.readSrc i 0 0 (sel l) a }
        (l, if i.ra && (srcPoison i (sel l) a ≠ 0 || xs.any fun b => srcPoison i l b ≠ 0) then r.taint s l else r)
      commitLanes (a :: xs) d (some 6) false rs i s

def execMset (f : Fields) (s : State) : Host.Outcome State Fault Refusal := issue .mset f s msetEffect
def execMand (f : Fields) (s : State) : Host.Outcome State Fault Refusal :=
  issue .mand f s (maskOp fun i => maskSel i (i.mb 9 6) &&& maskSel i (i.mb 5 2))
def execMor (f : Fields) (s : State) : Host.Outcome State Fault Refusal :=
  issue .mor f s (maskOp fun i => maskSel i (i.mb 9 6) ||| maskSel i (i.mb 5 2))
def execMnot (f : Fields) (s : State) : Host.Outcome State Fault Refusal :=
  issue .mnot f s (maskOp fun i => onesMask i.width &&& ~~~maskSel i (i.mb 9 6))
def execMact (f : Fields) (s : State) : Host.Outcome State Fault Refusal := issue .mact f s mactEffect
def execMrd (f : Fields) (s : State) : Host.Outcome State Fault Refusal := issue .mrd f s mrdEffect
def execVote (f : Fields) (s : State) : Host.Outcome State Fault Refusal := issue .vote f s voteEffect
def execShfl (f : Fields) (s : State) : Host.Outcome State Fault Refusal := issue .shfl f s shflEffect

end Sys2Proof.Machine
end

