-- ==== Sys2Proof/Machine/System.lean ====
section
/-! DEFINITION. SYS: traps and their return, special registers, the window, releases of names, resuming and killing groups
(04 R118 to R126; 01 R28). -/

namespace Sys2Proof.Machine

/-- BRK (04 R119). -/
def brkEffect (i : Iss) (s : State) : Res :=
  if i.lanes = 0 then .done s i.g i.next none else .fault s [⟨0x12, 1, i.lanes, none, none⟩]

/-- TRAP (04 R120). -/
def trapEffect (i : Iss) (s : State) : Res :=
  let n := i.mb 5 0
  if i.lanes = 0 then .done s i.g i.next none
  else if i.ctx.inHandler then .fault s [⟨0x11, 0x100 + n, i.lanes, none, none⟩]
  else if i.l.handler = 0 then .fault s [⟨0x11, n, i.lanes, none, none⟩]
  else
    let c := i.ctx.enterHandler i.l.handler n i.next i.lanes
    .done s { i.g with ctx := c } c.pc none

/-- ERET (04 R121). -/
def eretEffect (i : Iss) (s : State) : Res :=
  let fs := groupLevel i ++ (if i.ctx.inHandler then [] else [⟨3, 0xB, 0, none, none⟩])
  if !fs.isEmpty then .fault s fs
  else
    let c := i.ctx.leaveHandler
    .done s { i.g with ctx := c } c.pc none

/-- The special register of a selector, for a lane (01 Table 1.5). -/
def State.special (s : State) (i : Iss) (sel lane : Nat) : Nat :=
  match sel with
  | 0x00 => lane
  | 0x01 => if i.g.spawned then 0x80000000 + slotOf i.gid else i.g.index
  | 0x02 => (s.team i.g.team).index
  | 0x03 => (s.handle i.g.task).toNat
  | 0x04 => i.g.task % 4096
  | 0x05 => coreOf i.gid % 16
  | 0x06 => coreOf i.gid % 16 / 4
  | 0x07 => dieOf i.gid
  | 0x08 => s.chofer.package
  | 0x09 => i.width
  | 0x0A => i.ctx.wbase
  | 0x0B => s.clock
  | 0x0C => i.ctx.fpsr.toNat
  | 0x0D => if i.ra then 1 else 0
  | _ => i.ctx.rdepth

/-- The group with every earlier result written: in runahead nothing is waited for that the checkpoint holds, and what runahead itself has
issued is written at once (01 R28; 05 R130; 10 Table 10.6). -/
def Iss.settledAll (i : Iss) : Iss := { i with g := i.g.written }

/-- SRD (04 R122): FPSR waits for every earlier result (05 R130). -/
def srdEffect (i : Iss) (s : State) : Res :=
  let sel := i.mb 5 0
  let n := if sel = 0x0B then 2 else 1
  let d : Dst := .reg i.f.d n n true false
  let fs := dstFaults i [] d ++ (if d.isG ∧ sel = 0 then [⟨3, 0xC, 0, none, none⟩] else [])
  if !fs.isEmpty then .fault s fs
  else if sel = 0x0C ∧ !i.g.outst.isEmpty ∧ !i.ra then .wait s i.g .results
  else
    let i := if sel = 0x0C then i.settledAll else i
    commitLanes [] d (fixedOf d 4 true) false
    ((i.compute d).map fun l => (l, { words := (halves (BitVec.ofNat 64 (s.special i sel l))).take n })) i s

/-- SWR (01 R28): FPSR alone may be written, when every earlier result has been. -/
def swrEffect (i : Iss) (s : State) : Res :=
  let fs := groupLevel i ++ mustG [i.f.a] ++ (if i.mb 5 0 = 0x0C then [] else [⟨3, 7, 0, none, none⟩])
  let pf := gPoisonFaults i [gIndex i.f.a]
  if !fs.isEmpty then .fault s fs
  else if !pf.isEmpty then .fault s pf
  else if !i.g.outst.isEmpty ∧ !i.ra then .wait s i.g .results
  else
    let g := i.g.written
    .done s { g with ctx := { g.ctx with fpsr := (s.readG i.g 0 (gIndex i.f.a)).setWidth 6 } } i.next none

/-- WBASE (04 R123). -/
def wbaseEffect (i : Iss) (s : State) : Res :=
  let reg := i.mbit 13
  let fs := groupLevel i ++ (if reg then mustG [i.f.a] else [])
  let v := if reg then (s.readG i.g 0 (gIndex i.f.a)).toNat else i.mb 8 0
  let ps := if reg ∧ fs.isEmpty then gPoisonFaults i [gIndex i.f.a] else []
  let range : List Flt := if fs.isEmpty ∧ reg ∧ (v % 16 ≠ 0 ∨ 400 < v) then [⟨3, 0xD, 0, none, none⟩] else []
  if !(fs ++ ps ++ range).isEmpty then .fault s (fs ++ ps ++ range)
  else .done s { i.g with ctx := { i.ctx with wbase := v } } i.next none

/-- RLS (04 R124). -/
def rlsEffect (i : Iss) (s : State) : Res :=
  let n := i.mb 6 0 + 1
  let fs := groupLevel i ++ (match regOf i.f.a with | .v k => vecFaults i k n 1 | _ => [⟨3, 0xA, 0, none, none⟩])
  if !fs.isEmpty then .fault s fs
  else .done s (i.g.free ((List.range n).map (i.ctx.wbase + i.f.a.toNat + ·))) i.next none

/-- ICSYNC (04 R125). -/
def icsyncEffect (i : Iss) (s : State) : Res :=
  if !(groupLevel i).isEmpty then .fault s (groupLevel i) else .done s { i.g with ibuf := [] } i.next none

/-! ### GRESUME and GKILL (04 R126) -/

/-- The group that an identification word names, when it is parked by a fault. -/
def State.parkedBy (s : State) (die : Nat) (w : W64) : Option (Nat × Group) :=
  let gid := 4096 * die + 256 * bits w 15 8 + bits w 7 0
  match s.group? gid with
  | none => none
  | some g =>
    let parked := match g.stat with | .parkedFault => true | .saved _ f => f | _ => false
    if parked && decide (bits w 15 8 < 16) && s.ident gid g == w then some (gid, g) else none

/-- Continues a parked group at an address, its age 0 (07 R178). -/
def Group.resumed (g : Group) (pc : Addr) : Group :=
  { g with fault := none, ctx := { g.ctx with pc := pc, via := 3 }, age := 0, aged := false,
           stat := match g.stat with | .saved _ _ => .saved none false | _ => .ready }

/-- GRESUME: the status and the state after. -/
def State.resume (s : State) (die : Nat) (w : W64) (nxt : Bool) : Nat × State :=
  if bits w 31 24 ≠ s.chofer.package ∨ bits w 18 16 ≠ die then (3, s)
  else match s.parkedBy die w with
    | none => (1, s)
    | some (gid, g) =>
      match g.fault with
      | none => (1, s)
      | some r =>
        if r.after then (0, s.setGroup gid (g.resumed g.ctx.pc))
        else if nxt then
          match r.length with
          | none => (4, s)
          | some n => (0, s.setGroup gid (g.resumed (g.ctx.pc + BitVec.ofNat 56 n)))
        else if r.restartable then (0, s.setGroup gid (g.resumed g.ctx.pc))
        else (2, s)
/-- GKILL; a saved group holds no slices that its end would return (07 R188). -/
def State.kill (s : State) (die : Nat) (w : W64) : Nat × State :=
  if bits w 31 24 ≠ s.chofer.package ∨ bits w 18 16 ≠ die then (3, s)
  else match s.parkedBy die w with
    | none => (1, s)
    | some (gid, g) => (0, s.finishGroup gid (match g.stat with | .saved _ _ => { g with ctx := { g.ctx with bound := [] } } | _ => g))

/-- A group-level instruction that reads one g register and writes a status to another. -/
def statusEffect (fn : Iss → State → W64 → Nat × State) (i : Iss) (s : State) : Res :=
  let fs := groupLevel i ++ mustG [i.f.d, i.f.a]
  let pf := gPoisonFaults i [gIndex i.f.a]
  if !fs.isEmpty then .fault s fs
  else if !pf.isEmpty then .fault s pf
  else
    let r := fn i s (s.readG i.g 0 (gIndex i.f.a))
    commitLanes [] (.reg i.f.d 1 1 true false) none false [(0, { words := [BitVec.ofNat 32 r.1] })] i r.2

def execNop (f : Fields) (s : State) : Host.Outcome State Fault Refusal := issue .nop f s fun i s => .done s i.g i.next none
def execBrk (f : Fields) (s : State) : Host.Outcome State Fault Refusal := issue .brk f s brkEffect
def execTrap (f : Fields) (s : State) : Host.Outcome State Fault Refusal := issue .trap f s trapEffect
def execEret (f : Fields) (s : State) : Host.Outcome State Fault Refusal := issue .eret f s eretEffect
def execSrd (f : Fields) (s : State) : Host.Outcome State Fault Refusal := issue .srd f s srdEffect
def execSwr (f : Fields) (s : State) : Host.Outcome State Fault Refusal := issue .swr f s swrEffect
def execWbase (f : Fields) (s : State) : Host.Outcome State Fault Refusal := issue .wbase f s wbaseEffect
def execRls (f : Fields) (s : State) : Host.Outcome State Fault Refusal := issue .rls f s rlsEffect
def execIcsync (f : Fields) (s : State) : Host.Outcome State Fault Refusal := issue .icsync f s icsyncEffect
def execGresume (f : Fields) (s : State) : Host.Outcome State Fault Refusal :=
  issue .gresume f s (statusEffect fun i s w => s.resume (dieOf i.gid) w false)
def execGresumeNext (f : Fields) (s : State) : Host.Outcome State Fault Refusal :=
  issue .gresumeNext f s (statusEffect fun i s w => s.resume (dieOf i.gid) w true)
def execGkill (f : Fields) (s : State) : Host.Outcome State Fault Refusal :=
  issue .gkill f s (statusEffect fun i s w => s.kill (dieOf i.gid) w)

end Sys2Proof.Machine
end

