-- ==== Sys2Proof/Machine/Spawn.lean ====
section
/-! DEFINITION. Slots of a core, spawn pans, the overflow area, SPAWN and IBIS (04 R114 to R117; 06 R168 to R170; 07 R173, R174,
R190 to R194). -/

namespace Sys2Proof.Machine

/-! ### Slots (07 R173, R174) -/

/-- Whether the positions of a group of width w at a slot of a core are free. -/
def State.freePos (s : State) (core slot w : Nat) : Bool :=
  s.groups.all fun e => coreOf e.1 != core || decide (slot + w / 32 ≤ slotOf e.1) || decide (slotOf e.1 + e.2.width / 32 ≤ slot)
/-- The free slots of width w of a quarter, ascending. -/
def State.quarterSlots (s : State) (core q w : Nat) : List Nat :=
  ((List.range 64).map (64 * q + ·)).filter fun k => decide (k % (w / 32) = 0) && s.freePos core k w
/-- Whether a quarter holds a group saved by forced save, which is restored before any group is started there (07 R189). -/
def State.owesRestore (s : State) (u : Nat) : Bool :=
  s.groups.any fun e => unitOf e.1 == u && (match e.2.stat with | .saved _ _ => true | _ => false)
/-- The slot in which a core places a new group of width w: in the quarter with the most free slices, the lowest-numbered of them. -/
def State.slotFor (s : State) (core w : Nat) : Option Nat :=
  let qs := (List.range 4).filter fun q => !(s.quarterSlots core q w).isEmpty && !s.owesRestore (4 * core + q)
  let best := qs.foldl (fun (b : Option Nat) q => match b with
    | none => some q
    | some p => if s.freeSlices (4 * core + p) < s.freeSlices (4 * core + q) then some q else some p) none
  best.bind fun q => (s.quarterSlots core q w).head?
/-- Whether some slot of width w is free in a core. -/
def State.hasSlot (s : State) (core w : Nat) : Bool := (List.range 4).any fun q => !(s.quarterSlots core q w).isEmpty

/-! ### The overflow area (07 R193) -/

/-- An engine access of a group at the point of coherence. -/
def Iss.engine (i : Iss) (s : State) : Who := { i.who s with engine := true }

/-- A word of the area, ready to be read and written, or why the placement cannot go on. -/
def State.areaWord (s : State) (i : Iss) (va : Nat) : Except Res Located :=
  match s.locate i .atomic ⟨0, va % 2 ^ 56, 8⟩ with
  | .walk v => .error (.wait (s.askWalk i.gid i.g [v] false) i.g (.walk [v]))
  | .flt f => .error (.fault s [{ f with lanes := 0 }])
  | .at_ l => match s.ask (i.engine s) .atom .read l with
    | some s1 => .error (.wait s1 i.g .reply)
    | none => .ok l

/-- Searches entries from index k on for n invalid ones, at most fuel of them: the four words of each found. The spec does not say which lanes the record
of a spawn-overflow fault names: the model names none (log 43). -/
def State.areaSearch (s : State) (i : Iss) (base : Nat) : Nat → Nat → Nat → Except Res (List (List Located))
  | 0, _, n => if n = 0 then .ok [] else .error (.fault s [⟨0xD, 1, 0, none, none⟩])
  | fuel + 1, k, n =>
    if n = 0 then .ok []
    else
      let at_ := base + 0x10 + 32 * k
      match s.areaWord i at_ with
      | .error r => .error r
      | .ok l =>
        if (s.performRead (i.engine s) l).v.testBit 63 then s.areaSearch i base fuel (k + 1) n
        else do
          let l1 ← s.areaWord i (at_ + 8)
          let l2 ← s.areaWord i (at_ + 16)
          let l3 ← s.areaWord i (at_ + 24)
          let r ← s.areaSearch i base fuel (k + 1) (n - 1)
          return [l, l1, l2, l3] :: r

/-- The word of a child's entry in the area (07 Table 7.5). -/
def areaWords (entry : Addr) (team : Nat) (c : Child) : List Nat :=
  let a := fun k => (c.getD k 0).toNat
  [2 ^ 63 + c.length * 2 ^ 59 + entry.toNat, team, a 0 + a 1 * 2 ^ 32, a 2 + a 3 * 2 ^ 32]

/-- Places children in the overflow area. Its spawn-overflow fault names no lane (log 43). -/
def State.placeArea (s : State) (i : Iss) (entry : Addr) (cs : List Child) : Except Res State := do
  if i.l.overflowCap < cs.length then throw (.fault s [⟨0xD, 1, 0, none, none⟩])
  let base := i.l.overflowBase.toNat
  let hd ← s.areaWord i base
  let es ← s.areaSearch i base i.l.overflowCap 0 cs.length
  let w := i.engine s
  let h := (s.performRead w hd).v
  let ever := min (bitsOf h 31 0 + cs.length) 0xFFFFFFFF
  let s1 := s.performWrite w hd ((bitsOf h 63 32 + cs.length) % 2 ^ 32 * 2 ^ 32 + ever) false
  let s2 := (es.zip cs).foldl (fun (st : State) e =>
    (e.1.zip (areaWords entry (s.team i.g.team).index e.2)).foldl (fun (st : State) x => st.performWrite w x.1 x.2 false) st) s1
  let t := s2.team i.g.team
  return (s2.setTeam i.g.team { t with spilled := t.spilled + cs.length }).countFor i.gid i.g 0x27 cs.length

/-! ### Pans (07 R190 to R192) -/

/-- Where the children of one instruction go. -/
inductive Spot where
  | pan (k : Nat) (p : Pan)
  | stall (k : Nat)
  | area

/-- The pan that receives n children of a group for an entry, with its present contents. -/
def State.spot (s : State) (i : Iss) (entry : Addr) (args n : Nat) : Spot :=
  let pans := (s.core (coreOf i.gid)).pans
  match tfirst pans fun _ p => decide (p.task = i.g.task ∧ p.team = i.g.team ∧ p.entry = entry) with
  | some (k, p) =>
    if p.children.length + n ≤ Config.panSize then .pan k p
    else if s.hasSlot (coreOf i.gid) i.l.width then .stall k
    else .area
  | none => match tfree pans Config.pansPerCore with
    | some k => .pan k { task := i.g.task, team := i.g.team, entry := entry, args := args, children := [], started := s.clock }
    | none => .area

/-- Places the children of one instruction, in lane order, as one action and a release at .team (04 R115, R116); none places nothing. -/
def State.placeChildren (s : State) (i : Iss) (entry : Addr) (args : Nat) (cs : List Child) : Except Res State :=
  if cs.isEmpty then .ok s
  else match s.releaseOr i.gid i.g 1 with
  | .error (s1, w) => .error (.wait s1 i.g w)
  | .ok s1 => match s1.spot i entry args cs.length with
    | .pan k p =>
      let c := s1.core (coreOf i.gid)
      .ok (s1.setCore (coreOf i.gid) { c with pans := tput c.pans k { p with args := max p.args args, children := p.children ++ cs } })
    | .stall k => .error (.wait s1 i.g (.pan k cs.length))
    | .area => s1.placeArea i entry cs

/-! ### SPAWN -/

/-- A run of n argument registers (06 Table 6.8, code 0x000F). -/
def argFaults (i : Iss) (fld : BitVec 7) (n : Nat) : List Flt :=
  if n = 0 then [] else match regOf fld with
    | .v k => vecFaults i k n 1
    | .g _ => [⟨3, 0xF, 0, none, none⟩]
    | .q _ => [⟨3, 6, 0, none, none⟩]
/-- The faults of an entry address in a g register: its poison, which is an address's, and its value (01 R31, 04 R114). -/
def entryFaults (i : Iss) (fld : BitVec 7) (v : W64) : List Flt :=
  match regOf fld with
  | .g n => gPoisonFaults i [] [n] ++ targetFaults v
  | _ => []
/-- The argument registers as a source. -/
def argSrcs (fld : BitVec 7) (n : Nat) : List Src := if n = 0 then [] else [{ fld := fld, n := n, gOk := false }]

/-- SPAWN (04 R114 to R117). The checks of the entry address and of its poison are made whether or not a lane executes, as those of operand fields
are: the spec does not say (log 18). -/
def spawnEffect (i : Iss) (s : State) : Res :=
  let n := i.mb 13 11
  let srcs := argSrcs i.f.b n
  let v := s.readG i.g 0 (gIndex i.f.a)
  let fs := mustG [i.f.a] ++ argFaults i i.f.b n
  let es := entryFaults i i.f.a v ++ poisonFaults i i.list srcs
  if !(fs ++ es).isEmpty then .fault s (fs ++ es)
  else
    let cs := i.list.map fun l => (s.operands i 0 l srcs).flatten
    match s.placeChildren i (v.setWidth 56) n cs with
    | .error r => r
    | .ok s1 => .done s1 (i.g.free (freedNames i srcs)) i.next none

/-! ### IBIS -/

/-- One lane of IBIS (06 R169): the interval kept, and the one given when it splits. -/
def ibisLane (f : Fmt) (hi : Bool) (a : Option Iv) : List Nat × Option (List Nat) :=
  match a with
  | none => (emptyCodes f, none)
  | some x =>
    let m := imidOf f x
    if x.lo.lt m && m.lt x.hi then
      let lower := ivCodes f ⟨x.lo, m⟩
      let upper := ivCodes f ⟨m, x.hi⟩
      if hi then (upper, some lower) else (lower, some upper)
    else (ivCodes f x, none)

/-- IBIS (06 R168 to R170). As for SPAWN, the value and the poison of gb are judged also when no lane executes or none splits, and the record of their
fault names no lane: the spec says neither (log 18, 43). -/
def ibisEffect (i : Iss) (s : State) : Res :=
  let f := i.ty.fmt
  let n := i.mb 8 7
  let ps := i.mb 2 0
  let a := xsrc i.f.a f 2
  let extra := argSrcs i.f.c n
  let srcs := a :: extra
  let d := xdst i.f.d f 2
  let v := s.readG i.g 1 (gIndex i.f.b)
  let fs := operandFaults i [a] d ++ mustG [i.f.b] ++ argFaults i i.f.c n ++ queueTwice [i.f.a, i.f.b, i.f.c]
  let es := entryFaults i i.f.b v ++ poisonFaults i i.list srcs
  if !(fs ++ es).isEmpty then .fault s (fs ++ es)
  else
    let outs := i.list.map fun l =>
      let ops := s.operands i 0 l srcs
      (l, ibisLane f (i.mbit 6) (ivOpn f ops 0), opn ops 1)
    let cs := outs.filterMap fun o => o.2.1.2.map fun give => xwrite f give ++ o.2.2.take n
    let rs := outs.map fun o => (o.1, ({ words := xwrite f o.2.1.1 } : LaneRes))
    match commitLanes srcs d (some 8) false rs i s with
    | .done s1 g1 pc out =>
      match s1.placeChildren i (v.setWidth 56) (xregs f 2 + n) cs with
      | .error r => r
      | .ok s2 =>
        let g2 := { g1 with ctx := outs.foldl (fun c o => c.predSet ps o.1 (s.mergeP g1 ps o.1 (predOf o.2.1.2.isSome))) g1.ctx }
        let lanes := maskOf i.list
        .done s2 g2 pc (out.map fun o => { o with preds := if ps = 0 ∨ i.list.isEmpty then [] else [(ps, lanes)] })
    | r => r

def execSpawn (f : Fields) (s : State) : Host.Outcome State Fault Refusal := memIssue .spawn f s spawnEffect
def execIbis (f : Fields) (s : State) : Host.Outcome State Fault Refusal := memIssue .ibis f s ibisEffect

end Sys2Proof.Machine
end

