-- ==== Sys2Proof/Machine/Walk.lean ====
section
/-! DEFINITION. The space table and the range directories, a walk, the translation of engines, and the loads by which instructions
read an image, a descriptor or a block (13 R333 to R338; 10 R276; 08 R456). -/

namespace Sys2Proof.Machine

/-! ### Structures in memory at target addresses (13 R333, R336) -/

/-- The number by which a walker or a RANGE instruction asks another package for a dword, in a generation of the directory: none of its virtual
addresses, and another in each generation. -/
def walkKey (gen t : Nat) : Nat := 2 ^ 62 * (1 + gen) + t
/-- A .plain read at .pkg of n dwords of one sector at a target address: the state after, and the dwords with whether they are spoilt; or none,
once they are asked for. What no memory backs, or what is out of reach, reads as spoilt. -/
def State.readWords (s : State) (w : Who) (gen t n : Nat) : State × Option (List Nat × Bool) :=
  if !(s.backCodes t).isEmpty then (s, some (List.replicate n 0, true))
  else match s.placeOf t with
  | .hbm a =>
    if s.snoopNeeded .read a then (s.sendSnoop w .read a, none)
    else
      let r := s.readSlice (dieOf w.gid) 0 a (8 * n)
      (r.1, some ((List.range n).map fun k => ofBytes ((r.2.1.drop (8 * k)).take 8), r.2.2.any (· ≠ 0)))
  | .host h =>
    if s.linked (dieOf w.gid) (homeDie h) && s.hostNeeded .read h then (s.sendHost w .read h, none)
    else
      let r := (List.range n).map fun k => s.readHost w (h + 8 * k) 8
      ((s.readHost w h 8).s, some (r.map (·.v), r.any fun g => g.bad ≠ 0))
  | .fabric pkg a =>
    match s.askEach (List.range n) fun st k => st.askWord w false pkg (a + 8 * k) 8 (walkKey gen (t + 8 * k)) .read with
    | some s1 => (s1, none)
    | none =>
      let r := (List.range n).filterMap fun k => s.reply w.who (walkKey gen (t + 8 * k))
      (s, some (r.map (·.v.toNat), r.any fun x => x.bad ≠ 0))
  | _ => (s, some (List.replicate n 0, true))

/-! ### Directories (13 R333, R334) -/

/-- A table entry: whether it is valid, the directory base, generation, count. -/
structure Space where
  valid : Bool
  dir   : Nat
  gen   : Nat
  count : Nat
  bad   : Bool := false
/-- A table entry from its dwords; a die that is not configured has no table. -/
def State.spaceOf (s : State) (d : Nat) (ws : List Nat) (bad : Bool) : Space :=
  let w0 := ws.getD 0 0
  let w1 := ws.getD 1 0
  ⟨w0.testBit 63 && !(s.die d).config.isEmpty, bitsOf w0 55 0, bitsOf w1 63 32, bitsOf w1 16 0, bad⟩
/-- A record from its dwords. -/
def RangeRec.ofWords (ws : List Nat) : RangeRec :=
  let w := fun k => BitVec.ofNat 64 (ws.getD k 0)
  ⟨w 0, w 1, w 2, w 3⟩

/-! ### A walk (13 R336, R338) -/

/-- What a walk comes to: a result, a directory that is being changed, or words that it has asked for: 0 for the entry, else the generation in which
it asks for a record, plus 1. -/
inductive Walked where
  | done (r : WalkResult)
  | odd
  | asked (gen : Nat)

/-- The binary search for va among records lo to hi − 1. -/
def State.search (w : Who) (sp : Space) (va : Nat) : Nat → Nat → Nat → State → State × Walked
  | 0, _, _, s => (s, .done (.miss 1 (BitVec.ofNat 56 va)))
  | fuel + 1, lo, hi, s =>
    if hi ≤ lo then (s, .done (.miss 1 (BitVec.ofNat 56 va)))
    else
      let mid := (lo + hi) / 2
      match s.readWords w sp.gen (sp.dir + 32 * mid) 4 with
      | (s1, none) => (s1, .asked (sp.gen + 1))
      | (s1, some (ws, bad)) =>
        let r := RangeRec.ofWords ws
        if bad then (s1, .done (.miss 3 (BitVec.ofNat 56 va)))
        else if !r.ok then (s1, .done (.miss 4 (BitVec.ofNat 56 va)))
        else if va < r.base then search w sp va fuel lo mid s1
        else if r.limit ≤ va then search w sp va fuel (mid + 1) hi s1
        else (s1, .done (.found { image := r, index := mid, gen := sp.gen }))
/-- Walks an address space at va for a requester. A walk whose words are all at hand reads the entry and the records in one step, so its second read
of the generation gives the first. -/
def State.walk (s : State) (w : Who) (d asid va : Nat) : State × Walked :=
  match s.readWords w 0 (s.spaceEntry d asid) 2 with
  | (s1, none) => (s1, .asked 0)
  | (s1, some (ws, bad)) =>
    let sp := s.spaceOf d ws bad
    if sp.bad then (s1, .done (.miss 3 (BitVec.ofNat 56 va)))
    else if !sp.valid then (s1, .done (.miss 2 (BitVec.ofNat 56 va)))
    else if sp.gen % 2 = 1 then (s1, .odd)
    else s1.search w sp va 18 0 sp.count

/-! ### The walker and the range cache (13 R332, R337) -/

/-- The number by which a cluster's walker asks other agents, and the walker as a requester. -/
def walkWho (cl : Nat) : Nat := 2 ^ 43 + cl
def walker (cl : Nat) : Who := { who := walkWho cl, gid := 1024 * cl, team := 0, asid := 0, ctx := 0, part := 0, engine := true }
/-- The entry of a cluster's range cache that covers va. -/
def ClusterSt.cached (c : ClusterSt) (asid va : Nat) : Option RangeEntry :=
  (c.cache.find? fun e => e.1 == asid && e.2.image.covers va).map (·.2)
/-- Puts a record into a cluster's range cache, as the most recently used. -/
def ClusterSt.keep (c : ClusterSt) (asid : Nat) (e : RangeEntry) : ClusterSt :=
  { c with cache := ((asid, e) :: c.cache.filter fun x => !(x.1 = asid ∧ x.2.image.base = e.image.base)).take Config.rangeCacheSize }

/-- The generation of an address space's directory as a requester that need not ask for it reads it. -/
def State.generation (s : State) (w : Who) (d asid : Nat) : Option Nat :=
  (s.readWords w 0 (s.spaceEntry d asid) 2).2.map fun x => (s.spaceOf d x.1 x.2).gen
/-- The answer that the walker has given to an engine for an address. -/
def CoreSt.answer (c : CoreSt) (w : Who) (va : Nat) : Option WalkResult :=
  (c.answers.find? fun a => a.1 == w.who && a.2.asid == w.asid && (match a.2.res with
    | .found e => e.image.covers va
    | .miss _ _ => decide (a.2.va = va))).map (·.2.res)
/-- An engine that misses its core's table asks the walker, like a group, unless the answer is here or on its way (10 R276; 13 R332). -/
def State.bring (s : State) (w : Who) (core va : Nat) : State :=
  let cl := core / 4
  let c := s.cluster cl
  let same := fun (r : WalkReq) => r.gid == some w.who && r.asid == w.asid && r.va == va
  if ((s.core core).find w.asid va).isSome || ((s.core core).answer w va).isSome || c.queue.any same || c.results.any (fun r => same r.1) then s
  else (s.setCluster cl { c with queue := c.queue ++ [{ gid := some w.who, core := core, asid := w.asid, va := va, ra := false, ctx := w.ctx }] }).countCtx
    w.ctx (core / 16) (core % 16) 0x21 1
/-- Translation for an engine at a core: by the core's table, or the answer of a walk; else a walk to wait for. -/
def State.xlatCore (s : State) (w : Who) (core : Nat) (a : Acc) (n va : Nat) : Xlat :=
  match (s.core core).find w.asid va with
  | some e => s.through e w.ctx a n va
  | none => match (s.core core).answer w va with
    | some (.found e) => s.through e w.ctx a n va
    | some (.miss c _) => .fault 5 c none
    | none => .walk

/-! ### Images read by instructions (08 R456) -/

/-- Reads n dwords at va with 8-byte loads, as LD; a word that returns poisoned faults with code 0x0009. -/
def loadImage (n va : Nat) (i : Iss) (s : State) (k : List W64 → State → Res) : Res :=
  acquired i s fun s =>
  let xs := (List.range n).map fun j => (⟨0, (va + 8 * j) % 2 ^ 56, 8⟩ : Access)
  match memoryStage .read xs [] i s (fun ls s1 =>
    let w := i.who s1
    match s1.askAll w .read (ls.map fun l => (l, .read)) with
    | some s2 => .wait s2 i.g (askedWait ls .read)
    | none =>
      let (s2, rd) := s1.readAll w ls
      let bad := rd.filter fun r => r.2.2 ≠ 0
      match bad with
      | [] => k (rd.map fun r => BitVec.ofNat 64 r.2.1) s2
      | _ => .fault s (bad.map fun r => ⟨8, if r.2.2 = 5 then 5 else 9, 0, some r.1.x.va, none⟩)) with
  | .fault s1 fs => .fault s1 (fs.map fun f => { f with lanes := 0 })
  | r => r

end Sys2Proof.Machine
end

