-- ==== Sys2Proof/Machine/Layout.lean ====
section
/-! DEFINITION. Layout words and tensor images: where an element of local memory or of a tensor lies (08 R207, R208; 09 R259, R260). -/

namespace Sys2Proof.Machine

/-! ### Layout words (08 R207, R208) -/

/-- A layout word: bits [31:0] of three g registers. -/
structure Lay where
  w0 : Nat
  w1 : Nat
  w2 : Nat
  deriving DecidableEq, Repr

namespace Lay
def ofRegs (v : List W64) : Lay := ⟨bits (v.getD 0 0) 31 0, bits (v.getD 1 0) 31 0, bits (v.getD 2 0) 31 0⟩
def code (l : Lay) : Nat := bitsOf l.w0 26 24
def mode (l : Lay) : Nat := bitsOf l.w0 23 20
def base (l : Lay) : Nat := bitsOf l.w0 19 0
def stride0 (l : Lay) : Nat := bitsOf l.w1 15 0
def stride1 (l : Lay) : Nat := bitsOf l.w1 31 16
def stride2 (l : Lay) : Nat := bitsOf l.w2 15 0
/-- Bits of an element. -/
def eltBits (l : Lay) : Nat := [4, 8, 16, 32, 64].getD l.code 4
def ok (l : Lay) : Bool :=
  bitsOf l.w0 31 27 == 0 && decide (l.code ≤ 4) && decide (l.mode ≤ 4) && l.base % 16 == 0 && bitsOf l.w2 31 16 == 0
/-- Physical offset of the element's first byte. -/
def at_ (l : Lay) (i j k m : Nat) : Nat :=
  let o := l.base + i * l.eltBits / 8 + 16 * (j * l.stride0 + k * l.stride1 + m * l.stride2)
  if l.mode = 0 then o else o ^^^ ((o / 256) % 2 ^ l.mode * 16)
end Lay

/-! ### Tensor images (09 Table 9.8, R260) -/

/-- A tensor's image: eight dwords. -/
abbrev Tensor := List W64

namespace Tensor
def dw (t : Tensor) (k hi lo : Nat) : Nat := bits (List.getD t k 0) hi lo
def ty (t : Tensor) : Nat := t.dw 0 60 56
def swizzle (t : Tensor) : Nat := t.dw 1 63 60
def table (t : Tensor) : Nat := t.dw 1 59 58
def dim (t : Tensor) (n : Nat) : Nat := t.dw 2 (16 * n + 15) (16 * n) + 1
def dims (t : Tensor) : List Nat := (List.range 4).map t.dim
/-- Strides 1 to 3 in bytes. -/
def stride (t : Tensor) (n : Nat) : Nat := 16 * (if n = 1 then t.dw 3 31 0 else if n = 2 then t.dw 3 63 32 else t.dw 4 31 0)
def scaleBase (t : Tensor) : Nat := t.dw 5 55 0
def splitOff (t : Tensor) : Nat := t.dw 6 55 0
def step (t : Tensor) : Nat := t.dw 7 63 32
def mx (t : Tensor) : Bool := t.dw 7 3 3 == 1
def split (t : Tensor) : Bool := t.dw 7 2 2 == 1
def double (t : Tensor) : Bool := t.dw 7 1 1 == 1
def parity (t : Tensor) : Nat := t.dw 7 0 0
/-- Bits of an element as it lies in memory. -/
def eltBits (t : Tensor) : Nat :=
  match t.ty with
  | 2 | 6 | 13 | 14 => 8
  | 3 | 7 | 11 | 12 => 16
  | 4 | 8 | 10 => 32
  | 15 | 16 => 4
  | 17 => if t.split then 32 else 64
  | _ => 64
/-- The base of the current buffer, or of the opposite one. -/
def base (t : Tensor) (opposite : Bool) : Nat := t.dw (if opposite then 1 - t.parity else t.parity) 55 0
/-- addr(e) in the current or the opposite buffer. -/
def addr (t : Tensor) (opposite : Bool) (e : Nat × Nat × Nat × Nat) : Nat :=
  (t.base opposite + e.1 * t.eltBits / 8 + (t.stride 1 * e.2.1 + t.stride 2 * e.2.2.1 + t.stride 3 * e.2.2.2)) % 2 ^ 56
/-- The linear index n(e). -/
def index (t : Tensor) (e : Nat × Nat × Nat × Nat) : Nat := e.1 + t.dim 0 * (e.2.1 + t.dim 1 * (e.2.2.1 + t.dim 2 * e.2.2.2))
/-- Address of component 1 of an .f32.x2 element. -/
def second (t : Tensor) (opposite : Bool) (e : Nat × Nat × Nat × Nat) : Nat :=
  (t.addr opposite e + (if t.split then t.splitOff else 4)) % 2 ^ 56
/-- Address of the scale of an element of an MX tensor. -/
def scaleAt (t : Tensor) (e : Nat × Nat × Nat × Nat) : Nat := (t.scaleBase + t.index e / 32) % 2 ^ 56
def inside (t : Tensor) (e : Nat × Nat × Nat × Nat) : Bool :=
  decide (e.1 < t.dim 0) && decide (e.2.1 < t.dim 1) && decide (e.2.2.1 < t.dim 2) && decide (e.2.2.2 < t.dim 3)

/-! TDEF's checks (09 Table 9.10), each code's own condition. -/
def resvOk (t : Tensor) : Bool :=
  t.dw 0 63 61 == 0 && t.dw 1 57 56 == 0 && (t.ty == 16 || t.table == 0) && (t.double || t.dw 1 55 0 == 0) && t.dw 4 63 32 == 0 &&
  t.dw 5 63 56 == 0 && (t.mx || t.scaleBase == 0) && t.dw 6 63 56 == 0 && (t.split || t.splitOff == 0) && t.dw 7 31 4 == 0 &&
  (t.double || t.parity == 0)
def alignOk (t : Tensor) : Bool := t.dw 0 55 0 % 16 == 0 && t.dw 1 55 0 % 16 == 0 && t.scaleBase % 16 == 0 && t.splitOff % 16 == 0
/-- Byte extent of the dimensions 0 to n. -/
def extent (t : Tensor) : Nat → Nat
  | 0 => (t.dim 0 * t.eltBits + 7) / 8
  | n + 1 => t.extent n + t.stride (n + 1) * (t.dim (n + 1) - 1)
def geometryOk (t : Tensor) : Bool :=
  ((List.range 3).all fun n => t.dim (n + 1) == 1 || decide (t.extent n ≤ t.stride (n + 1))) &&
  decide (t.dim 0 * t.dim 1 * t.dim 2 * t.dim 3 ≤ 2 ^ 32) && (!t.mx || t.dim 0 % 32 == 0) && (t.eltBits != 4 || t.dim 0 % 2 == 0)
def flagsOk (t : Tensor) : Bool :=
  (!t.double || t.ty == 10 || t.ty == 12 || t.ty == 17) && (!t.split || t.ty == 17) && (!t.mx || (13 ≤ t.ty && t.ty ≤ 15)) &&
  decide (t.swizzle ≤ 4)
end Tensor

end Sys2Proof.Machine
end

