-- ==== Sys2Proof/Machine/Matrix.lean ====
section
/-! DEFINITION. The matrix units: reservation, the operation queue, the operands and passes of MMA, the transfers, MDRAIN's arithmetic
(09 R239 to R257, R266 to R272; 02 R56 to R58, R61). -/

namespace Sys2Proof.Machine

/-! ### Register operands (09 R242) -/

/-- A field that must name g0 to g(top): illegal operand 0x0013. -/
def mxReg (fld : BitVec 7) (top : Nat) : List Flt :=
  match regOf fld with
  | .g n => if n ≤ top then [] else [⟨3, 0x13, 0, none, none⟩]
  | _ => [⟨3, 0x13, 0, none, none⟩]
/-- n consecutive g registers from a field on, each read as operand k. -/
def State.readGs (s : State) (i : Iss) (k : Nat) (fld : BitVec 7) (n : Nat) : List W64 :=
  (List.range n).map fun j => s.readG i.g k (gIndex fld + j)
def gNames (fld : BitVec 7) (n : Nat) : List Nat := (List.range n).map (gIndex fld + ·)
/-- The unit of the issuing group's quarter is not held by its team (09 R243). -/
def notHeld (i : Iss) (s : State) : List Flt :=
  if (s.unit (unitOf i.gid)).holder = some i.g.team then [] else [⟨0x0E, 1, 0, none, none⟩]
/-- Writes a value to every lane of a status predicate, whatever AM holds. -/
def statusPred (i : Iss) (s : State) (g : Group) (p : Nat) (v : Bool) : Group :=
  { g with ctx := (List.range i.width).foldl (fun c l => c.predSet p l (s.mergeP g p l (predOf v))) g.ctx }
def predOut (i : Iss) (s : State) (p : Nat) (gs : List Nat) : Option Outst :=
  if p = 0 ∧ gs.isEmpty then none
  else some { fixed := none, seq := i.g.issued, time := s.clock, load := false, regs := [], gs := gs,
              preds := if p = 0 then [] else [(p, onesMask i.width)], flags := 0 }

/-! ### Reservation (09 R240, R241) -/

/-- Empties q0 and q1 and frees the unit. -/
def UnitSt.release (u : UnitSt) : UnitSt := { u with holder := none, q0 := [], q0lost := false, q1 := [] }
/-- The unit after clearing itself for a team. -/
def UnitSt.cleared (u : UnitSt) (team : Nat) : UnitSt :=
  { u with holder := some team, lastHolder := some team, acc := [], accPoison := [], bslice := [], bPoison := [],
           q0 := [], q0lost := false, q1 := [], seq := 0, clearing := none, past := [] }
/-- The quarters whose units a copy's endpoints name (15 Table 15.2). -/
def Copy.units (c : Copy) : List Nat :=
  let ep := fun (kind p0 : Nat) => if kind = 3 then [bits (c.block.getD p0 0) 23 22] else if kind = 4 then [bits (c.block.getD p0 0) 6 5] else []
  ep (bits (c.block.getD 0 0) 63 60) 2 ++ ep (bits (c.block.getD 0 0) 59 56) 5
/-- Releases a unit: a copy of the team that names it ends with status 3 (09 R241, 15 R370). -/
def State.releaseUnit (s : State) (k : Nat) : State :=
  let u := s.unit k
  let d := s.die (k / 64)
  let hit := fun (c : Copy) => some c.team == u.holder && c.core == k / 4 && c.units.contains (k % 4) && c.ending.isNone
  (s.setUnit k u.release).setDie (k / 64) { d with copies := d.copies.map fun c => if hit c then { c with ending := some 3 } else c }

/-- What MRES and the others wait for: the kinds of Wait.unit. -/
def uFree : Nat := 0
def uClear : Nat := 1
def uRelease : Nat := 2
def uMwait : Nat := 3
def uRoom : Nat := 4
def uWords : Nat := 5

/-- MRES (09 R240). -/
def mresEffect (i : Iss) (s : State) : Res :=
  if !(groupLevel i).isEmpty then .fault s (groupLevel i)
  else
    let k := unitOf i.gid
    let u := s.unit k
    let ps := i.mb 2 0
    let finish := fun (s : State) (v : Bool) => Res.done s (statusPred i s i.g ps v) i.next (predOut i s ps [])
    if u.holder = some i.g.team then finish s true
    else match u.holder, u.clearing with
      | none, none =>
        if u.lastHolder = some i.g.team then finish (s.setUnit k { u with holder := some i.g.team }) true
        else .wait (s.setUnit k { u with clearing := some i.g.team }) i.g (.unit uClear 0)
      | none, some t => if t = i.g.team then .wait s i.g (.unit uClear 0) else if i.mbit 3 then .wait s i.g (.unit uFree 0) else finish s false
      | some _, _ => if i.mbit 3 then .wait s i.g (.unit uFree 0) else finish s false

/-- MREL (09 R241). -/
def mrelEffect (i : Iss) (s : State) : Res :=
  if !(groupLevel i).isEmpty then .fault s (groupLevel i)
  else
    let k := unitOf i.gid
    let u := s.unit k
    if u.holder ≠ some i.g.team then .done s i.g i.next none
    else if u.ops.any fun o => o.team = i.g.team then .wait s i.g (.unit uRelease 0)
    else .done (s.releaseUnit k) i.g i.next none

/-- MWAIT n (09 R253). -/
def mwaitEffect (i : Iss) (s : State) : Res :=
  if !(groupLevel i).isEmpty then .fault s (groupLevel i)
  else
    let n := i.mb 5 0
    if n < ((s.unit (unitOf i.gid)).ops.filter fun o => o.gid = i.gid ∧ !o.ended).length then .wait s i.g (.unit uMwait n)
    else .done s i.g i.next none

/-- MFENCE (09 R256). -/
def mfenceEffect (i : Iss) (s : State) : Res :=
  if !(groupLevel i).isEmpty then .fault s (groupLevel i)
  else if s.storing i.gid then .wait s i.g .aperture
  else .done s { i.g with fenced := s.clock } i.next none

/-! ### The operation queue (09 R249 to R251) -/

/-- The occupancy still to run. -/
def UnitSt.occupied (u : UnitSt) : Nat := (u.ops.filter fun o => !o.executed).foldl (fun n o => n + o.occ) 0
/-- The descriptor of a new operation. -/
def newOp (i : Iss) (s : State) (occ : Nat) (args : List W64) (gs : List Nat) : MatOp :=
  { seq := (s.unit (unitOf i.gid)).seq, issued := s.clock, fence := i.g.fenced, occ := occ, side := s.ownSide i.gid i.g.team, gid := i.gid,
    team := i.g.team, o := i.o, f := i.f, args := args, gs := gs }
/-- Enters an operation in the unit's queue when its occupancy fits. -/
def accept (i : Iss) (s : State) (op : MatOp) (change : UnitSt → UnitSt := id) : Res :=
  let k := unitOf i.gid
  let u := s.unit k
  if 4096 < u.occupied + op.occ then .wait s i.g (.unit uRoom op.occ)
  else .done (s.setUnit k (change { u with ops := u.ops ++ [op], seq := u.seq + 1 })) i.g i.next none

/-! ### MMA (09 R244 to R248) -/

/-- An MMA form: element formats, none for CB4; pass depth; MX. -/
structure Form where
  a : Option Fmt
  b : Fmt
  depth : Nat
  mx : Bool := false
def forms : List Form :=
  [ ⟨some .e4m3, .e4m3, 4, false⟩, ⟨some .e4m3, .e5m2, 4, false⟩, ⟨some .e5m2, .e4m3, 4, false⟩, ⟨some .e5m2, .e5m2, 4, false⟩,
    ⟨some .e2m1, .e2m1, 8, false⟩, ⟨some .bf16, .bf16, 2, false⟩, ⟨some .f16, .f16, 2, false⟩, ⟨none, .bf16, 2, false⟩,
    ⟨some .e4m3, .e4m3, 4, true⟩, ⟨some .e4m3, .e5m2, 4, true⟩, ⟨some .e5m2, .e4m3, 4, true⟩, ⟨some .e5m2, .e5m2, 4, true⟩,
    ⟨some .e2m1, .e2m1, 8, true⟩ ]
def formOf (f : Fields) : Form := forms.getD (bitsOf f.mod.toNat 13 10) ⟨none, .bf16, 2, false⟩
def Form.aBits (f : Form) : Nat := match f.a with | some t => t.width | none => 4
def Form.bBits (f : Form) : Nat := f.b.width

/-- An MMA as its operands give it. -/
structure Mma where
  form : Form
  col  : Bool
  res  : Bool
  fromQ : Bool
  d    : Nat
  c    : Nat
  lay  : Lay
  bword : Nat
  sword : Nat
namespace Mma
def ofArgs (f : Fields) (args : List W64) : Mma :=
  { form := formOf f, col := bitOf f.mod.toNat 9, res := bitOf f.mod.toNat 8, fromQ := f.a == 125, d := bitsOf f.d.toNat 4 0,
    c := bitsOf f.c.toNat 4 0, lay := Lay.ofRegs args, bword := (args.getD 3 0).toNat, sword := (args.getD 4 0).toNat }
def k (m : Mma) : Nat := bitsOf m.bword 47 32
def boff (m : Mma) : Nat := bitsOf m.bword 21 0
def bsoff (m : Mma) : Nat := bitsOf m.sword 53 32
def asoff (m : Mma) : Nat := bitsOf m.sword 19 0
def passes (m : Mma) : Nat := m.k / m.form.depth
/-- Scratchpad offset of the byte of A(i, k). -/
def aAt (m : Mma) (i k : Nat) : Nat := if m.col then m.lay.at_ i k 0 0 else m.lay.at_ k i 0 0
/-- Scratchpad offset of the scale of A(i, k). -/
def aScale (m : Mma) (i k : Nat) : Nat := m.asoff + i * (m.k / 32) + k / 32
end Mma

/-- The largest number of distinct words that one bank supplies (09 Table 9.5). -/
def bankMax (words : List Nat) : Nat :=
  let ws := words.eraseDups
  (List.range 64).foldl (fun n b => max n (ws.filter fun w => w % 64 == b).length) 0
/-- The words of the A scales that the 32-deep block beginning at k needs. -/
def Mma.scaleWords (m : Mma) (k : Nat) : List Nat := (List.range 64).map fun i => m.aScale i k / 4
/-- Occupancy (09 R250, Table 9.5). -/
def Mma.occupancy (m : Mma) : Nat :=
  let d := m.form.depth
  if m.col || m.fromQ then
    m.passes + (if m.form.mx then (List.range (m.k / 32)).foldl (fun n b => n + bankMax (m.scaleWords (32 * b))) 0 else 0)
  else (List.range m.passes).foldl (fun n q =>
    let words := (List.range 64).flatMap fun i => (List.range d).map fun j => m.aAt i (d * q + j) / 4
    n + max 1 (bankMax (words ++ (if m.form.mx && d * q % 32 == 0 then m.scaleWords (d * q) else [])))) 0

/-- K is allowed and the passes alone do not pass the unit's limit. -/
def Mma.kOk (m : Mma) : Bool :=
  decide (m.form.depth ≤ m.k) && m.k % m.form.depth == 0 && (!m.form.mx || m.k % 32 == 0) && decide (m.passes ≤ 4096)
/-- The operand-format codes that apply to an MMA, ascending (09 R247). -/
def Mma.formatCodes (m : Mma) (size : Nat) : List Nat :=
  let layOk := m.fromQ || m.lay.ok
  if !layOk then [1]
  else if !m.kOk || decide (4096 < m.occupancy) then [2]
  else
    (if !m.fromQ && m.lay.eltBits != m.form.aBits then [3] else []) ++
    (if m.col && (m.fromQ || m.form.depth * 64 * m.form.aBits != 2048 || 16 * m.lay.stride0 * 8 != 64 * m.form.aBits || m.lay.base % 256 != 0)
      then [4] else []) ++
    (if (!m.fromQ && (List.range m.k).any fun k => (List.range 64).any fun i =>
          decide (size < m.aAt i k + max 1 (m.lay.eltBits / 8))) || (m.form.mx && decide (size < m.asoff + 64 * (m.k / 32)))
      then [5] else []) ++
    (if bitsOf m.bword 63 48 != 0 || bitsOf m.bword 31 22 != 0 || m.boff % 256 != 0 || decide (2 ^ 22 < m.boff + (48 * m.k * m.form.bBits + 7) / 8) ||
        (m.form.mx && (bitsOf m.sword 63 54 != 0 || bitsOf m.sword 31 20 != 0 || m.bsoff % 16 != 0 || m.asoff % 16 != 0 ||
          decide (2 ^ 22 < m.bsoff + 48 * (m.k / 32))))
      then [6] else []) ++
    (if m.fromQ && (m.form.a.isNone || decide (16 < m.passes)) then [7] else [])

/-- A team's code table on a side. -/
def Team.code (t : Team) (side n : Nat) : List (BitVec 16) := (List.range 16).map fun e => tget 0 t.codes (64 * side + 16 * n + e)

/-- MMA. -/
def mmaEffect (i : Iss) (s : State) : Res :=
  let fromQ := i.f.a == 125
  let form := formOf i.f
  let res := i.mbit 8
  let nb := if form.mx then 2 else 1
  let fs := groupLevel i ++ (if fromQ then [] else mxReg i.f.a 9) ++ mxReg i.f.b (if form.mx then 10 else 11) ++ queueTwice [i.f.a, i.f.b] ++
    (if res && bitsOf i.f.c.toNat 4 0 == bitsOf i.f.d.toNat 4 0 then [⟨3, 0x14, 0, none, none⟩] else [])
  if !fs.isEmpty then .fault s fs
  else
    let gs := (if fromQ then [] else gNames i.f.a 3) ++ gNames i.f.b nb
    let pf := gPoisonFaults i gs
    if !pf.isEmpty then .fault s pf
    else
      let args := (if fromQ then [0, 0, 0] else s.readGs i 0 i.f.a 3) ++ s.readGs i 1 i.f.b nb
      let m := Mma.ofArgs i.f args
      let fs := (m.formatCodes (s.scratchSize i.g.team)).map (fun c => (⟨0xC, c, 0, none, none⟩ : Flt)) ++ notHeld i s
      if !fs.isEmpty then .fault s fs
      else
        let u := s.unit (unitOf i.gid)
        let need := if fromQ then 64 * m.passes else 0
        if u.q1.length < need then .wait s i.g (.unit uWords need)
        else
          let codes := if form.a.isNone then (s.team i.g.team).code (s.ownSide i.gid i.g.team) (i.mb 7 6) else []
          accept i s { newOp i s m.occupancy args gs with words := u.q1.take need, codes := codes } fun u => { u with q1 := u.q1.drop need }

/-! ### The transfers (09 R257) -/

/-- A local word: its offset, or none where it is invalid for n bytes. -/
def localWord (v : W64) (n size : Nat) : Option Nat :=
  let off := bits v 19 0
  if bits v 63 20 = 0 ∧ off % 16 = 0 ∧ off + n ≤ size then some off else none

/-- MZERO. -/
def mzeroEffect (i : Iss) (s : State) : Res :=
  let fs := groupLevel i ++ notHeld i s
  if !fs.isEmpty then .fault s fs else accept i s (newOp i s (i.mb 4 0 + 1) [] [])

/-- MLDA and MSTA: a local word and n bytes. -/
def localEffect (n occ : Nat) (i : Iss) (s : State) : Res :=
  let fs := groupLevel i ++ mxReg i.f.a 11
  if !fs.isEmpty then .fault s fs
  else
    let pf := gPoisonFaults i [gIndex i.f.a]
    if !pf.isEmpty then .fault s pf
    else
      let v := s.readG i.g 0 (gIndex i.f.a)
      let fs := (if (localWord v n (s.scratchSize i.g.team)).isNone then [⟨0xC, 8, 0, none, none⟩] else []) ++ notHeld i s
      if !fs.isEmpty then .fault s fs else accept i s (newOp i s occ [v] [gIndex i.f.a])
def mldaEffect (i : Iss) (s : State) : Res := localEffect 12288 48 i s
def mstaEffect (i : Iss) (s : State) : Res :=
  if i.f.tyCode i.o = 10 then localEffect 12288 48 i s else localEffect 6144 24 i s

/-- MLDB. -/
def mldbEffect (i : Iss) (s : State) : Res :=
  let fs := groupLevel i ++ mxReg i.f.a 11 ++ mxReg i.f.c 11 ++ queueTwice [i.f.a, i.f.c]
  if !fs.isEmpty then .fault s fs
  else
    let pf := gPoisonFaults i [gIndex i.f.a, gIndex i.f.c]
    if !pf.isEmpty then .fault s pf
    else
      let v := s.readG i.g 0 (gIndex i.f.a)
      let b := s.readG i.g 1 (gIndex i.f.c)
      let n := bits b 52 32
      let bad := (localWord v n (s.scratchSize i.g.team)).isNone || bits b 63 53 != 0 || bits b 31 22 != 0 || n % 256 != 0 || n == 0 ||
        decide (0x100000 < n) || bits b 21 0 % 256 != 0 || decide (2 ^ 22 < bits b 21 0 + n)
      let fs := (if bad then [⟨0xC, 8, 0, none, none⟩] else []) ++ notHeld i s
      if !fs.isEmpty then .fault s fs else accept i s (newOp i s (n / 256) [v, b] [gIndex i.f.a, gIndex i.f.c])

/-! ### Reading operands as an operation runs (09 R246, R255, R256) -/

/-- Which of the values a byte or an element has held an operation reads: the newest that its unit wrote or that the group's last MFENCE follows, or
one written after it, by a free choice (09 R256); and whether another agent wrote it while the operation was in flight (R255). -/
def pastRead (h : List Past) (unit : Nat) (op : MatOp) (pick : Nat) : Option Past × Bool :=
  let settled := fun (p : Past) => p.by_ == some unit || decide (p.time < op.fence)
  let n := (h.findIdx settled) + 1
  let cs := h.take n
  (cs[pick % cs.length]?, h.any fun p => decide (op.issued < p.time) && p.by_ != some unit)
/-- What the unit reads of a local byte: its value, its poison, and whether it was written while the operation was in flight. -/
def State.unitByte (s : State) (op : MatOp) (t : Team) (off : Nat) : Byte × Bool × Bool :=
  let key := scratchKey op.side off
  match tfind t.past key with
  | none => (t.scratchByte key, t.scratchBad key 1, false)
  | some h => match pastRead h (unitOf op.gid) op (s.free (0x800000 + key)).toNat with
    | (_, true) => (0, false, true)
    | (some p, _) => if h.head? = some p then (t.scratchByte key, t.scratchBad key 1, false) else (p.v.setWidth 8, p.bad, false)
    | (none, _) => (t.scratchByte key, t.scratchBad key 1, false)
/-- An operand element: its code, poison, and whether it changed in flight. -/
structure Elt where
  code : Nat
  bad  : Bool
  touched : Bool
/-- An element of some bits at a local byte; half bytes by parity. -/
def State.unitElt (s : State) (op : MatOp) (t : Team) (nbits off idx : Nat) : Elt :=
  let b0 := s.unitByte op t off
  if nbits = 4 then ⟨if idx % 2 = 0 then b0.1.toNat % 16 else b0.1.toNat / 16, b0.2.1, b0.2.2⟩
  else if nbits = 8 then ⟨b0.1.toNat, b0.2.1, b0.2.2⟩
  else
    let bs := (List.range (nbits / 8)).map fun k => s.unitByte op t (off + k)
    ⟨ofBytes (bs.map (·.1)), bs.any (·.2.1), bs.any (·.2.2)⟩

/-- A(i, k): the code, poison, touch. -/
def State.aElt (s : State) (op : MatOp) (t : Team) (m : Mma) (i k : Nat) : Elt :=
  let n := m.form.aBits
  if m.fromQ then
    let d := m.form.depth
    let w := (op.words.getD (64 * (k / d) + i) 0).toNat
    ⟨bitsOf w (n * (k % d) + n - 1) (n * (k % d)), false, false⟩
  else s.unitElt op t n (m.aAt i k) (if m.col then i else k)
/-- What the unit reads of a B-slice byte (key p) or of a slot element (key 2²² + its key), which holds v now: as a local byte. -/
def State.unitPast (s : State) (op : MatOp) (u : UnitSt) (key : Nat) (v : W32) (bad : Bool) : W32 × Bool × Bool :=
  match tfind u.past key with
  | none => (v, bad, false)
  | some h => match pastRead h (unitOf op.gid) op (s.free (0xA00000 + key)).toNat with
    | (_, true) => (0, false, true)
    | (some p, _) => if h.head? = some p then (v, bad, false) else (p.v, p.bad, false)
    | (none, _) => (v, bad, false)
/-- A B-slice byte; the poison of the B-slice is kept by 4-byte word, as a scratchpad's: the spec does not give its granularity (log 71). -/
def State.bByte (s : State) (op : MatOp) (u : UnitSt) (p : Nat) : W32 × Bool × Bool :=
  s.unitPast op u p ((tget 0 u.bslice p).setWidth 32) (tget false u.bPoison (p / 4))
def State.slotWord (s : State) (op : MatOp) (u : UnitSt) (key : Nat) : W32 × Bool × Bool :=
  s.unitPast op u (2 ^ 22 + key) (tget 0 u.acc key) (tget false u.accPoison key)
/-- B(k, j) of the B-slice. -/
def State.bElt (s : State) (op : MatOp) (u : UnitSt) (m : Mma) (k j : Nat) : Elt :=
  let n := m.form.bBits
  let e := 48 * k + j
  let at_ := m.boff + e * n / 8
  let b0 := s.bByte op u at_
  let v0 := b0.1.toNat
  if n = 4 then ⟨if e % 2 = 0 then v0 % 16 else v0 / 16, b0.2.1, b0.2.2⟩
  else if n = 8 then ⟨v0, b0.2.1, b0.2.2⟩
  else
    let b1 := s.bByte op u (at_ + 1)
    ⟨v0 + 256 * b1.1.toNat, b0.2.1 || b1.2.1, b0.2.2 || b1.2.2⟩
/-- The value of A(i, k). -/
def Mma.aVal (m : Mma) (codes : List (BitVec 16)) (e : Elt) (scale : Nat) : FpVal :=
  match m.form.a with
  | none => fpDecode .bf16 (codes.getD e.code 0).toNat
  | some f => if m.form.mx then mxValue f e.code scale else fpDecode f e.code
def Mma.bVal (m : Mma) (e : Elt) (scale : Nat) : FpVal := if m.form.mx then mxValue m.form.b e.code scale else fpDecode m.form.b e.code

/-! ### Passes (02 R57) -/

/-- The exact sum of addends: NaN for a NaN or opposite infinities; an exact zero is −0 when every addend is −0. -/
def passSum (vs : List FpVal) : FpVal :=
  if vs.any FpVal.isNan then .nan false
  else match vs.find? FpVal.isInf with
    | some v => if vs.any fun w => w.isInf && w.neg != v.neg then .nan false else v
    | none =>
      let d := vs.foldl (fun a v => a.add false v.dy) (⟨false, 0, 0⟩ : Dy)
      if d.m = 0 then .fin ⟨vs.all fun v => v.isZero && v.neg, 0, 0⟩ else .fin d
/-- RN32 as a value. -/
def rn32 (v : FpVal) : FpVal := fpDecode .f32 (roundVal .f32 .rne false false v).1
def code32 (v : FpVal) : Nat := (roundVal .f32 .rne false false v).1
/-- A value with a zero taken as +0. -/
def plus0 (v : FpVal) : FpVal := match v with | .fin d => .fin (plusZero d) | v => v
/-- One pass of an element without and with a residual slot. -/
def passPlain (prods : List FpVal) (acc : FpVal) : FpVal := rn32 (passSum (prods ++ [acc]))
def passRes (prods : List FpVal) (main res : FpVal) : FpVal × FpVal :=
  let sum := passSum prods
  let sh := rn32 sum
  let sl : FpVal := if !sh.isFin then .nan false else rn32 (plus0 (.fin (sum.dy.sub false sh.dy)))
  let m1 : FpVal := match passSum [main, sh] with
    | .fin d => if d.m = 0 then .fin ⟨(prods.all fun p => p.isZero && p.neg) && main.isZero && main.neg, 0, 0⟩ else .fin d
    | v => v
  let main1 := rn32 m1
  let e : FpVal := if !main1.isFin then .nan false else plus0 (.fin ((main.dy.add false sh.dy).sub false main1.dy))
  (main1, rn32 (exactAdd false (rn32 (exactAdd false res e).1) sl).1)

/-- Slot elements: key 3,072 × slot + 48 × row + column. -/
def slotKey (slot i j : Nat) : Nat := 3072 * slot + 48 * i + j
def UnitSt.slotVal (u : UnitSt) (slot n : Nat) : FpVal := fpDecode .f32 (tget 0 u.acc (3072 * slot + n)).toNat
def State.slotRead (s : State) (op : MatOp) (u : UnitSt) (slot n : Nat) : FpVal := fpDecode .f32 (s.slotWord op u (3072 * slot + n)).1.toNat
/-- Whether another agent wrote a slot element while the operation was in flight. -/
def State.slotTouched (s : State) (op : MatOp) (u : UnitSt) (slot n : Nat) : Bool := (s.slotWord op u (3072 * slot + n)).2.2
def UnitSt.slotBad (u : UnitSt) (slot : Nat) : Bool := (List.range 3072).any fun n => tget false u.accPoison (3072 * slot + n)
/-- Whether an operation reads a poisoned element of a slot, be it one from before a copy that no MFENCE follows (09 R256; 15 R373). -/
def State.slotPoison (s : State) (op : MatOp) (u : UnitSt) (slot : Nat) : Bool :=
  (List.range 3072).any fun n => (s.slotWord op u (3072 * slot + n)).2.1
/-- Writes one element of a slot. -/
def UnitSt.putElt (u : UnitSt) (key : Nat) (v : W32) (bad : Bool) : UnitSt :=
  { u with acc := tset 0 u.acc key v, accPoison := tset false u.accPoison key bad, past := tdel u.past (2 ^ 22 + key) }
/-- A write by an agent other than the unit, at a clock, to a B-slice byte or a slot element (their keys as in UnitSt.past): what it held before
stays readable (09 R256). -/
def UnitSt.pastWrite (u : UnitSt) (key now : Nat) (old new : W32 × Bool) : UnitSt :=
  { u with past := tput u.past key (⟨now, new.1, new.2, none⟩ :: (tfind u.past key).getD [⟨0, old.1, old.2, none⟩]) }
/-- One byte of the B-slice; a word of it that is written whole unpoisoned loses its poison. -/
def UnitSt.copyByte (u : UnitSt) (p now : Nat) (v : Byte) (bad whole : Bool) : UnitSt :=
  let was := tget false u.bPoison (p / 4)
  let now_ := bad || (was && !whole)
  let u1 := u.pastWrite p now ((tget 0 u.bslice p).setWidth 32, was) (v.setWidth 32, now_)
  { u1 with bslice := tset 0 u1.bslice p v, bPoison := tset false u1.bPoison (p / 4) now_ }
/-- One element of a slot. -/
def UnitSt.copyElt (u : UnitSt) (key now : Nat) (v : W32) (bad : Bool) : UnitSt :=
  let u1 := u.pastWrite (2 ^ 22 + key) now (tget 0 u.acc key, tget false u.accPoison key) (v, bad)
  { u1 with acc := tset 0 u1.acc key v, accPoison := tset false u1.accPoison key bad }
/-- Whether some element of a slot is NaN or infinite. -/
def UnitSt.slotNonFinite (u : UnitSt) (slot : Nat) : Bool := (List.range 3072).any fun n => !(u.slotVal slot n).isFin

/-- What an MMA does to its unit (09 R248). -/
def State.runMma (s : State) (op : MatOp) (u : UnitSt) : UnitSt :=
  let m := Mma.ofArgs op.f op.args
  let t := s.team op.team
  let d := m.form.depth
  let scaleA := fun i k => s.unitElt op t 8 (m.aScale i k) 0
  let scaleB := fun k j => let b := s.bByte op u (m.bsoff + 48 * (k / 32) + j); (⟨b.1.toNat, b.2.1, b.2.2⟩ : Elt)
  let noScale : Elt := ⟨127, false, false⟩
  let rowA := fun i => (List.range m.k).map fun k => (s.aElt op t m i k, if m.form.mx then scaleA i k else noScale)
  let colB := fun j => (List.range m.k).map fun k => (s.bElt op u m k j, if m.form.mx then scaleB k j else noScale)
  let as_ := (List.range 64).map rowA
  let bs := (List.range 48).map colB
  let bad := s.slotPoison op u m.d || (m.res && s.slotPoison op u m.c) || as_.any (fun r => r.any fun e => e.1.bad || e.2.bad) ||
    bs.any (fun r => r.any fun e => e.1.bad || e.2.bad)
  let valsA := as_.map fun r => r.map fun e => m.aVal op.codes e.1 e.2.code
  let valsB := bs.map fun r => r.map fun e => m.bVal e.1 e.2.code
  let rows := as_.map fun r => r.any fun e => e.1.touched || e.2.touched
  let cols := bs.map fun r => r.any fun e => e.1.touched || e.2.touched
  (List.range 3072).foldl (fun (w : UnitSt) n =>
    let i := n / 48
    let j := n % 48
    let fresh := fun (b : Nat) => ((s.free (b + n)).setWidth 32 : W32)
    if op.tainted || rows.getD i false || cols.getD j false || s.slotTouched op u m.d n || (m.res && s.slotTouched op u m.c n) then
      let w1 := w.putElt (3072 * m.d + n) (fresh 0x380000) false
      if m.res then w1.putElt (3072 * m.c + n) (fresh 0x381000) false else w1
    else
      let prods := ((valsA.getD i []).zip (valsB.getD j [])).map fun p => (exactMul p.1 p.2).1
      let chunk := fun q => (prods.drop (d * q)).take d
      if m.res then
        let r := (List.range m.passes).foldl (fun (a : FpVal × FpVal) q => passRes (chunk q) a.1 a.2) (s.slotRead op u m.d n, s.slotRead op u m.c n)
        (w.putElt (3072 * m.d + n) (BitVec.ofNat 32 (code32 r.1)) bad).putElt (3072 * m.c + n) (BitVec.ofNat 32 (code32 r.2)) bad
      else
        let r := (List.range m.passes).foldl (fun (a : FpVal) q => passPlain (chunk q) a) (s.slotRead op u m.d n)
        w.putElt (3072 * m.d + n) (BitVec.ofNat 32 (code32 r)) bad) u

/-! ### What the transfers do -/

def State.runMzero (s : State) (op : MatOp) (u : UnitSt) : UnitSt :=
  let f := bitsOf op.f.mod.toNat 9 5
  let n := bitsOf op.f.mod.toNat 4 0 + 1
  let keep := fun (k : Nat) => k < 3072 * f || 3072 * (f + n) ≤ k
  let mine := u.past.filter fun e => decide (2 ^ 22 ≤ e.1) && !keep (e.1 - 2 ^ 22)
  let w := { u with acc := u.acc.filter fun e => keep e.1, accPoison := u.accPoison.filter fun e => keep e.1,
                    past := u.past.filter fun e => decide (e.1 < 2 ^ 22) || keep (e.1 - 2 ^ 22) }
  mine.foldl (fun (w : UnitSt) e =>
    if (s.unitPast op u e.1 0 false).2.2 then w.putElt (e.1 - 2 ^ 22) ((s.free (0x380000 + (e.1 - 2 ^ 22))).setWidth 32) false else w) w

def State.runMlda (s : State) (op : MatOp) (u : UnitSt) : UnitSt :=
  let t := s.team op.team
  let slot := bitsOf op.f.mod.toNat 4 0
  let off := bits (op.args.getD 0 0) 19 0
  (List.range 3072).foldl (fun (w : UnitSt) n =>
    let e := s.unitElt op t 32 (off + 4 * n) 0
    if op.tainted || e.touched || s.slotTouched op u slot n then w.putElt (3072 * slot + n) ((s.free (0x380000 + n)).setWidth 32) false
    else w.putElt (3072 * slot + n) (BitVec.ofNat 32 e.code) e.bad) u

def State.runMsta (s : State) (op : MatOp) (u : UnitSt) : State :=
  let slot := bitsOf op.f.mod.toNat 4 0
  let off := bits (op.args.getD 0 0) 19 0
  let ty := Ty.ofCode (bitsOf op.f.mod.toNat 13 9)
  let n := if ty = .f32 then 4 else 2
  let mode := Rnd.ofCode (bitsOf op.f.mod.toNat 8 6)
  let sat := bitOf op.f.mod.toNat 5
  s.setTeam op.team ((List.range 3072).foldl (fun (t : Team) k =>
    let w := s.slotWord op u (3072 * slot + k)
    let open_ := op.tainted || w.2.2
    let v := if open_ then (s.free (0x380000 + k)).toNat % 2 ^ (8 * n)
      else if ty = .f32 then w.1.toNat else (roundVal ty.fmt mode sat false (fpDecode .f32 w.1.toNat)).1
    t.writeScratch (scratchKey op.side (off + n * k)) n v s.clock (!open_ && w.2.1) (some (unitOf op.gid))) (s.team op.team))

def State.runMldb (s : State) (op : MatOp) (u : UnitSt) : UnitSt :=
  let t := s.team op.team
  let off := bits (op.args.getD 0 0) 19 0
  let b := op.args.getD 1 0
  (List.range (bits b 52 32)).foldl (fun (w : UnitSt) k =>
    let e := s.unitByte op t (off + k)
    let at_ := bits b 21 0 + k
    let v : Byte := if op.tainted || e.2.2 then (s.free (0x380000 + k)).setWidth 8 else e.1
    let bad := if k % 4 = 0 then e.2.1 else e.2.1 || tget false w.bPoison (at_ / 4)
    { w with bslice := tset 0 w.bslice at_ v, bPoison := tset false w.bPoison (at_ / 4) (bad && !op.tainted), past := tdel w.past at_ }) u

/-! ### MDRAIN (09 R266 to R271) -/

/-- MDRAIN's parameters. -/
structure Drain where
  sgdm : Bool
  res  : Bool
  sr   : Bool
  id   : Nat
  o    : Nat × Nat × Nat × Nat
  mu   : FpVal
  alpha : FpVal
  mid  : Nat
  c    : Nat
  d    : Nat
def Drain.ofArgs (f : Fields) (args : List W64) : Drain :=
  let p0 := args.getD 0 0
  let p1 := args.getD 1 0
  let p2 := args.getD 2 0
  { sgdm := bitsOf f.mod.toNat 13 12 = 1, res := bitOf f.mod.toNat 8, sr := bitsOf f.mod.toNat 11 9 = 5, id := f.d.toNat,
    o := (bits p0 15 0, bits p0 31 16, bits p0 47 32, bits p0 63 48), mu := fpDecode .f32 (bits p1 63 32), alpha := fpDecode .f32 (bits p1 31 0),
    mid := bits p2 22 16, c := bits p2 12 8, d := bits p2 4 0 }
/-- The resv fields of gN+2. -/
def drainResv (f : Fields) (p2 : W64) : Bool :=
  let sgdm := bitsOf f.mod.toNat 13 12 = 1
  bits p2 63 23 == 0 && bits p2 15 13 == 0 && bits p2 7 5 == 0 && (sgdm || bits p2 22 16 == 0) && (bitOf f.mod.toNat 8 || bits p2 12 8 == 0)

/-- The tile elements that fall in the tensor: element number and tensor element. -/
def Drain.elements (d : Drain) (w : Tensor) : List (Nat × (Nat × Nat × Nat × Nat)) :=
  (List.range 3072).filterMap fun n =>
    let e := (d.o.1 + n % 48, d.o.2.1 + n / 48, d.o.2.2.1, d.o.2.2.2)
    if Tensor.inside w e then some (n, e) else none
/-- The words MDRAIN writes of one element: addresses and widths; of the momentum first. -/
def Drain.writes (d : Drain) (w m : Tensor) (e : Nat × Nat × Nat × Nat) : List (Nat × Nat) :=
  (if d.sgdm then [(Tensor.addr m true e, 4)] else []) ++
  (if Tensor.ty w = 17 then [(Tensor.addr w true e, 4), (Tensor.second w true e, 4)]
   else [(Tensor.addr w true e, if Tensor.ty w = 12 then 2 else 4)])
/-- The words it reads. -/
def Drain.reads (d : Drain) (w m : Tensor) (e : Nat × Nat × Nat × Nat) : List (Nat × Nat) :=
  if !d.sgdm then []
  else (Tensor.addr m false e, 4) ::
    (if Tensor.ty w = 17 then [(Tensor.addr w false e, 4), (Tensor.second w false e, 4)]
     else [(Tensor.addr w false e, if Tensor.ty w = 12 then 2 else 4)])

/-- A descriptor of a team on a side. -/
def Team.tensor (t : Team) (side id : Nat) : Option (List W64) := tfind t.tensors (128 * side + id)

/-- MDRAIN at issue (09 R267). -/
def mdrainEffect (i : Iss) (s : State) : Res :=
  let fs := groupLevel i ++ mxReg i.f.a 9
  if !fs.isEmpty then .fault s fs
  else
    let gs := gNames i.f.a 3
    let pf := gPoisonFaults i gs
    let args := s.readGs i 0 i.f.a 3
    let d := Drain.ofArgs i.f args
    let fs := (if d.res && d.c == d.d then [⟨3, 0x14, 0, none, none⟩] else []) ++ pf
    if !fs.isEmpty then .fault s fs
    else
      let t := s.team i.g.team
      let side := s.ownSide i.gid i.g.team
      let w := t.tensor side d.id
      let m := if d.sgdm then t.tensor side d.mid else some []
      let td := fun (c : Nat) => (⟨0xB, c, 0, none, none⟩ : Flt)
      let dfs : List Flt := match w, m with
        | some w, some m =>
          (if Tensor.double w && (Tensor.ty w == 10 || Tensor.ty w == 17 || Tensor.ty w == 12) then [] else [td 2]) ++
          (if !d.sgdm || (Tensor.ty m == 10 && Tensor.double m && Tensor.dims m == Tensor.dims w) then [] else [td 3]) ++
          (if d.sr && Tensor.ty w != 12 then [td 4] else [])
        | _, _ => [td 1]
      let fs := dfs ++ (if drainResv i.f (args.getD 2 0) then [] else [⟨0xC, 9, 0, none, none⟩]) ++ notHeld i s
      -- the range faults come before the other classes (01 R34), and exist only where the tensors do
      let wt := w.getD []
      let mt := m.getD []
      let weightOk := Tensor.double wt && (Tensor.ty wt == 10 || Tensor.ty wt == 17 || Tensor.ty wt == 12)
      let momentumOk := !d.sgdm || (Tensor.ty mt == 10 && Tensor.double mt && Tensor.dims mt == Tensor.dims wt)
      let es := if w.isSome && weightOk then (d.elements wt).map (·.2) else []
      let part := fun (l : List (Nat × Nat)) => if momentumOk then l else l.drop 1
      let acc := fun (a : Acc) (x : Nat × Nat) => match s.xlat i.gid i.g a x.2 x.1 with
        | .ok p e => Found.at_ ⟨⟨0, x.1, x.2⟩, p, e⟩
        | .fault cls code ix => Found.flt ⟨cls, code, 0, some x.1, ix⟩
        | .walk => Found.walk x.1
      let fd := es.flatMap fun e => ((part (d.writes wt mt e)).map (acc .write)) ++ ((part (d.reads wt mt e)).map (acc .read))
      match foundWalks fd with
      | v :: _ => .wait (s.askWalk i.gid i.g [v] false) i.g (.walk [v])
      | [] =>
        let fs := foundFaults fd ++ fs
        if !fs.isEmpty then .fault s fs
        else
          let op := { newOp i s (if d.res then 96 else 48) args gs with
            weight := some (d.id, wt), momentum := if d.sgdm then some (d.mid, mt) else none }
          accept i (s.useRanges (coreOf i.gid) (foundAt fd)) op

/-- The number by which a drain of unit u asks other agents for data. -/
def drainWho (u : Nat) : Nat := 2 ^ 50 + u
/-- The launch of a team. -/
def State.teamLaunch (s : State) (t : Nat) : Launch := (s.task (s.team t).task).launch
/-- A drain as an engine: an agent of its cluster, whose accesses the team's stash serves (08 R206, 09 R254). -/
def MatOp.who (op : MatOp) (s : State) (u : Nat) : Who :=
  let l := s.teamLaunch op.team
  ⟨drainWho u, op.gid, op.team, l.asid, l.ctx, (s.task (s.team op.team).task).part, true, true, 5, false⟩
/-- A word of a drain as it is reached when the unit performs it. -/
def MatOp.reach (op : MatOp) (s : State) (u : Nat) (a : Acc) (x : Nat × Nat) : Option Located :=
  match s.xlatCore (op.who s u) (coreOf op.gid) a x.2 x.1 with
  | .ok p e => some ⟨⟨0, x.1, x.2⟩, p, e⟩
  | _ => none

/-- The exact value of a weight read from memory. -/
def weightVal (ty : Nat) (vs : List Nat) : FpVal :=
  match ty with
  | 17 => (exactAdd false (fpDecode .f32 (vs.getD 0 0)) (fpDecode .f32 (vs.getD 1 0))).1
  | 12 => fpDecode .bf16 (vs.getD 0 0)
  | _ => fpDecode .f32 (vs.getD 0 0)
/-- The key and counter of a stochastic element (02 R61). -/
def srDraw (seed : W64) (id step index : Nat) : W32 :=
  kcg (seed ^^^ BitVec.ofNat 64 (id * 2 ^ 56)) (BitVec.ofNat 64 (step * 2 ^ 32 + index % 2 ^ 32))
/-- The words of a weight, in the order of Drain.writes. -/
def weightWords (ty : Nat) (sr : Option W32) (v : FpVal) : List Nat :=
  match ty with
  | 17 =>
    let h := rn32 v
    let l : FpVal := if h.isFin then rn32 (plus0 (.fin (v.dy.sub false h.dy))) else .fin ⟨false, 0, 0⟩
    [code32 v, code32 (plus0 l)]
  | 12 => [(roundVal .bf16 (match sr with | some w => .sr w | none => .rne) false false v).1]
  | _ => [code32 v]

/-- One element of a drain: the words it writes, and whether G, M or a written value is not finite (09 R268). -/
def Drain.element (d : Drain) (w : Tensor) (seed : W64) (main res : FpVal) (e : Nat × Nat × Nat × Nat) (reads : List Nat) : List Nat × Bool :=
  let g := if d.res then (exactAdd false main res).1 else main
  let sr := if d.sr then some (srDraw seed d.id (Tensor.step w) (Tensor.index w e)) else none
  if d.sgdm then
    let mo := fpDecode .f32 (reads.getD 0 0)
    let m := rn32 (exactAdd false (exactMul d.mu mo).1 g).1
    let v := (exactAdd false (weightVal (Tensor.ty w) (reads.drop 1)) (exactMul d.alpha m).1.negate).1
    let ws := weightWords (Tensor.ty w) sr v
    (code32 m :: ws, !g.isFin || !mo.isFin || !m.isFin || !(weightVal (Tensor.ty w) ws).isFin)
  else
    let v := (exactMul d.alpha g).1
    let ws := weightWords (Tensor.ty w) sr v
    (ws, !g.isFin || !(weightVal (Tensor.ty w) ws).isFin)

/-- Whether the words of an element, as they are written, hold a value that is not finite. -/
def Drain.nonFinite (d : Drain) (w : Tensor) (ws : List Nat) : Bool :=
  (d.sgdm && !(fpDecode .f32 (ws.getD 0 0)).isFin) || !(weightVal (Tensor.ty w) (if d.sgdm then ws.drop 1 else ws)).isFin
/-- What a drain does when the unit performs it: none while it waits for data; else the state and the status bits [27:25]. Where a
translation no longer holds it ends aborted, and which elements were written is unspecified (09 R271). -/
def State.runDrain (s : State) (k : Nat) (op : MatOp) (u : UnitSt) : State × Option Nat :=
  let d := Drain.ofArgs op.f op.args
  let w := (op.weight.map (·.2)).getD []
  let m := (op.momentum.map (·.2)).getD []
  let bad := s.slotPoison op u d.d || (d.res && s.slotPoison op u d.c)
  if bad then (s, some 2)
  else
    let who := op.who s k
    let es := d.elements w
    let vas := es.flatMap fun e => (d.reads w m e.2 ++ d.writes w m e.2).map (·.1)
    let s := vas.foldl (fun (st : State) va => st.bring who (coreOf op.gid) va) s
    let unknown := vas.any fun va => match s.xlatCore who (coreOf op.gid) .read 4 va with | .walk => true | _ => false
    if unknown then (s, none) else
    let rd := es.map fun e => (d.reads w m e.2).map (op.reach s k .read)
    let wr := es.map fun e => (d.writes w m e.2).map (op.reach s k .write)
    let whole := fun (l : List (Option Located)) => l.all Option.isSome
    let reached := ((rd.filter whole).flatten.filterMap id).map fun l => ((l, SliceOp.read) : Located × SliceOp)
    match s.askAll who .read reached with
    | some s1 => (s1, none)
    | none =>
      let stores := ((wr.filter whole).flatten.filterMap id).map fun l => ((l, SliceOp.write 0 false) : Located × SliceOp)
      match s.askAll who .write stores with
      | some s1 => (s1, none)
      | none =>
        let aborted := op.aborted || !(rd ++ wr).all whole
        let step := fun (a : State × Bool) (x : (Nat × (Nat × Nat × Nat × Nat)) × List (Option Located) × List (Option Located)) =>
          let n := x.1.1
          if !whole x.2.1 || !whole x.2.2 || (aborted && (s.free (0x380000 + n)).getLsbD 0) then a
          else
            let (s1, got) := a.1.readAll who (x.2.1.filterMap id)
            let open_ := op.tainted || s.slotTouched op u d.d n || (d.res && s.slotTouched op u d.c n)
            let r := d.element w (s.teamLaunch op.team).seed (s.slotRead op u d.d n) (s.slotRead op u d.c n) x.1.2 (got.map (·.2.1))
            let ws := if open_ then (d.writes w m x.1.2).mapIdx fun k y => (s.free (0x381000 + 4 * n + k)).toNat % 2 ^ (8 * y.2) else r.1
            let poison := !open_ && got.any fun g => g.2.2 ≠ 0
            let write := fun (st : State) (l : Located) (v : Nat) => (st.performWrite who l v poison).pushSector who l
            ((List.zip (x.2.2.filterMap id) ws).foldl (fun (st : State) y => write st y.1 y.2) s1,
              a.2 || (if open_ then d.nonFinite w ws else r.2))
        let r := (List.zip es (List.zip rd wr)).foldl step (s, false)
        (r.1.forget who.who, some ((if r.2 then 4 else 0) + (if aborted then 1 else 0)))

/-! ### What an operation in flight names (09 R255; 15 R373) -/

/-- The slots it names. -/
def MatOp.slots (op : MatOp) : List Nat :=
  let f := op.f.mod.toNat
  match op.o with
  | .mma => let m := Mma.ofArgs op.f op.args; if m.res then [m.d, m.c] else [m.d]
  | .mzero => (List.range (bitsOf f 4 0 + 1)).map (bitsOf f 9 5 + ·)
  | .mlda | .msta => [bitsOf f 4 0]
  | .mldb => []
  | _ => let d := Drain.ofArgs op.f op.args; if d.res then [d.d, d.c] else [d.d]
/-- Whether it writes a B-slice byte. -/
def MatOp.writesB (op : MatOp) (p : Nat) : Bool :=
  match op.o with
  | .mldb => let b := op.args.getD 1 0; bits b 21 0 ≤ p && p < bits b 21 0 + bits b 52 32
  | _ => false

/-! ### Completion (09 R252) -/

/-- Pushes a status word to q0. -/
def UnitSt.pushStatus (u : UnitSt) (w : Nat) : UnitSt :=
  if 256 ≤ u.q0.length then { u with q0lost := true }
  else { u with q0 := u.q0 ++ [BitVec.ofNat 32 (w + (if u.q0lost then 2 ^ 24 else 0))], q0lost := false }
/-- The status word of Table 9.6 but for bit 24. -/
def MatOp.statusWord (op : MatOp) (kind b27_25 d : Nat) : Nat :=
  kind * 2 ^ 28 + b27_25 * 2 ^ 25 + slotOf op.gid * 2 ^ 13 + op.seq % 256 * 2 ^ 5 + d

/-- Completes the oldest operation of a unit, performing it. -/
def State.completeOp (s : State) (k : Nat) : State :=
  let u := s.unit k
  match u.ops with
  | [] => s
  | op :: rest =>
    let done := fun (s : State) (u : UnitSt) => s.setUnit k { u with ops := rest }
    match op.o with
    | .mma =>
      let m := Mma.ofArgs op.f op.args
      let u1 := s.runMma op u
      let st := (if u1.slotNonFinite m.d then 4 else 0) + (if u1.slotBad m.d || (m.res && u1.slotBad m.c) then 2 else 0)
      done s (u1.pushStatus (op.statusWord 1 st m.d))
    | .mzero => done s (s.runMzero op u)
    | .mlda => done s (s.runMlda op u)
    | .msta => done (s.runMsta op u) u
    | .mldb => done s (s.runMldb op u)
    | _ =>
      let d := (Drain.ofArgs op.f op.args).d
      let left := fun (s : State) => s.ports.any fun p => p.2.waiting.any fun x => x.who = drainWho k
      if op.stored then
        if left s then s else done s (u.pushStatus (op.statusWord 2 op.status d))
      else match s.runDrain k op u with
        | (s1, none) => s1
        | (s1, some st) =>
          if left s1 then s1.setUnit k { u with ops := { op with stored := true, status := st } :: rest }
          else done s1 (u.pushStatus (op.statusWord 2 st d))

def execMma (f : Fields) (s : State) : Host.Outcome State Fault Refusal := issue .mma f s mmaEffect
def execMres (f : Fields) (s : State) : Host.Outcome State Fault Refusal := issue .mres f s mresEffect
def execMrel (f : Fields) (s : State) : Host.Outcome State Fault Refusal := issue .mrel f s mrelEffect
def execMwait (f : Fields) (s : State) : Host.Outcome State Fault Refusal := issue .mwait f s mwaitEffect
def execMfence (f : Fields) (s : State) : Host.Outcome State Fault Refusal := issue .mfence f s mfenceEffect
def execMzero (f : Fields) (s : State) : Host.Outcome State Fault Refusal := issue .mzero f s mzeroEffect
def execMlda (f : Fields) (s : State) : Host.Outcome State Fault Refusal := issue .mlda f s mldaEffect
def execMsta (f : Fields) (s : State) : Host.Outcome State Fault Refusal := issue .msta f s mstaEffect
def execMldb (f : Fields) (s : State) : Host.Outcome State Fault Refusal := issue .mldb f s mldbEffect
def execMdrain (f : Fields) (s : State) : Host.Outcome State Fault Refusal := issue .mdrain f s mdrainEffect

end Sys2Proof.Machine
end

