-- ==== Sys2Proof/Machine/Tensors.lean ====
section
/-! DEFINITION. TENS: tensor descriptors and code tables (09 R258 to R265, R270). -/

namespace Sys2Proof.Machine

/-- The descriptor entries in use on a core (09 R258). -/
def State.entriesOn (s : State) (core : Nat) : Nat :=
  s.teams.foldl (fun n e =>
    let t := e.2
    if t.saved then n
    else if t.paired then
      (if t.core / 2 = core / 2 then n + (t.tensors.filter fun x => x.1 / 128 = core % 2).length else n)
    else if t.core = core then n + t.tensors.length else n) 0

/-- Whether a drain or a copy that names a descriptor of a team on a side is not complete (09 R263, R270). -/
def State.usesId (s : State) (team core side id : Nat) (drains copies : Bool) : Bool :=
  (drains && (List.range 4).any fun q => (s.unit (4 * core + q)).ops.any fun o =>
    o.team == team && (o.weight.map (·.1) == some id || o.momentum.map (·.1) == some id)) ||
  (copies && (s.die (core / 16)).copies.any fun c => c.team == team && c.side == side && c.core == core && c.ids.contains id)

/-- The sides of a team that an instruction with .team acts on: both, or its own; with the core of each. -/
def sidesOf (i : Iss) (s : State) (both : Bool) : List (Nat × Nat) :=
  if both && (s.team i.g.team).paired then
    let c := coreOf i.gid / 2 * 2
    [(0, c), (1, c + 1)]
  else [(s.ownSide i.gid i.g.team, coreOf i.gid)]

/-- TDEF's failure code, 0 for none (09 Table 9.10). -/
def tdefCode (i : Iss) (s : State) (team : Bool) (id : Nat) (t : Tensor) : Nat :=
  let tm := s.team i.g.team
  let sides := sidesOf i s team
  if sides.any fun x => (tm.tensor x.1 id).isSome then 1
  else if t.ty < 2 ∨ 17 < t.ty then 2
  else if !t.resvOk then 3
  else if !t.alignOk then 4
  else if !t.geometryOk then 5
  else if !t.flagsOk then 6
  else if sides.any fun x => decide (128 ≤ s.entriesOn x.2) then 7
  else if team && !tm.paired then 8
  else 0

/-- Writes gd and pS. -/
def gpResult (i : Iss) (s : State) (v : W64) (p : Nat) (ok : Bool) : Res :=
  let n := gIndex i.f.d
  let g1 := statusPred i s i.g p ok
  .done s { g1 with ctx := g1.ctx.gSet n (s.mergeG i.g n v) (s.mergeGBad i.g n 0) } i.next (predOut i s p [n])

/-- TDEF without .commit (09 R262). -/
def tdefEffect (i : Iss) (s : State) : Res :=
  let fs := groupLevel i ++ mxReg i.f.d 11 ++ mxReg i.f.a 11 ++ queueTwice [i.f.d, i.f.a]
  let pf := gPoisonFaults i [] [gIndex i.f.a]
  if !fs.isEmpty then .fault s fs
  else if !pf.isEmpty then .fault s pf
  else
    let va := (s.readG i.g 0 (gIndex i.f.a)).toNat % 2 ^ 56
    if va % 64 ≠ 0 then .fault s [⟨4, 2, 0, some va, none⟩]
    else loadImage 8 va i s fun ws s1 =>
      let id := i.mb 11 5
      let team := i.mbit 13
      let code := tdefCode i s1 team id ws
      let tm := s1.team i.g.team
      let s2 := if code = 0 then
          s1.setTeam i.g.team { tm with tensors := (sidesOf i s1 team).foldl (fun t x => tput t (128 * x.1 + id) ws) tm.tensors }
        else s1
      gpResult i s2 (BitVec.ofNat 64 code) (i.mb 2 0) (code == 0)

/-- Wait.descriptor. -/
def namedWait (i : Iss) (s : State) (both drains copies : Bool) (id : Nat) : Bool :=
  (sidesOf i s both).any fun x => s.usesId i.g.team x.2 x.1 id drains copies

/-- The dword 0x38 of a descriptor with its parity inverted and its step raised (09 R270). -/
def flipped (t : Tensor) : Tensor :=
  let w := t.getD 7 0
  t.set 7 (BitVec.ofNat 64 ((Tensor.step t + 1) % 2 ^ 32 * 2 ^ 32 + bits (w ^^^ 1) 31 0))

/-- TDEF.commit (09 R270). -/
def tdefCommitEffect (i : Iss) (s : State) : Res :=
  let fs := groupLevel i ++ mxReg i.f.d 11 ++ mxReg i.f.a 11 ++ queueTwice [i.f.d, i.f.a]
  let pf := gPoisonFaults i [gIndex i.f.a]
  if !fs.isEmpty then .fault s fs
  else if !pf.isEmpty then .fault s pf
  else
    let id := i.mb 11 5
    let team := i.mbit 13
    let tm := s.team i.g.team
    let sides := sidesOf i s team
    if namedWait i s team true false id then .wait s i.g (.descriptor id)
    else if sides.any fun x => (tm.tensor x.1 id).isNone then gpResult i s 1 (i.mb 2 0) false
    else if team && !tm.paired then gpResult i s 8 (i.mb 2 0) false
    else
      let flag := (s.readG i.g 0 (gIndex i.f.a)).getLsbD 0
      let t1 := if flag then
          sides.foldl (fun t x => match tm.tensor x.1 id with | some w => tput t (128 * x.1 + id) (flipped w) | none => t) tm.tensors
        else tm.tensors
      let s1 := s.setTeam i.g.team { tm with tensors := t1 }
      let own := ((s1.team i.g.team).tensor (s.ownSide i.gid i.g.team) id).getD []
      gpResult i s1 (own.getD 7 0) (i.mb 2 0) flag

/-- TKILL (09 R263). -/
def tkillEffect (i : Iss) (s : State) : Res :=
  if !(groupLevel i).isEmpty then .fault s (groupLevel i)
  else
    let id := i.mb 11 5
    let team := i.mbit 13
    let tm := s.team i.g.team
    if namedWait i s team true true id then .wait s i.g (.descriptor id)
    else .done (s.setTeam i.g.team { tm with tensors := (sidesOf i s team).foldl (fun t x => tdel t (128 * x.1 + id)) tm.tensors }) i.g i.next none

/-- TINFO (09 R264). -/
def tinfoEffect (i : Iss) (s : State) : Res :=
  let fs := groupLevel i ++ mxReg i.f.d 11
  if !fs.isEmpty then .fault s fs
  else match (s.team i.g.team).tensor (s.ownSide i.gid i.g.team) (i.mb 11 5) with
    | none => .fault s [⟨0xB, 1, 0, none, none⟩]
    | some w => commitLanes [] (.reg i.f.d 2 2 true false) none false [(0, { words := halves (w.getD (i.mb 2 0) 0) })] i s

/-- CTWR (09 R265): a use has read its table at its own issue. -/
def ctwrEffect (i : Iss) (s : State) : Res :=
  let fs := groupLevel i ++ mxReg i.f.a 8
  let pf := gPoisonFaults i (gNames i.f.a 4)
  if !fs.isEmpty then .fault s fs
  else if !pf.isEmpty then .fault s pf
  else
    let vs := s.readGs i 0 i.f.a 4
    let tm := s.team i.g.team
    let key := 64 * s.ownSide i.gid i.g.team + 16 * i.mb 1 0
    let codes := (List.range 16).foldl (fun t e => tset 0 t (key + e) ((vs.getD (e / 4) 0).extractLsb' (16 * (e % 4)) 16)) tm.codes
    .done (s.setTeam i.g.team { tm with codes := codes }) i.g i.next none

def execTdef (f : Fields) (s : State) : Host.Outcome State Fault Refusal := memIssue .tdef f s tdefEffect
def execTdefCommit (f : Fields) (s : State) : Host.Outcome State Fault Refusal := issue .tdefCommit f s tdefCommitEffect
def execTkill (f : Fields) (s : State) : Host.Outcome State Fault Refusal := issue .tkill f s tkillEffect
def execTinfo (f : Fields) (s : State) : Host.Outcome State Fault Refusal := issue .tinfo f s tinfoEffect
def execCtwr (f : Fields) (s : State) : Host.Outcome State Fault Refusal := issue .ctwr f s ctwrEffect

end Sys2Proof.Machine
end

