-- ==== Sys2Proof/Machine/CopyTask.lean ====
section
/-! DEFINITION. COPY: the block, its checks and issue, and what an engine does for a chunk and at the end (15 R365 to R374). -/

namespace Sys2Proof.Machine

/-! ### The block (15 Tables 15.1, 15.2) -/

/-- A copy block: sixteen dwords. -/
abbrev Block := List W64

namespace Block
def dw (b : Block) (k hi lo : Nat) : Nat := bits (List.getD b k 0) hi lo
def dims (b : Block) (n : Nat) : Nat := b.dw 1 (16 * n + 15) (16 * n) + 1
def arith (b : Block) : Bool := b.dw 0 45 45 == 1
def wantsWord (b : Block) : Bool := b.dw 0 44 44 == 1
def wantsDec (b : Block) : Bool := b.dw 0 43 43 == 1
def wantsPush (b : Block) : Bool := b.dw 0 42 42 == 1
def tag (b : Block) : Nat := b.dw 0 15 0
/-- The source (dst = false) or destination endpoint. -/
def endpoint (b : Block) (dst : Bool) : Endpoint :=
  let k := if dst then 5 else 2
  ⟨if dst then b.dw 0 59 56 else b.dw 0 63 60, if dst then b.dw 0 50 46 else b.dw 0 55 51, List.getD b k 0, List.getD b (k + 1) 0, List.getD b (k + 2) 0⟩
/-- Elements of the shape. -/
def size (b : Block) : Nat := b.dims 0 * b.dims 1 * b.dims 2
/-- Element n in linear order. -/
def element (b : Block) (n : Nat) : Nat × Nat × Nat := (n % b.dims 0, n / b.dims 0 % b.dims 1, n / (b.dims 0 * b.dims 1))
end Block

/-- An endpoint with the tensor it names. -/
structure End where
  ep : Endpoint
  tensor : Tensor
namespace End
def kind (x : End) : Nat := x.ep.kind
def ty (x : End) : Nat := x.ep.ty
def mx (x : End) : Bool := x.kind == 2 && Tensor.mx x.tensor
/-- Bits of an element as it lies at the endpoint; .f32.x2 counts its two components. -/
def eltBits (x : End) : Nat :=
  match x.ty with
  | 2 | 6 | 13 | 14 => 8
  | 3 | 7 | 11 | 12 => 16
  | 0 | 4 | 8 | 10 => 32
  | 15 | 16 => 4
  | _ => 64
/-- Whether element e lies in the low nibble of its byte. -/
def low (x : End) (e : Nat × Nat × Nat) : Bool := (if x.kind = 2 then bits x.ep.p1 15 0 + e.1 else e.1) % 2 == 0
/-- The tensor element of element e. -/
def tensorElt (x : End) (e : Nat × Nat × Nat) : Nat × Nat × Nat × Nat :=
  (bits x.ep.p1 15 0 + e.1, bits x.ep.p1 31 16 + e.2.1, bits x.ep.p1 47 32 + e.2.2, bits x.ep.p1 63 48)
/-- Byte offset of element e by strides in P1. -/
def strided (x : End) (e : Nat × Nat × Nat) : Nat := e.1 * x.eltBits / 8 + e.2.1 * bits x.ep.p1 31 0 + e.2.2 * bits x.ep.p1 63 32
def lay (x : End) : Lay := ⟨bits x.ep.p0 31 0, bits x.ep.p0 63 32, bits x.ep.p1 31 0⟩
/-- Bytes of a whole element. -/
def bytes (x : End) : Nat := max 1 (x.eltBits / 8)
/-- The runs of global bytes that element e occupies: address and width. -/
def globals (x : End) (e : Nat × Nat × Nat) : List (Nat × Nat) :=
  match x.kind with
  | 0 => [((bits x.ep.p0 55 0 + x.strided e) % 2 ^ 56, x.bytes)]
  | 2 =>
    let t := x.tensorElt e
    (if x.ty = 17 then [(Tensor.addr x.tensor false t, 4), (Tensor.second x.tensor false t, 4)] else [(Tensor.addr x.tensor false t, x.bytes)]) ++
      (if x.mx then [(Tensor.scaleAt x.tensor t, 1)] else [])
  | _ => []
/-- Offset in the scratchpad, the B-slice, or the slot's elements. -/
def inner (x : End) (e : Nat × Nat × Nat) : Nat :=
  match x.kind with
  | 1 => x.lay.at_ e.1 e.2.1 e.2.2 0
  | 3 => bits x.ep.p0 21 0 + x.strided e
  | _ => slotKey (bits x.ep.p0 4 0) (bits x.ep.p1 31 16 + e.2.1) (bits x.ep.p1 15 0 + e.1)
/-- The quarter whose unit it names. -/
def quarter (x : End) : Option Nat := if x.kind = 3 then some (bits x.ep.p0 23 22) else if x.kind = 4 then some (bits x.ep.p0 6 5) else none
end End

/-- The float types of Table 15.3 by code. -/
def copyFloat (ty : Nat) : Bool := 10 ≤ ty && ty ≤ 15

/-- The reserved fields of an endpoint. -/
def endResv (e : Endpoint) : Bool :=
  match e.kind with
  | 0 => bits e.p0 63 56 == 0 && e.p2 == 0
  | 1 => bits e.p1 63 32 == 0 && e.p2 == 0
  | 2 => bits e.p0 63 7 == 0 && e.p2 == 0
  | 3 => bits e.p0 63 24 == 0 && e.p2 == 0
  | 4 => bits e.p0 63 7 == 0 && bits e.p1 63 32 == 0 && e.p2 == 0
  | _ => false
/-- A block that meets 15 R366 to R368 (copy code 0x0001 otherwise); the tensors are those the ids name. -/
def blockOk (b : Block) (src dst : End) : Bool :=
  let sameBits := src.ty == dst.ty && !src.mx && !dst.mx && !b.arith
  let pair := sameBits && src.ty ≤ 17 && src.ty != 16 ||
    (copyFloat src.ty || src.ty == 16) && copyFloat dst.ty && (!dst.mx || 13 ≤ dst.ty)
  let one := fun (x : End) =>
    endResv x.ep && (x.kind != 2 || Tensor.ty x.tensor == x.ty) &&
    (x.kind != 1 || (x.lay.ok && x.lay.eltBits == x.eltBits)) &&
    (!(x.eltBits == 4 && (x.kind == 0 || x.kind == 3)) ||
      (bits x.ep.p0 21 0 % 2 == 0 && bits x.ep.p1 31 0 % 2 == 0 && bits x.ep.p1 63 32 % 2 == 0)) &&
    (x.kind != 4 || (x.ty == 10 && b.dims 2 == 1 && decide (bits x.ep.p1 15 0 + b.dims 0 ≤ 48) && decide (bits x.ep.p1 31 16 + b.dims 1 ≤ 64)))
  pair && one src && one dst && b.dw 0 41 16 == 0 && b.dw 1 63 48 == 0 && b.dw 9 63 52 == 0 && b.dw 9 33 32 == 0 && b.dw 10 63 32 == 0 &&
    (List.range 5).all (fun k => List.getD b (11 + k) 0 == 0) && b.dw 9 31 28 != 0xE

/-! ### Global extents at issue (15 Table 15.4) -/

/-- The record that covers an address for a group: none while a walk must be awaited. -/
def State.covering (s : State) (gid : Nat) (g : Group) (va : Nat) : Option (Option RangeEntry) :=
  let l := s.launchOf g
  match (s.core (coreOf gid)).find l.asid va with
  | some e => some (some e)
  | none => match g.answer l.asid va with
    | some (.found e) => some (some e)
    | some (.miss _ _) => some none
    | none => none
/-- The failures of a run of n bytes, by the ranges it crosses: the walk it needs, or the faults. -/
def State.runFaults (s : State) (i : Iss) (a : Acc) (w : Nat) : Nat → Nat → Nat → Except Nat (List Flt)
  | 0, _, _ => .ok []
  | fuel + 1, va, n =>
    if n = 0 then .ok []
    else match s.covering i.gid i.g va with
      | none => .error va
      | some none => .ok [⟨0x10, 2, 0, some va, none⟩]
      | some (some e) =>
        let r := e.image
        let here := min n (r.limit - va)
        let off := va - r.base
        let t := if r.alias_ then r.target + r.blockBytes * (off / 64) else r.targetOf off
        let last := off + here - 1
        let tl := if r.alias_ then r.target + r.blockBytes * (last / 64) else r.targetOf last
        let perm : List Flt := if (s.permCodes r i.l.ctx a w t (r.scaleBase + off / 64) ++ s.permCodes r i.l.ctx a w tl (r.scaleBase + last / 64)).isEmpty
          then [] else [⟨0x10, 3, 0, some va, some (e.indexAt va)⟩]
        let window : List Flt :=
          if !r.part then []
          else if off < 64 * r.rlo ∨ 64 * r.rhi ≤ off then [⟨0x10, 4, 0, some va, some (e.indexAt va)⟩]
          else if 64 * r.rhi < off + here then [⟨0x10, 4, 0, some (r.base + 64 * r.rhi), some (e.indexAt (r.base + 64 * r.rhi))⟩] else []
        match s.runFaults i a w fuel (va + here) (n - here) with
        | .error v => .error v
        | .ok fs => .ok (perm ++ window ++ fs)
/-- The global runs of an endpoint, row by row, and its scale bytes. -/
def End.runs (x : End) (b : Block) : List (Nat × Nat) :=
  (List.range (b.dims 2)).flatMap fun e2 => (List.range (b.dims 1)).flatMap fun e1 =>
    match x.globals (0, e1, e2) with
    | [] => []
    | (va, _) :: _ =>
      let n := ((if x.eltBits = 4 ∧ !x.low (0, e1, e2) then 4 else 0) + b.dims 0 * x.eltBits + 7) / 8
      (if x.kind = 2 ∧ x.ty = 17 ∧ Tensor.split x.tensor then
        [(va, 4 * b.dims 0), (Tensor.second x.tensor false (x.tensorElt (0, e1, e2)), 4 * b.dims 0)]
       else [(va, n)]) ++
      (if x.mx then
        let s0 := Tensor.scaleAt x.tensor (x.tensorElt (0, e1, e2))
        [(s0, Tensor.scaleAt x.tensor (x.tensorElt (b.dims 0 - 1, e1, e2)) - s0 + 1)] else [])
/-- The failures of an endpoint's global extent. -/
def State.extentFaults (s : State) (i : Iss) (a : Acc) (x : End) (b : Block) : Except Nat (List Flt) :=
  (x.runs b).foldl (fun acc r => match acc with
    | .error v => .error v
    | .ok fs => match s.runFaults i a x.bytes (r.2 / 64 + 2) r.1 r.2 with
      | .error v => .error v
      | .ok gs => .ok (fs ++ gs)) (.ok [])
/-- Whether the local, B-slice or slot extent of an endpoint lies in bounds (copy code 0x0005). -/
def End.inBounds (x : End) (b : Block) (size : Nat) : Bool :=
  let top := if x.kind = 1 then size else 2 ^ 22
  (x.kind != 1 && x.kind != 3) ||
    (List.range (b.dims 2)).all fun e2 => (List.range (b.dims 1)).all fun e1 => (List.range (b.dims 0)).all fun e0 =>
      decide (x.inner (e0, e1, e2) + x.bytes ≤ top)

/-! ### Issue -/

/-- The tensor an endpoint names. -/
def endTensor (i : Iss) (s : State) (e : Endpoint) : Option Tensor :=
  if e.kind = 2 then (s.team i.g.team).tensor (s.ownSide i.gid i.g.team) (bits e.p0 6 0) else some []

/-- COPY once its block is read (15 R369, R373, R374). A CB4 source that is no tensor names no code table; the model takes table 0 (log 68). -/
def copyBlock (b : Block) (i : Iss) (s : State) : Res :=
  let se := b.endpoint false
  let de := b.endpoint true
  let st := endTensor i s se
  let dt := endTensor i s de
  let src : End := ⟨se, st.getD []⟩
  let dst : End := ⟨de, dt.getD []⟩
  let rights : List Flt := if i.g.spawned || i.g.index != i.l.producer then [⟨0xA, 1, 0, none, none⟩] else []
  let td : List Flt := if st.isNone || dt.isNone then [⟨0xB, 1, 0, none, none⟩] else []
  let held := fun (x : End) => match x.quarter with
    | some q => (s.unit (4 * coreOf i.gid + q)).holder == some i.g.team
    | none => true
  let unheld : List Flt := if held src && held dst then [] else [⟨0x0E, 3, 0, none, none⟩]
  let early := rights ++ td ++ unheld
  let ok := blockOk b src dst
  let size := s.scratchSize i.g.team
  if !td.isEmpty then .fault s early
  else if !ok then .fault s (early ++ [⟨0x10, 1, 0, none, none⟩])
  else match s.extentFaults i .read src b, s.extentFaults i .write dst b with
  | .error v, _ => .wait (s.askWalk i.gid i.g [v] false) i.g (.walk [v])
  | _, .error v => .wait (s.askWalk i.gid i.g [v] false) i.g (.walk [v])
  | .ok f1, .ok f2 =>
    let bound : List Flt := if src.inBounds b size && dst.inBounds b size && (!b.wantsWord || decide (b.dw 9 51 32 + 4 ≤ size)) then []
      else [⟨0x10, 5, 0, none, none⟩]
    let fs := early ++ f1 ++ f2 ++ bound
    if !fs.isEmpty then .fault s fs
    else if Config.copyQueue ≤ (s.die (dieOf i.gid)).copies.length then .wait s i.g .copies
    else match s.releaseOr i.gid i.g (max 3 (i.mb 8 6)) with
    | .error (s1, w) => .wait s1 i.g w
    | .ok s1 =>
      let d := s1.die (dieOf i.gid)
      let t := s1.team i.g.team
      let tbl := if src.kind = 2 ∧ src.ty = 16 then t.code (s1.ownSide i.gid i.g.team) (Tensor.table src.tensor) else t.code (s1.ownSide i.gid i.g.team) 0
      let src0 := if se.kind = 2 then some src.tensor else none
      let dst0 := if de.kind = 2 then some dst.tensor else none
      let ids := (if se.kind = 2 then [bits se.p0 6 0] else []) ++ (if de.kind = 2 then [bits de.p0 6 0] else [])
      let c : Copy :=
        { id := s1.nextCopy, block := b, srcTensor := src0, dstTensor := dst0, ids := ids, codes := tbl, gid := i.gid, core := coreOf i.gid,
          side := s1.ownSide i.gid i.g.team, team := i.g.team, task := i.g.task, scope := i.mb 8 6 }
      let s2 : State := { s1.setDie (dieOf i.gid) { d with copies := d.copies ++ [c] } with nextCopy := s1.nextCopy + 1 }
      let t2 := s2.team i.g.team
      let s3 := s2.setTeam i.g.team { t2 with copies := t.copies + 1 }
      .done (s3.countSluice (dieOf i.gid) 0x00 1) i.g i.next none

/-- COPY (15 R365, R366). -/
def copyEffect (i : Iss) (s : State) : Res :=
  let fs := groupLevel i ++ mustG [i.f.a]
  let pf := gPoisonFaults i [] [gIndex i.f.a]
  if !fs.isEmpty then .fault s fs
  else if !pf.isEmpty then .fault s pf
  else
    let va := (s.readG i.g 0 (gIndex i.f.a)).toNat % 2 ^ 56
    if va % 128 ≠ 0 then .fault s [⟨4, 5, 0, some va, none⟩]
    else loadImage 16 va i s fun b s1 => copyBlock b i s1

/-! ### The engine (15 R368, R370, R374) -/

/-- The number by which a copy asks other agents for data. -/
def copyWho (id : Nat) : Nat := 2 ^ 20 + id
def Copy.who (c : Copy) (s : State) : Who :=
  let l := s.teamLaunch c.team
  ⟨copyWho c.id, c.gid, c.team, l.asid, l.ctx, (s.task c.task).part, true, false, c.scope, false⟩
def Copy.src (c : Copy) : End := ⟨Block.endpoint c.block false, c.srcTensor.getD []⟩
def Copy.dst (c : Copy) : End := ⟨Block.endpoint c.block true, c.dstTensor.getD []⟩

/-- Why an element cannot be reached: the status the copy ends with, or a directory that is changing. -/
inductive Unreached where
  | ends (status : Nat)
  | later
  deriving DecidableEq, Repr
/-- A global run of an element as the engine reaches it. -/
def Copy.reach (c : Copy) (s : State) (a : Acc) (x : Nat × Nat) : Except Unreached Located :=
  match s.xlatCore (c.who s) c.core a x.2 x.1 with
  | .walk => .error .later
  | .fault _ _ _ => .error (.ends 2)
  | .ok p e =>
    let links := fun (p : Place) => match p with
      | .hbm t => s.linked (c.core / 16) (ownerDie t)
      | .host h => s.linked (c.core / 16) (homeDie h)
      | _ => true
    let all := match p with
      | .alias_ r off => links (s.placeOf (r.blockAt (off / 64))) && links (s.placeOf (r.scaleAt (off / 64)))
      | p => links p
    if all then .ok ⟨⟨0, x.1, x.2⟩, p, e⟩ else .error (.ends 5)

/-- Everything that a list of runs reaches, or why not. -/
def Copy.reachAll (c : Copy) (s : State) (a : Acc) : List (Nat × Nat) → Except Unreached (List Located)
  | [] => .ok []
  | x :: r => match c.reach s a x with
    | .error u => .error u
    | .ok l => match c.reachAll s a r with
      | .error u => .error u
      | .ok ls => .ok (l :: ls)

/-- What the engine reads of element e at an endpoint: its bits, its scale, and poison. Unit bytes and slots that an operation in flight
names read as unspecified (09 R255, 15 R373). -/
def Copy.readElt (c : Copy) (s : State) (x : End) (e : Nat × Nat × Nat) (at_ : List Located) (n : Nat) : State × Nat × Nat × Bool :=
  let nib := fun (v : Nat) => if x.eltBits = 4 then (if x.low e then v % 16 else v / 16 % 16) else v
  match x.kind with
  | 1 =>
    let t := s.team c.team
    let key := scratchKey c.side (x.inner e)
    (s, nib (t.readScratch key x.bytes), 127, t.scratchBad key x.bytes)
  | 3 =>
    let u := s.unit (4 * c.core + x.quarter.getD 0)
    let p := x.inner e
    let flight := (List.range x.bytes).any fun j => u.ops.any fun o => o.writesB (p + j)
    let v := if flight then (s.free (0x400000 + n)).toNat % 2 ^ (8 * x.bytes) else ofBytes ((List.range x.bytes).map fun j => tget 0 u.bslice (p + j))
    (s, nib v, 127, !flight && (List.range x.bytes).any fun j => tget false u.bPoison ((p + j) / 4))
  | 4 =>
    let u := s.unit (4 * c.core + x.quarter.getD 0)
    let flight := u.ops.any fun o => o.slots.contains (bits x.ep.p0 4 0)
    (s, if flight then (s.free (0x400000 + n)).toNat % 2 ^ 32 else (tget 0 u.acc (x.inner e)).toNat, 127,
      !flight && tget false u.accPoison (x.inner e))
  | _ =>
    let r := s.readAll (c.who s) at_
    let vs := r.2.map (·.2.1)
    let k := if x.kind = 2 ∧ x.ty = 17 then 2 else 1
    let v := if k = 2 then vs.getD 0 0 + vs.getD 1 0 * 2 ^ 32 else vs.getD 0 0
    (r.1, nib v, if x.mx then vs.getD k 127 else 127, r.2.any fun y => y.2.2 ≠ 0)

/-- The value of an element's bits (15 Table 15.3). -/
def Copy.decode (c : Copy) (x : End) (v scale : Nat) : FpVal :=
  let f := (Ty.ofCode x.ty).fmt
  if x.ty = 16 then fpDecode .bf16 (c.codes.getD v 0).toNat
  else if x.mx then mxValue f v scale else fpDecode f v
/-- A value written in a destination type. -/
def copyCode (ty : Nat) (v : FpVal) : Nat := (cvtF (Ty.ofCode ty).fmt .rne true false v).1

/-- Writes an element's bits at an endpoint that is no MX tensor. -/
def Copy.writeElt (c : Copy) (s : State) (x : End) (e : Nat × Nat × Nat) (at_ : List Located) (v : Nat) (bad : Bool) : State :=
  let half := x.eltBits == 4
  let merge := fun (old : Nat) => if half then (if x.low e then old / 16 * 16 + v % 16 else old % 16 + v % 16 * 16) else v
  match x.kind with
  | 1 =>
    let t := s.team c.team
    let key := scratchKey c.side (x.inner e)
    s.setTeam c.team (t.writeScratch key x.bytes (merge (t.readScratch key x.bytes)) s.clock bad)
  | 3 =>
    let k := 4 * c.core + x.quarter.getD 0
    let u := s.unit k
    let p := x.inner e
    let old := ofBytes ((List.range x.bytes).map fun j => tget 0 u.bslice (p + j))
    let bs := bytesOf x.bytes (merge old)
    s.setUnit k ((List.range x.bytes).foldl (fun (w : UnitSt) j => w.copyByte (p + j) s.clock (bs.getD j 0) bad (x.bytes % 4 == 0)) u)
  | 4 =>
    let k := 4 * c.core + x.quarter.getD 0
    s.setUnit k ((s.unit k).copyElt (x.inner e) s.clock (BitVec.ofNat 32 v) bad)
  | _ =>
    let w := c.who s
    match at_ with
    | [a, b] => ((s.performWrite w a (v % 2 ^ 32) bad).performWrite w b (v / 2 ^ 32) bad)
    | a :: _ =>
      if half then
        let r := s.performRead w a
        r.s.performWrite w a (merge r.v) (bad || r.bad ≠ 0)
      else s.performWrite w a v bad
    | [] => s

/-- The runs of an MX block: its element bytes and its scale. -/
def mxRuns (x : End) (blk : Nat × Nat × Nat × Nat) : List (Nat × Nat) :=
  let a := Tensor.addr x.tensor false blk
  (if x.eltBits = 4 then (List.range 16).map fun k => ((a + k) % 2 ^ 56, 1) else (List.range 32).map fun k => ((a + k) % 2 ^ 56, 1)) ++
    [(Tensor.scaleAt x.tensor blk, 1)]
/-- Writes values into an MX block as one action: decode, replace, quantise again (14 R351). -/
def Copy.writeBlock (c : Copy) (s : State) (x : End) (at_ : List Located) (vals : List (Nat × FpVal)) (blur : Nat → Nat → Nat → Nat) : State :=
  let w := c.who s
  let f := (Ty.ofCode x.ty).fmt
  let (s1, got) := s.readAll w at_
  let bad := got.any fun g => g.2.2 ≠ 0
  let byte := fun k => ((got.map (·.2.1)).getD k 0)
  let scale := (got.map (·.2.1)).getLastD 0
  let elt := fun k => if x.eltBits = 4 then (if k % 2 = 0 then byte (k / 2) % 16 else byte (k / 2) / 16) else byte k
  let vs := (List.range 32).map fun k => match vals.find? fun v => v.1 = k with
    | some v => v.2
    | none => mxValue f (elt k) scale
  let q := mxQuantise f (fun _ => .rne) vs
  let bytes := (packElts f q.2.1).map (·.toNat) ++ [q.1]
  (at_.zip bytes).foldl (fun (st : State) y => st.performWrite w y.1 (blur y.1.x.va 1 y.2) bad) s1

/-! ### Overlapping extents (15 R368) -/

/-- The space in which an endpoint's bytes lie: memory, the scratchpad, or a unit's B-slice or slots. -/
def End.space (x : End) : Nat × Nat := (if x.kind = 2 then 0 else x.kind, x.quarter.getD 0)
/-- The runs of bytes of element e in that space. -/
def End.place (x : End) (e : Nat × Nat × Nat) : List (Nat × Nat) :=
  match x.kind with
  | 0 | 2 => x.globals e
  | 4 => [(4 * x.inner e, 4)]
  | _ => [(x.inner e, x.bytes)]
/-- The runs of bytes of a copy's whole source. -/
def Copy.sourceRuns (c : Copy) : List (Nat × Nat) :=
  match c.src.kind with
  | 0 | 2 => c.src.runs c.block
  | _ => (List.range (Block.size c.block)).flatMap fun n => c.src.place (Block.element c.block n)
/-- A value of n bytes at a place of the destination: its bytes that lie in the source end unspecified (R7). -/
def Copy.blur (c : Copy) (s : State) (runs : List (Nat × Nat)) (at_ n v : Nat) : Nat :=
  if c.src.space != c.dst.space then v
  else ofBytes ((bytesOf n v).mapIdx fun k b =>
    if runs.any fun r => r.1 ≤ at_ + k && at_ + k < r.1 + r.2 then (s.free (0x500000 + (at_ + k) % 0x100000)).setWidth 8 else b)

/-- One chunk of a copy: the state after, with the copy's status when it ends here, or none; asks for data first when it must. -/
def Copy.chunk (c : Copy) (s : State) : State × Option Nat × Bool :=
  let b := c.block
  let w := c.who s
  let src := c.src
  let dst := c.dst
  let first := Config.chunkSize * c.chunks
  let es := (List.range (min Config.chunkSize (Block.size b - first))).map fun k => Block.element b (first + k)
  let alpha := fpDecode .f32 (Block.dw b 8 31 0)
  let beta := fpDecode .f32 (Block.dw b 8 63 32)
  let readsDst := Block.arith b && !beta.isZero
  let blocks := if dst.mx then (es.map fun e => let t := dst.tensorElt e; (t.1 / 32 * 32, t.2)).eraseDups else []
  let targets := if dst.mx then blocks.flatMap (mxRuns dst) else es.flatMap dst.globals
  let s := (es.flatMap src.globals ++ targets).foldl (fun (st : State) x => st.bring w c.core x.1) s
  let runs := if src.space != dst.space then [] else c.sourceRuns
  let blur := c.blur s runs
  let sr := c.reachAll s .read (es.flatMap src.globals)
  let dr := c.reachAll s .write targets
  match sr, dr with
  | .error (.ends n), _ => (s, some n, true)
  | .error .later, _ => (s, none, false)
  | _, .error (.ends n) => (s, some n, true)
  | _, .error .later => (s, none, false)
  | .ok sl, .ok dl =>
    let need := (sl.map fun l => ((l, SliceOp.read) : Located × SliceOp)) ++
      (if readsDst || dst.mx || dst.eltBits == 4 then dl.map fun l => ((l, SliceOp.read) : Located × SliceOp) else [])
    match s.askAll w .read need with
    | some s1 => (s1, none, false)
    | none => match s.askAll w .write (dl.map fun l => ((l, SliceOp.write 0 false) : Located × SliceOp)) with
      | some s1 => (s1, none, false)
      | none =>
        let per := (src.globals (0, 0, 0)).length
        let perD := (dst.globals (0, 0, 0)).length
        let idx := List.range es.length
        let got := idx.foldl (fun (a : State × List (Nat × Nat × Bool)) k =>
          let r := c.readElt a.1 src (es.getD k (0, 0, 0)) ((sl.drop (per * k)).take per) k
          (r.1, a.2 ++ [r.2])) (s, [])
        if got.2.any fun r => r.2.2 then (got.1, some 1, true)
        else
          let sameBits := src.ty == dst.ty && !src.mx && !dst.mx && !Block.arith b
          let value := fun (v scale : Nat) => c.decode src v scale
          let out := idx.foldl (fun (a : State × List (Nat × FpVal × Nat × Bool)) k =>
            let g := got.2.getD k (0, 127, false)
            let e := es.getD k (0, 0, 0)
            let sv := value g.1 g.2.1
            if Block.arith b then
              let dloc := if dst.mx then (match c.reachAll a.1 .write (dst.globals e) with | .ok l => l | .error _ => []) else (dl.drop (perD * k)).take perD
              let d := if readsDst then c.readElt a.1 dst e dloc (1024 + k) else (a.1, 0, 127, false)
              let dv := c.decode dst d.2.1 d.2.2.1
              let p := (exactMul alpha sv).1
              let t := rn32 (if readsDst then (exactAdd false p (exactMul beta dv).1).1 else p)
              (d.1, a.2 ++ [(k, t, copyCode dst.ty t, d.2.2.2)])
            else (a.1, a.2 ++ [(k, sv, if sameBits then g.1 else copyCode dst.ty sv, false)])) (got.1, [])
          let s2 := if dst.mx then
              (List.range blocks.length).foldl (fun (st : State) j =>
                let blk := blocks.getD j (0, 0, 0, 0)
                let n := (mxRuns dst blk).length
                let vals := out.2.filterMap fun o =>
                  let t := dst.tensorElt (es.getD o.1 (0, 0, 0))
                  if (t.1 / 32 * 32, t.2) = blk then some (t.1 % 32, o.2.1) else none
                c.writeBlock st dst ((dl.drop (n * j)).take n) vals blur) out.1
            else out.2.foldl (fun (st : State) o =>
              let e := es.getD o.1 (0, 0, 0)
              let v := if dst.ty = 17 then (match dst.place e with
                  | [x, y] => blur x.1 4 (o.2.2.1 % 2 ^ 32) + blur y.1 4 (o.2.2.1 / 2 ^ 32) * 2 ^ 32
                  | x :: _ => blur x.1 x.2 o.2.2.1
                  | [] => o.2.2.1)
                else blur (((dst.place e).map (·.1)).headD 0) dst.bytes o.2.2.1
              c.writeElt st dst e ((dl.drop (perD * o.1)).take perD) v o.2.2.2) out.1
          (s2.forget w.who, none, true)

/-! ### Team queues (01 R24; 15 R372) -/

/-- Pushes a word to q2 or q3 of a team on a side: a queue with 64 words discards it and marks the next; a saved team's word is held by
its die, up to 1,024; a word for a team that has ended is discarded. A q3 word that is discarded is counted at the port of the queue's core (17 R441). -/
def State.pushTeam (s : State) (team side q w : Nat) : State :=
  let t := s.team team
  let k := (if t.paired then 4 * side else 0) + q
  let d := t.core / 16
  let word := fun (t : Team) => BitVec.ofNat 32 (w + (if tget false t.lost k then 2 ^ 23 else 0))
  let drop := (s.setTeam team { t with lost := tset false t.lost k true })
  let drop := if q = 2 then drop.countSluice d 0x03 1 else drop.countPort (portOf (256 * (t.core + k / 4))) 5 1
  if (tfind s.teams team).isNone then s
  else if t.saved then
    let held : Nat := s.teams.foldl (fun n e => if e.2.saved && e.2.core / 16 == d then n + e.2.held.length else n) 0
    if 1024 ≤ held then drop else s.setTeam team { t with held := t.held ++ [(k, word t)], lost := tset false t.lost k false }
  else if 64 ≤ (tget [] t.queues k).length then drop
  else s.setTeam team { t with queues := tset [] t.queues k (tget [] t.queues k ++ [word t]), lost := tset false t.lost k false }

/-- The decrement of a handle by n, sent to the scheduler of its die (15 R382). -/
def State.sendDecrement (s : State) (h : BitVec 32) (n : Nat) (gid : Option Nat) : State :=
  let d := bits h 14 12
  let die := s.die d
  s.setDie d { die with decrements := die.decrements ++ [⟨h, n, gid⟩] }

/-- The completion actions of a copy that ends with a status (15 R372). -/
def State.endCopy (s : State) (d : Nat) (c : Copy) (status : Nat) : State :=
  let b := c.block
  let t := s.team c.team
  let s1 := if Block.wantsWord b then
      let v := if status = 0 then Block.dw b 9 31 0 else 0xE0000000 + status
      s.setTeam c.team (t.writeScratch (scratchKey c.side (Block.dw b 9 51 32)) 4 v s.clock false)
    else s
  let s2 := if Block.wantsDec b then s1.sendDecrement (BitVec.ofNat 32 (Block.dw b 10 31 0)) 1 none else s1
  let s3 := if Block.wantsPush b then
      s2.pushTeam c.team c.side 2 (status * 2 ^ 24 + fieldAt (c.engine.getD 0) 3 16 + Block.tag b)
    else s2
  let t3 := s3.team c.team
  let s4 := s3.setTeam c.team { t3 with copies := t3.copies - 1 }
  let die := s4.die d
  let s5 := s4.setDie d { die with copies := die.copies.filter fun x => x.id != c.id }
  if status = 0 then s5 else s5.countSluice d 0x01 1

def execCopy (f : Fields) (s : State) : Host.Outcome State Fault Refusal := memIssue .copy f s copyEffect

end Sys2Proof.Machine
end

