-- ==== Sys2Proof/Machine/Tasks.lean ====
section
/-! DEFINITION. The task scheduler: launch records, task slots, TDEC, LAUNCH, TSTAT, decrements, priorities, and the placement of teams
(15 R375 to R388; 07 R173, R174; 13 R326, R331). -/

namespace Sys2Proof.Machine

/-! ### The accesses of an engine -/

/-- What the accesses of an engine meet: every place, a wait (a directory that changes, an answer that is awaited), or the first that does
not translate. -/
inductive Reached where
  | ok (ls : List Located)
  | later (s : State)
  | fail (cls code va : Nat)

/-- The places of an engine's accesses at a core. -/
def State.places (s : State) (w : Who) (core : Nat) (a : Acc) : List (Nat × Nat) → Reached
  | [] => .ok []
  | x :: r => match s.xlatCore w core a x.2 x.1 with
    | .walk => .later s
    | .fault cls code _ => .fail cls code x.1
    | .ok p e => match s.places w core a r with
      | .ok ls => .ok (⟨⟨0, x.1, x.2⟩, p, e⟩ :: ls)
      | o => o
/-- Asks the walker for the records that an engine's accesses need at its core (10 R276). -/
def State.bringAll (s : State) (w : Who) (core : Nat) (xs : List (Nat × Nat)) : State :=
  if xs.all fun x => ((s.core core).find w.asid x.1).isSome then s else xs.foldl (fun (st : State) x => st.bring w core x.1) s
/-- The places, once nothing need be asked of the host or another package; the records are to be at hand. -/
def State.reachFor (s : State) (w : Who) (core : Nat) (k : Kind) (a : Acc) (xs : List (Nat × Nat)) : Reached :=
  match s.places w core a xs with
  | .ok ls => match s.askAll w k (ls.map fun l => (l, if k = .read then SliceOp.read else SliceOp.write 0 false)) with
    | some s1 => .later s1
    | none => .ok ls
  | o => o
/-- Whether the answers to a requester's writes are all in. -/
def State.quiet (s : State) (who : Nat) : Bool := !(s.ports.any fun p => p.2.waiting.any fun x => x.who = who)

/-! ### Launch records (15 Table 15.6) -/

/-- A launch record from its sixteen dwords. -/
def parseLaunch (w : List W64) : Launch :=
  let b := fun k hi lo => bits (w.getD k 0) hi lo
  { entry := BitVec.ofNat 56 (b 0 55 0), param := w.getD 1 0 &&& 0xFFFFFFFFFFFFFF, teams := b 2 63 32, size := b 2 31 16,
    width := if b 2 15 14 = 0 then 32 else if b 2 15 14 = 1 then 64 else 128, regs := b 2 8 0,
    prio := b 3 63 62, ctx := b 3 61 50, asid := b 3 49 38, super := b 3 32 32 == 1, producer := b 3 31 16, emptyMask := b 3 15 15 == 1,
    cntrd := b 3 14 14 == 1, scratch := b 3 7 4, stash := b 3 3 0,
    handler := BitVec.ofNat 56 (b 4 55 0), stashBase := BitVec.ofNat 56 (b 5 55 0),
    panTime := b 6 63 32, overflowCap := b 6 31 0, overflowBase := BitVec.ofNat 56 (b 7 55 0), area := BitVec.ofNat 56 (b 8 55 0),
    stride := b 9 63 0, seed := w.getD 10 0,
    succ := [BitVec.ofNat 32 (b 11 31 0), BitVec.ofNat 32 (b 11 63 32), BitVec.ofNat 32 (b 12 31 0), BitVec.ofNat 32 (b 12 63 32)],
    doneAddr := BitVec.ofNat 56 (b 13 55 0), doneValue := BitVec.ofNat 32 (b 14 31 0), count := b 15 15 0 }

/-- Whether a record keeps Table 15.6 (LAUNCH failure code 2 otherwise). -/
def recordOk (w : List W64) : Bool :=
  let b := fun k hi lo => bits (w.getD k 0) hi lo
  let l := parseLaunch w
  [0, 1, 4, 5, 7, 8, 13].all (fun k => b k 63 56 == 0) && b 2 13 9 == 0 && b 3 37 33 == 0 && b 3 13 8 == 0 &&
    b 14 63 32 == 0 && b 15 63 16 == 0 &&
    b 0 55 0 % 4 == 0 && decide (1 ≤ l.teams) && b 2 15 14 != 3 && decide (1 ≤ l.size ∧ l.size ≤ 16384) && l.size % l.width == 0 &&
    decide (l.producer < l.size / l.width) && decide (l.scratch + l.stash ≤ 8) && !(l.super && l.ctx != 0) &&
    b 4 55 0 % 4096 == 0 && b 5 55 0 % 2 ^ 17 == 0 && (l.stash != 0 || b 5 55 0 == 0) && b 7 55 0 % 256 == 0 && b 8 55 0 % 4096 == 0 &&
    l.stride % 4096 == 0 && b 13 55 0 % 4 == 0 && l.succ.all fun h => h == 0 || h.getLsbD 15

/-! ### Task slots (15 R375 to R384) -/

/-- The code of a state (15 Table 15.7). -/
def TaskState.code : TaskState → Nat
  | .free => 0 | .waiting => 1 | .ready => 2 | .running => 3 | .preempted => 4 | .completing => 5
/-- The state word of a slot (15 R384). -/
def Task.word (t : Task) : Nat :=
  let left := if t.state = .free then 0 else min (t.launch.teams - t.ended) 0xFFFFFF
  t.gen % 2 ^ 16 * 2 ^ 48 + t.state.code * 2 ^ 44 + t.effective % 4 * 2 ^ 42 + left * 2 ^ 16 + t.count % 2 ^ 16
/-- Target address of task slot k's 256 bytes; none before the die is configured. -/
def State.slotBase (s : State) (k : Nat) : Option Nat :=
  if (s.die (k / 4096)).config.isEmpty then none else some (s.taskBase (k / 4096) + 256 * (k % 4096))
/-- Changes a slot; the scheduler keeps its state word in memory. -/
def State.storeTask (s : State) (k : Nat) (t : Task) : State :=
  let s1 := s.setTask k t
  match s.slotBase k with
  | none => s1
  | some b => s1.ownWrite (k / 4096) 0 (b + 0x80) 8 t.word
/-- The task that a handle names, unless the handle is stale (15 R375). -/
def State.live (s : State) (h : BitVec 32) : Option (Nat × Task) :=
  let k := 4096 * bits h 14 12 + bits h 11 0
  let t := s.task k
  if h.getLsbD 15 && t.gen == bits h 31 16 then some (k, t) else none
/-- The lowest free slot of a die. -/
def State.freeSlot (s : State) (d : Nat) : Option Nat :=
  (List.range Config.taskSlots).find? fun i => (s.task (4096 * d + i)).state = .free
/-- Puts a launch into a slot (15 R383): waiting, or ready when its count is 0. -/
def State.occupy (s : State) (k : Nat) (w : List W64) (part : Nat) : State :=
  let l := parseLaunch w
  let old := s.task k
  let t : Task := { gen := old.gen, state := if l.count = 0 then .ready else .waiting, launch := l, count := l.count, effective := l.prio,
                    order := s.nextOrder, part := part }
  let s1 := if l.count = 0 then { s with nextOrder := s.nextOrder + 1 } else s
  let s2 := match s.slotBase k with
    | none => s1
    | some b => (List.range 16).foldl (fun (st : State) i => st.ownWrite (k / 4096) 0 (b + 8 * i) 8 (w.getD i 0).toNat) s1
  s2.storeTask k t

/-- Applies one decrement at its die's scheduler (15 R382). -/
def State.applyDecrement (s : State) (d : Nat) (x : Decrement) : State :=
  let s1 := match s.live x.handle with
    | none => s.countSluice d 0x04 1
    | some (k, t) =>
      if t.state = .waiting then
        let s1 := if t.count < x.n then s.countSluice d 0x05 1 else s
        let n := t.count - x.n
        if n = 0 then { s1.storeTask k { t with count := 0, state := .ready, order := s1.nextOrder } with nextOrder := s1.nextOrder + 1 }
        else s1.storeTask k { t with count := n }
      else s.countSluice d 0x05 1
  match x.gid with
  | none => s1
  | some g => s1.modGroup g fun g => { g with acks := g.acks - 1 }

/-! ### TASK instructions (15 R381 to R384) -/

/-- A handle register (illegal operand 0x0017 otherwise). -/
def handleFaults (v : W64) : List Flt := if bits v 63 32 ≠ 0 ∨ !v.getLsbD 15 then [⟨3, 0x17, 0, none, none⟩] else []

/-- TDEC. -/
def tdecEffect (i : Iss) (s : State) : Res :=
  let fs := groupLevel i ++ mustG [i.f.a]
  if !fs.isEmpty then .fault s fs
  else
    let v := s.readG i.g 0 (gIndex i.f.a)
    let fs := handleFaults v ++ gPoisonFaults i [gIndex i.f.a]
    if !fs.isEmpty then .fault s fs
    else match s.releaseOr i.gid i.g 4 with
      | .error (s1, w) => .wait s1 i.g w
      | .ok s1 =>
        let s2 := s1.modGroup i.gid fun g => { g with acks := g.acks + 1 }
        .done (s2.sendDecrement (v.setWidth 32) (i.mb 11 0) (some i.gid)) i.g i.next none

/-- What a launch record asks for beyond the issuing launch's rights (LAUNCH failure code 3). -/
def beyondRights (own l : Launch) : Bool :=
  (!own.super && (decide (own.prio < l.prio) || l.asid != own.asid || l.super)) || l.ctx != own.ctx

/-- LAUNCH. -/
def launchEffect (i : Iss) (s : State) : Res :=
  let fs := groupLevel i ++ mustG [i.f.d, i.f.a]
  let pf := gPoisonFaults i [] [gIndex i.f.a]
  if !fs.isEmpty then .fault s fs
  else if !pf.isEmpty then .fault s pf
  else
    let va := (s.readG i.g 0 (gIndex i.f.a)).toNat % 2 ^ 56
    if va % 128 ≠ 0 then .fault s [⟨4, 6, 0, some va, none⟩]
    else loadImage 16 va i s fun w s1 =>
      let p := i.mb 2 0
      if !recordOk w then gpResult i s1 2 p false
      else if beyondRights i.l (parseLaunch w) then gpResult i s1 3 p false
      else match s1.freeSlot (dieOf i.gid) with
        | none => gpResult i s1 1 p false
        | some n =>
          let k := 4096 * dieOf i.gid + n
          let s2 := s1.occupy k w (s1.task i.g.task).part
          gpResult i s2 ((s2.handle k).setWidth 64) p true

/-- TSTAT. -/
def tstatEffect (i : Iss) (s : State) : Res :=
  let fs := groupLevel i ++ mustG [i.f.d, i.f.a]
  if !fs.isEmpty then .fault s fs
  else
    let v := s.readG i.g 0 (gIndex i.f.a)
    let fs := handleFaults v ++ gPoisonFaults i [gIndex i.f.a]
    if !fs.isEmpty then .fault s fs
    else
      let t := s.task (4096 * bits v 14 12 + bits v 11 0)
      let w := if t.launch.ctx ≠ 0 ∧ t.launch.ctx ≠ i.l.ctx then 0 else BitVec.ofNat 64 t.word
      commitLanes [] (.reg i.f.d 2 2 true false) none false [(0, { words := halves w })] i s

def execTdec (f : Fields) (s : State) : Host.Outcome State Fault Refusal := memIssue .tdec f s tdecEffect
def execLaunch (f : Fields) (s : State) : Host.Outcome State Fault Refusal := memIssue .launch f s launchEffect
def execTstat (f : Fields) (s : State) : Host.Outcome State Fault Refusal := issue .tstat f s tstatEffect

/-! ### Priorities and queues (15 R386, R388) -/

/-- The largest own priority among the tasks reached from a list of successors by at most n edges through waiting tasks. -/
def State.inherited (s : State) : Nat → List (BitVec 32) → Nat
  | 0, _ => 0
  | n + 1, hs => hs.foldl (fun m h => match s.live h with
    | some (_, t) => if h ≠ 0 ∧ t.state = .waiting then max m (max t.launch.prio (s.inherited n t.launch.succ)) else m
    | none => m) 0
/-- The effective priority of a task. -/
def State.effectiveOf (s : State) (t : Task) : Nat := max t.launch.prio (s.inherited 4 t.launch.succ)
/-- Whether a task's effective priority is out of date. -/
def State.stalePriority (s : State) (t : Task) : Bool := t.state != .free && t.effective != s.effectiveOf t
/-- Gives every task its effective priority. -/
def State.recompute (s : State) : State :=
  s.tasks.foldl (fun (st : State) e => if s.stalePriority e.2 then st.storeTask e.1 { st.task e.1 with effective := s.effectiveOf e.2 } else st) s

/-- Whether a task waits for the dispatcher: teams left to place or to restore. -/
def Task.queued (t : Task) : Bool :=
  (t.state == .ready || t.state == .preempted || t.state == .running) && (decide (t.placed < t.launch.teams) || !t.savedTeams.isEmpty)
/-- Whether a task stands before another in its die's queues. -/
def Task.before (a b : Task) : Bool := decide (b.effective < a.effective) || (a.effective == b.effective && decide (a.order < b.order))
/-- The head task of a die's highest non-empty queue. -/
def State.headTask (s : State) (d : Nat) : Option (Nat × Task) :=
  s.tasks.foldl (fun (b : Option (Nat × Task)) e =>
    if e.1 / 4096 = d ∧ e.2.queued then (match b with
      | none => some e
      | some c => if e.2.before c.2 then some e else some c) else b) none

/-! ### Placement (15 R387) -/

/-- Free positions of a core. -/
def State.rowSpace (s : State) (core : Nat) : Nat := 256 - (s.groups.filter fun e => coreOf e.1 = core).foldl (fun n e => n + e.2.width / 32) 0
/-- Whether a team occupies a core. -/
def Team.on (t : Team) (core : Nat) : Bool := !t.saved && (t.core == core || (t.paired && t.core + 1 == core))
/-- Free local-memory steps of a core. -/
def State.stepsFree (s : State) (core : Nat) : Nat :=
  8 - (s.teams.filter fun e => e.2.on core).foldl (fun n e => n + (s.task e.2.task).launch.scratch + (s.task e.2.task).launch.stash) 0
/-- Whether teams may be placed on a core: its die is configured and it is not retired. -/
def State.usable (s : State) (core : Nat) : Bool :=
  !(s.die (core / 16)).config.isEmpty && !s.chofer.retired.contains core && !s.chofer.stopped
/-- Slots for n groups of width w on a core, each taken as 07 R174 places one. -/
def State.seats (s : State) (core w : Nat) : Nat → Option (List Nat)
  | 0 => some []
  | n + 1 => match s.slotFor core w with
    | none => none
    | some k => ((s.setGroup (256 * core + k) { width := w }).seats core w n).map (insertName k ·)
/-- The place of a team: the core, whether it spans a pair, and the slots on each core. -/
structure Seat where
  core   : Nat
  paired : Bool
  even   : List Nat
  odd    : List Nat
/-- The first of the seats with the most row space. -/
def bestSeat (l : List (Seat × Nat)) : Option Seat :=
  (l.foldl (fun (b : Option (Seat × Nat)) x => match b with
    | none => some x
    | some y => if y.2 < x.2 then some x else some y) none).map (·.1)
/-- The paired teams of a cluster, which its barrier unit holds (13 R331). -/
def State.pairedIn (s : State) (cl : Nat) : Nat := (s.teams.filter fun e => e.2.paired && !e.2.saved && e.2.core / 4 == cl).length
/-- The seat of one team on a core, or with two numbers of groups on the pair that begins with it, when there is room. A pair whose link is down takes
no paired team, also before its cores are retired: the spec leaves that to the supervisor (13 R339; log 57). -/
def State.seatAt (s : State) (l : Launch) (n : Nat × Option Nat) (ok : Nat → Nat → Bool) (c : Nat) : Option Seat :=
  let room := fun c side => s.usable c && ok c side && decide (l.scratch + l.stash ≤ s.stepsFree c)
  match n.2 with
  | none => if room c 0 then (s.seats c l.width n.1).map fun k => ⟨c, false, k, []⟩ else none
  | some m =>
    if c % 2 = 0 ∧ room c 0 ∧ room (c + 1) 1 ∧ s.pairedIn (c / 4) < 32 ∧ !((s.cluster (c / 4)).linkDown.contains (c / 2 % 2)) then
      match s.seats c l.width n.1, s.seats (c + 1) l.width m with
      | some a, some b => some ⟨c, true, a, b⟩
      | _, _ => none
    else none
/-- The best seat of a die for these numbers of groups: most row space, then the lowest. -/
def State.seatOn (s : State) (d : Nat) (l : Launch) (n : Nat × Option Nat) (ok : Nat → Nat → Bool) : Option Seat :=
  bestSeat (((List.range 16).map (16 * d + ·)).filterMap fun c =>
    (s.seatAt l n ok c).map fun x => (x, s.rowSpace c + (if x.paired then s.rowSpace (c + 1) else 0)))
/-- Where a new team of a launch goes on a die, when it fits: on one core, else on a pair. -/
def State.seatFor (s : State) (d : Nat) (l : Launch) : Option Seat :=
  let n := l.size / l.width
  match (if l.size ≤ 8192 then s.seatOn d l (n, none) (fun _ _ => true) else none) with
  | some x => some x
  | none => s.seatOn d l ((n + 1) / 2, some (n / 2)) (fun _ _ => true)
/-- The groups of a seat, in ascending index. -/
def Seat.gids (x : Seat) : List Nat := x.even.map (256 * x.core + ·) ++ x.odd.map (256 * (x.core + 1) + ·)

/-- A group of a launch at its start (15 R378). -/
def startGroup (l : Launch) (task team index stamp : Nat) : Group :=
  { ctx := { pc := l.entry, am := onesMask l.width, live := onesMask l.width, g := tset 0 [] 0 l.param }, width := l.width, task := task, team := team,
    index := index, stamp := stamp }
/-- The key of a team. -/
def teamKey (task index : Nat) : Nat := task * 2 ^ 32 + index

/-- Places the next team of a task (15 R378, R387). A group's start is an acquire at .pkg. -/
def State.placeTeam (s : State) (k : Nat) (x : Seat) : State :=
  let t := s.task k
  let key := teamKey k t.placed
  let gids := x.gids
  let tm : Team := { task := k, index := t.placed, core := x.core, paired := x.paired, groups := gids, members := gids.length, seed := s.freeCtr }
  let s1 := s.setTeam key tm
  let s2 := (List.range gids.length).foldl (fun (st : State) n =>
    let gid := gids.getD n 0
    let g := startGroup t.launch k key n st.nextStamp
    let st1 : State := { st.setGroup gid g with nextStamp := st.nextStamp + 1 }
    st1.acquire gid g 4) s1
  s2.storeTask k { t with state := .running, placed := t.placed + 1, placedAt := if t.placed = 0 then s.clock else t.placedAt }

/-! ### Completion (15 R385) -/

/-- Whether a collective that a group of a task pushed has not ended. -/
def State.inCollective (s : State) (k : Nat) : Bool :=
  s.ports.any fun p => p.2.handed.any (fun h => h.task == k) || p.2.running.any fun c => c.task == k
/-- The number by which the scheduler asks for the completion write of a task, and for what its teams' ends write back. -/
def taskWho (k : Nat) : Nat := 2 ^ 51 + k
/-- The scheduler as it acts for a task, at a core. -/
def State.scheduler (s : State) (k core : Nat) : Who :=
  let t := s.task k
  { who := taskWho k, gid := 256 * core, team := 0, asid := t.launch.asid, ctx := t.launch.ctx, part := t.part, engine := true }
/-- Whether the next completion action of a task can be taken: every team has ended, no collective of its groups runs, and every write made for
it so far is acknowledged. -/
def State.completes (s : State) (k : Nat) : Bool := (s.task k).state == .completing && !s.inCollective k && s.quiet (taskWho k)
/-- The completion write of a task, or, once that is acknowledged, the decrements of its successors and the end of its slot. -/
def State.completeTask (s : State) (k : Nat) : State :=
  let t := s.task k
  let l := t.launch
  let d := k / 4096
  let w := s.scheduler k (16 * d)
  let rest := fun (s : State) =>
    let s1 := l.succ.foldl (fun (st : State) h => if h = 0 then st else st.sendDecrement h 1 none) s
    (s1.storeTask k { gen := (t.gen + 1) % 2 ^ 16 }).forget (taskWho k)
  let written := fun (s : State) => if s.quiet (taskWho k) then rest s else s.storeTask k { t with written := true }
  if l.doneAddr = 0 ∨ t.written then rest s
  else
    let s0 := s.bringAll w (16 * d) [(l.doneAddr.toNat, 4)]
    match s0.reachFor w (16 * d) .write .write [(l.doneAddr.toNat, 4)] with
    | .later s1 => s1
    | .fail _ _ _ => rest (s0.countSluice d 0x08 1)
    | .ok ls => written (ls.foldl (fun (st : State) x => st.performWrite w x l.doneValue.toNat false) s0)

/-- Whether a team has ended but for its units: no group, no child in a pan or in the overflow area, no copy (15 R385). -/
def State.teamOver (s : State) (key : Nat) : Bool :=
  let t := s.team key
  t.groups.isEmpty && !t.saved && t.spilled == 0 && t.copies == 0 &&
    !(s.cores.any fun c => c.2.pans.any fun p => p.2.team == key)
/-- Whether it holds a unit or has operations in one. -/
def State.holdsUnit (s : State) (key : Nat) : Bool := s.units.any fun u => u.2.holder == some key || u.2.ops.any fun o => o.team == key
/-- The cores of a team. -/
def Team.cores (t : Team) : List Nat := if t.paired then [t.core, t.core + 1] else [t.core]
/-- Asks the host for what it may hold of the sectors that are about to be written back, and does not wait (log 62). -/
def State.askBacks (s : State) (w : Who) (xs : List Sector) : State := xs.foldl (fun (st : State) x => (st.askBackOf w x).getD st) s
/-- Writes back what a team's stash and the L1 of its cores hold dirty, and drops the stash (08 R206, R209; 15 R385). -/
def State.flushTeam (s : State) (w : Who) (key : Nat) : State :=
  let t := s.team key
  let s0 := s.askBacks w (t.stash.map (·.2) ++ t.cores.flatMap fun c => (s.core c).sectors.map (·.2))
  t.cores.foldl (fun (st : State) c => st.cleanL1 { w with gid := 256 * c }) (s0.cleanStash w key true)
/-- Ends a team that has ended: its stash is written back and its local memory is free; no unit was last held by it any more (08 R206; 09 R240;
15 R380, R385). -/
def State.endTeam (s : State) (key : Nat) : State :=
  if (tfind s.teams key).isSome && s.teamOver key && !s.holdsUnit key then
    let k := (s.team key).task
    let s1 := s.flushTeam (s.scheduler k (s.team key).core) key
    let t := s1.task k
    let s2 : State := { s1 with teams := tdel s1.teams key,
                                units := s1.units.map fun u => if u.2.lastHolder = some key then (u.1, { u.2 with lastHolder := none }) else u }
    s2.storeTask k { t with ended := t.ended + 1, state := if t.launch.teams ≤ t.ended + 1 then .completing else t.state }
  else s

/-! ### Victims (15 R389) -/

/-- The victim that the die pre-empts next: a running launch of effective priority 0 or 1, the lowest priority first, then the latest first
placement. Supervisor launches are never pre-empted (16 R398; log 59). -/
def State.victim (s : State) (d : Nat) : Option (Nat × Task) :=
  s.tasks.foldl (fun (b : Option (Nat × Task)) e =>
    if e.1 / 4096 = d ∧ e.2.state = .running ∧ e.2.effective ≤ 1 ∧ !e.2.launch.super then (match b with
      | none => some e
      | some c => if e.2.effective < c.2.effective ∨ (e.2.effective = c.2.effective ∧ c.2.placedAt ≤ e.2.placedAt) then some e else some c)
    else b) none
/-- Stops a launch: its slot is pre-empted and its copies are suspended after their current chunk. It is counted for the launch that is stopped (11
R314; 15 R390). -/
def State.stopTask (s : State) (k : Nat) : State :=
  let d := k / 4096
  let die := s.die d
  let s1 := s.setDie d { die with copies := die.copies.map fun c => if c.task = k then { c with suspended := true, engine := none } else c }
  (s1.storeTask k { s1.task k with state := .preempted }).countCtx (s.task k).launch.ctx d 21 0x07 1
/-- Whether a team stops: its launch is pre-empted and its image is not yet written (07 R197). -/
def State.stopping (s : State) (key : Nat) : Bool := (s.task (s.team key).task).state == .preempted && !(s.team key).saved
/-- Whether a pre-empted launch still has teams on cores. -/
def State.draining (s : State) (k : Nat) : Bool := s.teams.any fun e => e.2.task == k && !e.2.saved

end Sys2Proof.Machine
end

