-- ==== Sys2Proof/Machine/RangeOps.lean ====
section
/-! DEFINITION. RANGE: changes of a directory and of the cached copies of its records (10 R280 to R290; 13 R333 to R337). -/

namespace Sys2Proof.Machine

/-! ### Directories (13 R333 to R335) -/

/-- The entry of an address space as a requester that need not ask for it reads it. -/
def State.space (s : State) (w : Who) (d asid : Nat) : Space :=
  match (s.readWords w 0 (s.spaceEntry d asid) 2).2 with
  | some (ws, bad) => s.spaceOf d ws bad
  | none => ⟨false, 0, 0, 0, false⟩
/-- Record n of a directory, and all of them, likewise: what a record holds, spoilt or not (13 R338). -/
def State.recordAt (s : State) (w : Who) (sp : Space) (n : Nat) : RangeRec :=
  RangeRec.ofWords (((s.readWords w sp.gen (sp.dir + 32 * n) 4).2.map (·.1)).getD [])
def State.records (s : State) (w : Who) (sp : Space) : List RangeRec := (List.range sp.count).map (s.recordAt w sp)
/-- What reading a directory, and writing its records and the one after them, asks of other agents; none when nothing need be asked. -/
def State.askDir (s : State) (w : Who) (d asid : Nat) : Option State :=
  match s.readWords w 0 (s.spaceEntry d asid) 2 with
  | (s1, none) => some s1
  | (_, some (ws, bad)) =>
    let sp := s.spaceOf d ws bad
    if !sp.valid then none
    else s.askEach (List.range (min (sp.count + 1) 65536)) fun st n =>
      let t := sp.dir + 32 * n
      match st.placeOf t with
      | .host h => if st.linked (dieOf w.gid) (homeDie h) && st.hostNeeded .write h then some (st.sendHost w .write h) else none
      | .hbm a => if st.snoopNeeded .write a then some (st.sendSnoop w .write a) else none
      | _ => match st.readWords w sp.gen t 4 with
        | (s1, none) => some s1
        | _ => none
/-- What reading a directory does at the slices that hold it (14 R347, R356, R364). -/
def State.touchDir (s : State) (w : Who) (d asid : Nat) : State :=
  let sp := s.space w d asid
  (List.range (if sp.valid then sp.count else 0)).foldl (fun st n => (st.readWords w sp.gen (sp.dir + 32 * n) 4).1)
    (s.readWords w 0 (s.spaceEntry d asid) 2).1
/-- Writes a dword of a structure at a target address (13 R333). -/
def State.dirWrite (s : State) (w : Who) (t v : Nat) : State :=
  match s.placeOf t with
  | .hbm a => s.ownNow (dieOf w.gid) 0 a 8 v
  | .host h => s.writeHost w h 8 v false
  | .fabric pkg a => s.sendFabric w false pkg a 8 (backKey t) (.write (BitVec.ofNat 64 v) false) true
  | _ => s
/-- Whether a directory lies in another package, so that what is written there is awaited. -/
def State.farDir (s : State) (sp : Space) : Bool := match s.placeOf sp.dir with | .fabric _ _ => true | _ => false
/-- The second dword of an entry after a change: the next even generation, and the count. -/
def Space.after (sp : Space) (n : Nat) : Nat := (sp.gen + 2) % 2 ^ 32 * 2 ^ 32 + n
/-- Writes one record. -/
def State.writeRec (s : State) (w : Who) (at_ : Nat) (r : RangeRec) : State :=
  (((s.dirWrite w at_ r.w0.toNat).dirWrite w (at_ + 8) r.w1.toNat).dirWrite w (at_ + 16) r.w2.toNat).dirWrite w (at_ + 24) r.w3.toNat
/-- Writes a directory's records, those that differ and those of a list, then the entry: the change is at an end, or, while records are on their
way to another package, its generation is odd (13 R335). -/
def State.writeDir (s : State) (w : Who) (d asid : Nat) (sp : Space) (old rs : List RangeRec) (force : List Nat) : State :=
  let s1 := (List.range rs.length).foldl (fun (st : State) i => match rs[i]? with
    | none => st
    | some r => if old[i]? = some r ∧ !force.contains i then st else st.writeRec w (sp.dir + 32 * i) r) s
  s1.dirWrite w (s.spaceEntry d asid + 8) (if s.farDir sp then (sp.gen + 1) % 2 ^ 32 * 2 ^ 32 + rs.length else sp.after rs.length)

/-- Inserts a record in ascending order of base. -/
def insertRec (r : RangeRec) : List RangeRec → List RangeRec
  | [] => [r]
  | x :: t => if r.base < x.base then r :: x :: t else x :: insertRec r t
/-- Whether two extents overlap. -/
def overlaps (a b c d : Nat) : Bool := decide (a < d ∧ c < b)

/-! ### Cached copies (10 R286; 13 R337) -/

/-- Whether a core lies in a scope of code 2 to 5 seen from another core. -/
def inScope (scope from_ core : Nat) : Bool :=
  match scope with
  | 2 => from_ / 4 == core / 4
  | 3 => from_ / 16 == core / 16
  | _ => true
/-- Changes every cached copy of an address space's records in a scope, or drops it: range tables, cluster caches, and walk results on
their way. A dropped result's request is walked afresh. -/
def State.mapCopies (s : State) (scope core asid : Nat) (f : RangeEntry → Option RangeEntry) : State :=
  let one := fun (e : RangeEntry) => if e.image.asid = asid then f e else some e
  let ans := fun (a : WalkAnswer) => match a.res with
    | .found e => (one e).map fun x => { a with res := .found x }
    | .miss _ _ => some a
  let cl := fun (c : ClusterSt) =>
    let keep := c.results.filterMap fun r => match r.2 with
      | .found e => (one e).map fun x => (r.1, WalkResult.found x)
      | .miss _ _ => some r
    let again := c.results.filterMap fun r => match r.2 with
      | .found e => if (one e).isNone then some r.1 else none
      | .miss _ _ => none
    { c with cache := c.cache.filterMap (fun e => (one e.2).map fun x => (e.1, x)), results := keep, queue := again ++ c.queue }
  { s with
    cores := s.cores.map fun c => if inScope scope core c.1 then
      (c.1, { c.2 with rtable := c.2.rtable.filterMap one, answers := c.2.answers.filterMap fun a => (ans a.2).map (a.1, ·) }) else c
    clusters := s.clusters.map fun c => if inScope scope core (4 * c.1) then (c.1, cl c.2) else c
    groups := s.groups.map fun g => if inScope scope core (coreOf g.1) then (g.1, { g.2 with answers := g.2.answers.filterMap ans }) else g }
/-- Drops the copies that overlap an extent. -/
def State.dropCopies (s : State) (scope core asid lo hi : Nat) : State :=
  s.mapCopies scope core asid fun e => if overlaps e.image.base e.image.limit lo hi then none else some e
/-- The indices at which a copy of an extent stands in a directory: of the record at its base, and of those that begin within it. -/
def RangeEntry.reindex (e : RangeEntry) (rs : List RangeRec) : RangeEntry :=
  { e with index := (rs.findIdx? fun r => r.covers e.image.base).getD e.index,
           more := (List.range rs.length).filterMap fun n => (rs[n]?).bind fun r =>
             if e.image.base < r.base ∧ r.base < e.image.limit then some (r.base, n) else none }
/-- Gives every cached copy of an address space the indices that its range has in the directory: the index that fault records carry is that
of the time of the fault (13 R334). -/
def State.reindex (s : State) (asid : Nat) (rs : List RangeRec) : State := s.mapCopies 5 0 asid fun e => some (e.reindex rs)
/-- Marks the drains in flight in a scope whose accesses fall in an extent: they end aborted (09 R271). -/
def State.abortDrains (s : State) (scope core asid lo hi : Nat) : State :=
  let hit := fun (o : MatOp) => o.o == .mdrain && (s.teamLaunch o.team).asid == asid &&
    (let d := Drain.ofArgs o.f o.args
     let w := (o.weight.map (·.2)).getD []
     let m := (o.momentum.map (·.2)).getD []
     (d.elements w).any fun e => (d.writes w m e.2).any fun x => decide (x.1 < hi ∧ lo < x.1 + x.2))
  { s with units := s.units.map fun u =>
      if inScope scope core (u.1 / 4) then (u.1, { u.2 with ops := u.2.ops.map fun o => if hit o then { o with aborted := true } else o }) else u }
/-- Whether accesses of a scope to an extent of an address space are still to be performed: answers of other packages are awaited, or are here and not
yet used (R287), or groups await acknowledgements. -/
def State.accessing (s : State) (scope core asid lo hi : Nat) : Bool :=
  s.ports.any (fun p => p.2.waiting.any fun x => decide (x.va < hi ∧ lo < x.va + x.bytes) || (x.ack && decide (2 ^ 60 ≤ x.va))) ||
  (s.replies.any fun r => decide (r.va < hi ∧ lo < r.va + 8)) ||
  s.groups.any fun g => inScope scope core (coreOf g.1) && (s.launchOf g.2).asid == asid && g.2.acks != 0
/-- The teams of a scope whose stashes may hold an extent of an address space. -/
def State.stashesIn (s : State) (scope core asid : Nat) : List Nat :=
  (s.teams.filter fun e => inScope scope core e.2.core && !e.2.saved && !e.2.stash.isEmpty && (s.task e.2.task).launch.asid == asid).map (·.1)
/-- The sectors of a stash, with their keys, that lie in an extent. -/
def Team.sectorsIn (t : Team) (lo hi : Nat) : List (Nat × Sector) :=
  t.stash.filter fun e => overlaps (e.1 % 2 ^ 50 * 64) (e.1 % 2 ^ 50 * 64 + 64) lo hi
/-- The requester for what a RANGE instruction of a group has written back, at a core: its own counter does not count it. -/
def State.settler (s : State) (i : Iss) (core : Nat) : Who := { s.groupWho i.gid i.g with who := 2 ^ 54 + i.gid, gid := 256 * core, engine := true }
/-- Sees to it that the accesses of a scope to an extent are performed (10 R286, R288): dirty bytes of L1, and of the extent in stashes, are written
back, L1 drops what it holds clean, which was read before the change (R282), and the stashes drop the extent. It gives the state when all are, or what is awaited. -/
def State.settle (s : State) (i : Iss) (scope asid lo hi : Nat) : Except (State × Wait) State :=
  let core := coreOf i.gid
  let teams := s.stashesIn scope core asid
  let cores := (s.cores.filter fun c => inScope scope core c.1).map (·.1)
  match s.askEach (teams.flatMap (fun k => (s.team k).sectorsIn lo hi |>.map (·.2)) ++ cores.flatMap fun c => (s.core c).sectors.map (·.2))
      fun st x => st.askBackOf (s.groupWho i.gid i.g) x with
  | some s1 => .error (s1, .reply)
  | none =>
    let s1 := teams.foldl (fun (st : State) k =>
      let xs := (st.team k).sectorsIn lo hi
      let st1 := xs.foldl (fun (st : State) x => st.writeBackSector (s.settler i (st.team k).core) x.2) st
      st1.setTeam k { st1.team k with stash := (st1.team k).stash.filter fun e => !xs.any fun x => x.1 == e.1 }) s
    let s2 := cores.foldl (fun (st : State) c => let st1 := st.cleanL1 (s.settler i c); st1.setCore c ((st1.core c).mapSectors fun _ x => x.onlyDirty)) s1
    if s2.accessing scope core asid lo hi then .error (s2, .range scope asid lo hi) else .ok s2

/-! ### The shape of a RANGE instruction (10 R280) -/

/-- Writes the status to gd. -/
def rangeStatus (i : Iss) (s : State) (n : Nat) : Res :=
  commitLanes [] (.reg i.f.d 1 1 true false) none false [(0, { words := [BitVec.ofNat 32 n] })] i s

/-- A key (10 R281). -/
structure Key where
  asid : Nat
  va   : Nat
  resv : Bool
  deriving DecidableEq, Repr
def keyOf (v : W64) : Key := ⟨bits v 61 50, bits v 49 0 * 64, bits v 63 62 != 0⟩
/-- The directory record that covers an address, with its index. -/
def coveringRec (rs : List RangeRec) (va : Nat) : Option (Nat × RangeRec) :=
  (rs.findIdx? fun r => r.covers va).bind fun i => (rs[i]?).map fun r => (i, r)

/-- What a RANGE instruction comes to: a status that changes nothing; or the records after it, those of them that are written whatever they held,
the extent whose copies are dropped or changed once its accesses are performed, and the move it starts. -/
inductive Change where
  | no (status : Nat)
  | became (rs : List RangeRec) (force : List Nat) (extent : Option (Nat × Nat)) (move : Option Move)
  deriving DecidableEq, Repr

/-- What becomes of the copies in the scope: those of a range that begins to move take its new record, others of the extent are dropped. -/
def State.changeCopies (s : State) (i : Iss) (asid : Nat) (rs : List RangeRec) (x : Nat × Nat) (move : Option Move) : State :=
  let scope := i.mb 8 6
  let core := coreOf i.gid
  match move with
  | none => (s.dropCopies scope core asid x.1 x.2).abortDrains scope core asid x.1 x.2
  | some mv =>
    let s1 := s.mapCopies scope core asid fun e =>
      if !overlaps e.image.base e.image.limit x.1 x.2 then some e
      else match rs.find? fun r => r.base = e.image.base ∧ r.limit = e.image.limit with
        | some r => some { e with image := r }
        | none => none
    { s1 with moves := s1.moves ++ [mv] }
/-- Performs a change at one point (10 R282): the directory, the indices of every copy, and the copies in the scope. -/
def State.makeChange (s : State) (i : Iss) (asid : Nat) (sp : Space) (old rs : List RangeRec) (force : List Nat) (extent : Option (Nat × Nat))
    (move : Option Move) : State :=
  let s1 := (s.writeDir (i.who s) (dieOf i.gid) asid sp old rs force).reindex asid rs
  match extent with
  | none => s1
  | some x => s1.changeCopies i asid rs x move
/-- Ends a change whose records were on their way to another package. -/
def endChange (i : Iss) (s : State) (c : Nat × Nat) : Res :=
  let i1 := { i with g := { i.g with change := none } }
  if ((s.group? i.gid).getD i.g).acks ≠ 0 then .wait s i.g .acks else rangeStatus i1 (s.dirWrite (i.who s) c.1 c.2) 0

/-- A change of an address space's directory with release semantics at its scope: it waits for a change that is under way (13 R335), and for the accesses to its extent that are not yet
performed, and then takes effect at one point (10 R282, R286). -/
def applyChange (i : Iss) (asid : Nat) (s : State) (change : Space → List RangeRec → Change) : Res :=
  match s.releaseOr i.gid i.g (i.mb 8 6) with
  | .error (s1, w) => .wait s1 i.g w
  | .ok s1 => match s1.askDir (i.who s1) (dieOf i.gid) asid with
    | some s2 => .wait s2 i.g .reply
    | none =>
      let w := i.who s1
      let sp := s1.space w (dieOf i.gid) asid
      let rs := if sp.valid then s1.records w sp else []
      let s1 := s1.touchDir w (dieOf i.gid) asid
      if sp.valid && sp.gen % 2 = 1 then .wait ((s1.forget w.who).need w (.dir (dieOf i.gid) asid)) i.g .reply
      else match change sp rs with
      | .no n => rangeStatus i s1 n
      | .became new force extent move =>
        match (match extent with | some x => s1.settle i (i.mb 8 6) asid x.1 x.2 | none => .ok s1) with
        | .error (s2, w) => .wait s2 i.g w
        | .ok s2 =>
          let s3 := s2.makeChange i asid sp rs new force extent move
          if s1.farDir sp then .wait s3 { i.g with change := some (s1.spaceEntry (dieOf i.gid) asid + 8, sp.after new.length) } .acks
          else rangeStatus i s3 0

/-- A sub-op with a key: its operand checks, the resv bits and the address space (10 R281). -/
def keyed (i : Iss) (gs : List (BitVec 7)) (s : State) (bad : Bool) (change : Key → Space → List RangeRec → Change) : Res :=
  let fs := groupLevel i ++ mustG (i.f.d :: gs)
  let pf := gPoisonFaults i (gs.map gIndex)
  if !fs.isEmpty then .fault s fs
  else if !pf.isEmpty then .fault s pf
  else match i.g.change with
    | some c => endChange i s c
    | none =>
      let k := keyOf (s.readG i.g 0 (gIndex i.f.a))
      if k.resv || bad then rangeStatus i s 3 else applyChange i k.asid s (change k)

/-! ### RSET (10 R283) -/

/-- RSET and RSET.repl of an image. -/
def rsetChange (repl : Bool) (r : RangeRec) (sp : Space) (rs : List RangeRec) : Change :=
  let clash := fun (l : List RangeRec) => l.any fun x => overlaps x.base x.limit r.base r.limit
  if !r.ok || r.moving || !sp.valid then .no 3
  else if repl then
    match rs.findIdx? fun x => x.base = r.base with
    | none => .no 1
    | some n => match rs[n]? with
      | none => .no 1
      | some old =>
        if old.moving then .no 7
        else if clash (rs.eraseIdx n) then .no 2
        else .became (rs.set n r) [n] (some (r.base, max old.limit r.limit)) none
  else if clash rs then .no 2
  else if 65536 ≤ rs.length then .no 4
  else .became (insertRec r rs) [] none none

def rsetEffect (repl : Bool) (i : Iss) (s : State) : Res :=
  let fs := groupLevel i ++ mustG [i.f.d, i.f.a]
  let pf := gPoisonFaults i [] [gIndex i.f.a]
  if !fs.isEmpty then .fault s fs
  else if !pf.isEmpty then .fault s pf
  else match i.g.change with
    | some c => endChange i s c
    | none =>
      let va := (s.readG i.g 0 (gIndex i.f.a)).toNat % 2 ^ 56
      if va % 32 ≠ 0 then .fault s [⟨4, 3, 0, some va, none⟩]
      else loadImage 4 va i s fun w s1 =>
        let r : RangeRec := ⟨w.getD 0 0, w.getD 1 0, w.getD 2 0, w.getD 3 0⟩
        applyChange i r.asid s1 (rsetChange repl r)

/-! ### RSPLIT and RMERGE (10 R284) -/

/-- A record with a new extent, target and word at 0x18. -/
def RangeRec.piece (r : RangeRec) (base limit target : Nat) (w3 : W64) : RangeRec :=
  { w0 := BitVec.ofNat 64 (bits r.w0 63 56 * 2 ^ 56 + base + bits r.w0 5 0), w1 := BitVec.ofNat 64 (bits r.w1 63 50 * 2 ^ 50 + limit / 64),
    w2 := BitVec.ofNat 64 (bits r.w2 63 50 * 2 ^ 50 + target / 64), w3 := w3 }
/-- A window of 64-byte units; an empty one is 0 and 0. -/
def windowWord (lo hi : Nat) : W64 := if lo < hi then BitVec.ofNat 64 (hi * 2 ^ 32 + lo) else 0

def rsplitChange (k : Key) (_sp : Space) (rs : List RangeRec) : Change :=
  match coveringRec rs k.va with
  | none => .no 1
  | some (n, r) =>
    let off := k.va - r.base
    let cut := off / 64
    if r.moving then .no 7
    else if r.alias_ ∧ off % (if r.elemTy = 2 then 256 else 128) ≠ 0 then .no 7
    else if off = 0 then .no 6
    else if 65536 ≤ rs.length then .no 4
    else
      let low := if r.part then windowWord r.rlo (min r.rhi cut) else r.w3
      let up := if r.part then windowWord (max r.rlo cut - cut) (r.rhi - cut)
        else if r.alias_ then BitVec.ofNat 64 (bits r.w3 63 56 * 2 ^ 56 + (r.scaleBase + cut) % 2 ^ 56) else r.w3
      let upTarget := if r.alias_ then r.target + r.blockBytes * cut else r.target + off
      let a := r.piece r.base k.va r.target low
      let b := r.piece k.va r.limit upTarget up
      .became (rs.take n ++ [a, b] ++ rs.drop (n + 1)) [] none none

/-- The record that joins two, where they may be merged. Two whose joined record would break R275 are taken as not to be merged (status 5; log 72). -/
def joinRecs (a b : RangeRec) : Option RangeRec :=
  let n := a.size / 64
  let same := bits a.w0 63 56 == bits b.w0 63 56 && bits a.w0 5 0 == bits b.w0 5 0 && bits a.w1 63 50 == bits b.w1 63 50 && bits a.w2 63 50 == bits b.w2 63 50
  let cont := if a.alias_ then a.elemTy == b.elemTy && b.target == a.target + a.blockBytes * n && b.scaleBase == a.scaleBase + n
    else b.target == a.target + a.size
  let lo := b.rlo + n
  let hi := b.rhi + n
  let ea := decide (a.rhi ≤ a.rlo)
  let eb := decide (b.rhi ≤ b.rlo)
  let window := !a.part || ea || eb || decide (lo ≤ a.rhi)
  let w3 := if !a.part then a.w3 else if ea then windowWord lo hi else if eb then a.w3 else windowWord a.rlo hi
  let r := a.piece a.base b.limit a.target w3
  if same && cont && window && r.ok then some r else none

def rmergeChange (k : Key) (_sp : Space) (rs : List RangeRec) : Change :=
  match rs.findIdx? (fun r => r.limit = k.va), rs.find? fun r => r.base = k.va with
  | some n, some b =>
    match rs[n]? with
    | none => .no 1
    | some a =>
      if a.moving || b.moving then .no 7
      else match joinRecs a b with
        | none => .no 5
        | some r => .became (rs.take n ++ [r] ++ rs.drop (n + 2)) [] none none
  | _, _ => .no 1

/-! ### RINV (10 R286) -/

/-- RINV.del of a key: the range that covers it leaves the directory. -/
def rinvChange (k : Key) (_sp : Space) (rs : List RangeRec) : Change :=
  match coveringRec rs k.va with
  | none => .no 1
  | some (n, r) => if r.moving then .no 7 else .became (rs.eraseIdx n) [] (some (r.base, r.limit)) none
/-- RINV without .del: the copies of the range, or of the key's block, are dropped whether or not a range covers the key. -/
def rinvCopies (i : Iss) (k : Key) (s : State) : Res :=
  match s.askDir (i.who s) (dieOf i.gid) k.asid with
  | some s1 => .wait s1 i.g .reply
  | none =>
    let w := i.who s
    let sp := s.space w (dieOf i.gid) k.asid
    let (x, status) := match coveringRec (if sp.valid then s.records w sp else []) k.va with
      | some (_, r) => ((r.base, r.limit), 0)
      | none => ((k.va, k.va + 64), 1)
    match (s.touchDir w (dieOf i.gid) k.asid).settle i (i.mb 8 6) k.asid x.1 x.2 with
    | .error (s1, w) => .wait s1 i.g w
    | .ok s1 => rangeStatus i (s1.changeCopies i k.asid [] x none) status
def rinvEffect (i : Iss) (s : State) : Res :=
  if i.mbit 13 then keyed i [i.f.a] s false rinvChange
  else
    let fs := groupLevel i ++ mustG [i.f.d, i.f.a]
    let pf := gPoisonFaults i [gIndex i.f.a]
    if !fs.isEmpty then .fault s fs
    else if !pf.isEmpty then .fault s pf
    else
      let k := keyOf (s.readG i.g 0 (gIndex i.f.a))
      if k.resv then rangeStatus i s 3 else rinvCopies i k s

/-! ### RQRY (10 R285) -/

/-- RQRY: the walker walks for it whatever the cluster's range cache holds (13 R336). An illegal operand value precedes poison (01 R34). -/
def rqryEffect (i : Iss) (s : State) : Res :=
  let n := gIndex i.f.d
  let fs := groupLevel i ++ mustG [i.f.d, i.f.a] ++ (if (mustG [i.f.d]).isEmpty ∧ 8 < n then [⟨3, 0x15, 0, none, none⟩] else [])
  if !fs.isEmpty then .fault s fs
  else
    let k := keyOf (s.readG i.g 0 (gIndex i.f.a))
    let fs := gPoisonFaults i [gIndex i.f.a] ++ (if k.resv then [⟨3, 0x18, 0, none, none⟩] else [])
    if !fs.isEmpty then .fault s fs
    else
      let write := fun (ws : List W64) =>
        let c := (List.range 4).foldl (fun (c : Ctx) j => c.gSet (n + j) (s.mergeG i.g (n + j) (ws.getD j 0)) (s.mergeGBad i.g (n + j) 0)) i.ctx
        Res.done s { i.g with ctx := c } i.next (some { fixed := none, seq := i.g.issued, time := s.clock, load := false, regs := [],
                                                        gs := [n, n + 1, n + 2, n + 3], preds := [], flags := 0 })
      match i.g.answers.find? (·.raw) with
      | none =>
        let c := s.cluster (clusterOf i.gid)
        .wait (s.setCluster (clusterOf i.gid) { c with queue := c.queue ++ [{ gid := some i.gid, core := coreOf i.gid, asid := k.asid, va := k.va, ra := false, why := 2 }] })
          i.g (.walk [k.va])
      | some a => match a.res with
        | .found e => write [e.image.w0, e.image.w1, e.image.w2, e.image.w3]
        | .miss c _ => if c ≤ 2 then write [] else .fault s [⟨5, c, 0, some k.va, none⟩]

/-! ### RCOMP (10 R288) -/

/-- A record with M set, a new target and cursor 0. -/
def RangeRec.startMove (r : RangeRec) (new : Nat) : RangeRec :=
  { r with w0 := r.w0 ||| 0x400000000000000, w3 := BitVec.ofNat 64 (bitsOf new 39 8 * 2 ^ 32) }
/-- Whether a new target is invalid whatever the range. One whose bits [63:56] are not 0 is (log 72). -/
def badTarget (new : Nat) : Bool := new % 256 != 0 || decide (2 ^ 56 ≤ new)

def rcompChange (i : Iss) (new : Nat) (k : Key) (_sp : Space) (rs : List RangeRec) : Change :=
  match coveringRec rs k.va with
  | none => .no 1
  | some (n, r) =>
    if !RangeRec.moveOk r.base r.limit r.target new then .no 3
    else if r.alias_ || r.part || r.moving then .no 7
    else .became (rs.set n (r.startMove new)) [n] (some (r.base, r.limit))
      (some { asid := k.asid, base := r.base, size := r.size, src := r.target, dst := new, scope := i.mb 8 6, cluster := clusterOf i.gid })

def rcompEffect (i : Iss) (s : State) : Res :=
  let new := (s.readG i.g 1 (gIndex i.f.c)).toNat
  keyed i [i.f.a, i.f.c] s (badTarget new) (rcompChange i new)

def execRset (f : Fields) (s : State) : Host.Outcome State Fault Refusal := memIssue .rset f s (rsetEffect false)
def execRsetRepl (f : Fields) (s : State) : Host.Outcome State Fault Refusal := memIssue .rsetRepl f s (rsetEffect true)
def execRsplit (f : Fields) (s : State) : Host.Outcome State Fault Refusal :=
  memIssue .rsplit f s fun i s => keyed i [i.f.a] s false rsplitChange
def execRmerge (f : Fields) (s : State) : Host.Outcome State Fault Refusal :=
  memIssue .rmerge f s fun i s => keyed i [i.f.a] s false rmergeChange
def execRinv (f : Fields) (s : State) : Host.Outcome State Fault Refusal := memIssue .rinv f s rinvEffect
def execRqry (f : Fields) (s : State) : Host.Outcome State Fault Refusal := memIssue .rqry f s rqryEffect
def execRcomp (f : Fields) (s : State) : Host.Outcome State Fault Refusal := memIssue .rcomp f s rcompEffect

end Sys2Proof.Machine
end

