-- ==== Sys2Proof/Machine/Observe.lean ====
section
/-! DEFINITION. OBS: the region stack, the sampling word, watch slots and event counters (11 R300 to R304, R309, R312, R313). -/

namespace Sys2Proof.Machine

/-! ### The region stack (11 R301) -/

/-- ENTER on a context. -/
def Ctx.enter (c : Ctx) (id : BitVec 16) : Ctx :=
  { c with regions := if c.rdepth < 16 then id :: c.regions else c.regions, rdepth := min (c.rdepth + 1) 0xFFFF }
/-- LEAVE on a context. -/
def Ctx.leave (c : Ctx) : Ctx :=
  { c with regions := if c.rdepth ≤ 16 then c.regions.drop 1 else c.regions, rdepth := c.rdepth - 1 }

/-- The stop that follows an ENTER or LEAVE (11 R312): the sample stop of the group, or a region break on one of the codes given. -/
def edgeStop (i : Iss) (codes : List Nat) (g : Group) : Group :=
  if i.ra then g
  else match leastOf ((if g.edgeStop then [3] else []) ++ codes) with
    | none => g
    | some c => { g with edgeStop := false, stop := some (c, 0, 0) }

/-- ENTER. -/
def enterEffect (i : Iss) (s : State) : Res :=
  if !(groupLevel i).isEmpty then .fault s (groupLevel i)
  else
    let id := BitVec.ofNat 16 (i.f.c.toNat % 4 * 2 ^ 14 + i.f.mod.toNat)
    let hits := (List.range 4).filter fun k =>
      let sl := s.slot (dieOf i.gid) k
      bits (sl.getD 2 0) 3 0 == 4 && bits (sl.getD 2 0) 63 52 == i.l.asid && bits (sl.getD 2 0) 51 36 == id.toNat
    let s1 := if 16 ≤ i.ctx.rdepth then s.countFor i.gid i.g 0x28 1 else s
    .done s1 (edgeStop i (if hits.isEmpty then [] else [4]) { i.g with ctx := i.ctx.enter id }) i.next none

/-- LEAVE. -/
def leaveEffect (i : Iss) (s : State) : Res :=
  if !(groupLevel i).isEmpty then .fault s (groupLevel i)
  else if i.ctx.rdepth = 0 then .done (s.countFor i.gid i.g 0x29 1) (edgeStop i [] i.g) i.next none
  else .done s (edgeStop i [] { i.g with ctx := i.ctx.leave }) i.next none

/-! ### Watch slots (11 R309) -/

/-- A descriptor that keeps Table 11.4. -/
def watchOk (w : List W64) : Bool :=
  let b := fun k hi lo => bits (w.getD k 0) hi lo
  let kind := b 2 3 0
  b 0 63 56 == 0 && b 1 63 56 == 0 && b 2 35 5 == 0 && w.getD 3 0 == 0 && decide (kind ≤ 4) && (kind == 4 || b 2 51 36 == 0) &&
    b 0 55 0 % 4 == 0 && b 1 55 0 % 4 == 0 && (if kind = 0 ∨ kind = 4 then b 0 55 0 == 0 && b 1 55 0 == 0 else decide (b 0 55 0 < b 1 55 0))

/-- WATCH. -/
def watchEffect (i : Iss) (s : State) : Res :=
  let fs := groupLevel i ++ mustG [i.f.d, i.f.a]
  let pf := gPoisonFaults i [] [gIndex i.f.a]
  if !fs.isEmpty then .fault s fs
  else if !pf.isEmpty then .fault s pf
  else
    let va := (s.readG i.g 0 (gIndex i.f.a)).toNat % 2 ^ 56
    if va % 32 ≠ 0 then .fault s [⟨4, 4, 0, some va, none⟩]
    else loadImage 4 va i s fun w s1 =>
      if !watchOk w then rangeStatus i s1 3
      else
        let d := s1.die (dieOf i.gid)
        rangeStatus i (s1.setDie (dieOf i.gid) { d with watch := tput d.watch (i.mb 1 0) w }) 0

/-! ### The sampling word (11 R303, R304) -/

/-- Whether a sampling word may be set (illegal operand 0x0016 otherwise). -/
def samplingOk (w : W64) : Bool :=
  bits w 61 56 == 0 && bits w 47 32 == 0 && (!w.getLsbD 63 || decide (64 ≤ bits w 31 0 ∧ bits w 31 0 ≤ 2 ^ 31))
/-- Whether a word enables a quarter. -/
def samples (w : W64) (q : Nat) : Bool := w.getLsbD 63 && (bits w 51 48).testBit q
/-- Draws an interval n from ⌊N/2⌋ to ⌊3N/2⌋ for quarter q of a core: the instructions left before the one that is tagged (log 5). -/
def State.draw (s : State) (w : W64) (q : Nat) : Nat :=
  let n := bits w 31 0
  n / 2 + (s.free (0x170010 + q)).toNat % (3 * n / 2 - n / 2 + 1) - 1
/-- Sets the sampling word of a core: each quarter starts anew. -/
def State.setSampling (s : State) (core : Nat) (w : W64) : State :=
  let s1 := s.setCore core { s.core core with sampling := w }
  (List.range 4).foldl (fun (st : State) q =>
    let u := st.unit (4 * core + q)
    st.setUnit (4 * core + q) { u with tagNext := false, toTag := if samples w q ∧ u.tagged.isNone then some (s.draw w q) else none }) s1

/-- SAMPL. One that enables its own quarter is the first instruction that the quarter counts toward its interval (log 64). -/
def samplEffect (i : Iss) (s : State) : Res :=
  let fs := groupLevel i ++ mustG [i.f.d, i.f.a]
  if !fs.isEmpty then .fault s fs
  else
    let w := s.readG i.g 0 (gIndex i.f.a)
    let fs := (if samplingOk w then [] else [⟨3, 0x16, 0, none, none⟩]) ++ gPoisonFaults i [gIndex i.f.a]
    if !fs.isEmpty then .fault s fs
    else
      let core := 16 * dieOf i.gid + bits w 55 52
      commitLanes [] (.reg i.f.d 2 2 true false) none false [(0, { words := halves (s.core core).sampling })] i (s.setSampling core w)

/-! ### Event counters (11 R313) -/

/-- A counter of a core as CNTRD reads it; how many clk a quarter could not issue in is timing, and a free value (log 7). -/
def State.counter (s : State) (core e : Nat) : Nat :=
  if 4 ≤ e ∧ e < 8 then (s.free (0x1A0000 + e)).toNat else tget 0 s.counters ((22 * (core / 16) + core % 16) * 256 + e)

/-- CNTRD. -/
def cntrdEffect (i : Iss) (s : State) : Res :=
  if !i.l.super && !i.l.cntrd then .fault s [⟨0xF, 3, 0, none, none⟩]
  else
    let d : Dst := .reg i.f.d 1 1 true false
    let fs := dstFaults i [] d
    if !fs.isEmpty then .fault s fs
    else
      let v := BitVec.ofNat 32 (s.counter (coreOf i.gid) (i.mb 7 0))
      commitLanes [] d none false ((i.compute d).map fun l => (l, { words := [v] })) i s

def execEnter (f : Fields) (s : State) : Host.Outcome State Fault Refusal := issue .enter f s enterEffect
def execLeave (f : Fields) (s : State) : Host.Outcome State Fault Refusal := issue .leave f s leaveEffect
def execWatch (f : Fields) (s : State) : Host.Outcome State Fault Refusal := memIssue .watch f s watchEffect
def execSampl (f : Fields) (s : State) : Host.Outcome State Fault Refusal := issue .sampl f s samplEffect
def execCntrd (f : Fields) (s : State) : Host.Outcome State Fault Refusal := issue .cntrd f s cntrdEffect

end Sys2Proof.Machine
end

