-- ==== Sys2Proof/Machine/Images.lean ====
section
/-! DEFINITION. Team images and group images: forced save and its restoration, pre-emption of a team and its restoration (07 R187 to R189,
R197 to R203; 08 R226; 15 R372, R389). -/

namespace Sys2Proof.Machine

/-! ### Cells of an image -/

/-- A cell of an image: offset, bytes, value, and whether it is saved as poisoned memory (09 R272). -/
structure ImgCell where
  off : Nat
  n   : Nat
  v   : Nat
  bad : Bool

/-- The 8-byte cells of a value of n dwords at an offset. -/
def dwords (off n v : Nat) : List ImgCell := (List.range n).map fun k => ⟨off + 8 * k, 8, v >>> (64 * k) % 2 ^ 64, false⟩
/-- The next multiple of 256. -/
def padTo (n : Nat) : Nat := (n + 255) / 256 * 256

/-- The number by which the core asks for the accesses of a team's image. -/
def imageWho (key : Nat) : Nat := 2 ^ 53 + key
/-- The engine that writes and reads a team's image on a core. -/
def State.imager (s : State) (key core : Nat) : Who :=
  let l := s.teamLaunch key
  { who := imageWho key, gid := 256 * core, team := key, asid := l.asid, ctx := l.ctx, part := (s.task (s.team key).task).part, engine := true }
/-- The addresses of cells from a base. -/
def cellAddrs (base : Nat) (cs : List ImgCell) : List (Nat × Nat) := cs.map fun c => ((base + c.off) % 2 ^ 56, c.n)
/-- The places of the cells that translate, each with its cell; none while a walk is awaited. -/
def State.cellPlaces (s : State) (w : Who) (core base : Nat) (a : Acc) : List ImgCell → Option (List (Located × ImgCell))
  | [] => some []
  | c :: r => match s.places w core a [((base + c.off) % 2 ^ 56, c.n)], s.cellPlaces w core base a r with
    | .later _, _ => none
    | _, none => none
    | .ok (l :: _), some ls => some ((l, c) :: ls)
    | _, some ls => some ls
/-- Writes the cells of an image whose places translate: none while something must first be asked for. A cell that holds its value already
is left alone. -/
def State.writeCells (s0 : State) (w : Who) (core base : Nat) (cs : List ImgCell) : State × Bool :=
  let s := s0.bringAll w core (cellAddrs base cs)
  match s.cellPlaces w core base .write cs with
  | none => (s, false)
  | some at_ => match s.askAll w .write (at_.map fun x => (x.1, SliceOp.write 0 false)) with
  | some s1 => (s1, false)
  | none =>
    let holds := fun (x : Located × ImgCell) => match x.1.p with
      | .hbm t => !(match x.1.e with | some e => e.image.enc | none => true) && s.readMem t x.1.x.w == x.2.v && !x.2.bad && !s.anyPoison t x.1.x.w
      | _ => false
    ((at_.filter fun x => !holds x).foldl (fun (st : State) x => st.performWrite w x.1 x.2.v x.2.bad) s, true)
/-- Reads a cell of an image; its own value where it does not translate. -/
def State.readCell (s : State) (w : Who) (core base : Nat) (c : ImgCell) : Nat :=
  match s.places w core .read [((base + c.off) % 2 ^ 56, c.n)] with
  | .ok (l :: _) => match l.p with
    | .fabric _ _ => (match s.reply w.who l.x.va with | some r => r.v.toNat % 2 ^ (8 * c.n) | none => c.v)
    | _ => (s.performRead w l).v
  | _ => c.v
/-- Asks for what reading an image needs; none when nothing need be asked. -/
def State.askCells (s0 : State) (w : Who) (core base : Nat) (cs : List ImgCell) : Option State :=
  let s := s0.bringAll w core (cellAddrs base cs)
  match s.cellPlaces w core base .read cs with
  | none => some s
  | some at_ => s.askAll w .read (at_.map fun x => (x.1, SliceOp.read))

/-! ### Group images (07 R199, Table 7.8) -/

/-- GS. -/
def groupStride (l : Launch) : Nat := padTo (0x2C0 + (l.regs + 1) * (l.width / 32) * 132)
/-- The lanes of a predicate, two bits each. -/
def predWord (c : Ctx) (p w : Nat) : Nat := (List.range w).foldl (fun n l => n + (tget 0 c.preds (128 * p + l)).toNat * 2 ^ (2 * l)) 0
/-- The slices and poison words of a group: each word with its name and lane, or name and slice. -/
def sliceCells (c : Ctx) (w : Nat) : List ImgCell :=
  let k := w / 32
  let n := c.bound.length
  let idx := List.range n
  (idx.flatMap fun j => (List.range w).map fun l => ⟨0x2C0 + (j * k + l / 32) * 128 + 4 * (l % 32), 4, (c.vGet (c.bound.getD j 0) l).toNat, false⟩) ++
    (idx.flatMap fun j => (List.range k).map fun sl =>
      ⟨0x2C0 + n * k * 128 + 4 * (j * k + sl), 4,
        (List.range 32).foldl (fun m b => if c.vBad (c.bound.getD j 0) (32 * sl + b) = 0 then m else m + 2 ^ b) 0, false⟩)
/-- The state code of a saved group with what the code 2 records. -/
def imageState (g : Group) : Nat × Nat :=
  match g.stat with
  | .parkedFault | .saved _ true => (1, 0)
  | .waiting (.barrier id par _ _) | .saved (some (.barrier id par _ _)) _ => (2, (if par then 2 ^ 63 else 0) + id % 4 * 2 ^ 61)
  | _ => (0, 0)
/-- A group image. -/
def groupImage (g : Group) (order : Nat) : List ImgCell :=
  let c := g.ctx
  let st := imageState g
  [⟨0, 8, st.1 * 2 ^ 56 + c.pc.toNat, false⟩, ⟨8, 8, st.2 + c.wbase * 2 ^ 32 + c.fpsr.toNat, false⟩,
   ⟨0x10, 8, (if g.spawned then 2 ^ 57 else 0) + (if c.inHandler then 2 ^ 56 else 0) + c.trapPc.toNat, false⟩] ++
  dwords 0x18 2 c.trapAm.toNat ++ dwords 0x28 2 c.am.toNat ++ dwords 0x38 2 c.live.toNat ++
  ((List.range 8).flatMap fun k => dwords (0x48 + 16 * k) 2 (c.maskGet k).toNat) ++
  ((List.range 7).flatMap fun k => dwords (0xC8 + 32 * k) 4 (predWord c (k + 1) g.width)) ++
  ((List.range 12).map fun k => ⟨0x1A8 + 8 * k, 8, (c.gGet k).toNat, false⟩) ++
  [⟨0x208, 8, (List.range 12).foldl (fun n k => if c.gBad k = 0 then n else n + 2 ^ k) 0, false⟩] ++
  ((List.range 16).map fun k => ⟨0x210 + 2 * k, 2, (c.regions.reverse.getD k 0).toNat, false⟩) ++
  [⟨0x230, 8, c.rdepth, false⟩, ⟨0x238, 8, order % 2 ^ 16 * 2 ^ 32 + c.bound.length, false⟩] ++
  dwords 0x240 8 (c.bound.foldl (fun n b => n + 2 ^ b) 0) ++
  (match st.1, g.fault with
   | 1, some r => (List.range 8).map fun k => ⟨0x280 + 8 * k, 8, (r.words.getD k 0).toNat, false⟩
   | _, _ => dwords 0x280 8 0) ++
  sliceCells c g.width

/-- The context of a restored group: what the supervisor may write while it is saved is read from its image (07 R202). -/
def restoredCtx (g : Group) (rd : ImgCell → Nat) : Ctx :=
  let c := g.ctx
  let w := g.width
  let k := w / 32
  let n := c.bound.length
  let q := fun off => rd ⟨off, 8, 0, false⟩
  let bad := q 0x208
  let masks := (List.range 8).foldl (fun t i => tset 0 t i (BitVec.ofNat 128 (q (0x48 + 16 * i) + q (0x50 + 16 * i) * 2 ^ 64) &&& onesMask w)) ([] : Table LaneMask)
  let preds := (List.range 7).foldl (fun (t : Table (BitVec 2)) i =>
    let v := q (0xC8 + 32 * i) + q (0xD0 + 32 * i) * 2 ^ 64 + q (0xD8 + 32 * i) * 2 ^ 128 + q (0xE0 + 32 * i) * 2 ^ 192
    (List.range w).foldl (fun (t : Table (BitVec 2)) l => tset 0 t (128 * (i + 1) + l) (BitVec.ofNat 2 (v >>> (2 * l)))) t) []
  let c1 : Ctx := { c with
    fpsr := BitVec.ofNat 6 (q 8), masks := masks, preds := preds,
    g := (List.range 12).foldl (fun t i => tset 0 t i (BitVec.ofNat 64 (q (0x1A8 + 8 * i)))) ([] : Table W64),
    gPoison := (List.range 12).foldl (fun t i => tset 0 t i (if bad.testBit i then max 1 (c.gBad i) else 0)) ([] : Table Nat) }
  (List.range n).foldl (fun (d : Ctx) j =>
    let name := c.bound.getD j 0
    (List.range w).foldl (fun (d : Ctx) l =>
      let v := rd ⟨0x2C0 + (j * k + l / 32) * 128 + 4 * (l % 32), 4, 0, false⟩
      let p := rd ⟨0x2C0 + n * k * 128 + 4 * (j * k + l / 32), 4, 0, false⟩
      d.vSet name l (BitVec.ofNat 32 v) (if p.testBit (l % 32) then max 1 (c.vBad name l) else 0)) d) c1

/-! ### Team images (07 R198, Table 7.7; the offsets of its sections are the model's choice, log 24) -/

/-- Base of a team's image on a side of its pair. -/
def State.imageBase (s : State) (key side : Nat) : Nat :=
  let l := s.teamLaunch key
  let b := l.area.toNat + (s.team key).index * l.stride
  if side = 0 then b else b + l.stride / 2
/-- The core of a team on a side. -/
def Team.coreOn (t : Team) (side : Nat) : Nat := t.core + side
/-- The side of a group of a team. -/
def State.sideIn (s : State) (key gid : Nat) : Nat := if (s.team key).paired then sideOf gid else 0
/-- Offset of the group images, and of the first section after them. -/
def groupsAt : Nat := 0x100
def sectionsAt (l : Launch) : Nat := padTo (groupsAt + 256 / (l.width / 32) * groupStride l)
/-- Offset of the image of the group of a slot. -/
def groupAt (l : Launch) (slot : Nat) : Nat := groupsAt + slot / (l.width / 32) * groupStride l

/-- The quarters of a core whose units a team holds. -/
def State.heldQuarters (s : State) (key core : Nat) : List Nat := (List.range 4).filter fun q => (s.unit (4 * core + q)).holder == some key
/-- A queue as a count and its words, from an offset; with the offset after it. -/
def queueCells (off : Nat) (q : List W32) : List ImgCell × Nat :=
  (⟨off, 4, q.length, false⟩ :: (List.range q.length).map fun k => ⟨off + 4 + 4 * k, 4, (q.getD k 0).toNat, false⟩, off + 4 + 4 * q.length)
/-- Several queues one after the other. -/
def queuesCells (off : Nat) : List (List W32) → List ImgCell × Nat
  | [] => ([], off)
  | q :: r =>
    let a := queueCells off q
    let b := queuesCells a.2 r
    (a.1 ++ b.1, b.2)
/-- A pan: its key (launch, team index and entry), its timer, and its children. -/
def panCells (off launch index elapsed : Nat) (p : Pan) : List ImgCell × Nat :=
  ([⟨off, 8, launch + index % 2 ^ 32 * 2 ^ 32, false⟩, ⟨off + 8, 8, p.entry.toNat, false⟩, ⟨off + 16, 4, elapsed % 2 ^ 32, false⟩, ⟨off + 20, 4, p.children.length, false⟩] ++
    ((List.range p.children.length).flatMap fun k => (List.range 4).map fun a =>
      ⟨off + 24 + 16 * k + 4 * a, 4, ((p.children.getD k []).getD a 0).toNat, false⟩), off + 24 + 16 * p.children.length)
def pansCells (off launch index now : Nat) : List Pan → List ImgCell × Nat
  | [] => ([], off)
  | p :: r =>
    let a := panCells off launch index (now - p.started) p
    let b := pansCells a.2 launch index now r
    (a.1 ++ b.1, b.2)

/-- The pans of a team on a core. -/
def State.teamPans (s : State) (key core : Nat) : Table Pan := (s.core core).pans.filter fun p => p.2.team == key

/-- The cells of a team's image on a side, but for the group images. -/
def State.teamImage (s : State) (key side nGroups : Nat) : List ImgCell :=
  let t := s.team key
  let l := s.teamLaunch key
  let core := t.coreOn side
  let qs := s.heldQuarters key core
  let size := s.scratchSize key
  let o1 := sectionsAt l
  let o2 := padTo (o1 + size)
  let o3 := o2 + 32 * 12288 * qs.length
  let o4 := o3 + 2 ^ 22 * qs.length
  let o5 := padTo (o4 + 128 * 64 + 128)
  let qk := if t.paired then 4 * side else 0
  let queues := queuesCells o5 ((qs.flatMap fun q => [(s.unit (4 * core + q)).q0, (s.unit (4 * core + q)).q1]) ++
    [tget [] t.queues (qk + 2), tget [] t.queues (qk + 3)])
  let o6 := padTo queues.2
  let pans := pansCells o6 (s.handle t.task).toNat t.index s.clock ((s.teamPans key core).map (·.2))
  let bar := (List.range 4).foldl (fun n b => n + ((if tget false t.parity b then 2 ^ 15 else 0) + tget 0 t.arrivals b % 512) * 2 ^ (16 * b)) 0
  [⟨0, 8, 2 ^ 63 + nGroups * 2 ^ 32 + (qs.foldl (fun n q => n + 2 ^ (4 + q)) 0) + (if t.paired then 8 else 0), false⟩,
   ⟨8, 8, size, false⟩, ⟨0x10, 8, o1, false⟩, ⟨0x18, 8, o2, false⟩, ⟨0x20, 8, o3, false⟩, ⟨0x28, 8, o4, false⟩, ⟨0x30, 8, o5, false⟩, ⟨0x38, 8, o6, false⟩, ⟨0x40, 8, groupsAt, false⟩,
   ⟨0x48, 8, groupStride l, false⟩, ⟨0x50, 8, bar, false⟩] ++ dwords 0x58 21 0 ++
  ((List.range size).map fun k => ⟨o1 + k, 1, (t.scratchByte (scratchKey side k)).toNat, t.scratchBad (scratchKey side k) 1⟩) ++
  ((List.range qs.length).flatMap fun j => (List.range (32 * 3072)).map fun e =>
    ⟨o2 + 32 * 12288 * j + 4 * e, 4, (tget 0 (s.unit (4 * core + qs.getD j 0)).acc e).toNat, tget false (s.unit (4 * core + qs.getD j 0)).accPoison e⟩) ++
  ((List.range qs.length).flatMap fun j => (List.range (2 ^ 22)).map fun b =>
    ⟨o3 + 2 ^ 22 * j + b, 1, (tget 0 (s.unit (4 * core + qs.getD j 0)).bslice b).toNat, false⟩) ++
  ((List.range 128).flatMap fun id => (List.range 8).map fun k =>
    ⟨o4 + 64 * id + 8 * k, 8, (((t.tensor side id).getD []).getD k 0).toNat, false⟩) ++
  ((List.range 64).map fun e => ⟨o4 + 128 * 64 + 2 * e, 2, (tget 0 t.codes (64 * side + e)).toNat, false⟩) ++
  queues.1 ++ pans.1

/-! ### Samples that end early (11 R305) -/

/-- Writes the record of a quarter's tagged instruction and starts the next interval. -/
def State.writeSample (s : State) (k : Nat) (early : Bool) : State :=
  let u := s.unit k
  match u.tagged with
  | none => s
  | some (gid, w) =>
    let w := if early then w.set 4 (w.getD 4 0 ||| 0x2000000000) else w
    let word := (s.core (k / 4)).sampling
    let ctx := bits (w.getD 2 0) 63 32
    let s1 := if ctx = 0 then s.recordOut (k / 64) 0 2 64 w
      else (s.recordOut (k / 64) ctx 2 64 w).recordOut (k / 64) 0 2 64
        [BitVec.ofNat 64 (bits (w.getD 0 0) 63 56 * 2 ^ 56), w.getD 1 0, w.getD 2 0, 0, 0x1000000000, 0, 0, 0]
    let s2 := s1.setUnit k { s1.unit k with tagged := none, toTag := if samples word (k % 4) then some (s.draw word (k % 4)) else none }
    if word.getLsbD 62 ∧ samples word (k % 4) then s2.modGroup gid fun g => { g with edgeStop := true } else s2
/-- Ends the following of a group's tagged instruction. -/
def State.endSample (s : State) (gid : Nat) : State :=
  match (s.unit (unitOf gid)).tagged with
  | some (g, _) => if g = gid then s.writeSample (unitOf gid) true else s
  | none => s

/-! ### Leaving a slot -/

/-- Drops a group's walk requests and answers on their way, and the answers of other agents that it has not used. -/
def State.dropRequests (s : State) (gid : Nat) : State :=
  let cl := clusterOf gid
  let c := s.cluster cl
  (s.setCluster cl { c with queue := c.queue.filter (fun r => r.gid != some gid), results := c.results.filter fun r => r.1.gid != some gid }).forget gid
/-- Whether a group has an ATOM under way in another package, which takes effect there before the group has its answer: the group completes it
before it is saved (07 R188, R197, R203). -/
def State.midAtom (s : State) (gid : Nat) : Bool :=
  (s.ports.any fun p => p.2.waiting.any fun x => x.who == gid && x.atom) || s.replies.any fun r => r.who == gid && r.atom
/-- Whether nothing that a group has issued is outstanding. -/
def State.drained (s : State) (gid : Nat) (g : Group) : Bool :=
  g.outst.isEmpty && g.ra.isNone && g.stop.isNone && s.quiet gid && !s.storing gid && !s.midAtom gid && g.change.isNone

/-! ### Forced save (07 R187 to R189) -/

/-- Whether the oldest group of a quarter waits for slices that are not free, beyond those that its instruction frees (R186): n, when so. -/
def State.starved (s : State) (k : Nat) : Option (Nat × Nat) :=
  s.groups.findSome? fun e =>
    if unitOf e.1 = k ∧ s.oldest e.1 e.2 then (match e.2.stat with
      | .waiting (.pool n frees) => if (s.setGroup e.1 (e.2.free frees)).freeSlices k < n then some (e.1, n) else none
      | _ => none) else none
/-- The youngest group of a quarter that holds a slice, other than the oldest. -/
def State.youngest (s : State) (k oldest : Nat) : Option (Nat × Group) :=
  s.groups.foldl (fun (b : Option (Nat × Group)) e =>
    if unitOf e.1 = k ∧ e.1 ≠ oldest ∧ slicesOf e.2 ≠ 0 then (match b with
      | none => some e
      | some c => if c.2.stamp < e.2.stamp then some e else some c) else b) none
/-- The group that a quarter saves next, when it must (07 R187). -/
def State.saveVictim (s : State) (k : Nat) : Option (Nat × Group) :=
  if s.groups.any fun e => unitOf e.1 = k ∧ e.2.ra.isSome then none
  else (s.starved k).bind fun o => (s.youngest k o.1).bind fun v =>
    match v.2.stat with
    | .waiting (.arriving _ _ _) | .ended => none
    | _ => if s.quiet v.1 && !s.storing v.1 && !s.midAtom v.1 && v.2.stop.isNone && v.2.change.isNone then some v else none
/-- What a saved group waits for and whether a fault parks it. -/
def savedStat (g : Group) : Stat :=
  match g.stat with
  | .waiting (.barrier id par back _) => .saved (some (.barrier id par back)) false
  | .parkedFault => .saved none true
  | _ => .saved none false
/-- A group's place in the order of start of its team. -/
def State.startOrder (s : State) (g : Group) : Nat := (s.groups.filter fun e => e.2.team == g.team && decide (e.2.stamp < g.stamp)).length
/-- Forced save of the victim of a quarter: its results are written, its image is written, and its slices are free. -/
def State.forceSave (s : State) (k : Nat) : State :=
  match s.saveVictim k with
  | none => s
  | some (gid, g0) =>
    let g := g0.written
    let l := s.launchOf g
    let core := coreOf gid
    let base := s.imageBase g.team (s.sideIn g.team gid)
    let w := s.imager g.team core
    let g1 := { g with stat := savedStat g, answers := [], age := 0, aged := false }
    let cs := (groupImage g1 (s.startOrder g)).map fun c => { c with off := c.off + groupAt l (slotOf gid) }
    match s.writeCells w core base cs with
    | (s1, false) => s1
    | (s1, true) =>
      let s2 := ((s1.setGroup gid g1).dropRequests gid).endSample gid
      let u := s2.unit k
      (s2.setUnit k { u with current := if u.current = some gid then none else u.current }).countFor gid g (0x18 + k % 4) 1

/-- The saved group of a quarter that is restored next, when its slices plus 64 are free (07 R189). -/
def State.restoreNext (s : State) (k : Nat) : Option (Nat × Group) :=
  let best := s.groups.foldl (fun (b : Option (Nat × Group)) e =>
    match e.2.stat with
    | .saved _ _ => if unitOf e.1 = k then (match b with
        | none => some e
        | some c => if e.2.stamp < c.2.stamp then some e else some c) else b
    | _ => b) none
  best.bind fun e =>
    if e.2.ctx.bound.length * (e.2.width / 32) + 64 ≤ s.freeSlices k ∧ !s.stopping e.2.team then some e else none
/-- Restores it into its slot. -/
def State.forceRestore (s : State) (k : Nat) : State :=
  match s.restoreNext k with
  | none => s
  | some (gid, g) =>
    let l := s.launchOf g
    let core := coreOf gid
    let base := s.imageBase g.team (s.sideIn g.team gid) + groupAt l (slotOf gid)
    let w := s.imager g.team core
    let cs := groupImage g 0
    match s.askCells w core base cs with
    | some s1 => s1
    | none =>
      let c := restoredCtx g fun x => s.readCell w core base { x with v := ((cs.find? fun y => y.off = x.off).map (·.v)).getD 0 }
      let stat := match g.stat with
        | .saved (some b) _ => .waiting b
        | .saved none true => .parkedFault
        | _ => .ready
      (s.setGroup gid { g with ctx := c, stat := stat, ibuf := [] }).forget w.who

/-! ### Pre-emption of a team (07 R197, Table 7.6) -/

/-- The sides of a team. -/
def Team.sides (t : Team) : List Nat := if t.paired then [0, 1] else [0]
/-- Whether a stopping team has drained: step 3 of Table 7.6. -/
def State.teamDrained (s : State) (key : Nat) : Bool :=
  let t := s.team key
  t.groups.all (fun gid => match s.group? gid with
    | none => true
    | some g => s.drained gid g && g.acks == 0 && g.stat != .ended) &&
  !(s.units.any fun u => u.2.ops.any (fun o => o.team == key) || u.2.clearing == some key) &&
  !((s.cluster (t.core / 4)).arrivals.any fun a => a.2.1 == key) &&
  !(s.diesT.any fun d => d.2.copies.any fun c => c.team == key && !s.quiet (copyWho c.id)) && s.quiet (imageWho key)

/-- A group as its team's image holds it, with the arrivals it withdraws (08 R226). -/
def savedGroup (t : Team) (g : Group) : Group × Option Nat :=
  let again := fun (g : Group) (back : Addr) => { g with ctx := { g.ctx with pc := back } }
  let base := { g with answers := [], age := 0, aged := false }
  match g.stat with
  | .waiting (.barrier id par back _) =>
    if tget false t.parity id = par then ({ again base back with stat := .ready }, some id) else ({ base with stat := .ready }, none)
  | .saved (some (.barrier id par back _)) _ =>
    if tget false t.parity id = par then ({ again base back with stat := .ready }, some id)
    else ({ base with stat := .waiting (.barrier id par back) }, none)
  | .parkedFault | .saved _ true => ({ base with stat := .parkedFault }, none)
  | _ => ({ base with stat := .ready }, none)
/-- Insertion by start stamp. -/
def byStamp (e : Nat × Group) : List (Nat × Group) → List (Nat × Group)
  | [] => [e]
  | x :: r => if e.2.stamp < x.2.stamp then e :: x :: r else x :: byStamp e r

/-- Pre-empts a stopping team that has drained: its image is written, and what it held is free. -/
def State.preemptTeam (s : State) (key : Nat) : State :=
  let t := s.team key
  let l := s.teamLaunch key
  if !(s.stopping key && s.teamDrained key) then s
  else match s.askEach (t.stash.map (·.2)) fun st x => st.askBackOf (s.imager key t.core) x with
  | some s1 => s1
  | none =>
    if !t.stash.isEmpty then s.flushTeam (s.imager key t.core) key
    else
    let gs := (t.groups.filterMap fun gid => (s.group? gid).map fun g => (gid, g)).foldr byStamp []
    let sv := gs.map fun e => (e.1, savedGroup t e.2)
    let arrivals := sv.foldl (fun (a : Table Nat) e => match e.2.2 with
      | some id => tset 0 a id (tget 0 a id - 1)
      | none => a) t.arrivals
    let t1 := { t with arrivals := arrivals }
    let s1 := s.setTeam key t1
    let kept := fun (gid : Nat) (e : Group × Option Nat) => match s.group? gid with
      | some g => (match g.stat with | .saved _ _ => e.2.isNone | _ => false)
      | none => false
    let cells := fun (side : Nat) => s1.teamImage key side (sv.filter fun e => s.sideIn key e.1 = side).length ++
      (List.range sv.length).flatMap fun n => match sv[n]? with
        | none => []
        | some (gid, e) => if s.sideIn key gid = side ∧ !kept gid e then
            (groupImage e.1 n).map fun c => { c with off := c.off + groupAt l (slotOf gid) } else []
    let step := fun (a : State × Bool) (side : Nat) =>
      if a.2 then a.1.writeCells (s1.imager key (t.coreOn side)) (t.coreOn side) (s1.imageBase key side) (cells side) else a
    match t.sides.foldl step (s1, true) with
    | (s2, false) => s2.setTeam key t
    | (s2, true) =>
      let s3 := t.groups.foldl (fun (st : State) gid => st.endSample gid) (s2.flushTeam (s.imager key t.core) key)
      let edge := fun (gid : Nat) (g : Group) => { g with edgeStop := match s3.group? gid with | some x => x.edgeStop | none => g.edgeStop }
      let t2 := s3.team key
      let units := t.sides.flatMap fun side => (s.heldQuarters key (t.coreOn side)).map fun q => (4 * side + q, s.unit (4 * t.coreOn side + q))
      let pans := t.sides.flatMap fun side => (s.teamPans key (t.coreOn side)).map fun p =>
        (side, p.1, { p.2 with started := s.clock - p.2.started })
      let s4 := s3.setTeam key { t2 with saved := true, groups := [], savedUnits := units, savedGroups := sv.map fun e => (e.1, edge e.1 e.2.1),
                                         savedPans := pans }
      let s5 := t.sides.foldl (fun (st : State) side =>
        let core := t.coreOn side
        let c := st.core core
        let st1 := st.setCore core { c with pans := c.pans.filter fun p => p.2.team != key }
        (s.heldQuarters key core).foldl (fun (st : State) q => st.setUnit (4 * core + q) (st.unit (4 * core + q)).release) st1) s4
      let s6 := t.groups.foldl (fun (st : State) gid =>
        let st1 := st.dropRequests gid
        let u := st1.unit (unitOf gid)
        { st1.setUnit (unitOf gid) { u with current := if u.current = some gid then none else u.current } with groups := tdel st1.groups gid }) s5
      let tk := s6.task t.task
      s6.storeTask t.task { tk with savedTeams := insertName key tk.savedTeams }

/-! ### Restoration of a team (07 R200, R201) -/

/-- Whether a core can take a saved team's local memory, units, pans and tensor descriptors on a side. -/
def State.takes (s : State) (t : Team) (core side : Nat) : Bool :=
  let l := (s.task t.task).launch
  s.usable core && decide (l.scratch + l.stash ≤ s.stepsFree core) &&
    (t.savedUnits.all fun u => u.1 / 4 != side || ((s.unit (4 * core + u.1 % 4)).holder.isNone && (s.unit (4 * core + u.1 % 4)).clearing.isNone)) &&
    decide ((t.savedPans.filter fun p => p.1 = side).length + (s.core core).pans.length ≤ Config.pansPerCore) &&
    decide (s.entriesOn core + (t.tensors.filter fun x => !t.paired || x.1 / 128 == side).length ≤ 128)
/-- The quarter in which a saved group is placed again: its own where its team holds units, else the one with the most free slices, among those
that have room for it and the slices its names need (07 R185, R200). -/
def State.savedQuarter (s : State) (core : Nat) (own : Option Nat) (g : Group) : Option Nat :=
  ((List.range 4).filter fun q => (own.isNone || own == some q) && !(s.quarterSlots core q g.width).isEmpty &&
      decide (g.ctx.bound.length * (g.width / 32) ≤ s.freeSlices (4 * core + q))).foldl (fun (b : Option Nat) q => match b with
    | none => some q
    | some p => if s.freeSlices (4 * core + p) < s.freeSlices (4 * core + q) then some q else some p) none
/-- The slots of saved groups on a core, in their order. -/
def State.savedSlots (s : State) (core : Nat) (keep : Bool) : List (Nat × Group) → Option (List Nat)
  | [] => some []
  | (gid, g) :: r => match s.savedQuarter core (if keep then some (quarterOf gid) else none) g with
    | none => none
    | some q => match (s.quarterSlots core q g.width).head? with
      | none => none
      | some k => ((s.setGroup (256 * core + k) { width := g.width, ctx := { bound := g.ctx.bound } }).savedSlots core keep r).map (k :: ·)
/-- The seat of a saved team at a core, each group's slot in the order in which the groups were saved. -/
def State.savedSeat (s : State) (key core : Nat) : Option Seat :=
  let t := s.team key
  let on := fun (c side : Nat) => if s.takes t c side then
    s.savedSlots c (!t.savedUnits.isEmpty) (t.savedGroups.filter fun e => !t.paired || sideOf e.1 == side) else none
  if !t.paired then (on core 0).map fun k => ⟨core, false, k, []⟩
  else if core % 2 = 0 ∧ s.pairedIn (core / 4) < 32 ∧ !((s.cluster (core / 4)).linkDown.contains (core / 2 % 2)) then
    match on core 0, on (core + 1) 1 with
    | some a, some b => some ⟨core, true, a, b⟩
    | _, _ => none
  else none
/-- The seat that the dispatcher chooses on the team's die. -/
def State.savedSeatOn (s : State) (key : Nat) : Option Seat :=
  bestSeat (((List.range 16).map (16 * ((s.team key).task / 4096) + ·)).filterMap fun c =>
    (s.savedSeat key c).map fun x => (x, s.rowSpace c + (if x.paired then s.rowSpace (c + 1) else 0)))
/-- The words that the die holds for a team enter its queues in order of arrival (15 R372). -/
def State.deliver (s : State) (key : Nat) : State :=
  let t := s.team key
  t.held.foldl (fun (st : State) h =>
    let t := st.team key
    if 64 ≤ (tget [] t.queues h.1).length then
      let st1 := st.setTeam key { t with lost := tset false t.lost h.1 true }
      if h.1 % 4 = 2 then st1.countSluice (t.core / 16) 0x03 1 else st1.countPort (portOf (256 * (t.core + h.1 / 4))) 5 1
    else st.setTeam key { t with queues := tset [] t.queues h.1 (tget [] t.queues h.1 ++ [h.2]) }) (s.setTeam key { t with held := [] })

/-- Restores a saved team at a seat. -/
def State.restoreTeam (s : State) (key : Nat) (x : Seat) : State :=
  let t := s.team key
  let l := s.teamLaunch key
  let place := fun (n : Nat) =>
    let side := s.sideIn key ((t.savedGroups.map (·.1)).getD n 0)
    let before := ((t.savedGroups.take n).filter fun e => s.sideIn key e.1 = side).length
    256 * (x.core + side) + (if side = 0 then x.even else x.odd).getD before 0
  let ask := (List.range t.savedGroups.length).foldl (fun (o : Option State) n => match t.savedGroups[n]? with
    | none => o
    | some (gid, g) => match (o.getD s).askCells (s.imager key x.core) x.core (s.imageBase key (s.sideIn key gid) + groupAt l (slotOf gid)) (groupImage g 0) with
      | some s1 => some s1
      | none => o) none
  match ask with
  | some s1 => s1
  | none =>
    let w := s.imager key x.core
    let gids := (List.range t.savedGroups.length).map place
    let s1 := (List.range t.savedGroups.length).foldl (fun (st : State) n => match t.savedGroups[n]? with
      | none => st
      | some (old, g) =>
        let base := s.imageBase key (s.sideIn key old) + groupAt l (slotOf old)
        let cs := groupImage g 0
        let c := restoredCtx g fun y => s.readCell w x.core base { y with v := ((cs.find? fun z => z.off = y.off).map (·.v)).getD 0 }
        let gid := gids.getD n 0
        let g1 := { g with ctx := c, stamp := st.nextStamp, ibuf := [] }
        let st1 : State := { st.setGroup gid g1 with nextStamp := st.nextStamp + 1 }
        match g.stat, g.fault with
        | .parkedFault, some r =>
          let words := r.words.set 2 (st1.ident gid g1)
          let plain := if l.ctx = 0 then words else withheld words
          let st2 := st1.setGroup gid { g1 with fault := some { r with words := words, plain := plain } }
          let st3 := if l.ctx = 0 then st2 else st2.faultOut (dieOf gid) l.ctx words
          let st4 := st3.faultOut (dieOf gid) 0 plain
          { st4 with chofer := { st4.chofer with faults := st4.chofer.faults + 1 } }
        | _, _ => st1) s
    let by_ := fun (u : Nat) => 4 * (x.core + (u / 4 - t.core)) + u % 4
    let past := t.past.map fun e => (e.1, e.2.map fun (p : Past) => { p with by_ := p.by_.map by_ })
    let s2 := s1.setTeam key { t with core := x.core, past := past, saved := false, groups := gids, savedGroups := [], savedUnits := [], savedPans := [] }
    let s3 := t.savedUnits.foldl (fun (st : State) u =>
      let k := 4 * (x.core + u.1 / 4) + u.1 % 4
      let now := st.unit k
      st.setUnit k { u.2 with seq := 0, current := now.current, toTag := now.toTag, tagNext := now.tagNext, tagged := now.tagged, tagSeq := now.tagSeq, last := now.last }) s2
    let s4 := t.savedPans.foldl (fun (st : State) p =>
      let c := st.core (x.core + p.1)
      match tfree c.pans Config.pansPerCore with
      | some k => st.setCore (x.core + p.1) { c with pans := tput c.pans k { p.2.2 with started := s.clock - p.2.2.started } }
      | none => st) s3
    let d := t.task / 4096
    let die := s4.die d
    let s5 := s4.setDie d { die with copies := die.copies.map fun c =>
      if c.team = key then { c with core := x.core + c.side, suspended := false } else c }
    let s6 := (s5.deliver key).forget w.who
    let heads := t.sides.foldl (fun (st : State) side => (st.writeCells w x.core (s.imageBase key side) [⟨0, 8, 0, false⟩]).1) s6
    let tk := heads.task t.task
    heads.storeTask t.task { tk with state := .running, savedTeams := tk.savedTeams.filter (· != key) }

end Sys2Proof.Machine
end

