-- ==== Sys2Proof/Machine/EvCore.lean ====
section
/-! DEFINITION. Events of cores and groups: results and acknowledgements, the end of groups, pool, forced save, runahead, pans, barriers
of pairs, fault records, WAITA, pre-emption, samples, stops and the Harrow sweeper (04 R108; 07; 08 R222, R223, R236; 10 R293 to R297;
11 R304, R305, R311, R314; 13 R331). Each event has a condition under which it can happen; where that does not hold it has no effect. -/

namespace Sys2Proof.Machine

/-- An event: its effect where it can happen. The step's counter of free values advances. -/
def event (s : State) (on : Bool) (f : State → State) : Host.Outcome State Fault Refusal :=
  .next (let s1 := if on then f s else s; { s1 with freeCtr := s.freeCtr + 1 })

/-- An event of the cores, the slices, the engines or the ports: none happens once Chofer has stopped the package (16 R416). -/
def running (s : State) (on : Bool) (f : State → State) : Host.Outcome State Fault Refusal := event s (on && !s.chofer.stopped) f

/-- Whether bring-up has passed since reset: the capability list is published, and the package serves what reaches it (16 R393, R395). -/
def State.published (s : State) : Bool := s.chofer.status == 4 || s.chofer.status == 6 || s.chofer.status == 7

/-! ### Results and acknowledgements -/

/-- Whether every one of some results has come by the present clock. -/
def State.come (s : State) (l : List Outst) : Bool := l.all fun o => decide (o.due ≤ s.clock)
/-- Whether outstanding results of a group are about to be written (07 R180; 10 R297): they have come, and are those that something waits for. A
ready group's results stay outstanding, for what it may read of them is R181's. -/
def State.canWriteback (s : State) (gid : Nat) : Bool :=
  match s.group? gid with
  | none => false
  | some g => match g.stat with
    | .parkedSwitch => s.come g.outst && (!g.outst.isEmpty || g.stop.isNone)
    | .runahead => match g.ra with | some r => s.come r.entry && !r.entry.isEmpty | none => false
    | .ended | .waiting .results => s.come g.outst && !g.outst.isEmpty
    | _ => s.come g.outst && !g.outst.isEmpty && (s.stopping g.team || g.stop.isSome)
/-- They are written: a group parked on switch becomes ready unless it is to stop; a group that runs ahead has its entry results. -/
def State.writeback (s : State) (gid : Nat) : State :=
  match s.group? gid with
  | none => s
  | some g => match g.stat with
    | .parkedSwitch => s.setGroup gid { g.written with stat := if g.stop.isNone then .ready else .parkedSwitch, age := 0, aged := false }
    | .runahead => s.setGroup gid { g with ra := g.ra.map fun r =>
        { r with saved := { r.saved with fpsr := r.saved.fpsr ||| flagsOf r.entry }, entry := [] } }
    | _ => s.setGroup gid g.written

/-- The acknowledgements of a group that particular events will bring: joins of partial copies, fabric answers, host completions,
decrements. -/
def State.owedAcks (s : State) (gid : Nat) : Nat :=
  let count := fun (l : List Nat) => (l.filter (· = gid)).length
  (s.diesT.foldl (fun n d => n + d.2.partials.foldl (fun m p => m + count p.waiting) 0 + (d.2.decrements.filter fun x => x.gid = some gid).length) 0) +
  (s.ports.foldl (fun n p => n + (p.2.waiting.filter fun x => x.ack && x.who == gid).length) 0) +
  (s.host.writing.filter fun x => x.2 = gid).length
def State.canAck (s : State) (gid : Nat) : Bool :=
  match s.group? gid with
  | none => false
  | some g => decide (s.owedAcks gid < g.acks)
def State.takeAck (s : State) (gid : Nat) : State := s.modGroup gid fun g => { g with acks := g.acks - 1 }

/-! ### Groups -/

def State.canAge (s : State) (gid : Nat) : Bool :=
  match s.group? gid with
  | none => false
  | some g => g.stat == .ready && !g.aged && decide (Config.agedAt ≤ g.age) && (s.unit (unitOf gid)).current != some gid
def State.ageGroup (s : State) (gid : Nat) : State := s.modGroup gid fun g => { g with aged := true }

def State.canEnd (s : State) (gid : Nat) : Bool :=
  match s.group? gid with
  | none => false
  | some g => g.stat == .ended && g.outst.isEmpty && g.acks == 0 && s.quiet gid && !s.storing gid
/-- Frees an ended group's names and slot; its team may end with it (04 R108; 15 R385). -/
def State.endGroup (s : State) (gid : Nat) : State :=
  match s.group? gid with
  | none => s
  | some g =>
    let tagged := match (s.unit (unitOf gid)).tagged with | some (x, _) => x == gid | none => false
    let s1 := if tagged then s.writeSample (unitOf gid) false else s
    let u := s1.unit (unitOf gid)
    let s2 := (s1.setUnit (unitOf gid) { u with current := if u.current = some gid then none else u.current,
                                                ops := u.ops.map fun o => if o.gid = gid then { o with ended := true } else o }).dropRequests gid
    (s2.freeGroup gid g).endTeam g.team

/-! ### The pool (07 R186 to R189) -/

def State.canRetryPool (s : State) (gid : Nat) : Bool :=
  match s.group? gid with
  | none => false
  | some g => match g.stat with
    | .waiting (.pool n frees) => (s.setGroup gid (g.free frees)).admits gid (g.free frees) n && !s.stopping g.team
    | _ => false
/-- A group becomes ready, its age 0 (07 R178). -/
def Group.readied (g : Group) : Group := { g with stat := .ready, age := 0, aged := false }
def State.makeReady (s : State) (gid : Nat) : State := s.modGroup gid Group.readied

def State.canForceSave (s : State) (k : Nat) : Bool := (s.saveVictim k).isSome
def State.canForceRestore (s : State) (k : Nat) : Bool := (s.restoreNext k).isSome

/-! ### Runahead (10 R293 to R297) -/

/-- Whether a result is the return of a load that has not come. -/
def State.awaited (s : State) (o : Outst) : Bool := o.load && decide (s.clock < o.due)
/-- Groups of a quarter that run ahead. -/
def State.runningAhead (s : State) (k : Nat) : Nat := (s.groups.filter fun e => unitOf e.1 = k ∧ e.2.ra.isSome).length
def State.canRunAhead (s : State) (gid : Nat) : Bool :=
  match s.group? gid with
  | none => false
  | some g => g.stat == .parkedSwitch && g.ra.isNone && !g.ranAhead && g.stop.isNone && !s.stopping g.team &&
      (g.outst.any fun o => s.awaited o && decide (o.time + 300 < s.clock)) && decide (s.runningAhead (unitOf gid) < 2) &&
      decide (256 ≤ s.freeSlices (unitOf gid))
/-- A context in which the names that loads have still to write read as poisoned (10 R295). -/
def poisonNames (l : List Outst) (c : Ctx) : Ctx :=
  l.foldl (fun c o =>
    let c1 := o.regs.foldl (fun (c : Ctx) r => (lanesOf 128 r.2).foldl (fun (c : Ctx) k =>
      { c with vPoison := tset 0 c.vPoison (128 * r.1 + k) 1 }) c) c
    let c2 := o.gs.foldl (fun (c : Ctx) n => { c with gPoison := tset 0 c.gPoison n 1 }) c1
    o.preds.foldl (fun (c : Ctx) r => (lanesOf 128 r.2).foldl (fun (c : Ctx) k => c.predSet r.1 k 2) c) c2) c
/-- Freezes the checkpoint and starts to run ahead; results other than those of loads that have not come have been written. -/
def State.runAhead (s : State) (gid : Nat) : State :=
  match s.group? gid with
  | none => s
  | some g =>
    let loads := g.outst.filter s.awaited
    let c := { g.ctx with fpsr := g.ctx.fpsr ||| flagsOf (g.outst.filter fun o => !s.awaited o) }
    (s.setGroup gid { g with ctx := poisonNames loads c, outst := [], stat := .runahead, ranAhead := true,
                             ra := some ⟨c, loads, [], 0, []⟩ }).countFor gid g (0x0C + quarterOf gid) 1
/-- Runahead ends by itself when its entry results are written, when its quarter needs the slices, or when its team stops. -/
def State.canExitRunahead (s : State) (gid : Nat) : Bool :=
  match s.group? gid with
  | none => false
  | some g => match g.ra with
    | none => false
    | some r => r.entry.isEmpty || decide (512 ≤ r.count) || (s.starved (unitOf gid)).isSome || s.stopping g.team
def State.leaveRunahead (s : State) (gid : Nat) : State :=
  match s.group? gid with
  | none => s
  | some g => s.exitRunahead gid g

/-! ### Pans (07 R190 to R194) -/

def State.pan? (s : State) (core k : Nat) : Option Pan := tfind (s.core core).pans k
def State.setPan (s : State) (core k : Nat) (p : Pan) : State :=
  let c := s.core core
  s.setCore core { c with pans := if p.children.isEmpty then tdel c.pans k else tput c.pans k p }
/-- Pan time of a launch. -/
def panClk (l : Launch) : Nat := if l.panTime = 0 then Config.panTime else l.panTime
def State.canExpire (s : State) (core k : Nat) : Bool :=
  match s.pan? core k with
  | none => false
  | some p => !p.expired && decide (p.started + panClk (s.task p.task).launch ≤ s.clock)
def State.expire (s : State) (core k : Nat) : State :=
  match s.pan? core k with
  | none => s
  | some p => s.setPan core k { p with expired := true }

/-- The group that a pan launches: the first children in its lanes (04 R115). Children placed with different n share a pan of one entry address: vn is
bound up to the largest n that the pan has met, and holds 0 where a child gave no argument (log 69). -/
def childGroup (l : Launch) (p : Pan) (stamp : Nat) : Group :=
  let cs := p.children.take l.width
  let m := onesMask cs.length
  let c0 : Ctx := { pc := p.entry, am := m, live := m, g := tset 0 [] 0 l.param, bound := List.range p.args }
  let c := (List.range cs.length).foldl (fun (c : Ctx) lane =>
    (List.range p.args).foldl (fun (c : Ctx) a => c.vSet a lane ((cs.getD lane []).getD a 0) 0) c) c0
  { ctx := c, width := l.width, task := p.task, team := p.team, spawned := true, stamp := stamp }
/-- The slot in which a pan can launch a group now. -/
def State.panSlot (s : State) (core k : Nat) : Option (Pan × Nat) :=
  (s.pan? core k).bind fun p =>
    let l := (s.task p.task).launch
    let n := p.children.length
    if n = 0 ∨ (n < l.width ∧ !p.expired) ∨ s.stopping p.team ∨ s.chofer.stopped then none
    else (s.slotFor core l.width).bind fun slot =>
      let gid := 256 * core + slot
      let g : Group := { width := l.width, stamp := s.nextStamp }
      if (s.setGroup gid g).admits gid g (p.args * (l.width / 32)) then some (p, gid) else none
/-- Launches it; its start is an acquire at .pkg (15 R378). -/
def State.launchPan (s : State) (core k : Nat) : State :=
  match s.panSlot core k with
  | none => s
  | some (p, gid) =>
    let l := (s.task p.task).launch
    let g := childGroup l p s.nextStamp
    let t := s.team p.team
    let s1 : State := { (s.setGroup gid g).setTeam p.team { t with groups := t.groups ++ [gid] } with nextStamp := s.nextStamp + 1 }
    (s1.setPan core k { p with children := p.children.drop l.width, started := s.clock, expired := false }).acquire gid g 4

def State.canReissueSpawn (s : State) (gid : Nat) : Bool :=
  match s.group? gid with
  | none => false
  | some g => match g.stat with
    | .waiting (.pan k n) => !s.stopping g.team && (match s.pan? (coreOf gid) k with
      | none => true
      | some p => decide (p.children.length + n ≤ Config.panSize))
    | _ => false

/-- The number by which a core asks for the accesses to an overflow area. -/
def areaWho (core : Nat) : Nat := 2 ^ 40 + core
/-- The engine that empties a team's part of the overflow area into pans of a core. -/
def State.areaEngine (s : State) (core key : Nat) : Who :=
  let l := s.teamLaunch key
  { who := areaWho core, gid := 256 * core, team := key, asid := l.asid, ctx := l.ctx, part := (s.task (s.team key).task).part, engine := true }
/-- The pan into which an entry for an address can go. -/
def State.panFor (s : State) (core key : Nat) (entry : Addr) : Option Nat :=
  match tfirst (s.core core).pans fun _ p => decide (p.team = key ∧ p.entry = entry) with
  | some (k, p) => if p.children.length < Config.panSize then some k else none
  | none => tfree (s.core core).pans Config.pansPerCore
/-- Moves the first entry of a team, from index i on, that a pan has room for, and clears it: the state after moving it, or after asking for
data. -/
def State.moveEntry (s0 : State) (core key : Nat) : Nat → Nat → State
  | 0, _ => s0
  | fuel + 1, i =>
    let l := s0.teamLaunch key
    let w := s0.areaEngine core key
    let base := l.overflowBase.toNat
    let at_ := base + 0x10 + 32 * i
    let runs := [(base % 2 ^ 56, 8), (at_ % 2 ^ 56, 8), ((at_ + 8) % 2 ^ 56, 8), ((at_ + 16) % 2 ^ 56, 8), ((at_ + 24) % 2 ^ 56, 8)]
    let s := s0.bringAll w core runs
    match s.reachFor w core .atom .atomic runs with
    | .later s1 => s1
    | .fail _ _ _ => s
    | .ok ls =>
      let (s1, rd) := s.readAll w ls
      let v := fun k => (rd.map (·.2.1)).getD k 0
      let entry := BitVec.ofNat 56 (v 1)
      if (v 1).testBit 63 ∧ bitsOf (v 2) 31 0 = (s.team key).index then
        match s.panFor core key entry with
        | none => s.moveEntry core key fuel (i + 1)
        | some k =>
          let n := bitsOf (v 1) 62 59
          let child := ([bitsOf (v 3) 31 0, bitsOf (v 3) 63 32, bitsOf (v 4) 31 0, bitsOf (v 4) 63 32].take n).map (BitVec.ofNat 32 ·)
          match ls with
          | hd :: es =>
            let s2 := es.foldl (fun (st : State) e => st.performWrite w e 0 false) (s1.performWrite w hd ((bitsOf (v 0) 63 32 - 1) * 2 ^ 32 + bitsOf (v 0) 31 0) false)
            let t := s2.team key
            let s3 := s2.setTeam key { t with spilled := t.spilled - 1 }
            let p := (s3.pan? core k).getD { task := t.task, team := key, entry := entry, args := n, children := [], started := s.clock }
            (s3.setPan core k { p with args := max p.args n, children := p.children ++ [child] }).forget w.who
          | [] => s
      else s.moveEntry core key fuel (i + 1)
def State.canMoveArea (s : State) (core key : Nat) : Bool :=
  (s.team key).on core && decide (0 < (s.team key).spilled) && !s.stopping key
def State.moveArea (s : State) (core key : Nat) : State := s.moveEntry core key (s.teamLaunch key).overflowCap 0

/-! ### The barrier unit (13 R331) -/

def State.canArrive (s : State) (cl : Nat) : Bool := !(s.cluster cl).arrivals.isEmpty
/-- The oldest arrival reaches the unit; a BAR.hold then waits for the phase it arrived in. -/
def State.arriveUnit (s : State) (cl : Nat) : State :=
  let c := s.cluster cl
  match c.arrivals with
  | [] => s
  | (gid, key, id, hold) :: r =>
    let s1 := s.setCluster cl { c with arrivals := r }
    if (tfind s.teams key).isNone then s1
    else
      let t := s1.team key
      let par := tget false t.parity id
      let s2 := s1.setTeam key (t.arrive id)
      if hold then s2.modGroup gid fun g => match g.stat with
        | .waiting (.arriving _ back sw) => { g with stat := .waiting (.barrier id par back sw) }
        | _ => g
      else s2

/-! ### Fault records (08 R223) -/

/-- The ring of a pending record, and the records before it that are not its owner's. -/
def State.ownerRing (s : State) (d ctx : Nat) : Option Ring := if ctx = 0 then (s.die d).faultRing else s.ctxRing ctx 0
/-- The first pending record whose ring has room. -/
def State.nextPending (s : State) (d : Nat) : Option Nat :=
  (s.die d).pending.findIdx? fun p => match s.ownerRing d p.ctx with | some r => (s.ringRoom d p.ctx r 1).2 | none => false
def State.canWritePending (s : State) (d : Nat) : Bool := (s.nextPending d).isSome
def State.writePending (s : State) (d : Nat) : State :=
  match s.nextPending d with
  | none => s
  | some n =>
    let die := s.die d
    match die.pending[n]? with
    | none => s
    | some p => match s.ownerRing d p.ctx with
      | none => s
      | some r => match s.ringWrite d p.ctx r 64 p.words with
        | none => s
        | some (s1, r1) =>
          let die1 := { s1.die d with pending := (s1.die d).pending.eraseIdx n }
          if p.ctx = 0 then s1.setDie d { die1 with faultRing := some r1 } else (s1.setDie d die1).setCtxRing p.ctx 0 r1

/-! ### WAITA (08 R222) -/

/-- Whether a walk of a group is still to be answered. -/
def State.walking (s : State) (gid : Nat) : Bool :=
  let c := s.cluster (clusterOf gid)
  c.queue.any (fun r => r.gid == some gid && !r.ra) || c.results.any fun r => r.1.gid == some gid && !r.1.ra
def State.canReread (s : State) (gid : Nat) : Bool :=
  match s.group? gid with
  | none => false
  | some g => match g.stat with
    | .waiting (.waita _ _) => !s.stopping g.team && !s.walking gid
    | _ => false
/-- A repeat of a parked WAITA (08 R222): as the instruction, but its group leaves the park only where that would complete, or fault, and it is then
issued again (07 Table 7.1). -/
def State.reread (s : State) (gid : Nat) : State :=
  match s.group? gid with
  | none => s
  | some g => match g.stat with
    | .waiting (.waita limit f) =>
      let i := s.issOf gid g .waita f
      (match acquired i s (waitaEffect i) with
      | .wait s1 g1 _ => s1.setGroup gid { g1 with stat := .waiting (.waita limit f), acks := ((s1.group? gid).getD g1).acks }
      | _ => s.makeReady gid)
    | _ => s
def State.canTimeOut (s : State) (gid : Nat) : Bool :=
  match s.group? gid with
  | none => false
  | some g => match g.stat with
    | .waiting (.waita (some n) _) => decide (n ≤ s.clock) && !s.stopping g.team
    | _ => false

/-! ### Pre-emption (07 R197, R200) -/

def State.canPreempt (s : State) (key : Nat) : Bool := (tfind s.teams key).isSome && s.stopping key && s.teamDrained key
/-- Whether a saved team stands at the head of its die's queues and no team of its launch is still being stopped (15 R386). -/
def State.headSaved (s : State) (key core : Nat) : Bool :=
  let k := (s.team key).task
  (tfind s.teams key).isSome && (s.team key).saved && decide (core / 16 = k / 4096) &&
    (match s.headTask (k / 4096) with | some (j, _) => j == k | none => false) && !((s.task k).state == .preempted && s.draining k)
/-- The launch that a die stops for its head task of priority 3, while no launch of the die is being stopped (15 R389). -/
def State.nextVictim (s : State) (d k : Nat) : Option Nat :=
  if (s.task k).effective ≠ 3 ∨ s.tasks.any fun e => e.1 / 4096 = d ∧ e.2.state = .preempted ∧ s.draining e.1 then none
  else (s.victim d).map (·.1)
def State.canRestore (s : State) (key core : Nat) : Bool :=
  s.headSaved key core &&
    ((s.savedSeat key core).isSome || ((s.savedSeatOn key).isNone && (s.nextVictim (core / 16) (s.team key).task).isSome))
/-- Restores the team, or stops a victim where its die has no room for it. -/
def State.restore (s : State) (key core : Nat) : State :=
  match s.savedSeat key core with
  | some x => s.restoreTeam key x
  | none => match s.nextVictim (core / 16) (s.team key).task with
    | some v => s.stopTask v
    | none => s

/-! ### Samples and stops (11 R304, R305, R311) -/

def State.canTag (s : State) (k : Nat) : Bool := (s.unit k).toTag == some 0 && !(s.unit k).tagNext
def State.tag (s : State) (k : Nat) : State := s.setUnit k { s.unit k with tagNext := true }
/-- The tagged instruction has completed, its results having come, or its group is parked by a fault: some true when it ended early. -/
def State.sampleEnds (s : State) (k : Nat) : Option Bool :=
  match (s.unit k).tagged with
  | none => none
  | some (gid, _) => match s.group? gid with
    | none => some true
    | some g =>
      let pending := g.outst ++ (match g.ra with | some r => r.entry | none => [])
      if g.stat = .parkedFault then some true
      else if pending.any fun o => o.seq == (s.unit k).tagSeq && decide (s.clock < o.due) then none else some false
def State.canSample (s : State) (k : Nat) : Bool := (s.sampleEnds k).isSome
def State.sample (s : State) (k : Nat) : State := s.writeSample k ((s.sampleEnds k).getD false)

def State.canStop (s : State) (gid : Nat) : Bool :=
  match s.group? gid with
  | none => false
  | some g => g.stop.isSome && g.outst.isEmpty && g.ra.isNone
/-- The group parks with the debug stop of the instruction that has completed. -/
def State.stopGroup (s : State) (gid : Nat) : State :=
  match s.group? gid with
  | none => s
  | some g => match g.stop with
    | none => s
    | some (code, addr, lanes) =>
      s.takeFault gid { g with stop := none } ⟨0x12, code, lanes, if code = 2 then some addr.toNat else none, none⟩ none true

/-! ### The Harrow sweeper (11 R314) -/

/-- The counters of a die that have risen since the sweeper last read them: key within the die, and the reading. -/
def State.unswept (s : State) (d : Nat) : List (Nat × Nat) :=
  s.counters.filterMap fun c =>
    let k := c.1 - 22 * 256 * d
    if 22 * 256 * d ≤ c.1 ∧ c.1 < 22 * 256 * (d + 1) ∧ tget 0 (s.die d).harrow k ≠ c.2 then some (k, c.2) else none
/-- The totals of contexts that differ from what their encrypted areas hold: context, target address, value (16 Table 16.9). -/
def State.ctxTotals (s : State) : List (Nat × Nat × Nat) :=
  s.chofer.contexts.flatMap fun c => c.2.totals.filterMap fun t =>
    let at_ := (c.2.block.getD 4 0).toNat + 8 * t.1
    if tget 0 s.owners (at_ / 256) = c.1 ∧ s.readMem at_ 8 = t.2 then none else some (c.1, at_, t.2)
def State.canSweep (s : State) (d : Nat) : Bool := !(s.die d).config.isEmpty && (!(s.die d).swept || !(s.unswept d).isEmpty || !s.ctxTotals.isEmpty)
/-- The totals of a die start at 0: the first sweep clears those that memory does not hold as 0. -/
def State.firstSweep (s : State) (d : Nat) : State :=
  if (s.die d).swept then s
  else
    let s1 := (List.range (22 * 256)).foldl (fun (st : State) k =>
      let at_ := s.configWord d 4 + 8 * k
      if st.readMem at_ 8 = 0 then st else st.ownWrite d 0 at_ 8 0) s
    s1.setDie d { s1.die d with swept := true }
/-- The totals of the clk in which quarters could not issue: timing, and free values (log 7). -/
def State.sweepIdle (s : State) (d base : Nat) : State :=
  (List.range 64).foldl (fun (st : State) n =>
    st.ownWrite d 0 (base + 8 * (256 * (n / 4) + 4 + n % 4)) 8 (st.free (0x1B0000 + n)).toNat) s
/-- Adds the differences to the totals in memory. -/
def State.sweep (s : State) (d : Nat) : State :=
  let base := s.configWord d 4
  let s0 := (s.firstSweep d).sweepIdle d base
  (s.unswept d).foldl (fun (st : State) c =>
    let diff := (c.2 + 2 ^ 32 - tget 0 (st.die d).harrow c.1) % 2 ^ 32
    let at_ := base + 8 * c.1
    let old := st.ownRead d 0 at_ 8
    let st1 := old.1.ownWrite d 0 at_ 8 (old.2 + diff)
    st1.setDie d { st1.die d with harrow := tset 0 (st1.die d).harrow c.1 c.2, sweptAt := s.clock })
    (s0.ctxTotals.foldl (fun (st : State) x => st.ownWrite d x.1 x.2.1 8 x.2.2) (s0.setDie d { s0.die d with sweptAt := s.clock }))

def execResultWriteback (gid : Nat) (s : State) : Host.Outcome State Fault Refusal := running s (s.canWriteback gid) (·.writeback gid)
def execWriteAcknowledgement (gid : Nat) (s : State) : Host.Outcome State Fault Refusal := running s (s.canAck gid) (·.takeAck gid)
def execGroupAged (gid : Nat) (s : State) : Host.Outcome State Fault Refusal := running s (s.canAge gid) (·.ageGroup gid)
def execGroupEnd (gid : Nat) (s : State) : Host.Outcome State Fault Refusal := running s (s.canEnd gid) (·.endGroup gid)
def execPoolAllocationRetry (gid : Nat) (s : State) : Host.Outcome State Fault Refusal := running s (s.canRetryPool gid) (·.makeReady gid)
def execForcedSave (k : Nat) (s : State) : Host.Outcome State Fault Refusal := running s (s.canForceSave k) (·.forceSave k)
def execForcedSaveRestore (k : Nat) (s : State) : Host.Outcome State Fault Refusal := running s (s.canForceRestore k) (·.forceRestore k)
def execRunaheadEntry (gid : Nat) (s : State) : Host.Outcome State Fault Refusal := running s (s.canRunAhead gid) (·.runAhead gid)
def execRunaheadExit (gid : Nat) (s : State) : Host.Outcome State Fault Refusal := running s (s.canExitRunahead gid) (·.leaveRunahead gid)
def execPanTimerExpiry (core k : Nat) (s : State) : Host.Outcome State Fault Refusal := running s (s.canExpire core k) (·.expire core k)
def execPanLaunch (core k : Nat) (s : State) : Host.Outcome State Fault Refusal := running s (s.panSlot core k).isSome (·.launchPan core k)
def execSpawnStallReissue (gid : Nat) (s : State) : Host.Outcome State Fault Refusal := running s (s.canReissueSpawn gid) (·.makeReady gid)
def execOverflowMove (core key : Nat) (s : State) : Host.Outcome State Fault Refusal := running s (s.canMoveArea core key) (·.moveArea core key)
def execBarrierUnitArrival (cl : Nat) (s : State) : Host.Outcome State Fault Refusal := running s (s.canArrive cl) (·.arriveUnit cl)
def execPendingFaultRecordWrite (d : Nat) (s : State) : Host.Outcome State Fault Refusal := running s (s.canWritePending d) (·.writePending d)
def execWaitaReread (gid : Nat) (s : State) : Host.Outcome State Fault Refusal := running s (s.canReread gid) (·.reread gid)
def execWaitaTimeLimit (gid : Nat) (s : State) : Host.Outcome State Fault Refusal := running s (s.canTimeOut gid) (·.makeReady gid)
def execTeamPreemption (key : Nat) (s : State) : Host.Outcome State Fault Refusal := running s (s.canPreempt key) (·.preemptTeam key)
def execTeamRestore (key core : Nat) (s : State) : Host.Outcome State Fault Refusal := running s (s.canRestore key core) (·.restore key core)
def execSampleTag (k : Nat) (s : State) : Host.Outcome State Fault Refusal := running s (s.canTag k) (·.tag k)
def execSampleRecord (k : Nat) (s : State) : Host.Outcome State Fault Refusal := running s (s.canSample k) (·.sample k)
def execWatchStop (gid : Nat) (s : State) : Host.Outcome State Fault Refusal := running s (s.canStop gid) (·.stopGroup gid)
def execHarrowSweep (d : Nat) (s : State) : Host.Outcome State Fault Refusal := running s (s.canSweep d) (·.sweep d)

end Sys2Proof.Machine
end

