-- ==== Sys2Proof/Machine/EvMatrix.lean ====
section
/-! DEFINITION. Events of the matrix units (09 R240, R241, R249 to R253, R271). -/

namespace Sys2Proof.Machine

/-- The unit has cleared itself for a team (09 R240). -/
def State.canClear (s : State) (k : Nat) : Bool := (s.unit k).clearing.isSome && (s.unit k).holder.isNone
def State.clearUnit (s : State) (k : Nat) : State :=
  match (s.unit k).clearing with
  | none => s
  | some t => s.setUnit k ((s.unit k).cleared t)

/-- The first operation that the unit has not begun. -/
def beginNext : List MatOp → List MatOp
  | [] => []
  | o :: r => if o.executed then o :: beginNext r else { o with executed := true } :: r
def State.canExecute (s : State) (k : Nat) : Bool := (s.unit k).ops.any fun o => !o.executed
/-- Begins it; its occupancy is counted for the launch of its team. -/
def State.execute (s : State) (k : Nat) : State :=
  let u := s.unit k
  let s1 := s.setUnit k { u with ops := beginNext u.ops }
  match u.ops.find? fun o => !o.executed with
  | none => s1
  | some o => s1.countCtx (s.teamCtx (s.team o.team)) (k / 64) (k / 4 % 16) (0x1C + k % 4) o.occ

/-- Whether the unit's oldest operation can complete. -/
def State.canComplete (s : State) (k : Nat) : Bool :=
  match (s.unit k).ops with
  | [] => false
  | o :: _ => o.executed

/-- Whether the unit is to be released: nothing of its holder is in its queue, and the holder gives it up (09 R241) or has ended. -/
def State.canRelease (s : State) (k : Nat) : Bool :=
  match (s.unit k).holder with
  | none => false
  | some t => (s.unit k).ops.all (fun o => o.team != t) &&
      (s.teamOver t || s.groups.any fun e => unitOf e.1 == k && e.2.team == t && e.2.stat == .waiting (.unit uRelease 0))
def State.freeUnit (s : State) (k : Nat) : State :=
  match (s.unit k).holder with
  | none => s
  | some t => (s.releaseUnit k).endTeam t

/-- Whether the unit's oldest operation is a drain whose ranges have changed (09 R271). -/
def State.canAbort (s : State) (k : Nat) : Bool :=
  match (s.unit k).ops with
  | [] => false
  | o :: _ => o.o == .mdrain && o.aborted && !o.stored

def execUnitClearComplete (k : Nat) (s : State) : Host.Outcome State Fault Refusal := running s (s.canClear k) (·.clearUnit k)
def execMatrixOperationExecute (k : Nat) (s : State) : Host.Outcome State Fault Refusal := running s (s.canExecute k) (·.execute k)
def execMatrixOperationComplete (k : Nat) (s : State) : Host.Outcome State Fault Refusal := running s (s.canComplete k) (·.completeOp k)
def execUnitRelease (k : Nat) (s : State) : Host.Outcome State Fault Refusal := running s (s.canRelease k) (·.freeUnit k)
def execMdrainAbort (k : Nat) (s : State) : Host.Outcome State Fault Refusal := running s (s.canAbort k) (·.completeOp k)

end Sys2Proof.Machine
end

