-- ==== Sys2Proof/Machine/EvRange.lean ====
section
/-! DEFINITION. Events of the range walkers and of compaction (13 R332, R336, R337, R340; 10 R276, R289, R290, R296). -/

namespace Sys2Proof.Machine

/-! ### The walker -/

/-- The requests that a walker holds; the others wait in their cores (13 R332). -/
def ClusterSt.pending (c : ClusterSt) : List WalkReq := c.queue.take Config.walkerPending
/-- Walks at once (13 R332). -/
def Config.walksAtOnce : Nat := 8
/-- Whether a walk may begin for a request: none of its address space is in flight, and fewer than 8 are. -/
def ClusterSt.mayWalk (c : ClusterSt) (r : WalkReq) : Bool :=
  let busy := c.pending.filter (·.walking)
  decide (busy.length < Config.walksAtOnce) && !busy.any fun q => q.asid == r.asid
/-- Whether a request is an RQRY's, which walks whatever the range cache holds (10 R285; 13 R336). -/
def WalkReq.asks (r : WalkReq) : Bool := !r.ra && r.why == 2
/-- The first request that the walker takes up: one that its cache answers, or for which a walk may begin. -/
def State.fresh (s : State) (cl : Nat) : Option Nat :=
  let c := s.cluster cl
  c.pending.findIdx? fun r => !r.walking && ((!r.asks && (c.cached r.asid r.va).isSome) || c.mayWalk r)
/-- A walk that goes on with the words that it has asked for; several do so in turn. -/
def State.resumed (s : State) (cl : Nat) : Option Nat :=
  let c := s.cluster cl
  let l := (List.range c.pending.length).filter fun n => match c.pending[n]? with | some r => r.walking && r.gen.isSome | none => false
  l[s.clock / 4 % max 1 l.length]?
/-- The first walk that reads a changing directory again. -/
def State.due (s : State) (cl : Nat) : Option Nat :=
  (s.cluster cl).pending.findIdx? fun r => r.walking && r.gen.isNone && decide (r.retry ≤ s.clock)
/-- Takes the request at place n of a queue through a walk: what it returns answers every waiting request that it covers. -/
def State.walkRequest (s : State) (cl n : Nat) : State :=
  match (s.cluster cl).queue[n]? with
  | none => s
  | some r =>
    let (s1, x) := s.walk (walker cl) (cl / 4) r.asid r.va
    let again := match r.gen with | some (g + 1) => (s.generation (walker cl) (cl / 4) r.asid).any (· ≠ g) | _ => false
    let repeats := fun (st : State) => if again then st.countCluster cl 0x03 1 else st
    let c := s1.cluster cl
    let put := fun (q : WalkReq) => s1.setCluster cl { c with queue := c.queue.set n { q with walking := true } }
    let free := fun (st : State) => repeats (if (st.cluster cl).queue.any (·.walking) then st else st.forget (walkWho cl))
    match x with
    | .odd => put { r with retry := s.clock + 64, gen := none }
    | .asked g => repeats (put { r with gen := some g })
    | .done (.miss code a) => free (s1.setCluster cl { c with queue := c.queue.eraseIdx n, results := c.results ++ [(r, .miss code a)] })
    | .done (.found e) =>
      let rest := c.queue.eraseIdx n
      let hit := fun (q : WalkReq) => q.asid == r.asid && e.image.covers q.va && !q.asks && !r.asks
      let waiting := (rest.take (Config.walkerPending - 1)).filter hit
      let c1 := { c with queue := (rest.take (Config.walkerPending - 1)).filter (fun q => !hit q) ++ rest.drop (Config.walkerPending - 1),
                         results := c.results ++ (r, WalkResult.found e) :: waiting.map fun q => (q, WalkResult.found e) }
      free ((s1.setCluster cl (if r.asks then c1 else c1.keep r.asid e)).countCluster cl 0x01 waiting.length)
def State.canWalk (s : State) (cl : Nat) : Bool := (s.fresh cl).isSome || (s.resumed cl).isSome
/-- Handles the next request: by the range cache, else by a walk. -/
def State.walkNext (s : State) (cl : Nat) : State :=
  match s.fresh cl, s.resumed cl with
  | some n, _ =>
    let c := s.cluster cl
    (match c.queue[n]? with
    | none => s
    | some r => match (if r.asks then none else c.cached r.asid r.va) with
      | some e => (s.setCluster cl ({ c with queue := c.queue.eraseIdx n, results := c.results ++ [(r, WalkResult.found e)] }.keep r.asid e)).countCluster cl 0x02 1
      | none => (s.walkRequest cl n).countCluster cl 0x00 1)
  | none, some n => s.walkRequest cl n
  | none, none => s
def State.canRetryWalk (s : State) (cl : Nat) : Bool := (s.due cl).isSome
def State.retryWalk (s : State) (cl : Nat) : State :=
  match s.due cl with
  | none => s
  | some n => (s.walkRequest cl n).countCluster cl 0x03 1

def State.canFill (s : State) (cl : Nat) : Bool := !(s.cluster cl).results.isEmpty
/-- A runahead lane or prefetch whose range a walk has found: what it does at a hit of the range table. -/
def State.hinted (s : State) (r : WalkReq) (gid : Nat) (g : Group) (l : Located) : State :=
  let drop := match l.p with | .host _ | .scratch _ _ | .aperture _ _ => true | _ => (s.unitHeld l).isSome
  if drop then s.countFor gid g 0x20 1
  else
    let w := { s.groupWho gid g with scope := 0 }
    let s1 := if r.why = 1 then s.prefetchLine w true l else s.prefetch gid g w (r.why - 4) l
    s1.countFor gid g (0x10 + quarterOf gid) 1
/-- What a walk shows of a lane of a load, or of a prefetch, that asked in runahead: a hint is dropped whose address is unmapped, lacks R or lies
outside a window, and such a lane of a load in a range with N set posts its note while the group still runs ahead (10 R296); any other prefetches its
line, and is counted (10 Table 10.6). -/
def State.hintWalked (s : State) (r : WalkReq) (gid : Nat) (g : Group) (res : WalkResult) : State :=
  if r.why = 3 then s
  else match res with
  | .miss _ _ => s.countFor gid g 0x20 1
  | .found e => match s.through e (s.launchOf g).ctx .hint 4 r.va with
    | .fault 7 _ _ =>
      let x := if r.why = 1 then s.noteLane gid g e r.va else (s, g)
      (x.1.setGroup gid x.2).countFor gid x.2 0x20 1
    | .fault _ _ _ => s.countFor gid g 0x20 1
    | .ok p e => s.hinted r gid g ⟨⟨0, r.va, 1⟩, p, e⟩
    | .walk => s
/-- A record comes into a core's range table. One of another generation than the last is met after the change that made it, so the clean bytes that
L1 holds are dropped (10 R282). -/
def State.enter (s : State) (core : Nat) (e : RangeEntry) : State :=
  let c := s.core core
  let asid := e.image.asid
  let c1 := if tfind c.seen asid = some e.gen then c else (c.mapSectors fun _ x => x.onlyDirty)
  s.setCore core { c1.use e with seen := tput c1.seen asid e.gen }
/-- The oldest result reaches its core: it enters the range table, and its group may issue again. -/
def State.fill (s : State) (cl : Nat) : State :=
  let c := s.cluster cl
  match c.results with
  | [] => s
  | (r, res) :: rest =>
    let s1 := s.setCluster cl { c with results := rest }
    let s2 := match res with
      | .found e => if r.asks then s1 else s1.enter r.core e
      | .miss _ _ => s1
    match r.gid with
    | none => s2
    | some gid => match s2.group? gid with
      | none =>
        let core := s2.core r.core
        if gid < 2 ^ 20 then s2 else s2.setCore r.core { core with answers := core.answers ++ [(gid, ⟨r.asid, r.va, res, false⟩)] }
      | some g =>
        if r.ra then s2.hintWalked r gid g res
        else
          let g1 := { g with answers := g.answers ++ [⟨r.asid, r.va, res, r.asks⟩] }
          match g.stat with
          | .waiting (.walk _) => s2.setGroup gid (if s2.walking gid then g1 else g1.readied)
          | .waiting (.waita _ _) => s2.setGroup gid g1
          | _ => s2

/-- An error in the walker's own state ends its walks: each request that it holds is answered with code 0x0003 (13 R340). -/
def State.failWalks (s : State) (cl : Nat) : State :=
  let c := s.cluster cl
  (s.setCluster cl { c with queue := c.queue.drop Config.walkerPending,
                            results := c.results ++ c.pending.map fun r => (r, WalkResult.miss 3 (BitVec.ofNat 56 r.va)) }).forget (walkWho cl)

/-! ### Compaction (10 R289, R290) -/

/-- The slice that moves a range, as it asks other agents: that of the die that owns the first byte of the old target (log 38). -/
def State.mover (s : State) (m : Move) (ctx : Nat) : Who :=
  let die := match s.placeOf m.src with
    | .hbm t => if t < hbmEnd then ownerDie t else m.cluster / 4
    | .host h => homeDie h
    | _ => m.cluster / 4
  { who := 2 ^ 120 + m.asid * 2 ^ 60 + m.base, gid := 4096 * die, team := 0, asid := m.asid, ctx := ctx, part := 0, engine := true }
/-- The record of a migrating range in its directory, with its index and the directory as it is read. -/
def State.movingRec (s : State) (w : Who) (m : Move) : Option (Nat × RangeRec × Space) :=
  let sp := s.space w (m.cluster / 4) m.asid
  (coveringRec (s.records w sp) m.base).map fun x => (x.1, x.2, sp)
/-- Changes the record of a migrating range in its directory and in the copies of its scope. -/
def State.setMoving (s : State) (w : Who) (m : Move) (f : RangeRec → RangeRec) : State :=
  let s1 := match s.movingRec w m with
    | none => s
    | some (n, r, sp) =>
      let at_ := sp.dir + 32 * n
      let x := f r
      ((s.dirWrite w at_ x.w0.toNat).dirWrite w (at_ + 16) x.w2.toNat).dirWrite w (at_ + 24) x.w3.toNat
  s1.mapCopies m.scope (4 * m.cluster) m.asid fun e => some (if e.image.base = m.base ∧ e.image.moving then { e with image := f e.image } else e)
/-- Sets the cursor of a migrating record. -/
def RangeRec.setCursor (r : RangeRec) (n : Nat) : RangeRec := { r with w3 := BitVec.ofNat 64 (r.rhi * 2 ^ 32 + n) }
/-- A record whose migration has ended. -/
def RangeRec.endMove (r : RangeRec) : RangeRec :=
  { r with w0 := r.w0 &&& ~~~0x400000000000000, w2 := BitVec.ofNat 64 (bits r.w2 63 50 * 2 ^ 50 + r.newTarget / 64), w3 := 0 }

/-- Whether a sector's home lies in the unit at a target address. -/
def State.homeIn (s : State) (h : Home) (a : Nat) : Bool :=
  match h, s.placeOf a with
  | .hbm t, .hbm b => b ≤ t && t < b + 256
  | .fabric p t, .fabric q b => p == q && b ≤ t && t < b + 256
  | _, _ => false
/-- Writes back and drops what L1 and the stashes hold of the unit at its two target addresses, so that the move carries it and none of them keeps
what the new one held before. -/
def State.flushUnit (s : State) (w : Who) (a b : Nat) : State :=
  let s1 := s.teams.foldl (fun (st : State) e =>
    let xs := e.2.stash.filter fun x => s.homeIn x.2.home a || s.homeIn x.2.home b
    if xs.isEmpty then st
    else
      let st1 := xs.foldl (fun (st : State) x => st.writeBackSector { w with gid := 256 * e.2.core } x.2) st
      st1.setTeam e.1 { st1.team e.1 with stash := (st1.team e.1).stash.filter fun x => !(s.homeIn x.2.home a || s.homeIn x.2.home b) }) s
  s.cores.foldl (fun (st : State) c =>
    st.flushL1 { w with gid := 256 * c.1 } ((c.2.sectors.filter fun x => s.homeIn x.2.home a || s.homeIn x.2.home b).map (·.1))) s1
/-- What the write-back of the unit asks of the host. -/
def State.askFlush (s : State) (w : Who) (a b : Nat) : Option State :=
  let held := s.teams.flatMap (fun e => e.2.stash.map (·.2)) ++ s.cores.flatMap fun c => c.2.sectors.map (·.2)
  s.askEach (held.filter fun x => s.homeIn x.home a || s.homeIn x.home b) fun st x => st.askBackOf w x
/-- What reading the unit at one target address, and writing that at another, asks of other agents. -/
def State.askUnit (s : State) (w : Who) (a b : Nat) : Option State :=
  s.askEach (List.range 32) fun st k =>
    let from_ := match st.placeOf (a + 8 * k) with
      | .fabric pkg t => if (st.backCodes (a + 8 * k)).isEmpty then st.askWord w (w.ctx != 0) pkg t 8 (backKey (a + 8 * k)) .read else none
      | _ => if (st.backCodes (a + 8 * k)).isEmpty then st.askBack w .read (a + 8 * k) else none
    match from_, st.placeOf (b + 8 * k) with
    | some s1, _ => some s1
    | none, .fabric _ _ => none
    | none, _ => if (st.backCodes (b + 8 * k)).isEmpty then st.askBack w .write (b + 8 * k) else none
/-- A sector of a unit as its place gives it: the state after, its bytes and their poison codes. -/
def State.readUnit (s : State) (w : Who) (a : Nat) : State × List Byte × List Nat :=
  if !(s.backCodes a).isEmpty then (s, List.replicate 64 0, List.replicate 64 7)
  else match s.placeOf a with
  | .hbm t => s.readSlice (dieOf w.gid) w.ctx t 64
  | _ =>
    let bs := (List.range 64).map fun i => s.backByte w (a + i)
    ((s.openBack w a).1, bs.map (·.1), bs.map (·.2))
/-- Writes a sector of a unit, with its poison by word. -/
def State.writeUnit (s : State) (w : Who) (b : Nat) (bytes : List Byte) (bad : List Nat) : State :=
  let word := fun k => BitVec.ofNat 64 (ofBytes ((bytes.drop (8 * k)).take 8))
  let spoilt := fun k => ((bad.drop (8 * k)).take 8).any (· ≠ 0)
  if !(s.backCodes b).isEmpty then s
  else match s.placeOf b with
  | .hbm t => s.writeSector (dieOf w.gid) w.ctx t bytes (-1) spoilt
  | .host h => (List.range 8).foldl (fun (st : State) k => st.writeHost w (h + 8 * k) 8 (word k).toNat (spoilt k)) s
  | .fabric pkg t =>
    (List.range 8).foldl (fun (st : State) k =>
      st.sendFabric w (w.ctx != 0) pkg (t + 8 * k) 8 (backKey (b + 8 * k)) (.write (word k) (spoilt k)) true) s
  | _ => s

/-- The move under way of a number, its mover, and whether every write that the mover has made is acknowledged. -/
def State.move? (s : State) (n : Nat) : Option (Move × Who) :=
  (s.moves[n]?).map fun m =>
    let ctx := (s.movingRec (s.mover m 0) m).map fun x => x.2.1.ctx
    (m, s.mover m (ctx.getD 0))
def State.canMoveUnit (s : State) (n : Nat) : Bool :=
  match s.moves[n]? with
  | none => false
  | some m => decide (256 * m.done < m.size) && s.quiet (s.mover m 0).who
/-- Ends the move of a unit whose bytes are at the new target: the cursor advances and the unit is released, once the directory can be
written. -/
def State.passUnit (s : State) (n : Nat) (m : Move) (w : Who) : State :=
  let sent : State := { s with moves := s.moves.set n { m with held := true, sent := true } }
  if !s.quiet w.who then sent
  else match s.askDir w (m.cluster / 4) m.asid with
    | some s1 => { s1 with moves := s1.moves.set n { m with held := true, sent := true } }
    | none =>
      let s1 : State := { s with moves := s.moves.set n { m with done := m.done + 1, held := false, sent := false } }
      let s2 := (s1.setMoving w m fun r => r.setCursor (m.done + 1)).forget w.who
      s2.countSlice (dieOf w.gid) 0x0B 1
/-- Copies the four sectors of a unit between target addresses, with their poison: the state after, and whether one of them, or an earlier one, was
spoilt. -/
def State.copyUnit (s : State) (w : Who) (a b : Nat) (bad : Bool) : State × Bool :=
  (List.range 4).foldl (fun (x : State × Bool) k =>
    let r := x.1.readUnit w (a + 64 * k)
    (r.1.writeUnit w (b + 64 * k) r.2.1 r.2.2, x.2 || r.2.2.any (· ≠ 0))) (s, bad)
/-- Takes the next step of the move of a range's next unit: holds it and writes back what the cores hold of it; copies its bytes with their poison
once they can be had; advances the cursor. -/
def State.moveUnit (s : State) (n : Nat) : State :=
  match s.move? n with
  | none => s
  | some (m, w) =>
    let a := m.src + 256 * m.done
    let b := m.dst + 256 * m.done
    if m.sent then s.passUnit n m w
    else if !m.held then
      match s.askFlush w a b with
      | some s1 => s1
      | none =>
        let s1 := s.flushUnit w a b
        { s1 with moves := s1.moves.set n { m with held := true } }
    else match s.askUnit w a b with
      | some s1 => s1
      | none =>
      let x := s.copyUnit w a b m.poisoned
      x.1.passUnit n { m with poisoned := x.2 } w
def State.canEndMove (s : State) (n : Nat) : Bool :=
  match s.moves[n]? with
  | none => false
  | some m => decide (m.size ≤ 256 * m.done) && s.quiet (s.mover m 0).who
/-- Ends a compaction: the record has its new target, and a note says so, with the context of an encrypted range. It is about no launch, so the
die's ring receives the whole of it. -/
def State.endMove (s : State) (n : Nat) : State :=
  match s.move? n with
  | none => s
  | some (m, w) => match s.askDir w (m.cluster / 4) m.asid with
    | some s1 => s1
    | none =>
      let index := match s.movingRec w m with | some (k, _, _) => k | none => 0
      let s1 := { (s.setMoving w m RangeRec.endMove).forget w.who with moves := s.moves.eraseIdx n }
      s1.postNote (dieOf w.gid) 0 (0x03 * 2 ^ 56 + m.base) m.asid index 0 0 (w.ctx * 2 ^ 32 + m.poisoned.toNat)

def execRangeWalk (cl : Nat) (s : State) : Host.Outcome State Fault Refusal := running s (s.canWalk cl) (·.walkNext cl)
def execWalkGenerationRetry (cl : Nat) (s : State) : Host.Outcome State Fault Refusal := running s (s.canRetryWalk cl) (·.retryWalk cl)
def execRangeTableFill (cl : Nat) (s : State) : Host.Outcome State Fault Refusal := running s (s.canFill cl) (·.fill cl)
def execWalkerError (cl : Nat) (s : State) : Host.Outcome State Fault Refusal := running s true (·.failWalks cl)
def execCompactionUnitMove (n : Nat) (s : State) : Host.Outcome State Fault Refusal := running s (s.canMoveUnit n) (·.moveUnit n)
def execCompactionDone (n : Nat) (s : State) : Host.Outcome State Fault Refusal := running s (s.canEndMove n) (·.endMove n)

end Sys2Proof.Machine
end

