-- ==== Sys2Proof/Machine/EvSlice.lean ====
section
/-! DEFINITION. Events of the slices, the die-to-die links and the pairs (13 R329, R339; 14 R347, R354 to R362). -/

namespace Sys2Proof.Machine

/-! ### Answers across the fabric (17 R425, R426, R429) -/

/-- Sends a flit of this package toward a package by its route; it is lost where there is none. -/
def State.sendFlit (s : State) (pkg : Nat) (f : Flit) : State :=
  match s.route pkg with
  | none => s
  | some k => s.sendAt k f
/-- Answers a request of another package, sealed as its flit was. -/
def State.answer (s : State) (r : SliceReq) (kind : Nat) (body : FlitBody) : State :=
  s.sendFlit r.package { kind := kind, channel := 1, dst := r.package, src := s.chofer.package, hops := 0, ctx := r.sealCtx, part := r.part,
                         length := s.flitLength, tag := r.tag, body := body }

/-! ### The slice (14 R347) -/

/-- What a request does. -/
def reqKind (r : SliceReq) : Kind :=
  match r.op with
  | .read => .read
  | .write _ _ => .write
  | .atom _ _ _ | .swap _ => .atom
/-- A slice as it asks the host for what it serves, or does of itself. -/
def sliceWho (d : Nat) : Who := { who := 2 ^ 43 + d, gid := 4096 * d, team := 0, asid := 0, ctx := 0, part := 0, engine := true }
/-- Whether a slice has a request; none is served before the package reports that it is ready (16 R393). -/
def State.canAccess (s : State) (d : Nat) : Bool := !(s.die d).requests.isEmpty && s.published
/-- Performs the oldest request of a die's slice, once the host holds nothing that it needs, and answers it. -/
def State.access (s : State) (d : Nat) : State :=
  match (s.die d).requests with
  | [] => s
  | r :: rest =>
    if s.snoopNeeded (reqKind r) r.target then s.sendSnoop (sliceWho d) (reqKind r) r.target
    else
      let s0 := s.forget (sliceWho d).who
      let s1 := s0.setDie d { s0.die d with requests := rest }
      match r.op with
      | .read =>
        let g := s1.readHbm d r.ctx r.target r.bytes
        g.s.answer r 2 (.response (BitVec.ofNat 64 g.v) g.bad)
      | .write v bad => ((s1.writeHbm d r.ctx r.target r.bytes v.toNat bad).strayed none r.target).answer r 3 .ack
      | .atom op ty xs =>
        let g := s1.atomHbm d r.ctx r.target r.bytes fun v => (atomChain op ty (BitVec.ofNat 64 v) xs).2.toNat
        (g.s.strayed none r.target).answer r 2 (.response (BitVec.ofNat 64 g.v) g.bad)
      | .swap v =>
        let g := s1.readHbm d r.ctx r.target r.bytes
        ((s1.writeHbm d r.ctx r.target r.bytes v.toNat false).strayed none r.target).answer r 2 (.response (BitVec.ofNat 64 g.v) g.bad)

/-- What a slice does of itself to a line follows the host's answers for the sectors that it writes (17 R422). -/
def State.onLine (s : State) (d line : Nat) (f : State → State) : State :=
  let held := s.mergeHeld line
  if held.isEmpty then f (s.forget (sliceWho d).who) else s.snoopAll (sliceWho d) (held.map (·, true))
def State.canEvict (s : State) (sec : Nat) : Bool := tget false s.present sec

/-! ### Partial copies (14 R354 to R357) -/

def State.partial? (s : State) (d line : Nat) : Option Partial := (s.die d).partials.find? fun p => p.line == line
def State.canJoin (s : State) (d line : Nat) : Bool := match s.partial? d line with | some p => !p.joined | none => false
/-- Changes the partial copy a die holds of a line. -/
def State.modPartial (s : State) (d line : Nat) (f : Partial → Partial) : State :=
  let die := s.die d
  s.setDie d { die with partials := die.partials.map fun p => if p.line = line then f p else p }
/-- The owning slice records a join and acknowledges it, and with it the REDs that wait. -/
def State.join (s : State) (d line : Nat) : State :=
  match s.partial? d line with
  | none => s
  | some p =>
    let s1 := s.modPartial d line fun p => { p with joined := true, waiting := [] }
    let mask := tget 0 s1.cLines line
    p.waiting.foldl (fun (st : State) gid => st.takeAck gid) { s1 with cLines := tset 0 s1.cLines line (mask ||| 2 ^ d) }

/-! ### Errors (14 R359 to R362) -/

/-- Poisons the lanes of a result that has not come, as far as it still writes them (01 R29). -/
def Outst.spoil (o : Outst) (lanes : LaneMask) (c : Ctx) : Ctx :=
  let c1 := o.regs.foldl (fun (c : Ctx) r => (lanesOf 128 (r.2 &&& lanes)).foldl (fun (c : Ctx) k =>
    { c with vPoison := tset 0 c.vPoison (128 * r.1 + k) 1 }) c) c
  if lanes = 0 then c1 else o.gs.foldl (fun (c : Ctx) n => { c with gPoison := tset 0 c.gPoison n 1 }) c1
/-- Poisons a word of HBM. -/
def State.poisonWord (s : State) (w : Nat) : State := { s with poison := tset false s.poison w true }
/-- An uncorrectable error. -/
def State.errorAt (s : State) (e : ErrSite) : State :=
  match e with
  | .memWord w =>
    if hbmEnd ≤ 8 * w then s
    else (s.poisonWord w).countSlice (ownerDie (8 * w)) (if tget false s.present (w / 8) then 7 else 9) 1
  | .register gid name lanes => match s.group? gid with
    | none => s
    | some g =>
      if g.ctx.bound.contains name then
        let spoil := fun (c : Ctx) => { c with vPoison := (lanesOf g.width lanes).foldl (fun p l => tset 0 p (128 * name + l) 1) c.vPoison }
        let ra := g.ra.map fun r => if r.bound.contains name then r else { r with saved := spoil r.saved }
        (s.setGroup gid { g with ctx := spoil g.ctx, ra := ra }).countFor gid g 0x26 1
      else s
  | .scratchWord key side w =>
    if (tfind s.teams key).isSome ∧ 4 * w < s.scratchSize key then
      let t := s.team key
      (s.setTeam key { t with scratchPoison := tset false t.scratchPoison (scratchKey side 0 / 4 + w) true }).countCore (t.core + side) 0x26 1
    else s
  | .rangeCache cl n =>
    let c := s.cluster cl
    if n < c.cache.length then (s.setCluster cl { c with cache := c.cache.eraseIdx n }).countCluster cl 4 1 else s
  | .partialCopy d line =>
    if (s.partial? d line).isSome then (s.modPartial d line fun p => { p with bad := true }).countSlice d 7 1 else s
  | .accumulator k slot n =>
    if slot < 32 ∧ n < 3072 then
      let u := s.unit k
      (s.setUnit k { u with accPoison := tset false u.accPoison (3072 * slot + n) true }).countCore (k / 4) 0x26 1
    else s
  | .bSlice k w =>
    if 4 * w < 2 ^ 22 then
      let u := s.unit k
      (s.setUnit k { u with bPoison := tset false u.bPoison w true }).countCore (k / 4) 0x26 1
    else s
  | .l1Word core line place w =>
    let c := s.core core
    if (c.sector (4 * line + place % 4)).isSome then
      (s.setCore core (c.mapSectors fun k x => if k = 4 * line + place % 4 then { x with bad := x.bad.set (w % 8) 1 } else x)).countCore core 0x26 1
    else s
  | .stashWord key n w =>
    let t := s.team key
    match tfind t.stash n with
    | some x => (s.setTeam key { t with stash := tput t.stash n { x with bad := x.bad.set (w % 8) 1 } }).countCore (t.core + n / 2 ^ 50) 0x26 1
    | none => s
  | .hostWord w =>
    match tfind s.host.sectors (w / 8) with
    | some x =>
      let x1 := { x with bad := x.bad ||| BitVec.ofNat 8 (2 ^ (w % 8)) }
      ({ s with host := { s.host with sectors := tput s.host.sectors (w / 8) x1 } }).countSlice (homeDie (8 * w)) 7 1
    | none => s
  | .returned gid seq lanes => match s.group? gid with
    | none => s
    | some g =>
      let hit := fun (l : List Outst) (c : Ctx) => (l.filter fun o => s.awaited o && o.seq == seq).foldl (fun c o => o.spoil lanes c) c
      s.setGroup gid (match g.ra with
        | some r => { g with ra := some { r with saved := hit r.entry r.saved } }
        | none => { g with ctx := hit g.outst g.ctx })
/-- An error that is corrected where a scrub, or an access, finds it: the value stays, and the error is counted (14 R359; 11 Table 11.7). -/
def State.corrected (s : State) (e : Corrected) : State :=
  match e with
  | .none => s
  | .hbm w => s.countSlice (ownerDie (8 * w) % 8) 0x08 1
  | .slice w => s.countSlice (ownerDie (8 * w) % 8) 0x06 1
  | .core c => s.countCore (c % 128) 0x25 1
/-- A word that fails persistently. -/
def State.failWord (s : State) (w : Nat) : State :=
  if hbmEnd ≤ 8 * w then s
  else ({ s.poisonWord w with deadWords := insertName w s.deadWords }).countSlice (ownerDie (8 * w)) 9 1

/-! ### Links (13 R329, R339; 14 R361) -/

/-- Codes of the events that the model posts to the management plane, beside that of 16 R410 (0x10). -/
def evLinkDown : Nat := 0x11
def evPortDown : Nat := 0x12
def evSameNumber : Nat := 0x13
/-- The lanes of a result that has not come whose data a die's memory gives over its link. -/
def Outst.from_ (o : Outst) (die : Nat) : LaneMask := o.crossed.foldl (fun m x => if x.1 = die then m ||| x.2 else m) 0
/-- The loads that a link carries when it goes down complete with poison, and raise their fault, which cannot be restarted: a group with such loads parks
with the record of the oldest (14 R361). One that runs ahead does so from its checkpoint. -/
def State.cutLoads (s : State) (src dst : Nat) : State :=
  s.groups.foldl (fun (st : State) (e : Nat × Group) =>
    let g := match e.2.ra with
      | some r => { e.2 with ctx := r.saved, outst := r.entry, ra := none }
      | none => e.2
    match (g.outst.filter fun o => s.awaited o && o.from_ dst != 0) with
    | [] => st
    | o :: r =>
      if dieOf e.1 ≠ src ∨ e.2.stat = .ended then st
      else
        let c := (o :: r).foldl (fun c x => x.spoil (x.from_ dst) c) g.ctx
        (st.dropRequests e.1).takeFault e.1 { g with ctx := { c with pc := o.pc } } ⟨8, 5, o.from_ dst, none, none⟩ none) s
/-- A die declares its link to another down: the loads that it carries are lost, and the other discards the partials that the first holds of its lines
and poisons their words. -/
def State.cutLink (s : State) (src dst : Nat) : State :=
  let d := s.die src
  if src = dst ∨ d.deadLinks.contains dst then s
  else
    let lost := d.partials.filter fun p => ownerDie (256 * p.line) == dst
    let s1 := s.setDie src { d with deadLinks := insertName dst d.deadLinks, partials := d.partials.filter fun p => ownerDie (256 * p.line) != dst }
    let s2 := lost.foldl (fun (st : State) p =>
      let st1 := p.words.foldl (fun (st : State) w => st.poisonWrite w.1 (atomSize p.ty) true) st
      let mask := tget 0 st1.cLines p.line
      { st1 with cLines := tset 0 st1.cLines p.line (if mask.testBit src then mask - 2 ^ src else mask) }) s1
    (s2.cutLoads src dst).post evLinkDown (8 * src + dst)
/-- A resend on a link, of the transfer that it carries: after 16 of one transfer that fail, the link is down (14 R361). The spec does not say which end's
slice counts a resend (R364): the model counts it at the die that sends (log 79). -/
def State.resendDie (s : State) (src dst : Nat) (failed : Bool) : State :=
  let d := s.die src
  let n := if failed then tget 0 d.resends dst + 1 else 0
  let s1 := (s.setDie src { d with resends := tset 0 d.resends dst (if n < 16 then n else 0) }).countSlice src 0x0A 1
  if n < 16 then s1 else s1.cutLink src dst

def State.canAperture (s : State) (cl : Nat) : Bool := !(s.cluster cl).aperture.isEmpty
/-- The oldest aperture store of a cluster is performed; one that the link delivers with an uncorrectable error is written poisoned. -/
def State.aperture (s : State) (cl : Nat) (error : Bool) : State :=
  let c := s.cluster cl
  match c.aperture with
  | [] => s
  | a :: r =>
    let s1 := s.setCluster cl { c with aperture := r }
    if (tfind s1.teams a.team).isNone then s1
    else s1.setTeam a.team ((s1.team a.team).writeScratch (scratchKey a.side a.off) a.data.length (ofBytes a.data) s1.clock (a.poison || error))

/-- The first core of a pair of a cluster. -/
def pairCore (cl pair : Nat) : Nat := 4 * cl + 2 * (pair % 2)
def State.canCutPair (s : State) (cl pair : Nat) : Bool := !(s.cluster cl).linkDown.contains (pair % 2)
/-- The pair link is down: every group of the teams that span the pair parks with a fault that cannot be restarted. The aperture stores still on the
link are discarded: the spec says so only of arrivals (log 57). -/
def State.cutPair (s : State) (cl pair : Nat) : State :=
  let c := s.cluster cl
  let hit := fun (t : Team) => t.paired && !t.saved && t.core == pairCore cl pair
  let keys := (s.teams.filter fun e => hit e.2).map (·.1)
  let s1 := s.setCluster cl { c with linkDown := insertName (pair % 2) c.linkDown, arrivals := c.arrivals.filter fun a => !keys.contains a.2.1,
                                     aperture := c.aperture.filter fun a => !keys.contains a.team }
  let s2 := keys.foldl (fun (st : State) k => st.setTeam k { st.team k with arrivals := [] }) s1
  s2.groups.foldl (fun (st : State) (e : Nat × Group) =>
    if keys.contains e.2.team ∧ e.2.stat ≠ .ended then
      let g := match e.2.ra with
        | some r => { e.2 with ctx := r.saved, outst := r.entry, ra := none }
        | none => e.2
      (st.dropRequests e.1).takeFault e.1 g ⟨8, 4, 0, none, none⟩ none
    else st) s2
/-- A resend on a pair link: after 16 of one transfer that fail, the link is down (13 R339). -/
def State.resendPair (s : State) (cl pair : Nat) (failed : Bool) : State :=
  let c := s.cluster cl
  let n := if failed then tget 0 c.resends (pair % 2) + 1 else 0
  let s1 := (s.setCluster cl { c with resends := tset 0 c.resends (pair % 2) (if n < 16 then n else 0) }).countCluster cl 5 1
  if n < 16 || !s1.canCutPair cl pair then s1 else s1.cutPair cl pair

def execSliceAccess (d : Nat) (s : State) : Host.Outcome State Fault Refusal := running s (s.canAccess d) (·.access d)
def execSectorEviction (sec : Nat) (s : State) : Host.Outcome State Fault Refusal := running s (s.canEvict sec) fun s => s.onLine (ownerDie (64 * sec)) (sec / 4) (·.evict sec)
def execPartialJoin (d line : Nat) (s : State) : Host.Outcome State Fault Refusal := running s (s.canJoin d line) (·.join d line)
def execPartialFlush (d line : Nat) (s : State) : Host.Outcome State Fault Refusal :=
  running s (s.partial? d line).isSome fun s => s.onLine d line (·.flushPartial d line)
def execCLineMerge (line : Nat) (s : State) : Host.Outcome State Fault Refusal :=
  running s true fun s => s.onLine (ownerDie (256 * line)) line (·.mergeLine line)
def execHbmScrub (found : Corrected) (s : State) : Host.Outcome State Fault Refusal := event s true (·.corrected found)
def execUncorrectableError (e : ErrSite) (s : State) : Host.Outcome State Fault Refusal := event s true (·.errorAt e)
def execHbmPersistentFault (w : Nat) (s : State) : Host.Outcome State Fault Refusal := event s true (·.failWord w)
def execDieLinkResend (src : Nat) (x : Transfer) (s : State) : Host.Outcome State Fault Refusal :=
  running s (src != x.target) (·.resendDie src x.target x.failed)
def execDieLinkDown (src dst : Nat) (s : State) : Host.Outcome State Fault Refusal := running s true (·.cutLink src dst)
def execPairApertureAccess (x : Transfer) (s : State) : Host.Outcome State Fault Refusal :=
  running s (s.canAperture x.target) (·.aperture x.target x.failed)
def execPairLinkResend (cl : Nat) (x : Transfer) (s : State) : Host.Outcome State Fault Refusal :=
  running s true (·.resendPair cl x.target x.failed)
def execPairLinkDown (cl pair : Nat) (s : State) : Host.Outcome State Fault Refusal := running s (s.canCutPair cl pair) (·.cutPair cl pair)

end Sys2Proof.Machine
end

