-- ==== Sys2Proof/Machine/EvTask.lean ====
section
/-! DEFINITION. Events of the Sluice engines and the task scheduler (15 R370 to R389). -/

namespace Sys2Proof.Machine

/-! ### Copies (15 R370 to R374) -/

/-- The lowest free engine of a die. -/
def State.freeEngine (s : State) (d : Nat) : Option Nat :=
  (List.range Config.enginesPerDie).find? fun e => !(s.die d).copies.any fun c => c.engine == some e
/-- The oldest queued copy that no engine works on. -/
def State.nextCopyOf (s : State) (d : Nat) : Option Copy := (s.die d).copies.find? fun c => c.engine.isNone && !c.suspended
/-- Changes a copy of a die. -/
def State.modCopy (s : State) (d id : Nat) (f : Copy → Copy) : State :=
  let die := s.die d
  s.setDie d { die with copies := die.copies.map fun c => if c.id = id then f c else c }
def State.canStartCopy (s : State) (d : Nat) : Bool := (s.freeEngine d).isSome && (s.nextCopyOf d).isSome
def State.startCopy (s : State) (d : Nat) : State :=
  match s.freeEngine d, s.nextCopyOf d with
  | some e, some c => s.modCopy d c.id fun c => { c with engine := some e }
  | _, _ => s

/-- The copy an engine works on. -/
def State.copyOn (s : State) (d e : Nat) : Option Copy := (s.die d).copies.find? fun c => c.engine == some e
def State.canChunk (s : State) (d e : Nat) : Bool := match s.copyOn d e with | some c => c.ending.isNone | none => false
/-- Whether the units that a copy's endpoints name are still held by its team. -/
def Copy.holds (c : Copy) (s : State) : Bool :=
  let held := fun (x : End) => match x.quarter with
    | some q => (s.unit (4 * c.core + q)).holder == some c.team
    | none => true
  held c.src && held c.dst
/-- One chunk of a copy, or the status it ends with. -/
def State.chunkCopy (s : State) (d e : Nat) : State :=
  match s.copyOn d e with
  | none => s
  | some c =>
    let stop := fun (st : State) (n : Nat) => st.modCopy d c.id fun c => { c with ending := some n }
    if !c.holds s then stop s 3
    else match c.chunk s with
      | (s1, some n, _) => stop s1 n
      | (s1, none, false) => s1
      | (s1, none, true) =>
        let all := decide (Block.size c.block ≤ Config.chunkSize * (c.chunks + 1))
        (s1.modCopy d c.id fun x => { x with chunks := c.chunks + 1, ending := if all then some 0 else none }).countSluice d 0x02 1
def State.canEndCopy (s : State) (d e : Nat) : Bool :=
  match s.copyOn d e with
  | some c => c.ending.isSome && s.quiet (copyWho c.id)
  | none => false
/-- A copy ends; its team may end with it. -/
def State.finishCopy (s : State) (d e : Nat) : State :=
  match s.copyOn d e with
  | none => s
  | some c => match c.ending with
    | none => s
    | some n => ((s.endCopy d c n).forget (copyWho c.id)).endTeam c.team

/-! ### Decrements (15 R376, R382) -/

/-- A write that touches a doorbell. -/
def State.bell (s : State) (t w : Nat) (v : W64) : State :=
  match s.doorbellOf t w with
  | some slot => s.ringBell t w v.toNat slot
  | none => s
def State.canDecrement (s : State) (d : Nat) : Bool := !(s.die d).decrements.isEmpty
/-- A die's scheduler applies the oldest decrement it has received. -/
def State.decrement (s : State) (d : Nat) : State :=
  let die := s.die d
  match die.decrements with
  | [] => s
  | x :: r => (s.setDie d { die with decrements := r }).applyDecrement d x

/-! ### Dispatch (15 R386 to R389) -/

/-- What the dispatcher of a die does next: places a team of a task at a seat, or stops a launch. -/
inductive Dispatch where
  | place (k : Nat) (x : Seat)
  | stop (k : Nat)
/-- The next action for the head task; its saved teams come first, by TEAM_RESTORE. -/
def State.dispatch (s : State) (d : Nat) : Option Dispatch :=
  match s.headTask d with
  | none => none
  | some (k, t) =>
    if !t.savedTeams.isEmpty || s.draining k && t.state == .preempted then none
    else match s.seatFor d t.launch with
      | some x => some (.place k x)
      | none => (s.nextVictim d k).map .stop
def State.canDispatch (s : State) (d : Nat) : Bool := (s.dispatch d).isSome
def State.dispatchTeam (s : State) (d : Nat) : State :=
  match s.dispatch d with
  | some (.place k x) => s.placeTeam k x
  | some (.stop k) => s.stopTask k
  | none => s

def State.canRecompute (s : State) : Bool := s.tasks.any fun e => s.stalePriority e.2

def execCopyStart (d : Nat) (s : State) : Host.Outcome State Fault Refusal := running s (s.canStartCopy d) (·.startCopy d)
def execCopyChunk (d e : Nat) (s : State) : Host.Outcome State Fault Refusal := running s (s.canChunk d e) (·.chunkCopy d e)
def execCopyEnd (d e : Nat) (s : State) : Host.Outcome State Fault Refusal := running s (s.canEndCopy d e) (·.finishCopy d e)
def execDoorbell (t w : Nat) (v : W64) (s : State) : Host.Outcome State Fault Refusal := running s true (·.bell t w v)
def execDecrement (d : Nat) (s : State) : Host.Outcome State Fault Refusal := running s (s.canDecrement d) (·.decrement d)
def execTeamDispatch (d : Nat) (s : State) : Host.Outcome State Fault Refusal := running s (s.canDispatch d) (·.dispatchTeam d)
def execPriorityRecompute (s : State) : Host.Outcome State Fault Refusal := running s s.canRecompute (·.recompute)
def execLaunchCompletion (k : Nat) (s : State) : Host.Outcome State Fault Refusal := running s (s.completes k) (·.completeTask k)

end Sys2Proof.Machine
end

