-- ==== Sys2Proof/Machine/EvPackage.lean ====
section
/-! DEFINITION. Events of Chofer: start-up, configuration, retirement, confidential contexts, routes, power (16; 17 R418, R426). -/

namespace Sys2Proof.Machine

/-- Changes Chofer's own state. -/
def State.withChofer (s : State) (f : Chofer → Chofer) : State := { s with chofer := f s.chofer }
/-- Posts a mailbox status with its detail bits (16 Table 16.3). -/
def State.status (s : State) (n detail : Nat) : State :=
  s.withChofer fun c => { c with status := n, detail := detail, posted := c.posted ++ [(n, detail)] }
/-- A dword of a list of bytes. -/
def dwordAt (b : List Byte) (off : Nat) : Nat := ofBytes ((b.drop off).take 8)
/-- n bytes of memory from a target address. -/
def State.bytesAt (s : State) (t n : Nat) : List Byte := (List.range n).map fun i => s.byteAt (t + i)

/-! ### Firmware (16 R393 to R395) -/

/-- A package reset: what is outside the machine, the model's counter and the record of retired cores remain. -/
def State.resetPackage (s : State) : State :=
  { State.reset with inputs := s.inputs, freeCtr := s.freeCtr, chofer := { State.reset.chofer with retired := s.chofer.retired } }

/-- The bytes of an image that its signature covers. -/
def signedBytes (b : List Byte) : List Byte := b.take 0xA40 ++ b.drop 0x2000
/-- The first check that an image fails (16 R393, Table 16.2); 0 when it passes. -/
def imageCheck (b : List Byte) : Nat :=
  let n := b.length
  let key := (b.drop 0x20).take 2592
  if n < 0x2000 ∨ n % 4096 ≠ 0 ∨ 2 ^ 26 < n ∨ dwordAt b 0 ≠ 0x4C58384657203031 ∨ dwordAt b 8 % 2 ^ 32 ≠ 0 ∨ dwordAt b 0x10 ≠ n ∨
    dwordAt b 0x18 ≠ 0 ∨ ((b.drop 0x1C53).take 941).any (· != 0) then 1
  else if Config.sha3x512 key ≠ Config.romKeyDigest then 2
  else if dwordAt b 8 / 2 ^ 32 < Config.antiRollback.toNat then 3
  else if !Config.mldsaVerify key (Config.sha3x512 (signedBytes b)) ((b.drop 0xA40).take 4627) then 4
  else 0
/-- Checks a firmware image, which the mailbox says first: it is discarded with its reason, or measured, and bring-up begins. -/
def State.loadImage (s : State) (b : List Byte) : State :=
  let s1 := s.status 1 0
  match imageCheck b with
  | 0 => (s1.status 3 (256 * 1)).withChofer fun c =>
      { c with m0 := Config.sha3x512 (signedBytes b), m1 := Config.sha3x512 (Config.collectiveFirmware (b.drop 0x2000)) }
  | n + 1 => s1.status 2 (256 * (n + 1))

/-! ### The capability list (16 R396, Tables 16.4, 16.5) -/

/-- The bodies of the list in ascending id; their fields are 8 bytes each where the table gives no width (log 26). -/
def State.capBodies (s : State) : List (List Nat) :=
  let retired := s.chofer.retired
  let map := retired.foldl (fun n c => n + 2 ^ c) 0
  let ports := (List.range 16).foldl (fun n k => if (s.port k).up then n + 2 ^ k else n) 0
  [ [Config.identitySerial.toNat, s.chofer.package, 8],
    [128 - retired.length, map % 2 ^ 64, map / 2 ^ 64],
    ((List.range 8).map fun d => if d = 0 then 2 ^ 37 - 2 ^ 28 else 2 ^ 37) ++ List.replicate 8 (2 ^ 30),
    [3],
    [16, ports, (s.free 0xC00000).toNat],
    [s.host.opened.toNat],
    [4095, 16],
    [s.chofer.listGen] ]
/-- The dwords of the list: its chain of headers, and the bodies after them. -/
def State.capList (s : State) : List Nat :=
  let bodies := s.capBodies
  let at_ := fun n => 16 * bodies.length + 8 * ((bodies.take n).foldl (fun m b => m + b.length) 0)
  ((List.range bodies.length).flatMap fun n =>
    [(n + 1) * 2 ^ 48 + 2 ^ 40 + (if n + 1 < bodies.length then 16 * (n + 1) else 0), 8 * (bodies.getD n []).length * 2 ^ 32 + at_ n]) ++ bodies.flatten
/-- Writes the list at the start of the Chofer area. -/
def State.publish (s : State) : State :=
  (List.range s.capList.length).foldl (fun (st : State) k => st.writeOpen 0 0 (choferBase + 8 * k) 8 (s.capList.getD k 0) false) s
/-- A change of the list raises its generation; the list is written anew once it has been published. -/
def State.republish (s : State) : State :=
  let s1 := s.withChofer fun c => { c with listGen := (c.listGen + 1) % 2 ^ 64 }
  if s.published then s1.publish else s1

/-- Every port is up, or down. -/
def State.trainPorts (s : State) (up : Bool) : State := (List.range 16).foldl (fun (st : State) k => st.setPort k { st.port k with up := up }) s
/-- The next step of bring-up (16 R395): it fails with a die and a unit, and the package stays closed, or passes. Step 3 trains the ports, which serve
nothing until status 4; step 5 publishes the list. -/
def State.bringUp (s : State) (failed : Option (Nat × Nat)) : State :=
  match failed with
  | some (d, u) => (s.trainPorts false).status 5 (fieldAt d 8 8 + fieldAt u 8 0)
  | none =>
    let n := s.chofer.detail / 256
    let s1 := if n = 3 then s.trainPorts true else s
    if n < 5 then s1.status 3 (256 * (n + 1))
    else
      let s2 := s1.publish
      (s2.withChofer fun c => { c with m2 := Config.sha3x512 (s2.capList.flatMap (bytesOf 8)) }).status 4 0

/-- The number command. -/
def State.setNumber (s : State) (n : Nat) : State := (s.withChofer fun c => { c with package := n }).republish

/-! ### Configuration (16 R398 to R400) -/

/-- A dword of a configuration block, 0 in one that was not written. -/
def State.blockWord (s : State) (d k : Nat) : Nat := (((tfind s.chofer.blocks d).getD []).getD k 0).toNat
/-- The extent of the area that field k of a die's block names: base and size; none for a field that names none. -/
def State.areaOf (s : State) (d k : Nat) : Option (Nat × Nat) :=
  let a := s.blockWord d k
  let cap := 2 ^ (s.readMem (a + 0x10) 8 % 256 % 17)
  match k with
  | 0 | 2 | 3 => some (a, 0x100 + 64 * cap)
  | 1 => some (a, 0x100 + 32 * cap)
  | 4 => some (a, 22 * 256 * 8)
  | 5 => some (a, 2 ^ 20)
  | 6 => some (a, 2 ^ 19)
  | 7 => some (a, 2 ^ 16)
  | 8 => some (a, s.blockWord d 9)
  | _ => none
/-- Every area of the eight blocks: die, field, extent; the space table once. -/
def State.areas (s : State) : List (Nat × Nat × Nat × Nat) :=
  (List.range 8).flatMap fun d => (List.range 9).filterMap fun k =>
    if k = 7 ∧ d ≠ 0 then none else (s.areaOf d k).map fun a => (d, k, a.1, a.2)
/-- A ring header with a log₂ capacity of 4 to 16 and resv fields of 0 (08 Table 8.8). -/
def State.headerOk (s : State) (a : Nat) : Bool :=
  decide (4 ≤ s.readMem (a + 0x10) 8 ∧ s.readMem (a + 0x10) 8 ≤ 16) && (List.range 28).all fun k => s.readMem (a + 0x20 + 8 * k) 8 == 0
/-- Whether field k of die d's block is good. -/
def State.fieldOk (s : State) (d k : Nat) : Bool :=
  let v := s.blockWord d k
  let size := ((s.areaOf d k).getD (0, 0)).2
  let apart := fun (lo n : Nat) => n == 0 || size == 0 || !overlaps v (v + size) lo (lo + n)
  if k ≤ 8 then
    v % 4096 == 0 && decide (v + size ≤ hbmEnd) && (k == 7 || (v / 2 ^ 37 == d && decide (v + size ≤ 2 ^ 37 * (d + 1)))) &&
      (k != 7 || v == s.blockWord 0 7) && apart choferBase 0x10000000 &&
      s.areas.all (fun a => (a.2.1 == k && (a.1 == d || k == 7)) || apart a.2.2.1 a.2.2.2) &&
      (k != 8 || apart (2 ^ 37 * d) (8 * s.blockWord d 9)) && (decide (4 ≤ k) || s.headerOk v)
  else match k with
  | 9 => decide (8 * v ≤ 2 ^ 37)
  | 10 => bitsOf v 51 8 == 0 && decide (1 ≤ v % 256 ∧ v % 256 ≤ 16)
  | 11 => bitsOf v 63 56 == 0
  | 12 => bitsOf v 63 56 == 0 && v % 4096 == 0
  | 13 => decide (v ≤ 8)
  | _ => v == 0
/-- The first bad field of the eight blocks: die and field. -/
def State.badField (s : State) : Option (Nat × Nat) :=
  ((List.range 8).flatMap fun d => (List.range 16).map fun k => (d, k)).find? fun x => !s.fieldOk x.1 x.2

/-- Bytes of the largest image of a team of a launch on one core (07 R198; log 24). -/
def imageSize (l : Launch) : Nat :=
  let o5 := padTo (padTo (sectionsAt l + l.scratch * 2 ^ 17) + 4 * (32 * 12288 + 2 ^ 22) + 128 * 64 + 128)
  padTo (o5 + 4 * (8 + 4 * (64 + 1024)) + 2 * (4 + 4 * 64)) + Config.pansPerCore * (24 + 16 * Config.panSize)
/-- The launch record of a die's supervisor (16 Table 16.6a), for an entry address and .regs. -/
def State.supervisorRecord (s : State) (d entry regs : Nat) : List W64 :=
  let f := s.blockWord d
  let w : List Nat :=
    [entry % 2 ^ 56, f 11, 2 ^ 32 + f 10 % 256 * 32 * 2 ^ 16 + regs % 512,
     3 * 2 ^ 62 + bitsOf (f 10) 63 52 * 2 ^ 38 + 2 ^ 32 + 2 ^ 15 + 2 ^ 14 + f 13 % 16 * 2 ^ 4, 0, 0, 2000 * 2 ^ 32, 0, f 12]
  let l := parseLaunch (w.map (BitVec.ofNat 64 ·))
  (w ++ [(imageSize l + 4095) / 4096 * 4096] ++ List.replicate 6 0).map (BitVec.ofNat 64 ·)

/-- Programs a die with its block. -/
def State.programDie (s : State) (d : Nat) : State :=
  let ring := fun k => some ({ header := s.blockWord d k, log2cap := s.readMem (s.blockWord d k + 0x10) 8 % 256 } : Ring)
  s.setDie d { s.die d with config := (List.range 16).map fun k => BitVec.ofNat 64 (s.blockWord d k),
                            faultRing := ring 0, noteRing := ring 1, sampleRing := ring 2, traceRing := ring 3 }
/-- The seat of a die's supervisor team: core 0, or the lowest working core. -/
def State.supervisorSeat (s : State) (d : Nat) (l : Launch) : Option Seat :=
  ((List.range 16).map (16 * d + ·)).findSome? fun c =>
    if s.chofer.retired.contains c then none else s.seatAt l (l.size / l.width, none) (fun _ _ => true) c
/-- Creates a die's supervisor launch and places its team. -/
def State.startSupervisor (s : State) (d entry regs : Nat) : State :=
  let w := s.supervisorRecord d entry regs
  match s.freeSlot d, s.supervisorSeat d (parseLaunch w) with
  | some n, some x => (s.occupy (4096 * d + n) w 0).placeTeam (4096 * d + n) x
  | _, _ => s
/-- The first die on which the supervisor's team has no place. -/
def State.noSupervisor (s : State) (entry regs : Nat) : Option Nat :=
  (List.range 8).find? fun d => (s.supervisorSeat d (parseLaunch (s.supervisorRecord d entry regs))).isNone
/-- Every trained port tells its neighbour the package's number (16 R399). -/
def State.tellNeighbours (s : State) : State :=
  (List.range 16).foldl (fun (st : State) k =>
    if (st.port k).up then st.sendAt k { kind := 5, channel := 3, dst := 0, src := s.chofer.package, hops := 0, ctx := 0, part := 0, length := s.flitLength,
                                         tag := 0, body := .management s.chofer.package } else st) s

/-- Ends a fabric access: a word with its poison code, or an acknowledgement (17 R427, R428). -/
def State.endTrans (s : State) (x : Trans) (v : W64) (bad : Nat) : State :=
  let k := x.tag / 2 ^ 28
  let p := s.port k
  let s1 := s.setPort k { p with waiting := p.waiting.filter fun y => y.tag != x.tag }
  if x.ack then s1.takeAck x.who
  else if 2 ^ 42 ≤ x.who ∧ x.who < 2 ^ 42 + 128 then (if bad = 0 then s1.prefetched (x.who - 2 ^ 42) x.package x.va v else s1)
  else { s1 with replies := s1.replies ++ [⟨x.who, x.va, v, bad, x.atom, x.package, x.target, x.stale⟩] }
/-- Whether the access at a place among those that wait at a port is still to be delivered when the port goes down: nothing in the package shows which
flits have gone through, so the value is free (17 R428; log 28). -/
def State.undelivered (s : State) (n : Nat) : Bool := (s.free (0x1F1000 + n)).getLsbD 0
/-- Takes a port down, which changes the list: the accesses that wait at it and cannot be delivered any more end so, and the others wait on (16 R396;
17 R428). -/
def State.downPort (s : State) (k code : Nat) : State :=
  let s1 := ((s.setPort k { s.port k with up := false }).republish).post code k
  let lost := (s.port k).waiting.zipIdx.filter fun x => s.undelivered x.2
  lost.foldl (fun (st : State) x => st.endTrans x.1 0 (if x.1.failed then 8 else 7)) s1
/-- Takes down each port whose neighbour has told this package's own number (16 R399). -/
def State.judgeNeighbours (s : State) : State :=
  (List.range 16).foldl (fun (st : State) k =>
    if (st.port k).up && (st.port k).neighbour == some st.chofer.package then st.downPort k evSameNumber else st) s

/-- The start command: the blocks are checked, the dies are programmed, the supervisor object at T is measured, and its launches start with
their text at V. -/
def State.start (s : State) (t v : Nat) : State :=
  match s.badField with
  | some (d, k) => s.status 6 (256 * d + k)
  | none =>
    let header := s.bytesAt t 0x80
    let object := s.bytesAt t (Config.objectLength header)
    let e := Config.kernelEntry (s.bytesAt (t + dwordAt header 0x20 / 2 ^ 32) 32)
    let s1 := (List.range 8).foldl (fun (st : State) d => st.programDie d) s
    let entry := v + e.1
    if e.2.1 ≠ 0 ∧ e.2.1 ≠ 3 then s.status 6 10
    else match s1.noSupervisor entry e.2.2 with
      | some d => s.status 6 (256 * d + 10)
      | none =>
        let measured := object.take 0x40 ++ List.replicate 64 0 ++ object.drop 0x80
        let s2 := s1.withChofer fun c => { c with m3 := Config.sha3x512 measured }
        let s3 := (List.range 8).foldl (fun (st : State) d => st.startSupervisor d entry e.2.2) s2
        s3.tellNeighbours.judgeNeighbours.status 7 0

/-! ### Retirement (16 R397) -/

def State.retire (s : State) (core : Nat) : State :=
  let hit := fun (k : Nat) => (s.task k).state == .running && !(s.task k).launch.super && s.teams.any fun e => e.2.task == k && e.2.on core
  let s1 := s.withChofer fun c => { c with retired := insertName core c.retired }
  ((s.tasks.filter fun e => hit e.1).foldl (fun (st : State) e => st.stopTask e.1) s1).republish

/-! ### Confidential contexts (16 R409 to R415) -/

def State.context (s : State) (c : Nat) : Option Context := tfind s.chofer.contexts c
def State.setContext (s : State) (c : Nat) (x : Context) : State := s.withChofer fun h => { h with contexts := tput h.contexts c x }
/-- Labels the lines of an extent as a context's (log 13). -/
def State.own (s : State) (ctx t n : Nat) : State :=
  { s with owners := (List.range ((n + 255) / 256)).foldl (fun o k => tset 0 o (t / 256 + k) ctx) s.owners }
/-- Whether a creation command is carried out. -/
def State.canCreate (s : State) (c : ContextCommand) : Bool :=
  let w := fun k => s.readMem (c.block.toNat + 8 * k) 8
  s.chofer.status == 7 && c.signed && decide (1 ≤ c.ctx ∧ c.ctx ≤ 4095) && (s.context c.ctx).isNone &&
    (List.range 4).all fun k => s.headerOk (w k)
/-- Creates a context; its block and rings lie in its encrypted memory. -/
def State.create (s : State) (c : ContextCommand) : State :=
  let w := fun k => s.readMem (c.block.toNat + 8 * k) 8
  let rings := (List.range 4).map fun k => ({ header := w k, log2cap := s.readMem (w k + 0x10) 8 % 256 } : Ring)
  let s1 := (List.range 4).foldl (fun (st : State) k =>
    st.own c.ctx (w k) (0x100 + (if k = 1 then 32 else 64) * 2 ^ (s.readMem (w k + 0x10) 8 % 256))) (s.own c.ctx c.block.toNat 64)
  s1.setContext c.ctx { block := (List.range 8).map fun k => BitVec.ofNat 64 (w k), quorum := c.quorum, rings := rings, parts := [] }

def State.canAdd (s : State) (c : ParticipantCommand) : Bool :=
  c.signed && decide (c.part < 16) && match s.context c.ctx with
    | none => false
    | some x => !(x.parts.any fun p => p.1 == c.part) && !x.revoked.contains c.part
def State.addPart (s : State) (c : ParticipantCommand) : State :=
  match s.context c.ctx with
  | none => s
  | some x => s.setContext c.ctx { x with parts := x.parts ++ [(c.part, c.digests)] }

def State.canAdmit (s : State) (c : AdmitCommand) : Bool :=
  c.signed && recordOk c.record && (parseLaunch c.record).ctx == c.ctx && !(s.die c.die).config.isEmpty &&
    (s.freeSlot c.die).isSome && match s.context c.ctx with
    | none => false
    | some x => x.parts.any (fun p => p.1 == c.part) && x.parts.any fun p => p.2.contains c.digest
/-- Admits a launch into the die's lowest free slot, and logs it. -/
def State.admitTask (s : State) (c : AdmitCommand) : State :=
  match s.context c.ctx, s.freeSlot c.die with
  | some x, some n => (s.occupy (4096 * c.die + n) c.record c.part).setContext c.ctx { x with log := x.log ++ [c.digest] }
  | _, _ => s

/-- The 64 bytes of a digest. -/
def digestBytes (d : BitVec 512) : List Byte := bytesOf 64 d.toNat
/-- The signed bytes of an attestation report (16 Table 16.11). -/
def State.reportBody (s : State) (ctx : Nat) (x : Context) (nonce : List Byte) : List Byte :=
  let parts := x.parts.foldl (fun n p => n + 2 ^ p.1) 0
  bytesOf 8 0x4C58384154540001 ++ bytesOf 8 Config.identitySerial.toNat ++ bytesOf 8 (ctx * 2 ^ 52 + parts * 2 ^ 32 + x.log.length % 2 ^ 32) ++
    bytesOf 8 s.clock ++ nonce ++
    digestBytes s.chofer.m0 ++ digestBytes s.chofer.m1 ++ digestBytes s.chofer.m2 ++ digestBytes s.chofer.m3 ++
    digestBytes (Config.sha3x512 (x.log.flatMap digestBytes)) ++ List.replicate 96 0 ++ Config.identityKey.toList
def State.attest (s : State) (ctx : Nat) (nonce : List Byte) : State :=
  match s.context ctx with
  | none => s
  | some x =>
    let b := s.reportBody ctx x nonce
    s.withChofer fun c => { c with report := b ++ (Config.mldsaSign (Config.sha3x512 b)).toList }

/-- Whether a task's launch is a participant's of a context. -/
def State.isOf (s : State) (k ctx part : Nat) : Bool := (s.task k).launch.ctx == ctx && (s.task k).part == part
/-- The context-revoked fault. -/
def revokedFlt : Flt := ⟨0x13, 1, 0, none, none⟩
/-- Parks a group of a revoked participant; one that forced save or pre-emption has saved stays saved. -/
def State.halt (s : State) (gid : Nat) : State :=
  match s.group? gid with
  | none => s
  | some g =>
    if g.stat = .ended then s
    else
      let g1 := match g.ra with
        | some r => { g with ctx := r.saved, outst := r.entry, ra := none }
        | none => g
      let s1 := (s.dropRequests gid).takeFault gid g1 revokedFlt none
      match g.stat with
      | .saved w _ => s1.modGroup gid fun x => { x with stat := .saved w true }
      | _ => s1
/-- Whether revocation is carried out. -/
def State.canRevoke (s : State) (c : ParticipantCommand) : Bool :=
  c.signed && match s.context c.ctx with | some x => !x.revoked.contains c.part | none => false
/-- Revokes a participant: its groups halt, its keys are destroyed, the ports refuse its traffic, its copies and collectives end. -/
def State.revoke (s : State) (c : ParticipantCommand) : State :=
  match s.context c.ctx with
  | none => s
  | some x =>
    let s1 := s.groups.foldl (fun (st : State) (e : Nat × Group) => if s.isOf e.2.task c.ctx c.part then st.halt e.1 else st) s
    let halted := fun (g : Nat × Group) =>
      let w := s.faultWords g.1 g.2 g.2.ctx.pc revokedFlt
      ((g.1, { g.2 with stat := .parkedFault, fault := some ⟨w, withheld w, false, none, false⟩ }) : Nat × Group)
    let teams := s1.teams.map fun t =>
      if s.isOf t.2.task c.ctx c.part then (t.1, { t.2 with savedGroups := t.2.savedGroups.map halted }) else t
    let s2 : State := { s1 with teams := teams }
    let x2 := (s2.context c.ctx).getD x
    let s3 := s2.setContext c.ctx { x2 with parts := x.parts.filter fun p => p.1 != c.part, revoked := x.revoked ++ [c.part] }
    let copy := fun (y : Copy) => if s.isOf y.task c.ctx c.part then { y with ending := some 4, suspended := false } else y
    let dies := s3.diesT.map fun d => (d.1, { d.2 with copies := d.2.copies.map copy })
    let coll := fun (y : Coll) =>
      if (s.task y.task).launch.ctx = c.ctx then (match y.table.findIdx? (fun e => bits e 19 16 = c.part) with
        | some r => { y with status := some (5, r) }
        | none => y) else y
    let ports := s3.ports.map fun p => (p.1, { p.2 with running := p.2.running.map coll })
    { s3 with diesT := dies, ports := ports }

/-! ### Routes, power (16 R416; 17 R426) -/

def State.setRoute (s : State) (pkg : Nat) (a b : Option Nat) : State :=
  s.withChofer fun c => { c with routes := if a.isNone ∧ b.isNone then tdel c.routes pkg else tput c.routes pkg (a, b) }
/-- A port number of a route entry. -/
def portOk (p : Option Nat) : Bool := match p with | some n => decide (n < 16) | none => true
/-- At 110 °C every core stops and the package closes. -/
def State.shutDown (s : State) (d : Nat) : State :=
  { (s.status 5 (fieldAt d 8 8)).withChofer (fun c => { c with stopped := true }) with host := { s.host with opened := false } }

def execPackageReset (s : State) : Host.Outcome State Fault Refusal := event s true (·.resetPackage)
def execFirmwareImage (b : List Byte) (s : State) : Host.Outcome State Fault Refusal :=
  event s (s.chofer.status == 0 || s.chofer.status == 2) (·.loadImage b)
def execBringUp (failed : Option (Nat × Nat)) (s : State) : Host.Outcome State Fault Refusal := event s (s.chofer.status == 3) (·.bringUp failed)
def execNumberCommand (n : Nat) (s : State) : Host.Outcome State Fault Refusal :=
  event s (s.chofer.status == 4 && decide (n < 256)) (·.setNumber n)
def execConfigurationBlock (d : Nat) (b : List W64) (s : State) : Host.Outcome State Fault Refusal :=
  event s ((s.chofer.status == 4 || s.chofer.status == 6) && decide (d < 8)) fun s =>
    s.withChofer fun c => { c with blocks := tput c.blocks d b }
def execStartCommand (t v : Addr) (s : State) : Host.Outcome State Fault Refusal :=
  event s (s.chofer.status == 4 || s.chofer.status == 6) (·.start t.toNat v.toNat)
def execRetireCommand (core : Nat) (s : State) : Host.Outcome State Fault Refusal :=
  event s (decide (core < 128) && !s.chofer.retired.contains core) (·.retire core)
def execCreateContext (c : ContextCommand) (s : State) : Host.Outcome State Fault Refusal := event s (s.canCreate c) (·.create c)
def execAddParticipant (c : ParticipantCommand) (s : State) : Host.Outcome State Fault Refusal := event s (s.canAdd c) (·.addPart c)
def execAdmitLaunch (c : AdmitCommand) (s : State) : Host.Outcome State Fault Refusal := event s (s.canAdmit c) (·.admitTask c)
def execAttestationReport (ctx : Nat) (nonce : List Byte) (s : State) : Host.Outcome State Fault Refusal :=
  event s (nonce.length == 64 && (s.context ctx).isSome) (·.attest ctx nonce)
def execRevocation (c : ParticipantCommand) (s : State) : Host.Outcome State Fault Refusal := event s (s.canRevoke c) (·.revoke c)
def execRouteTableWrite (pkg : Nat) (a b : Option Nat) (s : State) : Host.Outcome State Fault Refusal :=
  event s (decide (pkg < 256) && portOk a && portOk b) (·.setRoute pkg a b)
def execPowerThrottle (on : Bool) (s : State) : Host.Outcome State Fault Refusal :=
  event s true fun s => s.withChofer fun c => { c with throttle := on }
def execThermalShutdown (d : Nat) (s : State) : Host.Outcome State Fault Refusal := event s true (·.shutDown d)

end Sys2Proof.Machine
end

