-- ==== Sys2Proof/Machine/EvHost.lean ====
section
/-! DEFINITION. Events of the host link: CXL.io, CXL.cache snoops and responses, CXL.mem accesses (17 R418 to R423). -/

namespace Sys2Proof.Machine

/-- Changes the host link. -/
def State.withHost (s : State) (f : HostSt → HostSt) : State := { s with host := f s.host }
/-- Sends a message to the host. -/
def State.toHost (s : State) (m : HostMsg) : State := s.withHost fun h => { h with sent := h.sent ++ [m] }

/-- The host opens CXL.cache and CXL.mem, with the base of the HDM decoder. -/
def State.open_ (s : State) (base : Nat) : State := (s.withHost fun h => { h with opened := true, hdmBase := base }).republish

/-! ### CXL.cache (17 R420, R421, Table 17.2) -/

/-- The sector of a host address, with its state. -/
def State.hostSector (s : State) (h : Nat) : HostSector := (tfind s.host.sectors (h / 64)).getD ⟨.i, [], 0⟩
/-- Gives a host sector a state; one in I is not kept. -/
def State.setSector (s : State) (h : Nat) (st : Mesi) : State :=
  s.withHost fun x => { x with sectors := if st = .i then tdel x.sectors (h / 64) else tmod x.sectors (h / 64) fun y => { y with state := st } }
/-- A snoop is answered with data when the sector is in M, and leaves it in a state. -/
def State.snooped (s : State) (h : Nat) (after : Mesi → Mesi) : State :=
  let x := s.hostSector h
  let s1 := s.toHost (.snpResp (h / 64) (if x.state = .m then some x.data else none) (if x.state = .m then x.bad else 0))
  s1.setSector h (after x.state)
/-- After SnpData. -/
def snpData : Mesi → Mesi
  | .i => .i
  | _ => .s

/-- The host answers RdShared or RdOwn with data, or completes an ItoMWr. After RdOwn the sector is in M, after RdShared in S or E (Table 17.2). -/
def State.hostAnswer (s : State) (h : Nat) (excl : Bool) (data : List Byte) (bad : BitVec 8) : State :=
  let sec := h / 64
  if s.host.asked.contains sec then
    let after : Mesi := if s.host.owning.contains sec then .m else if excl then .e else .s
    s.withHost fun x => { x with asked := x.asked.filter (· != sec), owning := x.owning.filter (· != sec), sectors := tput x.sectors sec ⟨after, data, bad⟩ }
  else match s.host.writing.find? fun w => w.1 = sec with
    | some w => (s.withHost fun x => { x with writing := x.writing.erase w }).takeAck w.2
    | none => s
def State.canAnswer (s : State) (h : Nat) (data : List Byte) : Bool :=
  (s.host.asked.contains (h / 64) && data.length == 64) || s.host.writing.any fun w => w.1 == h / 64

/-- The home slice evicts a host sector. -/
def State.evictHost (s : State) (h : Nat) : State :=
  let x := s.hostSector h
  let s1 := if x.state = .m then s.toHost (.dirtyEvict (h / 64) x.data x.bad) else s.toHost (.cleanEvict (h / 64))
  s1.setSector h .i

/-! ### CXL.mem (17 R422, R423) -/

/-- The pieces of n bytes from t, split at sectors: each is one request of its slice (14 R347, R364). -/
def pieces : Nat → Nat → Nat → List (Nat × Nat)
  | 0, _, _ => []
  | fuel + 1, t, n => if n = 0 then [] else (let k := min n (64 - t % 64); (t, k) :: pieces fuel (t + k) (n - k))
/-- Local target of a host physical address. -/
def State.hdm (s : State) (addr : Nat) : Nat := addr - s.host.hdmBase
/-- Whether the decoder maps n bytes at an address. -/
def State.mapped (s : State) (addr n : Nat) : Bool := s.host.opened && decide (s.host.hdmBase ≤ addr ∧ addr + n ≤ s.host.hdmBase + hbmEnd)
/-- Counts a host access that was refused (16 R396, 17 R422). -/
def State.refuse (s : State) : State := s.withChofer fun c => { c with dropped := c.dropped + 1 }
/-- Whether a target lies in an encrypted range of an address space that some launch uses, by its directory as memory holds it. -/
def State.inEncrypted (s : State) (t : Nat) : Bool :=
  s.tasks.any fun k => k.2.state != .free && !(s.die (k.1 / 4096)).config.isEmpty &&
    (let e := s.spaceEntry (k.1 / 4096) k.2.launch.asid
     let dir := s.readMem e 8
     dir.testBit 63 && (List.range (bitsOf (s.readMem (e + 8) 8) 16 0)).any fun j =>
       let r := RangeRec.ofWords ((List.range 4).map fun i => s.readMem (dir % 2 ^ 56 + 32 * j + 8 * i) 8)
       r.ok && r.enc && (decide (r.target ≤ t ∧ t < r.target + (r.limit - r.base)) ||
         (r.moving && decide (r.newTarget ≤ t ∧ t < r.newTarget + (r.limit - r.base)))))
/-- Whether a line belongs to an encrypted range: it holds a context's bytes, or such a range names it. -/
def State.isEncrypted (s : State) (t : Nat) : Bool := tget 0 s.owners (t / 256) != 0 || s.inEncrypted t
/-- A host read of one piece: a line of an encrypted range reads as zeros with poison. -/
def State.hostPiece (s : State) (t n : Nat) : State × List Byte × Bool :=
  if s.isEncrypted t then (s.refuse, List.replicate n 0, true)
  else
    let g := s.readSlice (ownerDie t) 0 t n
    (g.1, g.2.1, worstOf g.2.2 != 0)
/-- The bytes of a host read, and whether a piece of it is spoilt. -/
def State.hostBytes (s : State) (t n : Nat) : State × List Byte × Bool :=
  (pieces n t n).foldl (fun (a : State × List Byte × Bool) p =>
    let x := a.1.hostPiece p.1 p.2
    (x.1, a.2.1 ++ x.2.1, a.2.2 || x.2.2)) (s, [], false)
/-- A host read; the host may then hold the sectors it has read, exclusive (log 27). -/
def State.hostRead (s : State) (addr n : Nat) : State :=
  let t := s.hdm addr
  let r := s.hostBytes t n
  let s1 := r.1.toHost (.readData addr r.2.1 r.2.2)
  s1.withHost fun h => { h with held := (List.range ((t + n + 63) / 64 - t / 64)).foldl (fun m k => tput m (t / 64 + k) true) h.held }
/-- The bytes of a host write; what falls in encrypted lines is dropped, and so is what a write of another width than 8 bytes has for a doorbell (15
R376). -/
def State.hostStore (s : State) (t : Nat) (data : List Byte) (bad : Bool) : State :=
  (pieces data.length t data.length).foldl (fun (st : State) p =>
    if st.isEncrypted p.1 then st.refuse
    else if data.length ≠ 8 ∧ !inChofer p.1 ∧ (st.doorbellOf p.1 p.2).isSome then st.countSluice (ownerDie p.1) 0x06 1
    else (st.writeHbm (ownerDie p.1) 0 p.1 p.2 (ofBytes ((data.drop (p.1 - t)).take p.2)) bad).strayed none p.1) s
/-- A host write is performed, and then completed. -/
def State.hostWrite (s : State) (addr : Nat) (data : List Byte) (bad : Bool) : State :=
  (s.hostStore (s.hdm addr) data bad).toHost (.completion addr)

/-- The prefetches of a core that waited for the host's answer for a sector go on, for the contexts that they are made for (08 R220, 17 R422). -/
def State.prefetchWanted (s : State) (core sec : Nat) : State :=
  let mine := (s.core core).wanted.filter fun x => x.1 == sec
  if mine.isEmpty then s
  else
    let s1 := (s.setCore core { s.core core with wanted := (s.core core).wanted.filter fun x => x.1 != sec }).needed (prefetcher core 0 0) (.snoop sec)
    mine.foldl (fun (st : State) x =>
      if st.snoopNeeded .read (64 * sec) then
        let st1 := st.sendSnoop (prefetcher core 0 0) .read (64 * sec)
        st1.setCore core { st1.core core with wanted := (st1.core core).wanted ++ [x] }
      else { { st with acting := x.2 / 2 }.prefetchSector core (x.2 / 2) (64 * sec) (x.2 % 2 == 1) with acting := st.acting }) s1
/-- The host answers a back-invalidation snoop: after BISnpInv it holds no copy, after BISnpData a shared one. -/
def State.biAnswer (s : State) (sec : Nat) : State :=
  match tfind s.host.snooping sec with
  | none => s
  | some inv =>
    let s1 := s.withHost fun h => { h with snooping := tdel h.snooping sec, held := if inv then tdel h.held sec else tput h.held sec false }
    s1.cores.foldl (fun (st : State) c => st.prefetchWanted c.1 sec) s1

def execCxlOpen (base : Nat) (s : State) : Host.Outcome State Fault Refusal :=
  running s (decide (4 ≤ s.chofer.status) && s.chofer.status != 5) (·.open_ base)
def execSnpData (h : Nat) (s : State) : Host.Outcome State Fault Refusal := running s s.host.opened (·.snooped h snpData)
def execSnpInv (h : Nat) (s : State) : Host.Outcome State Fault Refusal := running s s.host.opened (·.snooped h fun _ => .i)
def execSnpCur (h : Nat) (s : State) : Host.Outcome State Fault Refusal := running s s.host.opened (·.snooped h id)
def execHostResponse (h : Nat) (excl : Bool) (data : List Byte) (bad : BitVec 8) (s : State) : Host.Outcome State Fault Refusal :=
  running s (s.canAnswer h data) (·.hostAnswer h excl data bad)
def execHostSectorEviction (h : Nat) (s : State) : Host.Outcome State Fault Refusal := running s (s.mesi h != .i) (·.evictHost h)
def execCxlMemRead (addr n : Nat) (s : State) : Host.Outcome State Fault Refusal := running s (s.mapped addr n) (·.hostRead addr n)
def execCxlMemWrite (addr : Nat) (data : List Byte) (bad : Bool) (s : State) : Host.Outcome State Fault Refusal :=
  running s (s.mapped addr data.length) (·.hostWrite addr data bad)
def execBiSnoopResponse (sec : Nat) (s : State) : Host.Outcome State Fault Refusal := running s (tfind s.host.snooping sec).isSome (·.biAnswer sec)

end Sys2Proof.Machine
end

