-- ==== Sys2Proof/Machine/Combine.lean ====
section
/-! DEFINITION. Collective blocks: the parameter block, its checks, the combination of contributions and the results of each rank (17 R431
to R436). -/

namespace Sys2Proof.Machine

/-! ### The block (17 Table 17.5) -/

/-- A parameter block: sixteen dwords. -/
abbrev CBlock := List W64
namespace CBlock
def dw (b : CBlock) (k hi lo : Nat) : Nat := bits (List.getD b k 0) hi lo
def op (b : CBlock) : Nat := b.dw 0 63 56
def red (b : CBlock) : Nat := b.dw 0 55 52
def ty (b : CBlock) : Nat := b.dw 0 51 48
def order (b : CBlock) : Nat := b.dw 0 47 46
def levels (b : CBlock) : Nat := b.dw 0 45 43
def alg (b : CBlock) : Nat := b.dw 0 42 40
def generation (b : CBlock) : Nat := b.dw 0 31 16
def group (b : CBlock) : Nat := b.dw 0 15 0
def size (b : CBlock) : Nat := b.dw 1 63 48
def rank (b : CBlock) : Nat := b.dw 1 47 32
def count (b : CBlock) : Nat := b.dw 1 31 0
def send (b : CBlock) : Nat := b.dw 2 55 0
def recv (b : CBlock) : Nat := b.dw 3 55 0
def tailSend (b : CBlock) : Nat := b.dw 4 55 0
def tailRecv (b : CBlock) : Nat := b.dw 5 55 0
def table (b : CBlock) : Nat := b.dw 6 55 0
def handAddr (b : CBlock) : Nat := b.dw 7 55 0
def doneAddr (b : CBlock) : Nat := b.dw 8 55 0
def doneValue (b : CBlock) : Nat := b.dw 9 63 32
def handle (b : CBlock) : Nat := b.dw 9 31 0
def tag (b : CBlock) : Nat := b.dw 10 63 48
def root (b : CBlock) : Nat := b.dw 10 47 32
def flag (b : CBlock) (n : Nat) : Bool := b.dw 10 n n == 1
def double (b : CBlock) : Bool := b.ty == 5
/-- Bytes of an element, and of each word of .f32.x2. -/
def eltBytes (b : CBlock) : Nat := if b.ty = 1 ∨ b.ty = 2 then 2 else if b.ty = 6 ∨ b.ty = 7 then 8 else 4
/-- Whether it runs in two levels (17 R436). -/
def twoLevel (b : CBlock) : Bool := b.alg == 4 || (b.alg == 0 && b.handAddr != 0)
/-- Elements that the send buffer of a rank holds (17 Table 17.8). -/
def sends (b : CBlock) (r : Nat) : Nat :=
  match b.op with
  | 0 | 2 | 4 => b.count
  | 1 => b.size * b.count
  | 3 => if r = b.root then b.count else 0
  | _ => 0
/-- Elements that the receive buffer of a rank receives. -/
def recvs (b : CBlock) (r : Nat) : Nat :=
  match b.op with
  | 0 | 1 | 3 => b.count
  | 2 => b.size * b.count
  | 4 => if r = b.root then b.count else 0
  | _ => 0
/-- The ranks whose sends the result of a rank depends on. -/
def needs (b : CBlock) (r : Nat) : List Nat :=
  match b.op with
  | 3 => [b.root]
  | 4 => if r = b.root then List.range b.size else []
  | _ => List.range b.size
end CBlock

/-! ### Acceptance checks (17 Table 17.6) -/

/-- Entries of a rank table: participant, package, die. -/
def entryPart (e : BitVec 32) : Nat := bits e 19 16
def entryPackage (e : BitVec 32) : Nat := bits e 15 8
def entryDie (e : BitVec 32) : Nat := bits e 2 0

/-- Check 1. -/
def checkValues (b : CBlock) : Bool :=
  decide (b.op ≤ 5) && decide (b.red ≤ 2) && decide (b.ty ≤ 7) && decide (b.order ≤ 1) && decide (b.alg ≤ 4) &&
    !(b.red != 0 && b.double) && !(b.red != 0 && (b.op == 2 || b.op == 3 || b.op == 5)) &&
    (b.handAddr == 0 || b.alg == 4 || (b.alg == 0 && b.levels.testBit 1 && b.levels.testBit 2))
/-- Check 2, of the block. -/
def checkResv (b : CBlock) : Bool :=
  b.dw 0 39 32 == 0 && (List.range 7).all (fun k => b.dw (k + 2) 63 56 == 0) && b.dw 10 31 3 == 0 && b.dw 11 55 48 == 0 && b.dw 11 31 0 == 0 &&
    (List.range 4).all fun k => List.getD b (12 + k) 0 == 0
/-- Check 2, of the rank table. -/
def checkEntries (t : List (BitVec 32)) : Bool := t.all fun e => bits e 31 20 == 0 && bits e 7 3 == 0
/-- Check 3. -/
def checkSize (b : CBlock) : Bool := decide (1 ≤ b.size ∧ b.size ≤ 2048) && decide (b.rank < b.size ∧ b.root < b.size)
/-- Check 4. -/
def checkCount (b : CBlock) : Bool := (b.count == 0) == (b.op == 5) && decide (b.count ≤ 2 ^ 28)
/-- Check 5. -/
def checkAlign (b : CBlock) : Bool :=
  [b.send, b.recv, b.tailSend, b.tailRecv].all (fun a => a % b.eltBytes == 0) && b.table % 4 == 0 && b.doneAddr % 4 == 0 && b.handAddr % 8 == 0
/-- Check 7: the levels that a rank table calls for. -/
def checkLevels (b : CBlock) (t : List (BitVec 32)) : Bool :=
  let places := (t.map fun e => (entryPackage e, entryDie e)).eraseDups
  let packages := (t.map entryPackage).eraseDups
  (b.levels.testBit 0 || places.length == t.length) && (b.levels.testBit 1 || packages.length == places.length) &&
    (b.levels.testBit 2 || decide (packages.length ≤ 1)) && (b.alg != 4 || (b.levels.testBit 1 && b.levels.testBit 2))
/-- Check 8. -/
def checkTails (b : CBlock) : Bool := b.double || (b.tailSend == 0 && b.tailRecv == 0)
/-- Two extents that are identical, where that is allowed, or disjoint. -/
def apartOrSame (same : Bool) (a n c m : Nat) : Bool := n == 0 || m == 0 || !overlaps a (a + n) c (c + m) || (same && a == c && n == m)
/-- Check 9. -/
def checkExtents (b : CBlock) : Bool :=
  let n := b.sends b.rank * b.eltBytes
  let m := b.recvs b.rank * b.eltBytes
  apartOrSame (b.op == 0) b.send n b.recv m && (b.tailSend == 0 || b.tailRecv == 0 || apartOrSame (b.op == 0) b.tailSend n b.tailRecv m)
/-- The first check that fails of those that read a block alone, with the numbers that read its table given; 0 when all pass. -/
def firstCheck (b : CBlock) (entries place levels : Bool) : Nat :=
  if !checkValues b then 1
  else if !(checkResv b && entries) then 2
  else if !checkSize b then 3
  else if !checkCount b then 4
  else if !checkAlign b then 5
  else if !place then 6
  else if !levels then 7
  else if !checkTails b then 8
  else if !checkExtents b then 9
  else 0

/-! ### Combination (17 R434, R435) -/

/-- An element: its word as it is combined, and its tail. -/
abbrev CElt := Nat × Nat
/-- The format of a float type. -/
def collFmt (ty : Nat) : Option Fmt := match ty with | 0 | 5 => some .f32 | 1 => some .bf16 | 2 => some .f16 | _ => none
/-- A word widened for combination: an FP32 pattern for the 16-bit floats. -/
def widen (ty v : Nat) : Nat :=
  match collFmt ty with
  | some .bf16 => (roundVal .f32 .rne false false (fpDecode .bf16 v)).1
  | some .f16 => (roundVal .f32 .rne false false (fpDecode .f16 v)).1
  | _ => v
/-- Every NaN result is the default NaN, that of one contribution alone too. -/
def plainNan (v : Nat) : Nat := if (fpDecode .f32 v).isNan then Fmt.f32.nanCode else v
/-- A final result rounded once to its type. -/
def narrow (ty v : Nat) : Nat :=
  match collFmt ty with
  | some .bf16 => (roundVal .bf16 .rne false false (fpDecode .f32 v)).1
  | some .f16 => (roundVal .f16 .rne false false (fpDecode .f32 v)).1
  | some _ => plainNan v
  | none => v
/-- a ⊕ b. -/
def combine (ty red : Nat) (a b : CElt) : CElt :=
  if ty = 5 then
    let r := (xadd .f32 [fpDecode .f32 a.1, fpDecode .f32 a.2] [fpDecode .f32 b.1, fpDecode .f32 b.2]).1
    (r.getD 0 0, r.getD 1 0)
  else if ty ≤ 2 then
    let x := fpDecode .f32 a.1
    let y := fpDecode .f32 b.1
    (if red = 0 then (roundOp .f32 .rne false false (exactAdd false x y)).1 else (fpMinMax .f32 (red == 2) x y).1, 0)
  else
    let t : AtomTy := if ty = 3 then .s32 else if ty = 4 then .n32 else if ty = 6 then .s64 else .n64
    let o : AtomOp := if red = 0 then .add else if red = 1 then .min else .max
    ((atomApply o t (BitVec.ofNat 64 a.1) (BitVec.ofNat 64 b.1) 0).toNat, 0)
/-- T(lo, n) of the contributions in rank order. -/
def fixedTree (f : CElt → CElt → CElt) : Nat → List CElt → CElt
  | 0, l => l.headD (0, 0)
  | fuel + 1, l => match l with
    | [] => (0, 0)
    | [x] => x
    | _ =>
      let h := 2 ^ log2Of 12 (l.length - 1)
      f (fixedTree f fuel (l.take h)) (fixedTree f fuel (l.drop h))
/-- Some full binary tree over the contributions: two of them are combined until one is left, at the choice of a draw. -/
def someTree (f : CElt → CElt → CElt) (draw : Nat → Nat) : Nat → List CElt → CElt
  | 0, l => l.headD (0, 0)
  | fuel + 1, l =>
    if l.length ≤ 1 then l.headD (0, 0)
    else
      let i := draw (2 * fuel) % l.length
      let l1 := l.eraseIdx i
      let j := draw (2 * fuel + 1) % l1.length
      someTree f draw fuel (l1.eraseIdx j ++ [f (l.getD i (0, 0)) (l1.getD j (0, 0))])

/-- Element i of a contribution. -/
def CollFlit.elt (c : CollFlit) (i : Nat) : CElt := ((c.send.getD i 0).toNat, (c.tails.getD i 0).toNat)
/-- The combination of element i of contributions in rank order, as the type's bits. -/
def combined (b : CBlock) (run : Nat) (cs : List CollFlit) (i : Nat) : CElt :=
  let es := cs.map fun c => let e := CollFlit.elt c i; (widen b.ty e.1, e.2)
  let f := combine b.ty b.red
  let r := if b.order = 1 then fixedTree f 12 es else someTree f (Config.arrivalDraw run i) es.length es
  (narrow b.ty r.1, if b.double then plainNan r.2 else r.2)

/-- What is written for a rank: index in its receive buffer, and element. With part, what the lowest rank of a package writes from the
contributions of its package (17 R436). -/
def results (b : CBlock) (run : Nat) (cs : List CollFlit) (part : Bool) : List (Nat × CElt) :=
  let n := b.count
  let r := b.rank
  let own := fun (c : CollFlit) => (List.range n).map fun i => (i, CollFlit.elt c i)
  match b.op with
  | 0 => (List.range n).map fun i => (i, combined b run cs i)
  | 1 => (List.range n).map fun i => (i, combined b run cs (r * n + i))
  | 2 => cs.flatMap fun c => (own c).map fun e => (c.rank * n + e.1, e.2)
  | 3 => if part then [] else (cs.filter fun c => c.rank = b.root).flatMap own
  | 4 => if part || r = b.root then (List.range n).map fun i => (i, combined b run cs i) else []
  | _ => []
/-- Whether a block calls for the package and the fabric level by an algorithm that may run in two levels, so that a hand-off word of its package may
go before (17 R436). -/
def CBlock.mayHand (b : CBlock) : Bool := b.levels.testBit 1 && b.levels.testBit 2 && (b.alg == 4 || b.alg == 0)
/-- The buffers of a rank, its residual buffers among them: receive, base, bytes of an element, elements. -/
def CBlock.buffers (b : CBlock) : List (Bool × Nat × Nat × Nat) :=
  [(false, b.send, b.eltBytes, b.sends b.rank), (true, b.recv, b.eltBytes, b.recvs b.rank)] ++
    (if b.double && b.tailSend != 0 then [(false, b.tailSend, 4, b.sends b.rank)] else []) ++
    (if b.double && b.tailRecv != 0 then [(true, b.tailRecv, 4, b.recvs b.rank)] else [])
/-- The results of a rank, with the elements of its receive buffer that a program has touched unspecified (17 R438). -/
def Coll.loosen (c : Coll) (draw : Nat → W64) (es : List (Nat × CElt)) : List (Nat × CElt) :=
  if c.touched.isEmpty then es
  else es.map fun e => if c.touched.contains (true, e.1) then (e.1, ((draw e.1).toNat, (draw (e.1 + 0x8000)).toNat)) else e
/-- The writes of results: address, bytes, value. -/
def resultWrites (b : CBlock) (es : List (Nat × CElt)) : List (Nat × Nat × Nat) :=
  es.flatMap fun e =>
    let k := b.eltBytes
    ((b.recv + k * e.1) % 2 ^ 56, k, e.2.1) :: (if b.double ∧ b.tailRecv ≠ 0 then [((b.tailRecv + 4 * e.1) % 2 ^ 56, 4, e.2.2)] else [])

end Sys2Proof.Machine
end

