-- ==== Sys2Proof/Machine/EvCollective.lean ====
section
/-! DEFINITION. Events of the collective processors (17 R430 to R440). -/

namespace Sys2Proof.Machine

/-- The number by which a processor asks for accesses. -/
def collWho (port : Nat) : Nat := 2 ^ 41 + port
/-- A processor as the requester of a block that a group pushed. -/
def State.collEngine (s : State) (port gid team task : Nat) : Who :=
  let l := (s.task task).launch
  { who := collWho port, gid := gid, team := team, asid := l.asid, ctx := l.ctx, part := (s.task task).part, engine := true }

/-! ### Reading and writing through the launch's address space -/

/-- What a processor's reads give: the values; a wait; or the status of a failure (3 translation or permission, 4 poison). -/
inductive Fetched where
  | ok (s : State) (vs : List Nat)
  | later (s : State)
  | bad (status : Nat)
/-- Reads words for a requester at a core. -/
def State.fetchWords (s0 : State) (w : Who) (core : Nat) (xs : List (Nat × Nat)) : Fetched :=
  let s := s0.bringAll w core xs
  match s.reachFor w core .read .read xs with
  | .later s1 => .later s1
  | .fail _ _ _ => .bad 3
  | .ok ls =>
    let (s1, rd) := s.readAll w ls
    if rd.any fun r => r.2.2 ≠ 0 then .bad 4 else .ok s1 (rd.map (·.2.1))
/-- The runs of n elements of k bytes from an address. -/
def runsOf (base k n : Nat) : List (Nat × Nat) := (List.range n).map fun i => ((base + k * i) % 2 ^ 56, k)

/-- Writes words where they can all be reached: none when they cannot, with the state after asking when something must be awaited. -/
def State.storeWords (s0 : State) (w : Who) (core : Nat) (xs : List (Nat × Nat × Nat)) : Except (Option State) State :=
  let s := s0.bringAll w core (xs.map fun x => (x.1, x.2.1))
  match s.reachFor w core .write .write (xs.map fun x => (x.1, x.2.1)) with
  | .later s1 => .error (some s1)
  | .fail _ _ _ => .error none
  | .ok ls => .ok ((ls.zip xs).foldl (fun (st : State) y => st.performWrite w y.1 y.2.2.2 false) s)

/-! ### q3 words (17 R438, Table 17.9) -/

/-- Pushes a status word to the q3 of a team on a side; a word whose team has ended is discarded and counted at the processor's port. -/
def State.pushStatus (s : State) (port team side word : Nat) : State :=
  (if (tfind s.teams team).isNone then s.countPort port 5 1 else s).pushTeam team side 3 word

/-! ### Contributions (17 R437) -/

/-- Whether a generation is older than the one a processor has. -/
def stale (current g : Nat) : Bool := decide (1 ≤ (current + 2 ^ 16 - g) % 2 ^ 16 ∧ (current + 2 ^ 16 - g) % 2 ^ 16 ≤ 32767)
/-- Bytes of a contribution. -/
def flitBytes (c : CollFlit) : Nat := 8 * (c.send.length + c.tails.length)
/-- Whether a processor can hold a contribution of a newer generation: 64 KiB of them (17 R437). -/
def PortSt.holds (p : PortSt) (c : CollFlit) : Bool :=
  match tfind p.generations c.group with
  | some g => g == c.generation || stale g c.generation ||
      decide (((p.early.filter fun e => tfind p.generations e.group != some e.generation).foldl (fun n e => n + flitBytes e) 0) + flitBytes c ≤ 65536)
  | none => decide (((p.early.filter fun e => tfind p.generations e.group != some e.generation).foldl (fun n e => n + flitBytes e) 0) + flitBytes c ≤ 65536)
/-- A collective flit reaches a processor. -/
def State.contribute (s : State) (k : Nat) (c : CollFlit) : State :=
  let p := s.port k
  match tfind p.generations c.group with
  | some g => if stale g c.generation then s.countPort k 4 1 else s.setPort k { p with early := p.early ++ [c] }
  | none => s.setPort k { p with early := p.early ++ [c] }
/-- The contributions of a group and generation that the package has. -/
def State.contributions (s : State) (group g : Nat) : List CollFlit :=
  s.ports.flatMap fun p => p.2.early.filter fun c => c.group == group && c.generation == g

/-! ### Acceptance (17 R431, R432) -/

/-- What check 10 compares of a block. -/
def paramsOf (b : CBlock) (t : List (BitVec 32)) : List Nat := [(List.getD b 0 0).toNat, b.size, b.count, b.root] ++ t.map (·.toNat)
/-- The contribution of a rank from its send buffers. -/
def State.readSends (s : State) (w : Who) (core : Nat) (b : CBlock) (t : List (BitVec 32)) : State × Option CollFlit :=
  let n := b.sends b.rank
  let flit := fun (vs ts : List Nat) (status : Nat) =>
    some ({ group := b.group, generation := b.generation, rank := b.rank, send := vs.map (BitVec.ofNat 64 ·), tails := ts.map (BitVec.ofNat 64 ·),
            status := status, params := paramsOf b t } : CollFlit)
  match s.fetchWords w core (runsOf b.send b.eltBytes n) with
  | .later s1 => (s1, none)
  | .bad st => (s, flit [] [] st)
  | .ok s1 vs =>
    if !b.double || b.tailSend = 0 then (s1, flit vs [] 0)
    else match s1.fetchWords w core (runsOf b.tailSend 4 n) with
      | .later s2 => (s2, none)
      | .bad st => (s1, flit [] [] st)
      | .ok s2 ts => (s2, flit vs ts 0)
/-- The ranks of a table on this package. -/
def State.packageRanks (s : State) (t : List (BitVec 32)) : List Nat :=
  (List.range t.length).filter fun r => entryPackage (t.getD r 0) == s.chofer.package
/-- Whether a block has a hand-off word to write. -/
def State.handsOff (s : State) (c : Coll) : Bool :=
  CBlock.twoLevel c.block && CBlock.handAddr c.block != 0 && (s.packageRanks c.table).head? == some c.rank
/-- Whether the fabric level of a collective, and the end of every rank of the package, still wait for the package's hand-off word (17 R436, R452): the
block of the package's lowest rank is to write it, or is not accepted and may be; and no rank of the package has failed. -/
def State.holdsBack (s : State) (b : CBlock) (t : List (BitVec 32)) : Bool :=
  let ranks := s.packageRanks t
  let cs := s.contributions b.group b.generation
  b.mayHand && (match ranks.head? with
    | none => false
    | some r =>
      let mine := fun (c : Coll) => CBlock.group c.block == b.group && CBlock.generation c.block == b.generation && c.rank == r
      match (s.ports.flatMap fun p => p.2.running).find? mine with
      | some c => s.handsOff c && !c.handoff && c.status.isNone
      | none => !cs.any fun c => c.rank == r) && !cs.any fun c => ranks.contains c.rank && c.status != 0
/-- Sends the contributions that wait for a hand-off no more to the other packages. -/
def State.sendHeld (s : State) : State :=
  let held := fun (x : Nat × List Nat × CollFlit) =>
    s.holdsBack ((x.2.2.params.take 1).map (BitVec.ofNat 64 ·)) ((x.2.2.params.drop 4).map (BitVec.ofNat 32 ·))
  s.ports.foldl (fun (st : State) p =>
    let go := p.2.unsent.filter fun x => !held x
    if go.isEmpty then st
    else
      let st1 := st.setPort p.1 { st.port p.1 with unsent := p.2.unsent.filter held }
      go.foldl (fun (st : State) x => x.2.1.foldl (fun (st : State) pkg => st.sendFlit pkg
        { kind := 4, channel := 2, dst := pkg, src := s.chofer.package, hops := 0, ctx := (s.task x.1).launch.ctx, part := (s.task x.1).part,
          length := s.flitLength, tag := 0, body := .collective x.2.2 }) st) st1) s
/-- Keeps a contribution of a block that has been accepted, which goes to the other packages of its rank table. -/
def State.spread (s : State) (k task : Nat) (t : List (BitVec 32)) (c : CollFlit) : State :=
  let others := ((t.map entryPackage).eraseDups).filter (· != s.chofer.package)
  s.setPort k { s.port k with early := (s.port k).early ++ [c],
                              unsent := if others.isEmpty then (s.port k).unsent else (s.port k).unsent ++ [(task, others, c)] }

/-- A block that is accepted, or that ends with a status: it runs, its status word says so, and a block accepted sets its generation. -/
def State.runBlock (s : State) (k : Nat) (w : Who) (c : Coll) : State :=
  let word := 0xFF * 2 ^ 56
  let s1 := match s.storeWords w (coreOf c.gid) [((c.addr.toNat + 0x58) % 2 ^ 56, 8, word)] with
    | .ok s1 => s1
    | .error _ => s
  let p := s1.port k
  s1.setPort k { p with running := p.running ++ [c] }
/-- Sets the generation of a group id and forgets older contributions; those that were held for a generation that no block has brought are stale flits,
and counted. -/
def State.setGeneration (s : State) (k group g : Nat) : State :=
  let p := s.port k
  let out := p.early.filter fun e => e.group == group && stale g e.generation
  (s.setPort k { p with generations := tput p.generations group g, early := p.early.filter fun e => !(e.group == group && stale g e.generation) }).countPort
    k 4 (out.filter fun e => tfind p.generations group != some e.generation).length
/-- Reads the entries of a rank table; one that is not aligned, which check 5 refuses, is read by bytes. -/
def State.readTable (s : State) (w : Who) (core : Nat) (b : CBlock) : Fetched :=
  if b.table % 4 = 0 then s.fetchWords w core (runsOf b.table 4 b.size)
  else match s.fetchWords w core (runsOf b.table 1 (4 * b.size)) with
    | .ok s1 vs => .ok s1 ((List.range b.size).map fun k => ofBytes (((vs.drop (4 * k)).take 4).map (BitVec.ofNat 8 ·)))
    | r => r
/-- The lowest rank of a table that a revoked participant of a context holds. -/
def State.revokedRank (s : State) (ctx : Nat) (t : List (BitVec 32)) : Option Nat :=
  (tfind s.chofer.contexts ctx).bind fun c => if ctx = 0 then none else t.findIdx? fun e => c.revoked.contains (entryPart e)

def State.canAccept (s : State) (k : Nat) : Bool := !(s.port k).handed.isEmpty
/-- A processor reads and checks the oldest block handed to it: one that names a rank whose block still runs ends with status 2 alone (R437, R454); else
the first check that fails decides, and where the rank table must be read for that and cannot be, that of the block alone (log 56). -/
def State.accept (s : State) (k : Nat) : State :=
  match (s.port k).handed with
  | [] => s
  | ⟨gid, team, side, task, addr, seen⟩ :: rest =>
    let w := s.collEngine k gid team task
    let core := coreOf gid
    let taken := fun (st : State) => (st.setPort k { st.port k with handed := rest }).forget w.who
    match s.fetchWords w core (runsOf addr.toNat 8 16) with
    | .later s1 => s1
    | .bad st => (taken s).pushStatus k team side (st * 2 ^ 24 + 2 ^ 22)
    | .ok s1 vs =>
      let b : CBlock := vs.map (BitVec.ofNat 64 ·)
      let run := fun (t : List (BitVec 32)) (status : Option (Nat × Nat)) =>
        ({ block := b, addr := addr, gid := gid, team := team, side := side, task := task, rank := b.rank, table := t, status := status,
           buffers := b.buffers, touched := (seen.flatMap fun x => meetsIn b.buffers x.1 x.2.1 x.2.2).eraseDups } : Coll)
      let alone := firstCheck b true true true
      let twice := (s1.port k).running.any fun c =>
        CBlock.group c.block == b.group && CBlock.generation c.block == b.generation && c.rank == b.rank
      match s1.storeWords w core [((addr.toNat + 0x58) % 2 ^ 56, 8, 0)] with
      | .error (some s2) => s2
      | _ =>
      if twice then (taken s1).runBlock k w (run [] (some (2, 0)))
      else if alone = 1 ∨ alone = 2 then (taken s1).runBlock k w (run [] (some (1, alone)))
      else match s1.readTable w core b with
      | .later s2 => s2
      | .bad st =>
        if alone ≠ 0 then (taken s1).runBlock k w (run [] (some (1, alone)))
        else
          let c : CollFlit := { group := b.group, generation := b.generation, rank := b.rank, send := [], tails := [], status := st, params := [] }
          (((taken s1).contribute k c).runBlock k w (run [] (some (st, b.rank)))).sendHeld
      | .ok s2 ts =>
        let t := ts.map (BitVec.ofNat 32 ·)
        let e := t.getD b.rank 0
        let check := firstCheck b (checkEntries t) (entryPackage e == s.chofer.package && entryDie e == dieOf gid) (checkLevels b t)
        if check ≠ 0 then (taken s2).runBlock k w (run t (some (1, check)))
        else match s2.revokedRank w.ctx t with
        | some r => (taken s2).runBlock k w (run t (some (5, r)))
        | none => match s2.readSends w core b t with
          | (s3, none) => s3
          | (s3, some c) => ((((taken s3).setGeneration k b.group b.generation).spread k task t c).runBlock k w (run t none)).sendHeld

/-! ### The hand-off (17 R436) -/

/-- The block that runs at place n of a processor. -/
def State.coll (s : State) (k n : Nat) : Option Coll := (s.port k).running[n]?
/-- Changes it. -/
def State.setColl (s : State) (k n : Nat) (c : Coll) : State := s.setPort k { s.port k with running := (s.port k).running.set n c }
/-- The contributions of some ranks, in their order: none while one is missing. -/
def gather (cs : List CollFlit) (ranks : List Nat) : Option (List CollFlit) :=
  ranks.foldr (fun r acc => match acc, cs.find? fun c => c.rank = r with
    | some l, some c => some (c :: l)
    | _, _ => none) (some [])
def State.canHandOff (s : State) (k n : Nat) : Bool :=
  match s.coll k n with
  | none => false
  | some c => s.handsOff c && !c.handoff && c.status.isNone && s.quiet (collWho k) &&
      match gather (s.contributions (CBlock.group c.block) (CBlock.generation c.block)) (s.packageRanks c.table) with
      | some cs => cs.all fun x => x.status == 0
      | none => false
/-- The lowest rank of the package writes the package's results, and once those are acknowledged the hand-off word; the fabric level then begins. -/
def State.handOff (s : State) (k n : Nat) : State :=
  match s.coll k n with
  | none => s
  | some c => match gather (s.contributions (CBlock.group c.block) (CBlock.generation c.block)) (s.packageRanks c.table) with
    | none => s
    | some cs =>
      let b : CBlock := c.block
      let w := s.collEngine k c.gid c.team c.task
      let word := b.generation * 2 ^ 48 + b.group * 2 ^ 32 + 2 ^ 24
      let fails := (s.setColl k n { c with status := some (3, c.rank) }).sendHeld
      match (if c.lowered then .ok s else s.storeWords w (coreOf c.gid) (resultWrites b (results b s.freeCtr cs true))) with
      | .error (some s1) => s1
      | .error none => fails
      | .ok s1 =>
        let s2 := s1.setColl k n { c with lowered := true }
        if !s2.quiet w.who then s2
        else match s2.storeWords w (coreOf c.gid) [(b.handAddr % 2 ^ 56, 8, word)] with
        | .error (some s3) => s3
        | .error none => fails
        | .ok s3 => (s3.setColl k n { c with lowered := true, handoff := true }).sendHeld

/-! ### The end (17 R438 to R440) -/

/-- Whether the blocks of a collective disagree, or two of them name one rank (check 10). -/
def disagree (cs : List CollFlit) : Bool :=
  let known := cs.filter fun c => !c.params.isEmpty
  known.any (fun c => c.params != ((known.map (·.params)).headD [])) || (known.map (·.rank)).eraseDups.length != known.length
/-- The failures that reach a rank: failing rank, and status (17 R439): sends that could not be read, and packages that cannot be reached. -/
def State.failures (s : State) (b : CBlock) (t : List (BitVec 32)) (cs : List CollFlit) : List (Nat × Nat) :=
  (b.needs b.rank ++ [b.rank]).filterMap fun r => match cs.find? fun c => c.rank = r with
    | some c => if c.status = 0 then none else some (r, c.status)
    | none =>
      let p := entryPackage (t.getD r 0)
      if p ≠ s.chofer.package ∧ (s.route p).isNone then some (r, 6) else none
/-- The failure of the lowest rank, and of that the lowest status. -/
def worst : List (Nat × Nat) → Option (Nat × Nat)
  | [] => none
  | x :: r => match worst r with
    | none => some x
    | some y => if x.1 < y.1 ∨ (x.1 = y.1 ∧ x.2 ≤ y.2) then some x else some y
/-- Whether a lower rank than r, of those that a rank's result depends on, may still fail: nothing is known of it. -/
def State.unknownBelow (s : State) (b : CBlock) (t : List (BitVec 32)) (cs : List CollFlit) (r : Nat) : Bool :=
  (b.needs b.rank ++ [b.rank]).any fun q => decide (q < r) && !(cs.any fun c => c.rank == q) && !(s.failures b t cs).any fun x => x.1 == q
/-- The status and detail a block ends with before its results are written, or its contributions; none while it must wait: for the ranks below the one
whose failure it has met, of which the lowest decides (R439), and for its package's hand-off word (R452). -/
def State.verdict (s : State) (c : Coll) : Option (Except (Nat × Nat) (List CollFlit)) :=
  match c.status with
  | some x => some (.error x)
  | none =>
    let b : CBlock := c.block
    let cs := s.contributions b.group b.generation
    if disagree cs then some (.error (1, 10))
    else match worst (s.failures b c.table cs) with
      | some (r, st) => if s.unknownBelow b c.table cs r then none else some (.error (st, r))
      | none =>
        if s.holdsBack b c.table then none
        else (gather cs (b.needs b.rank)).map .ok
def State.canEndColl (s : State) (k n : Nat) : Bool :=
  match s.coll k n with | some c => (s.verdict c).isSome && s.quiet (collWho k) | none => false

/-- One write among the completion actions of a rank: the state after it, and whether the next action may follow, for it is acknowledged; a write
that cannot be made is left out. -/
def State.actColl (s : State) (k n stage : Nat) (xs : List (Nat × Nat × Nat)) : State × Bool :=
  match s.coll k n with
  | none => (s, false)
  | some c =>
    let w := s.collEngine k c.gid c.team c.task
    let passed := fun (st : State) => st.setColl k n { c with acted := stage }
    if stage ≤ c.acted ∨ xs.isEmpty then (s, true)
    else match s.storeWords w (coreOf c.gid) xs with
      | .error (some s1) => (s1, false)
      | .error none => (passed s, true)
      | .ok s1 => (passed s1, s1.quiet w.who)
/-- The completion actions of a rank, in order (17 R438). -/
def State.completeColl (s : State) (k n : Nat) (c : Coll) (status detail : Nat) : State :=
  let b : CBlock := c.block
  let w := s.collEngine k c.gid c.team c.task
  let word := status * 2 ^ 56 + detail % 2 ^ 16 * 2 ^ 32
  let value := if status = 0 then b.doneValue else 0xE0000000 + status
  match s.actColl k n 1 [((c.addr.toNat + 0x58) % 2 ^ 56, 8, word)] with
  | (s1, false) => s1
  | (s1, true) => match s1.actColl k n 2 (if b.flag 0 ∧ b.doneAddr ≠ 0 then [(b.doneAddr, 4, value)] else []) with
    | (s2, false) => s2
    | (s2, true) =>
      let s3 := if b.flag 1 then s2.sendDecrement (BitVec.ofNat 32 b.handle) 1 none else s2
      let s4 := if b.flag 2 then s3.pushStatus k c.team c.side (status * 2 ^ 24 + b.tag) else s3
      (s4.setPort k { s4.port k with running := (s4.port k).running.eraseIdx n }).forget w.who
/-- A rank's collective ends: its results are written, and its completion actions are performed; those of a revoked participant's own rank
are not. -/
def State.endColl (s : State) (k n : Nat) : State :=
  match s.coll k n with
  | none => s
  | some c =>
    let w := s.collEngine k c.gid c.team c.task
    match s.verdict c with
    | none => s
    | some (.error (st, detail)) =>
      let mine := st = 5 ∧ (match tfind s.chofer.contexts w.ctx with
        | some x => x.revoked.contains (entryPart (c.table.getD c.rank 0))
        | none => false) = true
      if mine then (s.setPort k { s.port k with running := (s.port k).running.eraseIdx n }).forget w.who
      else (s.setColl k n { c with status := some (st, detail) }).completeColl k n c st detail
    | some (.ok cs) =>
      match s.storeWords w (coreOf c.gid) (resultWrites c.block (c.loosen (fun i => s.free (0x1D0000 + i % 0x10000)) (results c.block s.freeCtr cs false))) with
      | .error (some s1) => s1
      | .error none => (s.setColl k n { c with status := some (3, c.rank) }).completeColl k n c 3 c.rank
      | .ok s1 =>
        let s2 := s1.setColl k n { c with status := some (0, 0) }
        if s2.quiet w.who then s2.completeColl k n c 0 0 else s2

def execCollectiveAccept (k : Nat) (s : State) : Host.Outcome State Fault Refusal := running s (s.canAccept k) (·.accept k)
def execCollectiveFlit (k : Nat) (c : CollFlit) (s : State) : Host.Outcome State Fault Refusal := running s ((s.port k).holds c) (·.contribute k c)
def execHandoff (k n : Nat) (s : State) : Host.Outcome State Fault Refusal := running s (s.canHandOff k n) (·.handOff k n)
def execCollectiveEnd (k n : Nat) (s : State) : Host.Outcome State Fault Refusal := running s (s.canEndColl k n) (·.endColl k n)

end Sys2Proof.Machine
end

