-- ==== Sys2Proof/Machine/EvFabric.lean ====
section
/-! DEFINITION. Events of the Keltal ports and of the accesses that wait for other packages (17 R424 to R429). -/

namespace Sys2Proof.Machine

/-- The virtual channel of a kind (17 R424). -/
def channelOf : Nat → Option Nat
  | 1 => some 0
  | 2 | 3 => some 1
  | 4 => some 2
  | 5 => some 3
  | _ => none
/-- The access that a tag names. -/
def State.trans (s : State) (tag : Nat) : Option Trans := (s.port (tag / 2 ^ 28)).waiting.find? fun x => x.tag = tag
/-- Whether a flit is refused at a port of this package, whatever its destination: its participant is revoked (17 R429). -/
def State.refused (s : State) (f : Flit) : Bool :=
  f.ctx != 0 && match s.context f.ctx with | some c => c.revoked.contains f.part | none => false
/-- Whether a flit opens at its destination: one of a confidential context under the key of its participant (17 R429). -/
def State.opens (s : State) (f : Flit) : Bool := f.ctx == 0 || (s.holdsKey f.ctx f.part && f.tagBytes == Flit.tagOf f)
/-- A flit that has reached its package and opens. -/
def State.takeFlit (s : State) (k : Nat) (f : Flit) : State :=
  match f.kind, f.body with
  | 1, .request r =>
    if hbmEnd ≤ r.target then s.countPort k 1 1
    else
      let d := ownerDie r.target
      let die := s.die d
      s.setDie d { die with requests := die.requests ++
        [{ r with package := f.src, tag := f.tag, sealCtx := f.ctx, part := f.part, ctx := if r.ctx = 0 then 0 else f.ctx }] }
  | 2, .response v bad => match s.trans f.tag with
    | some x => s.endTrans x v bad
    | none => s
  | 3, .ack => match s.trans f.tag with
    | some x => s.endTrans x 0 0
    | none => s
  | 4, .collective c => s.contribute k c
  | _, _ => s.countPort k 1 1
/-- Whether a flit can be received: by a package that is ready (16 R393, R395); a collective flit for it waits while its processor cannot hold it (17
R437). -/
def State.canReceive (s : State) (k : Nat) (f : Flit) : Bool :=
  (s.port k).up && s.published && match f.kind, f.body with
    | 4, .collective c => f.dst != s.chofer.package || (s.port k).holds c
    | _, _ => true
/-- A neighbour tells its package number: it is kept, and judged once the start command has come (16 R399). -/
def State.hearNumber (s : State) (k n : Nat) : State :=
  let s1 := s.setPort k { s.port k with neighbour := some n }
  if s.chofer.status = 7 ∧ n = s.chofer.package then s1.downPort k evSameNumber else s1
/-- A port receives a flit. Its own package sends it with 0 hops and each package that forwards it adds one, so a flit goes over at most nine links: the
spec does not say whether the link from the sending package counts as a hop (17 R426; log 80). -/
def State.receive (s : State) (k : Nat) (f : Flit) : State :=
  if f.kind = 0 then s
  else if channelOf f.kind ≠ some f.channel then s.countPort k 1 1
  else if f.kind = 5 then match f.body with
    | .management n => s.hearNumber k n
    | _ => s.countPort k 1 1
  else if s.refused f then s.countPort k 3 1
  else if f.dst ≠ s.chofer.package then
    if 8 ≤ f.hops then s.countPort k 1 1
    else if (s.route f.dst).isNone then s.countPort k 1 1
    else s.sendFlit f.dst { f with hops := f.hops + 1 }
  else if s.opens f then s.takeFlit k f
  else
    let s1 := s.countPort k 2 1
    let home := f.tag / 2 ^ 28
    if f.kind = 2 then s1.setPort home { s1.port home with waiting := (s1.port home).waiting.map fun x =>
      if x.tag = f.tag then { x with failed := true } else x } else s1

/-- The access that an expiry ends. -/
def State.expired (s : State) (k tag : Nat) : Option Trans :=
  (s.port k).waiting.find? fun x => x.tag = tag ∧ x.time + 2 ^ 24 ≤ s.clock
def State.timeOut (s : State) (k tag : Nat) : State :=
  match s.expired k tag with
  | some x => s.endTrans x 0 (if x.failed then 8 else 7)
  | none => s

def execFlitReceive (k : Nat) (f : Flit) (s : State) : Host.Outcome State Fault Refusal := running s (s.canReceive k f) (·.receive k f)
/-- A resend of the flit under way at a port: after 16 that fail the port is down (17 R428). -/
def State.resendFlit (s : State) (k : Nat) (failed : Bool) : State :=
  let n := if failed then (s.port k).resends + 1 else 0
  let s1 := (s.countPort k 0 1)
  let s2 := s1.setPort k { s1.port k with resends := if n < 16 then n else 0 }
  if n < 16 || !(s.port k).up then s2 else s2.downPort k evPortDown
def execFlitResend (x : Transfer) (s : State) : Host.Outcome State Fault Refusal :=
  running s (decide (x.target < 16)) (·.resendFlit x.target x.failed)
def execPortDown (k : Nat) (s : State) : Host.Outcome State Fault Refusal := running s (s.port k).up (·.downPort k evPortDown)
def execAccessTimeout (k tag : Nat) (s : State) : Host.Outcome State Fault Refusal := running s (s.expired k tag).isSome (·.timeOut k tag)

end Sys2Proof.Machine
end

