-- ==== Sys2Proof/Machine/EvFetch.lean ====
section
/-! DEFINITION. The fetch that gives no instruction (03 R81, R82). -/

namespace Sys2Proof.Machine

/-- The fault of a fetch that gives no instruction, and the length of the instruction in bytes where it is known (03 Table 3.12, R82;
04 R126). -/
def fetchFlt (why : FetchFault) : Flt × Option Nat :=
  match why with
  | .illegal code x => (⟨1, code, 0, none, none⟩, some (if x then 8 else 4))
  | .boundary code => (⟨2, code, 0, none, none⟩, none)
  | .range cls code addr index x => (⟨cls, code, 0, some addr.toNat, index⟩, x.map fun b => if b then 8 else 4)
/-- The group that fetches parks with the fault; a group in runahead leaves it instead (10 Table 10.6). -/
def State.badFetch (s : State) (why : FetchFault) (gid : Nat) : State :=
  match s.group? gid with
  | none => s
  | some g =>
    if g.ra.isSome then s.exitRunahead gid g
    else s.takeFault gid g.settled (fetchFlt why).1 (fetchFlt why).2

def execNonInstructionFetch (why : FetchFault) (s : State) : Host.Outcome State Fault Refusal :=
  match s.cur with
  | none => .fault .noIssuingGroup
  | some gid => event s (s.group? gid).isSome (·.badFetch why gid)

end Sys2Proof.Machine
end

