-- ==== Sys2Proof/Machine/Schedule.lean ====
section
/-! DEFINITION. Which step comes next: what a clk does by itself, the events that the model takes of its own accord, the group that issues,
and the fetch of its instruction (03 R62, R81 to R83; 07 R176 to R179; 10 R276; log 3). -/

namespace Sys2Proof.Machine

/-! ### Events of the model's own agenda (log 3) -/

/-- The first event of a list that can happen. -/
def firstOf {α : Type} (l : List α) (f : α → Option Instr) : Option Instr := l.findSome? f
/-- An event when its condition holds. -/
def whenever (b : Bool) (e : Instr) : Option Instr := if b then some e else none
/-- The first of several events. -/
def orElse (a : Option Instr) (b : Unit → Option Instr) : Option Instr := match a with | some e => some e | none => b ()

/-- An event of a group. -/
def State.groupEvent (s : State) (gid : Nat) : Option Instr :=
  orElse (whenever (s.canWriteback gid) (.resultWriteback gid)) fun _ =>
  orElse (whenever (s.canRunAhead gid) (.runaheadEntry gid)) fun _ =>
  orElse (whenever (s.canAck gid) (.writeAcknowledgement gid)) fun _ =>
  orElse (whenever (s.canStop gid && !s.canSample (unitOf gid)) (.watchStop gid)) fun _ =>
  orElse (whenever (s.canAge gid) (.groupAged gid)) fun _ =>
  orElse (whenever (s.canEnd gid) (.groupEnd gid)) fun _ =>
  orElse (whenever (s.canRetryPool gid) (.poolAllocationRetry gid)) fun _ =>
  orElse (whenever (s.canExitRunahead gid) (.runaheadExit gid)) fun _ =>
  orElse (whenever (s.canReissueSpawn gid) (.spawnStallReissue gid)) fun _ =>
  whenever (s.canTimeOut gid) (.waitaTimeLimit gid)
/-- An event of a unit and its quarter. -/
def State.unitEvent (s : State) (k : Nat) : Option Instr :=
  orElse (whenever (s.canClear k) (.unitClearComplete k)) fun _ =>
  orElse (whenever (s.canExecute k) (.matrixOperationExecute k)) fun _ =>
  orElse (whenever (s.canRelease k) (.unitRelease k)) fun _ =>
  orElse (whenever (s.canSample k) (.sampleRecord k)) fun _ =>
  whenever (s.canTag k) (.sampleTag k)
/-- An event of a core's pans. -/
def State.coreEvent (s : State) (core : Nat) (c : CoreSt) : Option Instr :=
  firstOf c.pans fun p => orElse (whenever (s.panSlot core p.1).isSome (.panLaunch core p.1)) fun _ =>
    whenever (s.canExpire core p.1) (.panTimerExpiry core p.1)
/-- An event of a cluster. -/
def State.clusterEvent (s : State) (cl : Nat) : Option Instr :=
  orElse (whenever (s.canFill cl) (.rangeTableFill cl)) fun _ =>
  orElse (whenever (s.fresh cl).isSome (.rangeWalk cl)) fun _ =>
  orElse (whenever (s.canRetryWalk cl) (.walkGenerationRetry cl)) fun _ =>
  orElse (whenever (s.canArrive cl) (.barrierUnitArrival cl)) fun _ =>
  whenever (s.canAperture cl) (.pairApertureAccess ⟨cl, false⟩)
/-- An event of a die. -/
def State.dieEvent (s : State) (d : Nat) (x : DieSt) : Option Instr :=
  orElse (whenever (s.canDecrement d) (.decrement d)) fun _ =>
  orElse (whenever (s.canWritePending d) (.pendingFaultRecordWrite d)) fun _ =>
  orElse (firstOf x.partials fun p => whenever (!p.joined) (.partialJoin d p.line)) fun _ =>
  orElse (whenever (s.canStartCopy d) (.copyStart d)) fun _ =>
  orElse (firstOf x.copies fun c => match c.engine with | some e => whenever (s.canEndCopy d e) (.copyEnd d e) | none => none) fun _ =>
  whenever (s.canDispatch d) (.teamDispatch d)
/-- The sweeps: each die's sweeper begins one every 65,536 clk (11 R314), each die at its own time. -/
def State.sweepEvent (s : State) : Option Instr :=
  let at_ := s.clock % 65536
  if at_ < 32768 then none
  else
    let d := (at_ - 32768) / 64
    if d < 8 ∧ s.canSweep d ∧ (!(s.die d).swept ∨ (s.die d).sweptAt / 65536 ≠ s.clock / 65536) then some (.harrowSweep d) else none

/-- The event that the model takes next of itself: each of these changes the state. -/
def State.ownEvent (s : State) : Option Instr :=
  orElse s.sweepEvent fun _ =>
  orElse (firstOf s.clusters fun c => s.clusterEvent c.1) fun _ =>
  orElse (firstOf s.groups fun g => s.groupEvent g.1) fun _ =>
  orElse (firstOf s.units fun u => s.unitEvent u.1) fun _ =>
  orElse (firstOf s.cores fun c => s.coreEvent c.1 c.2) fun _ =>
  orElse (whenever s.canRecompute .priorityRecompute) fun _ =>
  orElse (firstOf s.diesT fun d => s.dieEvent d.1 d.2) fun _ =>
  firstOf s.ports fun p => firstOf p.2.waiting fun x => whenever (s.expired p.1 x.tag).isSome (.accessTimeout p.1 x.tag)

/-- The events that may only ask other agents for what they need; the model takes them in turn. -/
def State.askingEvents (s : State) : List Instr :=
  let units := (s.groups.map fun g => unitOf g.1).eraseDups
  (units.filterMap fun k => whenever (s.canForceSave k) (.forcedSave k)) ++
  (units.filterMap fun k => whenever (s.canForceRestore k) (.forcedSaveRestore k)) ++
  (s.units.filterMap fun u => if s.canAbort u.1 then some (.mdrainAbort u.1) else whenever (s.canComplete u.1) (.matrixOperationComplete u.1)) ++
  (s.diesT.flatMap fun d => whenever (s.canAccess d.1) (.sliceAccess d.1) |>.toList) ++
  (s.diesT.flatMap fun d => d.2.copies.filterMap fun c => c.engine.bind fun e => whenever (s.canChunk d.1 e) (.copyChunk d.1 e)) ++
  (s.tasks.filterMap fun t => whenever (s.completes t.1) (.launchCompletion t.1)) ++
  (s.teams.filterMap fun t => whenever (s.canPreempt t.1) (.teamPreemption t.1)) ++
  (s.teams.filterMap fun t =>
    let core := match s.savedSeatOn t.1 with | some x => x.core | none => t.2.core
    if t.2.saved then whenever (s.canRestore t.1 core) (.teamRestore t.1 core) else none) ++
  (s.teams.flatMap fun t => if t.2.spilled = 0 then [] else
    (if t.2.paired then [t.2.core, t.2.core + 1] else [t.2.core]).filterMap fun core => whenever (s.canMoveArea core t.1) (.overflowMove core t.1)) ++
  (s.clusters.filterMap fun c => whenever (s.resumed c.1).isSome (.rangeWalk c.1)) ++
  ((List.range s.moves.length).filterMap fun n => if s.canEndMove n then some (.compactionDone n) else whenever (s.canMoveUnit n) (.compactionUnitMove n)) ++
  (s.ports.flatMap fun p =>
    (whenever (s.canAccept p.1) (.collectiveAccept p.1)).toList ++
    (List.range p.2.running.length).filterMap fun n =>
      if s.canHandOff p.1 n then some (.handoff p.1 n) else whenever (s.canEndColl p.1 n) (.collectiveEnd p.1 n))
/-- The one of them whose turn it is; the rereads of all groups in WAITA have one place among them, which those groups take in turn. -/
def State.askingEvent (s : State) : Option Instr :=
  let l := s.askingEvents
  let polls := (s.groups.map (·.1)).filter s.canReread
  let n := l.length + min 1 polls.length
  if n = 0 then none
  else match l[s.clock / 4 % n]? with
    | some e => some e
    | none => polls[s.clock / 4 / n % polls.length]?.map .waitaReread

/-! ### Selection (07 R177 to R179) -/

/-- Whether something that a requester waits for has come. -/
def State.needMet (s : State) (who : Nat) (n : Need) : Bool :=
  match n with
  | .sector sec => !s.host.asked.contains sec
  | .snoop sec => (tfind s.host.snooping sec).isNone
  | .unit asid base n => !s.moves.any fun m => m.held && m.asid == asid && m.base == base && m.done == n
  | .bytes pkg t n => !s.overlapping who pkg t n
  | .dir d asid => match s.placeOf (s.spaceEntry d asid) with
    | .hbm a => s.readMem (a + 8) 8 / 2 ^ 32 % 2 == 0
    | _ => true
/-- Whether what a group waits for has come about, so that it becomes ready. Waits that an event of their own ends are not among these. -/
def State.waitOver (s : State) (gid : Nat) (g : Group) (w : Wait) : Bool :=
  let u := s.unit (unitOf gid)
  let t := s.team g.team
  let k := 4 * s.ownSide gid g.team
  match w with
  | .pop q => if q = 0 then !u.q0.isEmpty || u.holder != some g.team else !(tget [] t.queues (k + q)).isEmpty
  | .push q n =>
    if q = 1 then decide (u.q1.length + n ≤ 1024) || u.holder != some g.team
    else decide ((s.port (portOf gid)).handed.length + (s.port (portOf gid)).running.length < 64)
  | .barrier id par _ _ => tget false t.parity id != par
  | .reply => !(s.ports.any fun p => p.2.waiting.any fun x => x.who == gid && !x.ack) && s.needs.all fun n => n.1 != gid || s.needMet gid n.2
  | .aperture => !s.storing gid
  | .acks => g.acks == 0
  | .results => g.outst.isEmpty
  | .unit kind n =>
    if kind = uFree then u.holder.isNone && u.clearing.isNone || u.holder == some g.team
    else if kind = uClear then u.clearing != some g.team
    else if kind = uRelease then !(u.ops.any fun o => o.team == g.team)
    else if kind = uMwait then decide ((u.ops.filter fun o => o.gid = gid).length ≤ n)
    else if kind = uRoom then decide (u.occupied + n ≤ 4096)
    else decide (n ≤ u.q1.length) || u.holder != some g.team
  | .descriptor id => !([0, 1].any fun side => s.usesId g.team (t.core + side) side id true true)
  | .copies => decide ((s.die (dieOf gid)).copies.length < Config.copyQueue)
  | .range scope asid lo hi => !s.accessing scope (coreOf gid) asid lo hi
  | .trace n => decide (n ≤ s.traceRoom (dieOf gid))
  | .pool _ _ | .arriving _ _ _ | .waita _ _ | .walk _ | .pan _ _ => false
/-- A group whose wait is over becomes ready (07 R177). The end of a barrier phase is its acquire at .team (08 R225), and a BAR.hold with S = 1
then waits for its results (07 R180); a group that forced save has put away while it waited has nothing more to wait for. -/
def State.comeReady (s : State) (gid : Nat) (g : Group) : State :=
  match g.stat with
  | .waiting (.barrier id par back sw) =>
    if s.waitOver gid g (.barrier id par back sw) then
      (s.acquire gid g 1).modGroup gid fun g =>
        if sw && !g.outst.isEmpty then { g with stat := .parkedSwitch, ranAhead := false } else g.readied
    else s
  | .waiting w => if s.waitOver gid g w then s.modGroup gid Group.readied else s
  | .saved (some (.barrier id par back sw)) f =>
    if s.waitOver gid g (.barrier id par back sw) then (s.acquire gid g 1).modGroup gid fun g => { g with stat := .saved none f } else s
  | _ => s
/-- The current group of a quarter stays current as long as it is ready (07 Table 7.1). -/
def State.keepsCurrent (s : State) (gid : Nat) : Bool := match s.group? gid with | some g => g.stat == .ready | none => false
/-- What each clk brings before anything else happens: groups that were ready in the last and did not issue grow older (07 R178), the dies' own writes
that waited for the host are made (17 R422), groups whose waits are over become ready, and a quarter has no current group once that has parked or
ended. -/
def State.tick (s : State) : State :=
  if s.chofer.stopped then { s with acting := 0 }
  else
    let s0 : State := { s with
      acting := 0
      units := s.units.map fun u => (u.1, { u.2 with current := u.2.current.filter s.keepsCurrent })
      groups := s.groups.map fun e => (e.1, if e.2.stat = .ready ∧ (s.unit (unitOf e.1)).current ≠ some e.1 then { e.2 with age := e.2.age + 1 } else e.2) }
    let s0 := s0.diesT.foldl (fun (st : State) d => if d.2.own.isEmpty then st else st.drainOwn d.1 d.2.own.length) s0
    s0.groups.foldl (fun (st : State) e => st.comeReady e.1 e.2) s0

/-- Whether a group can issue, and whether only below the ready groups, in runahead. One whose block is not yet accepted does not: it may
rewrite the block once it goes on (17 R431; log 3). In a team that is being stopped only a group whose atomic action another package has
already taken goes on, to the end of that instruction (07 R197). -/
def State.issues (s : State) (gid : Nat) (g : Group) : Option Bool :=
  if (s.stopping g.team && !s.midAtom gid) || (s.port (portOf gid)).handed.any (fun h => h.gid == gid) then none
  else match g.stat with
    | .ready => some true
    | .runahead => some false
    | _ => none
/-- A group that can issue, with its rank in the order of R179: 0 aged, 1 current, 2 ready, 3 runahead. -/
def State.ranked (s : State) (gid : Nat) (g : Group) : Option (Nat × Nat × Nat) :=
  (s.issues gid g).map fun r =>
    (if !r then 3 else if g.aged then 0 else if (s.unit (unitOf gid)).current = some gid then 1 else 2, g.stamp, gid)
/-- The group of a quarter that issues. -/
def selectIn (l : List (Nat × Nat × Nat)) : Option Nat :=
  (l.foldl (fun (b : Option (Nat × Nat × Nat)) x => match b with
    | none => some x
    | some y => if x.1 < y.1 ∨ (x.1 = y.1 ∧ x.2.1 < y.2.1) then some x else some y) none).map (·.2.2)
/-- The quarter of a list that issued least recently. -/
def State.longestIdle (s : State) (l : List Nat) : Option Nat :=
  l.foldl (fun (b : Option Nat) q => match b with
    | none => some q
    | some p => if (s.unit q).last < (s.unit p).last then some q else some p) none
/-- The group that issues next in this clk: of the quarters that have one and have not issued in it, the quarter that issued least recently (log 3). -/
def State.select (s : State) : Option Nat :=
  if s.chofer.stopped then none
  else
    let l := (s.groups.filterMap fun e => s.ranked e.1 e.2).filter fun x => (s.unit (unitOf x.2.2)).last ≠ s.clock
    let qs := (l.map fun x => unitOf x.2.2).eraseDups
    match s.longestIdle qs with
    | none => none
    | some q => selectIn (l.filter fun x => unitOf x.2.2 = q)

/-! ### Fetch (03 R62, R81 to R83) -/

/-- What the fetch of a word gives. -/
inductive Word1 where
  | word (s : State) (g : Group) (w : W32)
  | wait (s : State) (w : Wait)
  | fail (cls code : Nat) (index : Option Nat)
/-- A group's fetch as a requester. -/
def State.fetcher (s : State) (gid : Nat) (g : Group) : Who := { s.groupWho gid g with engine := true }
/-- What the memory holds at a place, for a group's fetch: neither L1 nor the stash serves it. A poisoned word reads as unspecified bits
(log 5). -/
def State.codeWord (s : State) (gid : Nat) (g : Group) (n : Nat) (l : Located) : Got :=
  let r := s.performRead (s.fetcher gid g) l
  ⟨r.s, if r.bad = 0 then r.v else (s.free (0xD00000 + n)).toNat % 2 ^ 32, 0⟩
/-- The words of the 64-byte line of an address that a group's buffer takes with that word, where the line lies in local HBM: it keeps those
it holds already. -/
def State.fetchLine (s : State) (gid : Nat) (g : Group) (n va : Nat) (l : Located) : Table W32 :=
  match l.p with
  | .hbm t =>
    (List.range 16).foldl (fun b k =>
      let at_ := va / 64 * 64 + 4 * k
      if (tfind b at_).isSome then b
      else tput b at_ (BitVec.ofNat 32 (s.codeWord gid g (n + 2 * k + 2) ⟨⟨0, at_, 4⟩, .hbm (t - va % 64 + 4 * k), l.e⟩).v)) g.ibuf
  | _ => g.ibuf
/-- A core's instruction cache is of 128 KiB (00 R1, Table 0.2): the lines that a new one drives out of it, the least recently used. -/
def CoreSt.drivenOut (c : CoreSt) (line : Nat × Nat) : List (Nat × Nat) := (line :: c.icache.filter (· ≠ line)).drop Config.icacheLines
/-- A core's instruction cache uses a line; no group of the core keeps the words of a line that leaves it. -/
def State.useLine (s : State) (core : Nat) (line : Nat × Nat) : State :=
  let c := s.core core
  let out := c.drivenOut line
  let s1 := s.setCore core { c with icache := (line :: c.icache.filter (· ≠ line)).take Config.icacheLines }
  if out.isEmpty then s1
  else { s1 with groups := s1.groups.map fun e => (e.1, if coreOf e.1 = core then
    { e.2 with ibuf := e.2.ibuf.filter fun x => !out.contains ((s.launchOf e.2).asid, x.1 / 64) } else e.2) }
/-- A group's words but for those of the lines that a line drives out. -/
def State.keepWords (s : State) (gid asid : Nat) (line : Nat × Nat) (b : Table W32) : Table W32 :=
  let out := (s.core (coreOf gid)).drivenOut line
  if out.isEmpty then b else b.filter fun x => !out.contains (asid, x.1 / 64)
/-- Fetches the word at an address: one whose line the group's buffer holds reads as that or as what memory holds now (R83). -/
def State.fetchWord (s : State) (gid : Nat) (g : Group) (n : Nat) (va : Addr) : Word1 :=
  match s.xlat gid g .fetch 4 va.toNat with
  | .walk =>
    let asked := g.ra.isSome && (let c := s.cluster (clusterOf gid)
      c.queue.any (fun r => r.gid == some gid) || c.results.any fun r => r.1.gid == some gid)
    .wait (if asked then s else s.askWalk gid g [va.toNat] g.ra.isSome 3) (.walk [va.toNat])
  | .fault cls code ix => .fail cls code ix
  | .ok p e =>
    let l : Located := ⟨⟨0, va.toNat, 4⟩, p, e⟩
    match s.ask (s.fetcher gid g) .read .read l with
    | some s1 => .wait s1 .reply
    | none =>
      let r := s.codeWord gid g n l
      let now := BitVec.ofNat 32 r.v
      let line := ((s.launchOf g).asid, va.toNat / 64)
      let s1 := (r.s.useRanges (coreOf gid) [l]).useLine (coreOf gid) line
      match tfind g.ibuf va.toNat with
      | some old => .word s1 { g with ibuf := s.keepWords gid line.1 line g.ibuf } (if old != now && (s.free (0xD80000 + n)).getLsbD 0 then now else old)
      | none => .word s1 { g with ibuf := s.keepWords gid line.1 line (tput (s.fetchLine gid g n va.toNat l) va.toNat now) } now

/-- What the fetch of a group's next instruction gives: the state and an instruction to execute, or a wait. -/
inductive Fetch where
  | run (s : State) (i : Instr)
  | wait (s : State)
/-- Parks a group that waits for a fetch; one in runahead stays there. -/
def State.parkFetch (s : State) (gid : Nat) (g : Group) (w : Wait) : State :=
  s.setGroup gid (if g.ra.isSome then g else { g with stat := .waiting w })
/-- Fetches and decodes the instruction at a group's PC. -/
def State.fetch (s : State) (gid : Nat) (g : Group) : Fetch :=
  let pc := g.ctx.pc
  match s.fetchWord gid g 0 pc with
  | .wait s1 w => .wait (s1.parkFetch gid g w)
  | .fail cls code ix => .run s (.nonInstructionFetch (.range cls code pc ix none))
  | .word s1 g1 w0 =>
    if opField w0 = 0x3F then .run (s1.setGroup gid g1) (.nonInstructionFetch (.boundary g.ctx.via))
    else if xField w0 then
      match s1.fetchWord gid g1 1 (pc + 4) with
      | .wait s2 w => .wait (s2.parkFetch gid g1 w)
      | .fail cls code ix => .run (s1.setGroup gid g1) (.nonInstructionFetch (.range cls code (pc + 4) ix (some true)))
      | .word s2 g2 w1 => match decode w0 w1 with
        | .ok i => .run (s2.setGroup gid g2) i
        | .error why => .run (s2.setGroup gid g2) (.nonInstructionFetch why)
    else match decode w0 0 with
      | .ok i => .run (s1.setGroup gid g1) i
      | .error why => .run (s1.setGroup gid g1) (.nonInstructionFetch why)

/-! ### Issue -/

/-- A selected group is the one that issues, and the current one of its quarter. -/
def State.wake (s : State) (gid : Nat) (g : Group) : State :=
  let u := s.unit (unitOf gid)
  { s.setUnit (unitOf gid) { u with current := some gid, last := s.clock } with cur := some gid, acting := (s.launchOf g).ctx }
/-- Whether a group's participant is revoked (16 R415). -/
def State.isRevoked (s : State) (g : Group) : Bool :=
  let l := s.launchOf g
  l.ctx != 0 && match s.context l.ctx with | some x => x.revoked.contains (s.task g.task).part | none => false
/-- What a selected group does: it halts when its participant is revoked, or fetches its next instruction. -/
def State.issueNext (s : State) (gid : Nat) : Fetch :=
  match s.group? gid with
  | none => .wait s
  | some g => if s.isRevoked g then .wait (s.halt gid) else (s.wake gid g).fetch gid g

/-! ### For whom an event acts (11 R314) -/

/-- The context of a group's launch, and of a task's. -/
def State.groupCtx (s : State) (gid : Nat) : Nat := match s.group? gid with | some g => (s.launchOf g).ctx | none => 0
def State.taskCtx (s : State) (k : Nat) : Nat := (s.task k).launch.ctx
/-- The context of the launch whose operation is the oldest in a unit. -/
def State.unitCtx (s : State) (k : Nat) : Nat := match (s.unit k).ops with | o :: _ => s.teamCtx (s.team o.team) | [] => 0
/-- The context of the launch whose request a walker takes next, of those that a choice names. -/
def State.walkCtx (s : State) (cl : Nat) (n : Option Nat) : Nat :=
  match n.bind fun k => (s.cluster cl).queue[k]? with
  | some r => match r.gid.bind s.group? with | some g => (s.launchOf g).ctx | none => r.ctx
  | none => 0
/-- The context of the launch whose copy an engine works on. -/
def State.copyCtx (s : State) (c : Option Copy) : Nat := match c with | some c => s.taskCtx c.task | none => 0
/-- The context of the launch whose block a collective processor runs. -/
def State.collCtx (s : State) (k n : Nat) : Nat := match (s.port k).running[n]? with | some c => s.taskCtx c.task | none => 0
/-- The confidential context for whose launch an event acts, 0 for none: its counts go to that context's totals (11 R314; 15 R390). -/
def State.eventCtx (s : State) (e : Instr) : Nat :=
  match e with
  | .groupEnd gid | .runaheadExit gid | .waitaReread gid => s.groupCtx gid
  | .panLaunch core k => match s.pan? core k with | some p => s.taskCtx p.task | none => 0
  | .teamDispatch d => match s.headTask d with | some (k, _) => s.taskCtx k | none => 0
  | .decrement d => match (s.die d).decrements with
    | x :: _ => (match x.gid with
      | some gid => s.groupCtx gid
      | none => match s.live x.handle with | some (k, _) => s.taskCtx k | none => 0)
    | [] => 0
  | .forcedSave k => match s.saveVictim k with | some (gid, _) => s.groupCtx gid | none => 0
  | .forcedSaveRestore k => match s.restoreNext k with | some (gid, _) => s.groupCtx gid | none => 0
  | .overflowMove _ team | .teamPreemption team | .teamRestore team _ => s.teamCtx (s.team team)
  | .matrixOperationExecute k | .matrixOperationComplete k | .mdrainAbort k | .unitRelease k => s.unitCtx k
  | .rangeWalk cl => s.walkCtx cl (s.fresh cl <|> s.resumed cl)
  | .walkGenerationRetry cl => s.walkCtx cl (s.due cl)
  | .compactionUnitMove n | .compactionDone n => match s.move? n with | some (_, w) => w.ctx | none => 0
  | .sliceAccess d => match (s.die d).requests with | r :: _ => r.ctx | [] => 0
  | .partialJoin d line | .partialFlush d line => match s.partial? d line with | some p => p.ctx | none => 0
  | .uncorrectableError (.scratchWord key _ _) | .uncorrectableError (.stashWord key _ _) => s.teamCtx (s.team key)
  | .uncorrectableError (.accumulator k _ _) | .uncorrectableError (.bSlice k _) =>
    match (s.unit k).holder with | some key => s.teamCtx (s.team key) | none => 0
  | .uncorrectableError (.l1Word core line place _) => match (s.core core).sector (4 * line + place % 4) with | some x => x.ctx | none => 0
  | .copyStart d => s.copyCtx (s.nextCopyOf d)
  | .copyChunk d e | .copyEnd d e => s.copyCtx (s.copyOn d e)
  | .launchCompletion k => s.taskCtx k
  | .collectiveAccept k => match (s.port k).handed with | h :: _ => s.taskCtx h.task | [] => 0
  | .handoff k n | .collectiveEnd k n => s.collCtx k n
  | _ => 0
/-- A state in which an event is about to happen. -/
def State.actFor (s : State) (e : Instr) : State := { s with acting := s.eventCtx e }

/-- Whether something may come as an input: an event, but for the fetch that gives no instruction, which belongs to a group's issue. -/
def comesFromOutside (i : Instr) : Bool :=
  match i with
  | .nonInstructionFetch _ => false
  | e => e.enc.isNone

/-- What the next step does: takes an event, or one that may only ask, or what a group's fetch gives; or nothing more happens in this clk. -/
inductive Action where
  | event (e : Instr)
  | ask (e : Instr)
  | issue (f : Fetch)
  | idle
/-- The action of a step, when no input is waiting (log 3). -/
def State.action (s : State) : Action :=
  if s.chofer.stopped then .idle
  else match s.ownEvent with
    | some e => .event e
    | none => match (if s.asked ≠ s.clock ∧ (s.clock % 4 = 0 ∨ s.select.isNone) then s.askingEvent else none) with
      | some e => .ask e
      | none => match s.select with
        | some gid => .issue (s.issueNext gid)
        | none => .idle

/-! ### A program by itself (log 14) -/

/-- The address at which placed words lie, virtual and target. -/
def placedAt : Nat := 0x1000
/-- The launch of placed words: one supervisor group of width 32. -/
def placedLaunch : Launch :=
  { entry := BitVec.ofNat 56 placedAt, size := 32, width := 32, regs := 511, prio := 3, super := true, cntrd := true, emptyMask := true }
/-- A range that maps all of HBM to itself, for every access. -/
def placedRange : RangeEntry := { image := ⟨0x800000000000000F, 0x400000000, 0, 0⟩, index := 0 }
/-- The state in which one group of core 0 is about to fetch these words, and nothing else happens first. -/
def State.placed (s : State) (ws : List W32) : State :=
  let task : Task := { state := .running, launch := placedLaunch, effective := 3, placed := 1 }
  let team : Team := { groups := [0], members := 1 }
  let mem := (List.range ws.length).foldl (fun (st : State) k => st.putBytes (placedAt + 4 * k) (bytesOf 4 (ws.getD k 0).toNat)) s
  { mem with inputs := [], cur := none, groups := [(0, startGroup placedLaunch 0 0 0 0)], teams := [(0, team)], tasks := [(0, task)],
             cores := [(0, { rtable := [placedRange] })], units := [], clusters := [], diesT := [], moves := [], ports := [],
             chofer := { mem.chofer with stopped := false } }

end Sys2Proof.Machine
end

