-- ==== Sys2Proof/Machine/Dispatch.lean ====
section
/-! DEFINITION. Which meaning each instruction and event has: one arm for each constructor of Instr. -/

namespace Sys2Proof.Machine

def exec (i : Instr) (s : State) : Host.Outcome State Fault Refusal :=
  match i with
  | .nop f => Sys2Proof.Machine.execNop f s
  | .brk f => Sys2Proof.Machine.execBrk f s
  | .trap f => Sys2Proof.Machine.execTrap f s
  | .eret f => Sys2Proof.Machine.execEret f s
  | .srd f => Sys2Proof.Machine.execSrd f s
  | .swr f => Sys2Proof.Machine.execSwr f s
  | .wbase f => Sys2Proof.Machine.execWbase f s
  | .rls f => Sys2Proof.Machine.execRls f s
  | .icsync f => Sys2Proof.Machine.execIcsync f s
  | .gresume f => Sys2Proof.Machine.execGresume f s
  | .gresumeNext f => Sys2Proof.Machine.execGresumeNext f s
  | .gkill f => Sys2Proof.Machine.execGkill f s
  | .add f => Sys2Proof.Machine.execAdd f s
  | .sub f => Sys2Proof.Machine.execSub f s
  | .mul f => Sys2Proof.Machine.execMul f s
  | .mulh f => Sys2Proof.Machine.execMulh f s
  | .mad f => Sys2Proof.Machine.execMad f s
  | .div f => Sys2Proof.Machine.execDiv f s
  | .rem f => Sys2Proof.Machine.execRem f s
  | .min f => Sys2Proof.Machine.execMin f s
  | .max f => Sys2Proof.Machine.execMax f s
  | .and f => Sys2Proof.Machine.execAnd f s
  | .or f => Sys2Proof.Machine.execOr f s
  | .xor f => Sys2Proof.Machine.execXor f s
  | .shl f => Sys2Proof.Machine.execShl f s
  | .shr f => Sys2Proof.Machine.execShr f s
  | .popc f => Sys2Proof.Machine.execPopc f s
  | .clz f => Sys2Proof.Machine.execClz f s
  | .brev f => Sys2Proof.Machine.execBrev f s
  | .bfx f => Sys2Proof.Machine.execBfx f s
  | .bfi f => Sys2Proof.Machine.execBfi f s
  | .kcg f => Sys2Proof.Machine.execKcg f s
  | .cmp f => Sys2Proof.Machine.execCmp f s
  | .sel f => Sys2Proof.Machine.execSel f s
  | .movi f => Sys2Proof.Machine.execMovi f s
  | .moviWide f => Sys2Proof.Machine.execMoviWide f s
  | .addi f => Sys2Proof.Machine.execAddi f s
  | .addiWide f => Sys2Proof.Machine.execAddiWide f s
  | .f2f f => Sys2Proof.Machine.execF2f f s
  | .f2i f => Sys2Proof.Machine.execF2i f s
  | .i2f f => Sys2Proof.Machine.execI2f f s
  | .i2i f => Sys2Proof.Machine.execI2i f s
  | .pack f => Sys2Proof.Machine.execPack f s
  | .unpack f => Sys2Proof.Machine.execUnpack f s
  | .mxq f => Sys2Proof.Machine.execMxq f s
  | .mxd f => Sys2Proof.Machine.execMxd f s
  | .fadd f => Sys2Proof.Machine.execFadd f s
  | .fsub f => Sys2Proof.Machine.execFsub f s
  | .fmul f => Sys2Proof.Machine.execFmul f s
  | .ffma f => Sys2Proof.Machine.execFfma f s
  | .fmin f => Sys2Proof.Machine.execFmin f s
  | .fmax f => Sys2Proof.Machine.execFmax f s
  | .fcmp f => Sys2Proof.Machine.execFcmp f s
  | .rcp f => Sys2Proof.Machine.execRcp f s
  | .rsq f => Sys2Proof.Machine.execRsq f s
  | .sqrt f => Sys2Proof.Machine.execSqrt f s
  | .exp2 f => Sys2Proof.Machine.execExp2 f s
  | .log2 f => Sys2Proof.Machine.execLog2 f s
  | .sin f => Sys2Proof.Machine.execSin f s
  | .cos f => Sys2Proof.Machine.execCos f s
  | .tanh f => Sys2Proof.Machine.execTanh f s
  | .tsum f => Sys2Proof.Machine.execTsum f s
  | .tprod f => Sys2Proof.Machine.execTprod f s
  | .fmae f => Sys2Proof.Machine.execFmae f s
  | .xadd f => Sys2Proof.Machine.execXadd f s
  | .xmul f => Sys2Proof.Machine.execXmul f s
  | .xcmp f => Sys2Proof.Machine.execXcmp f s
  | .xrenorm f => Sys2Proof.Machine.execXrenorm f s
  | .xcomp f => Sys2Proof.Machine.execXcomp f s
  | .xneg f => Sys2Proof.Machine.execXneg f s
  | .xabs f => Sys2Proof.Machine.execXabs f s
  | .xhead f => Sys2Proof.Machine.execXhead f s
  | .xsplit f => Sys2Proof.Machine.execXsplit f s
  | .xjoin f => Sys2Proof.Machine.execXjoin f s
  | .iadd f => Sys2Proof.Machine.execIadd f s
  | .isub f => Sys2Proof.Machine.execIsub f s
  | .imul f => Sys2Proof.Machine.execImul f s
  | .idiv f => Sys2Proof.Machine.execIdiv f s
  | .ifma f => Sys2Proof.Machine.execIfma f s
  | .icmp f => Sys2Proof.Machine.execIcmp f s
  | .ihull f => Sys2Proof.Machine.execIhull f s
  | .imeet f => Sys2Proof.Machine.execImeet f s
  | .imake f => Sys2Proof.Machine.execImake f s
  | .ilo f => Sys2Proof.Machine.execIlo f s
  | .ihi f => Sys2Proof.Machine.execIhi f s
  | .imid f => Sys2Proof.Machine.execImid f s
  | .iwid f => Sys2Proof.Machine.execIwid f s
  | .ineg f => Sys2Proof.Machine.execIneg f s
  | .iabs f => Sys2Proof.Machine.execIabs f s
  | .isqr f => Sys2Proof.Machine.execIsqr f s
  | .isqrt f => Sys2Proof.Machine.execIsqrt f s
  | .ihalf f => Sys2Proof.Machine.execIhalf f s
  | .iisempty f => Sys2Proof.Machine.execIisempty f s
  | .ibis f => Sys2Proof.Machine.execIbis f s
  | .ld f => Sys2Proof.Machine.execLd f s
  | .st f => Sys2Proof.Machine.execSt f s
  | .ild f => Sys2Proof.Machine.execIld f s
  | .ist f => Sys2Proof.Machine.execIst f s
  | .atom f => Sys2Proof.Machine.execAtom f s
  | .red f => Sys2Proof.Machine.execRed f s
  | .fence f => Sys2Proof.Machine.execFence f s
  | .pref f => Sys2Proof.Machine.execPref f s
  | .ifence f => Sys2Proof.Machine.execIfence f s
  | .waita f => Sys2Proof.Machine.execWaita f s
  | .bra f => Sys2Proof.Machine.execBra f s
  | .call f => Sys2Proof.Machine.execCall f s
  | .bri f => Sys2Proof.Machine.execBri f s
  | .calli f => Sys2Proof.Machine.execCalli f s
  | .ret f => Sys2Proof.Machine.execRet f s
  | .exit f => Sys2Proof.Machine.execExit f s
  | .yield f => Sys2Proof.Machine.execYield f s
  | .spawn f => Sys2Proof.Machine.execSpawn f s
  | .bar f => Sys2Proof.Machine.execBar f s
  | .barPass f => Sys2Proof.Machine.execBarPass f s
  | .mset f => Sys2Proof.Machine.execMset f s
  | .mand f => Sys2Proof.Machine.execMand f s
  | .mor f => Sys2Proof.Machine.execMor f s
  | .mnot f => Sys2Proof.Machine.execMnot f s
  | .mact f => Sys2Proof.Machine.execMact f s
  | .mrd f => Sys2Proof.Machine.execMrd f s
  | .vote f => Sys2Proof.Machine.execVote f s
  | .shfl f => Sys2Proof.Machine.execShfl f s
  | .mma f => Sys2Proof.Machine.execMma f s
  | .mres f => Sys2Proof.Machine.execMres f s
  | .mrel f => Sys2Proof.Machine.execMrel f s
  | .mwait f => Sys2Proof.Machine.execMwait f s
  | .mfence f => Sys2Proof.Machine.execMfence f s
  | .mzero f => Sys2Proof.Machine.execMzero f s
  | .mlda f => Sys2Proof.Machine.execMlda f s
  | .msta f => Sys2Proof.Machine.execMsta f s
  | .mldb f => Sys2Proof.Machine.execMldb f s
  | .mdrain f => Sys2Proof.Machine.execMdrain f s
  | .tdef f => Sys2Proof.Machine.execTdef f s
  | .tdefCommit f => Sys2Proof.Machine.execTdefCommit f s
  | .tkill f => Sys2Proof.Machine.execTkill f s
  | .tinfo f => Sys2Proof.Machine.execTinfo f s
  | .ctwr f => Sys2Proof.Machine.execCtwr f s
  | .copy f => Sys2Proof.Machine.execCopy f s
  | .tdec f => Sys2Proof.Machine.execTdec f s
  | .launch f => Sys2Proof.Machine.execLaunch f s
  | .tstat f => Sys2Proof.Machine.execTstat f s
  | .rset f => Sys2Proof.Machine.execRset f s
  | .rsetRepl f => Sys2Proof.Machine.execRsetRepl f s
  | .rsplit f => Sys2Proof.Machine.execRsplit f s
  | .rmerge f => Sys2Proof.Machine.execRmerge f s
  | .rinv f => Sys2Proof.Machine.execRinv f s
  | .rqry f => Sys2Proof.Machine.execRqry f s
  | .rcomp f => Sys2Proof.Machine.execRcomp f s
  | .enter f => Sys2Proof.Machine.execEnter f s
  | .leave f => Sys2Proof.Machine.execLeave f s
  | .watch f => Sys2Proof.Machine.execWatch f s
  | .sampl f => Sys2Proof.Machine.execSampl f s
  | .cntrd f => Sys2Proof.Machine.execCntrd f s
  | .resultWriteback gid => Sys2Proof.Machine.execResultWriteback gid s
  | .writeAcknowledgement gid => Sys2Proof.Machine.execWriteAcknowledgement gid s
  | .groupAged gid => Sys2Proof.Machine.execGroupAged gid s
  | .groupEnd gid => Sys2Proof.Machine.execGroupEnd gid s
  | .poolAllocationRetry gid => Sys2Proof.Machine.execPoolAllocationRetry gid s
  | .forcedSave unit => Sys2Proof.Machine.execForcedSave unit s
  | .forcedSaveRestore unit => Sys2Proof.Machine.execForcedSaveRestore unit s
  | .runaheadEntry gid => Sys2Proof.Machine.execRunaheadEntry gid s
  | .runaheadExit gid => Sys2Proof.Machine.execRunaheadExit gid s
  | .panTimerExpiry core pan => Sys2Proof.Machine.execPanTimerExpiry core pan s
  | .panLaunch core pan => Sys2Proof.Machine.execPanLaunch core pan s
  | .spawnStallReissue gid => Sys2Proof.Machine.execSpawnStallReissue gid s
  | .overflowMove core team => Sys2Proof.Machine.execOverflowMove core team s
  | .barrierUnitArrival cluster => Sys2Proof.Machine.execBarrierUnitArrival cluster s
  | .pendingFaultRecordWrite die => Sys2Proof.Machine.execPendingFaultRecordWrite die s
  | .waitaReread gid => Sys2Proof.Machine.execWaitaReread gid s
  | .waitaTimeLimit gid => Sys2Proof.Machine.execWaitaTimeLimit gid s
  | .teamPreemption team => Sys2Proof.Machine.execTeamPreemption team s
  | .teamRestore team core => Sys2Proof.Machine.execTeamRestore team core s
  | .unitClearComplete unit => Sys2Proof.Machine.execUnitClearComplete unit s
  | .matrixOperationExecute unit => Sys2Proof.Machine.execMatrixOperationExecute unit s
  | .matrixOperationComplete unit => Sys2Proof.Machine.execMatrixOperationComplete unit s
  | .unitRelease unit => Sys2Proof.Machine.execUnitRelease unit s
  | .mdrainAbort unit => Sys2Proof.Machine.execMdrainAbort unit s
  | .rangeWalk cluster => Sys2Proof.Machine.execRangeWalk cluster s
  | .walkGenerationRetry cluster => Sys2Proof.Machine.execWalkGenerationRetry cluster s
  | .rangeTableFill cluster => Sys2Proof.Machine.execRangeTableFill cluster s
  | .compactionUnitMove move => Sys2Proof.Machine.execCompactionUnitMove move s
  | .compactionDone move => Sys2Proof.Machine.execCompactionDone move s
  | .sampleTag unit => Sys2Proof.Machine.execSampleTag unit s
  | .sampleRecord unit => Sys2Proof.Machine.execSampleRecord unit s
  | .watchStop gid => Sys2Proof.Machine.execWatchStop gid s
  | .harrowSweep die => Sys2Proof.Machine.execHarrowSweep die s
  | .sliceAccess die => Sys2Proof.Machine.execSliceAccess die s
  | .sectorEviction sector => Sys2Proof.Machine.execSectorEviction sector s
  | .partialJoin die line => Sys2Proof.Machine.execPartialJoin die line s
  | .partialFlush die line => Sys2Proof.Machine.execPartialFlush die line s
  | .cLineMerge line => Sys2Proof.Machine.execCLineMerge line s
  | .hbmScrub found => Sys2Proof.Machine.execHbmScrub found s
  | .uncorrectableError site => Sys2Proof.Machine.execUncorrectableError site s
  | .hbmPersistentFault word => Sys2Proof.Machine.execHbmPersistentFault word s
  | .dieLinkResend src sent => Sys2Proof.Machine.execDieLinkResend src sent s
  | .dieLinkDown src dst => Sys2Proof.Machine.execDieLinkDown src dst s
  | .pairApertureAccess store => Sys2Proof.Machine.execPairApertureAccess store s
  | .pairLinkResend cluster sent => Sys2Proof.Machine.execPairLinkResend cluster sent s
  | .pairLinkDown cluster pair => Sys2Proof.Machine.execPairLinkDown cluster pair s
  | .walkerError cluster => Sys2Proof.Machine.execWalkerError cluster s
  | .copyStart die => Sys2Proof.Machine.execCopyStart die s
  | .copyChunk die engine => Sys2Proof.Machine.execCopyChunk die engine s
  | .copyEnd die engine => Sys2Proof.Machine.execCopyEnd die engine s
  | .doorbell target bytes data => Sys2Proof.Machine.execDoorbell target bytes data s
  | .decrement die => Sys2Proof.Machine.execDecrement die s
  | .teamDispatch die => Sys2Proof.Machine.execTeamDispatch die s
  | .priorityRecompute => Sys2Proof.Machine.execPriorityRecompute s
  | .launchCompletion slot => Sys2Proof.Machine.execLaunchCompletion slot s
  | .packageReset => Sys2Proof.Machine.execPackageReset s
  | .firmwareImage image => Sys2Proof.Machine.execFirmwareImage image s
  | .bringUp failed => Sys2Proof.Machine.execBringUp failed s
  | .numberCommand n => Sys2Proof.Machine.execNumberCommand n s
  | .configurationBlock die block => Sys2Proof.Machine.execConfigurationBlock die block s
  | .startCommand target virt => Sys2Proof.Machine.execStartCommand target virt s
  | .retireCommand core => Sys2Proof.Machine.execRetireCommand core s
  | .createContext cmd => Sys2Proof.Machine.execCreateContext cmd s
  | .addParticipant cmd => Sys2Proof.Machine.execAddParticipant cmd s
  | .admitLaunch cmd => Sys2Proof.Machine.execAdmitLaunch cmd s
  | .attestationReport ctx nonce => Sys2Proof.Machine.execAttestationReport ctx nonce s
  | .revocation cmd => Sys2Proof.Machine.execRevocation cmd s
  | .routeTableWrite package first second => Sys2Proof.Machine.execRouteTableWrite package first second s
  | .powerThrottle on => Sys2Proof.Machine.execPowerThrottle on s
  | .thermalShutdown die => Sys2Proof.Machine.execThermalShutdown die s
  | .cxlOpen hdmBase => Sys2Proof.Machine.execCxlOpen hdmBase s
  | .snpData host => Sys2Proof.Machine.execSnpData host s
  | .snpInv host => Sys2Proof.Machine.execSnpInv host s
  | .snpCur host => Sys2Proof.Machine.execSnpCur host s
  | .hostResponse host exclusive data bad => Sys2Proof.Machine.execHostResponse host exclusive data bad s
  | .hostSectorEviction host => Sys2Proof.Machine.execHostSectorEviction host s
  | .cxlMemRead addr bytes => Sys2Proof.Machine.execCxlMemRead addr bytes s
  | .cxlMemWrite addr data poison => Sys2Proof.Machine.execCxlMemWrite addr data poison s
  | .biSnoopResponse sector => Sys2Proof.Machine.execBiSnoopResponse sector s
  | .flitReceive port flit => Sys2Proof.Machine.execFlitReceive port flit s
  | .flitResend sent => Sys2Proof.Machine.execFlitResend sent s
  | .portDown port => Sys2Proof.Machine.execPortDown port s
  | .accessTimeout port tag => Sys2Proof.Machine.execAccessTimeout port tag s
  | .collectiveAccept port => Sys2Proof.Machine.execCollectiveAccept port s
  | .collectiveFlit port flit => Sys2Proof.Machine.execCollectiveFlit port flit s
  | .handoff port index => Sys2Proof.Machine.execHandoff port index s
  | .collectiveEnd port index => Sys2Proof.Machine.execCollectiveEnd port index s
  | .nonInstructionFetch why => Sys2Proof.Machine.execNonInstructionFetch why s

end Sys2Proof.Machine
end

