-- ==== Sys2Proof/Machine/Step.lean ====
section
/-! DEFINITION. One step of the machine, and how an instruction is placed for it (log 1, 3, 14). -/

namespace Sys2Proof.Machine

/-- The state in which a clk begins. -/
def State.begin (s : State) : State := { s with clock := s.clock + 1 }.tick
/-- The state in which a step acts: a clk begins once each quarter that can issue has issued in the last one (07 R178, R179; log 3). -/
def State.turn (s : State) : State := if s.select.isSome then { s with acting := 0 } else s.begin
/-- One step: the next input, an event of the model's own agenda, or the instruction that a group fetches. -/
def step (s : State) : Host.Outcome State Fault Refusal :=
  let s0 := s.turn
  match s.inputs with
  | e :: r =>
    let s1 : State := { s0 with inputs := r }
    if comesFromOutside e then exec e (s1.actFor e) else .next s1
  | [] => match s0.action with
    | .event e => exec e (s0.actFor e)
    | .ask e => exec e ({ s0 with asked := s0.clock }.actFor e)
    | .issue (.run s1 i) => exec i s1
    | .issue (.wait s1) => .next { s1 with freeCtr := s1.freeCtr + 1 }
    | .idle => .next s0

/-- The state with an instruction stored where step fetches its next instruction (log 14). -/
def State.withFetchWord (s : State) (nbits w : Nat) : State := s.placed (tableWords nbits w)

end Sys2Proof.Machine
end

