-- ==== Sys2Proof/Safety.lean ====
section
/-! DEFINITION. The terms that claims use: the form of memory, what issuing needs and keeps, and what an instruction that works lane by lane
does. -/

namespace Sys2Proof.Machine

/-! ### The form of memory -/

/-- The canonical form of the lists that hold memory: HBM with strictly rising addresses and no entry equal to what an unlisted byte reads
as, masked bytes of the slices with strictly rising addresses, and poison marks likewise. -/
def Memory.wf (s : State) : Bool := twf 0 s.hbm && trising s.llc && twf false s.poison

/-! ### Issuing -/

/-- The hypotheses under which a group's instruction reaches its effect outside runahead: it is the issuing group, it does not run ahead, and
a supervisor instruction is issued by supervisor code (03 R80). -/
structure Issues (s : State) (gid : Nat) (g : Group) (o : Op) : Prop where
  cur : s.cur = some gid
  group : s.group? gid = some g
  ra : g.ra = none
  super : supervisorOnly o = true → (s.launchOf g).super = true

/-- What issuing an instruction can never change by itself: everything but the groups, the quarter's sampling, the event counters, the
totals of a confidential context, and the replies a group has used. -/
structure Kept (s t : State) : Prop where
  inputs : t.inputs = s.inputs
  clock : t.clock = s.clock
  cur : t.cur = s.cur
  acting : t.acting = s.acting
  nextStamp : t.nextStamp = s.nextStamp
  nextOrder : t.nextOrder = s.nextOrder
  nextCopy : t.nextCopy = s.nextCopy
  teams : t.teams = s.teams
  tasks : t.tasks = s.tasks
  cores : t.cores = s.cores
  clusters : t.clusters = s.clusters
  hbm : t.hbm = s.hbm
  llc : t.llc = s.llc
  present : t.present = s.present
  poison : t.poison = s.poison
  deadWords : t.deadWords = s.deadWords
  owners : t.owners = s.owners
  sealedLines : t.sealedLines = s.sealedLines
  cLines : t.cLines = s.cLines
  moves : t.moves = s.moves
  sealBad : t.sealBad = s.sealBad
  asked : t.asked = s.asked
  spoilt : t.spoilt = s.spoilt
  respoken : t.respoken = s.respoken
  host : t.host = s.host
  ports : t.ports = s.ports

/-! ### Instructions that work lane by lane -/

/-- The parts of a context that writing registers leaves. -/
structure SameRest (c d : Ctx) : Prop where
  pc : d.pc = c.pc
  wbase : d.wbase = c.wbase
  am : d.am = c.am
  live : d.live = c.live
  masks : d.masks = c.masks
  fpsr : d.fpsr = c.fpsr
  regions : d.regions = c.regions
  rdepth : d.rdepth = c.rdepth
  inHandler : d.inHandler = c.inHandler
  trapPc : d.trapPc = c.trapPc
  trapAm : d.trapAm = c.trapAm

/-- What a lane-wise instruction needs of its operands and the register pool: no illegal operand (01 R16 to R23), no poison (R30), a queue
source that is not empty (R24; pop is its word, s1 the state after), and slices for the names it binds (07 R186). -/
structure LaneReady (s : State) (i : Iss) (srcs : List Src) (d : Dst) (pop : W32) (s1 : State) : Prop where
  operands : operandFaults i srcs d = []
  held : queueFaults s i (if (i.compute d).isEmpty then none else queueSource srcs) = []
  poison : poisonFaults i (i.compute d) srcs = []
  popped : s.popFor i (i.compute d) srcs = some (pop, s1)
  room : i.compute d ≠ [] → (s1.setGroup i.gid (i.g.free (freedNames i srcs))).admits i.gid (i.g.free (freedNames i srcs))
    (((i.g.free (freedNames i srcs)).needs (dstNames i d)).length * (i.width / 32)) = true

/-- Whether a destination takes a lane's words in register name m. -/
def writesName (i : Iss) (d : Dst) (words : List W32) (m : Nat) : Prop :=
  match d with
  | .reg fld _ _ _ _ => match regOf fld with
    | .v k => i.ctx.wbase + k ≤ m ∧ m < i.ctx.wbase + k + words.length
    | _ => False
  | _ => False
/-- Whether a destination is this uniform register. -/
def writesG (d : Dst) (n : Nat) : Prop :=
  match d with
  | .reg fld _ _ _ _ => regOf fld = .g n
  | _ => False
/-- Whether a destination is this predicate. -/
def writesPred (d : Dst) (p : Nat) : Prop := match d with | .pred q => q = p | _ => False

/-- What a destination holds after a lane has written it, unless an earlier result was still outstanding there (07 R182). -/
def holdsLane (i : Iss) (d : Dst) (l : Nat) (r : LaneRes) (c : Ctx) : Prop :=
  match d with
  | .reg fld _ _ _ sg => match regOf fld with
    | .v k => ∀ j < r.words.length, i.g.pendV (i.ctx.wbase + k + j) l = false →
        c.vGet (i.ctx.wbase + k + j) l = r.words.getD j 0 ∧ c.vBad (i.ctx.wbase + k + j) l = r.bad
    | .g n => i.g.pendG n = false → c.gGet n = gValue sg r.words ∧ c.gBad n = r.bad
    | .q _ => True
  | .pred p => p ≠ 0 → i.g.pendP p l = false → c.predGet p l = if r.pred = 3 then 2 else r.pred
  | .none => True

/-- What a lane-wise instruction does to its group's context: each computed lane of the destination holds its result; names freed by
last-read bits read 0; and nothing else changes but the PC. -/
structure LaneContext (i : Iss) (srcs : List Src) (d : Dst) (r : Nat → LaneRes) (c : Ctx) : Prop where
  pc : c.pc = i.next
  dest : ∀ l ∈ i.compute d, holdsLane i d l (r l) c
  freed : ∀ m ∈ freedNames i srcs, ∀ l < 128, ¬(l ∈ i.compute d ∧ writesName i d (r l).words m) → c.vGet m l = 0
  vectors : ∀ m, m ∉ freedNames i srcs → ∀ l < 128, ¬(l ∈ i.compute d ∧ writesName i d (r l).words m) →
    c.vGet m l = i.ctx.vGet m l ∧ c.vBad m l = i.ctx.vBad m l
  uniforms : ∀ n, ¬writesG d n → c.gGet n = i.ctx.gGet n ∧ c.gBad n = i.ctx.gBad n
  predicates : ∀ p, ∀ l < 128, ¬(l ∈ i.compute d ∧ writesPred d p) → c.predGet p l = i.ctx.predGet p l
  rest : SameRest i.ctx { c with pc := i.ctx.pc }

/-- What a lane-wise instruction does to the machine: its group's context, its flags to be written back, and nothing else but the sampling
and the counters of its quarter. -/
structure LaneEffect (s1 : State) (i : Iss) (srcs : List Src) (d : Dst) (r : Nat → LaneRes) (t : State) : Prop where
  group : ∃ g', t.group? i.gid = some g' ∧ LaneContext i srcs d r g'.ctx ∧
    flagsOf g'.outst = flagsOf i.g.outst ||| ((i.compute d).map fun l => (r l).flags).foldl (· ||| ·) 0
  others : ∀ j, j ≠ i.gid → t.group? j = s1.group? j
  kept : Kept s1 t

/-- The result of each lane of a lane-wise instruction whose computation is fn. -/
def laneRes (fn : State → Iss → Nat → List (List W32) → LaneRes) (s : State) (i : Iss) (pop : W32) (srcs : List Src) (l : Nat) : LaneRes :=
  fn s i l (s.operands i pop l srcs)

/-- An instruction completes lane by lane: outside runahead, with its operands ready, and where no lane of it faults or makes an empty
interval that stops the group (06 R158, R159), it answers a next state in which each computed lane of its destination holds what fn gives of
its sources, and nothing else has changed. -/
def CompletesLanewise (o : Op) (srcs : Iss → List Src) (d : Iss → Dst) (fn : Iss → State → Iss → Nat → List (List W32) → LaneRes)
    (form : Iss → Prop := fun _ => True) : Prop :=
  ∀ (s : State) (gid : Nat) (g : Group) (f : Fields), Issues s gid g o →
    let i := s.issOf gid g.settled o f
    form i →
    ∀ pop s1, LaneReady s i (srcs i) (d i) pop s1 →
      let r := laneRes (fn i) s i pop (srcs i)
      (∀ l ∈ i.compute (d i), (r l).flt = none ∧ (r l).made = 0 ∧ (r l).skip = false) →
      ∃ t, exec (.of o f) s = .next t ∧ LaneEffect s1 i (srcs i) (d i) r t

/-- A group is parked by a fault, with a record whose class and code are these. -/
def ParkedBy (t : State) (gid cls code : Nat) : Prop :=
  ∃ g', t.group? gid = some g' ∧ g'.stat = .parkedFault ∧
    ∃ r, g'.fault = some r ∧ bits (r.words.getD 0 0) 7 0 = cls ∧ bits (r.words.getD 0 0) 31 16 = code

/-- The lanes that make an empty interval (06 R158). -/
def madeLanes (i : Iss) (d : Dst) (r : Nat → LaneRes) : List Nat := (i.compute d).filter fun l => (r l).made ≠ 0
/-- A lane's result with the empty flag that making an empty interval sets (06 R159). -/
def withEmptyFlag (r : Nat → LaneRes) (l : Nat) : LaneRes :=
  if (r l).made = 0 then r l else { r l with flags := (r l).flags ||| 0x20 }
/-- A group that has completed an instruction some of whose lanes made an empty interval, and is parked for that: class 0x09, the code of the first of
these lanes, the mask of them all; the registers hold the results, the flags are set, and the PC stays (06 R159). -/
def ParkedEmpty (i : Iss) (srcs : List Src) (d : Dst) (r : Nat → LaneRes) (code : Nat) (t : State) : Prop :=
  ParkedBy t i.gid 9 code ∧ ∃ g' x, t.group? i.gid = some g' ∧ g'.fault = some x ∧ x.restartable = false ∧
    x.words.getD 4 0 = (maskOf (madeLanes i d r)).extractLsb' 0 64 ∧ x.words.getD 5 0 = (maskOf (madeLanes i d r)).extractLsb' 64 64 ∧
    LaneContext i srcs d r { g'.ctx with pc := i.next, fpsr := i.ctx.fpsr } ∧ g'.ctx.pc = i.pc ∧
    g'.ctx.fpsr = i.ctx.fpsr ||| flagsOf i.g.outst ||| ((i.compute d).map fun l => (withEmptyFlag r l).flags).foldl (· ||| ·) 0
/-- An instruction whose lanes make empty intervals, all for the cause of this code, completes: with the flag set where its launch masks the fault, and
else its group parks once it has completed (06 R159). -/
def MakesEmpty (o : Op) (srcs : Iss → List Src) (d : Iss → Dst) (fn : Iss → State → Iss → Nat → List (List W32) → LaneRes) (code : Nat)
    (form : Iss → Prop := fun _ => True) : Prop :=
  ∀ (s : State) (gid : Nat) (g : Group) (f : Fields), Issues s gid g o →
    let i := s.issOf gid g.settled o f
    form i →
    ∀ pop s1, LaneReady s i (srcs i) (d i) pop s1 →
      let r := laneRes (fn i) s i pop (srcs i)
      madeLanes i (d i) r ≠ [] →
      ∃ t, exec (.of o f) s = .next t ∧
        if i.l.emptyMask then LaneEffect s1 i (srcs i) (d i) (withEmptyFlag r) t else ParkedEmpty i (srcs i) (d i) r code t

/-! ### Other instructions -/

/-- What an instruction leaves that changes, beside the state s1, only its group's context to c at a PC. -/
structure Leaves (s1 : State) (i : Iss) (pc : Addr) (c : Ctx) (t : State) : Prop where
  group : ∃ g', t.group? i.gid = some g' ∧ g'.ctx = { c with pc := pc, via := viaOf i }
  others : ∀ j, j ≠ i.gid → t.group? j = s1.group? j
  kept : Kept s1 t

/-- What an instruction that must wait leaves: its group waits, its registers and its PC as they were, and nothing else has changed beside the
state s1, in which it has asked for what it needs. -/
structure Waits (s1 : State) (i : Iss) (w : Wait) (t : State) : Prop where
  group : ∃ g', t.group? i.gid = some g' ∧ g'.stat = .waiting w ∧ g'.ctx = i.ctx ∧ g'.outst = i.g.outst
  others : ∀ j, j ≠ i.gid → t.group? j = s1.group? j
  kept : Kept s1 t

/-- An instruction completes: outside runahead, where the state and its operands are so, it answers a next state of which this holds. -/
def Completes (o : Op) (form : State → Iss → Prop) (post : State → Iss → State → Prop) : Prop :=
  ∀ (s : State) (gid : Nat) (g : Group) (f : Fields), Issues s gid g o →
    form s (s.issOf gid g.settled o f) → ∃ t, exec (.of o f) s = .next t ∧ post s (s.issOf gid g.settled o f) t

/-- An event occurs: where the state is so, it answers a next state of which this holds. -/
def Occurs (e : Instr) (form : State → Prop) (post : State → State → Prop) : Prop :=
  ∀ s, form s → ∃ t, exec e s = .next t ∧ post s t
/-- An event of the cores, slices, engines or ports happens: so while Chofer has not stopped the package (16 R416). -/
def Happens (e : Instr) (form : State → Prop) (post : State → State → Prop) : Prop :=
  Occurs e (fun s => s.chofer.stopped = false ∧ form s) post

/-- A group-level instruction: no guard (03 R68; 01 R21). -/
abbrev Unguarded (i : Iss) : Prop := i.f.g = 0 ∧ i.f.gm = 0
/-- A field names a uniform register that can be read: no result outstanding there and no poison (01 R30, 07 R181). -/
abbrev ReadyG (i : Iss) (fld : BitVec 7) : Prop :=
  112 ≤ fld.toNat ∧ fld.toNat < 124 ∧ i.g.pendG (gIndex fld) = false ∧ i.ctx.gBad (gIndex fld) = 0
/-- The value of the uniform register that a field names. -/
def valueG (i : Iss) (fld : BitVec 7) : W64 := i.ctx.gGet (gIndex fld)
/-- A field names a uniform register whose result is not outstanding, as a destination. -/
abbrev NamesG (i : Iss) (fld : BitVec 7) : Prop := 112 ≤ fld.toNat ∧ fld.toNat < 124 ∧ i.g.pendG (gIndex fld) = false

/-- The accesses of a load or store that pops no queue, in lane order (08 R211). -/
def accessesOf (s : State) (i : Iss) (srcs : List Src) (lanes : List Nat) : List Access :=
  lanes.map fun l => ⟨l, memAddress i (memWidth i.ty) (s.operands i 0 l srcs), memWidth i.ty⟩
/-- The accesses that read an image of n dwords. -/
def imageAccesses (va n : Nat) : List Access := (List.range n).map fun j => ⟨0, (va + 8 * j) % 2 ^ 56, 8⟩

/-- An image of n dwords at an address can be read: every dword translates, nothing need be asked for, none is poisoned; ws are its
dwords and s1 the state after reading them. -/
structure ImageReady (s : State) (i : Iss) (n va : Nat) (ws : List W64) (s1 : State) : Prop where
  located : ∀ x ∈ imageAccesses va n, ∃ l, s.locate i .read x = .at_ l
  ready : let ls := foundAt ((imageAccesses va n).map (s.locate i .read))
    (s.useRanges (coreOf i.gid) ls).askAll (i.who s) .read (ls.map fun l => (l, .read)) = none
  image : let ls := foundAt ((imageAccesses va n).map (s.locate i .read))
    let r := (s.useRanges (coreOf i.gid) ls).readAll (i.who s) ls
    r.1 = s1 ∧ (∀ x ∈ r.2, x.2.2 = 0) ∧ r.2.map (fun x => BitVec.ofNat 64 x.2.1) = ws

/-- An instruction of a group gives a value in its uniform destination and leaves, beside the state s1, only its group's context. -/
structure GivesG (s1 : State) (i : Iss) (v : W64) (t : State) : Prop where
  group : ∃ g', t.group? i.gid = some g' ∧ g'.ctx.pc = i.next ∧ g'.ctx.gGet (gIndex i.f.d) = v ∧ g'.ctx.gBad (gIndex i.f.d) = 0 ∧
    (∀ n, n ≠ gIndex i.f.d → g'.ctx.gGet n = i.ctx.gGet n) ∧ g'.ctx.v = i.ctx.v ∧ g'.ctx.am = i.ctx.am
  others : ∀ j, j ≠ i.gid → t.group? j = s1.group? j
  kept : Kept s1 t

/-- A RANGE instruction whose release has taken effect in s0 (10 R280, R282): the directory of an address space, whose entry is sp and whose records
are rs, can be read and written without asking; s2 is the state after reading it. -/
structure DirRead (s1 : State) (i : Iss) (asid : Nat) (s0 s2 : State) (sp : Space) (rs : List RangeRec) : Prop where
  released : s1.releaseOr i.gid i.g (i.mb 8 6) = .ok s0
  asked : s0.askDir (i.who s0) (dieOf i.gid) asid = none
  entry : sp = s0.space (i.who s0) (dieOf i.gid) asid
  records : rs = if sp.valid then s0.records (i.who s0) sp else []
  read : s2 = s0.touchDir (i.who s0) (dieOf i.gid) asid
/-- A RANGE instruction that may act on a directory: no other change of it is under way (13 R335), and it lies in this package. -/
def ChangeReady (s1 : State) (i : Iss) (asid : Nat) (s2 : State) (sp : Space) (rs : List RangeRec) : Prop :=
  ∃ s0, DirRead s1 i asid s0 s2 sp rs ∧ ¬(sp.valid = true ∧ sp.gen % 2 = 1) ∧ s2.farDir sp = false
/-- The accesses of a scope to an extent are performed in s3 (10 R286, R288). -/
def Settled (s2 : State) (i : Iss) (asid : Nat) (extent : Option (Nat × Nat)) (s3 : State) : Prop :=
  match extent with
  | some x => s2.settle i (i.mb 8 6) asid x.1 x.2 = .ok s3
  | none => s3 = s2
/-- An instruction of a group gives a status in its uniform destination and leaves, beside the state s1, only its group's context. -/
abbrev GivesStatus (s1 : State) (i : Iss) (n : Nat) (t : State) : Prop := GivesG s1 i ((BitVec.ofNat 32 n).setWidth 64) t
/-- What a RANGE instruction answers of a change: its status, with nothing else changed; or status 0 once the change is made in s3 (10 R280). -/
def Answers (s2 s3 : State) (i : Iss) (asid : Nat) (sp : Space) (rs : List RangeRec) (c : Change) (t : State) : Prop :=
  match c with
  | .no n => GivesStatus s2 i n t
  | .became new force extent move =>
    (∃ g', t.group? i.gid = some g' ∧ g'.ctx.pc = i.next ∧ g'.ctx.gGet (gIndex i.f.d) = 0) ∧
    Kept (s3.makeChange i asid sp rs new force extent move) t ∧
    ∀ a, t.byteAt a = (s3.writeDir (i.who s3) (dieOf i.gid) asid sp rs new force).byteAt a

/-- Whether the answer to a walker's request answers another request too: a range found does so for those of its address space that it covers; a
walk of RQRY answers RQRY alone (13 R332, R336). -/
def WalkReq.sharedBy (r : WalkReq) (x : WalkResult) (q : WalkReq) : Bool :=
  match x with
  | .found e => q.asid == r.asid && e.image.covers q.va && !q.asks && !r.asks
  | .miss _ _ => false
/-- A walk of the request r, at place n of its walker's queue, ends with x, s1 being the state once it has read: r and the waiting requests that
share its answer are answered, and a range found for another than RQRY enters the range cache (13 R332, R336, R337). -/
structure WalkEnds (s1 : State) (cl n : Nat) (r : WalkReq) (x : WalkResult) (t : State) : Prop where
  queue : let rest := (s1.cluster cl).queue.eraseIdx n
    (t.cluster cl).queue = (rest.take 63).filter (fun q => !r.sharedBy x q) ++ rest.drop 63
  results : let rest := (s1.cluster cl).queue.eraseIdx n
    (t.cluster cl).results = (s1.cluster cl).results ++ (r, x) :: ((rest.take 63).filter (r.sharedBy x)).map fun q => (q, x)
  cache : match x with
    | .found e => if r.asks then (t.cluster cl).cache = (s1.cluster cl).cache else (t.cluster cl).cache.head? = some (r.asid, e)
    | .miss _ _ => (t.cluster cl).cache = (s1.cluster cl).cache
  groups : t.groups = s1.groups

/-- The loads that a group awaits from a die's memory over the link of its own (14 R361). -/
def Group.crossing (g : Group) (s : State) (dst : Nat) : List Outst :=
  (match g.ra with | some r => r.entry | none => g.outst).filter fun o => s.awaited o && o.from_ dst != 0
/-- A processor takes the oldest block handed to it, h: its dwords are vs, s1 the state after reading them, and its status word can be written
without waiting (17 R431, R432). -/
structure TakesBlock (s : State) (k : Nat) (h : Handed) (r : List Handed) (vs : List Nat) (s1 : State) : Prop where
  handed : (s.port k).handed = h :: r
  read : s.fetchWords (s.collEngine k h.gid h.team h.task) (coreOf h.gid) (runsOf h.addr.toNat 8 16) = .ok s1 vs
  status : ∀ s2, s1.storeWords (s.collEngine k h.gid h.team h.task) (coreOf h.gid) [((h.addr.toNat + 0x58) % 2 ^ 56, 8, 0)] ≠ .error (some s2)
/-- The block of these dwords. -/
def CBlock.ofWords (vs : List Nat) : CBlock := vs.map (BitVec.ofNat 64 ·)
/-- The first check that a block fails, of those that need no rank table; and, with its table, of all (17 R432). -/
def CBlock.alone (b : CBlock) : Nat := firstCheck b true true true
def State.checkOf (s : State) (b : CBlock) (gid : Nat) (ts : List Nat) : Nat :=
  let t := ts.map (BitVec.ofNat 32 ·)
  let e := t.getD b.rank 0
  firstCheck b (checkEntries t) (entryPackage e == s.chofer.package && entryDie e == dieOf gid) (checkLevels b t)
/-- Whether a block names a rank whose block still runs at a processor. -/
def State.runsRank (s : State) (k : Nat) (b : CBlock) : Bool :=
  (s.port k).running.any fun c => CBlock.group c.block == b.group && CBlock.generation c.block == b.generation && c.rank == b.rank
/-- A block that was handed to a processor is there with a status, or without, as the youngest. -/
def Enters (t : State) (k : Nat) (h : Handed) (r : List Handed) (b : CBlock) (status : Option (Nat × Nat)) : Prop :=
  (t.port k).handed = r ∧ ∃ l c, (t.port k).running = l ++ [c] ∧ c.status = status ∧ c.block = b ∧ c.gid = h.gid ∧ c.team = h.team
/-- The state in which a die's slice has taken its oldest request, q being left. -/
def State.taking (s : State) (d : Nat) (q : List SliceReq) : State :=
  let s0 := s.forget (sliceWho d).who
  s0.setDie d { s0.die d with requests := q }
/-- A request is answered by its route, if it has one, sealed as it was where the key is held (17 R425, R426, R429). -/
def AnswersRequest (s : State) (r : SliceReq) (kind : Nat) (body : FlitBody) (t : State) : Prop :=
  ∀ p, s.route r.package = some p → (r.sealCtx = 0 ∨ s.holdsKey r.sealCtx r.part = true) →
    ∃ f, (t.port p).sent = (s.port p).sent ++ [f] ∧ f.kind = kind ∧ f.dst = r.package ∧ f.tag = r.tag ∧ f.ctx = r.sealCtx ∧ f.body = body
/-- The host is asked for what it holds of these sectors, and nothing else changes (17 R422). -/
structure Snooped (s : State) (secs : List Nat) (t : State) : Prop where
  asked : ∀ sec ∈ secs, (tfind t.host.snooping sec).isSome = true
  memory : t.hbm = s.hbm ∧ t.llc = s.llc ∧ t.present = s.present ∧ t.poison = s.poison ∧ t.cLines = s.cLines ∧ t.diesT = s.diesT
  groups : t.groups = s.groups

/-- An OR with a queue destination whose sources can be read (01 R16 to R23, R30): no illegal operand, no second queue, no poison. -/
structure PushReady (i : Iss) : Prop where
  sources : [intSrc i.f.a i.ty, intSrc i.f.b i.ty].flatMap (srcFaults i) = []
  one : queueTwice [i.f.d, i.f.a, i.f.b] = []
  poison : poisonFaults i i.list [intSrc i.f.a i.ty, intSrc i.f.b i.ty] = []
/-- The words that an OR pushes, by executing lane. -/
def pushedWords (s : State) (i : Iss) : List (List W32) :=
  i.list.map fun l => (List.range i.ty.iwords).map fun k =>
    ((s.readSrc i 0 0 l (intSrc i.f.a i.ty)).getD k 0) ||| ((s.readSrc i 1 0 l (intSrc i.f.b i.ty)).getD k 0)

/-- The sources of IBIS, the interval and the arguments (06 R168); what a lane keeps, and what it gives where it splits (R169); and the children that
its lanes give, in lane order (R170). -/
def ibisSrcs (i : Iss) : List Src := xsrc i.f.a i.ty.fmt 2 :: argSrcs i.f.c (i.mb 8 7)
def ibisOf (s : State) (i : Iss) (l : Nat) : List Nat × Option (List Nat) :=
  ibisLane i.ty.fmt (i.mbit 6) (ivOpn i.ty.fmt (s.operands i 0 l (ibisSrcs i)) 0)
def ibisChildren (s : State) (i : Iss) : List Child :=
  i.list.filterMap fun l => (ibisOf s i l).2.map fun give => xwrite i.ty.fmt give ++ (opn (s.operands i 0 l (ibisSrcs i)) 1).take (i.mb 8 7)
/-- The pan of a group's core that takes children for an entry: the one that its team has for it, or else a free one, begun for it (07 R190). -/
def State.receivingPan (s : State) (i : Iss) (entry : Addr) (args : Nat) : Option (Nat × Pan) :=
  let pans := (s.core (coreOf i.gid)).pans
  match tfirst pans fun _ q => decide (q.task = i.g.task ∧ q.team = i.g.team ∧ q.entry = entry) with
  | some x => some x
  | none => (tfree pans Config.pansPerCore).map fun k =>
    (k, { task := i.g.task, team := i.g.team, entry := entry, args := args, children := [], started := s.clock })

/-- An instruction enters an operation in its quarter's unit, after those that are there (09 R249), and changes its group's PC only. -/
def Queues (s : State) (i : Iss) (op : MatOp) (t : State) : Prop :=
  Leaves s i i.next i.ctx t ∧ (t.unit (unitOf i.gid)).ops = (s.unit (unitOf i.gid)).ops ++ [op] ∧
    (t.unit (unitOf i.gid)).seq = (s.unit (unitOf i.gid)).seq + 1
/-- The team holds the unit of its group's quarter and the unit's queue takes an operation of this occupancy (09 R243, R249). -/
abbrev TakesOp (s : State) (i : Iss) (occ : Nat) : Prop :=
  (s.unit (unitOf i.gid)).holder = some i.g.team ∧ (s.unit (unitOf i.gid)).occupied + occ ≤ 4096

end Sys2Proof.Machine
end

