-- ==== Sys2Proof/Certificates/Slice0/Obligations.lean ====
section
/-! DEFINITION. The statements for the provers. -/

open Sys2Proof Sys2Proof.Machine

/-! ### Instructions that work lane by lane (04 R94 to R103; 05; 06) -/

/-- 04 R94 to R97: each computed lane of an integer instruction's destination holds its result, written by 02 R44. -/
def Obligations.IntegerArithmeticCompletes : Prop :=
  CompletesLanewise .add (fun i => [intSrc i.f.a i.ty, intSrc i.f.b (if i.mbit 0 then .s32 else i.ty)]) (fun i => intDst i.f.d i.ty)
    (fun i _ _ _ ops =>
      { words := (intWords i.ty (i.mbit 5) (opInt i.ty ops 0 + opInt (if i.mbit 0 then .s32 else i.ty) ops 1 * 2 ^ (i.mb 3 1))) }) ∧
  CompletesLanewise .sub (fun i => [intSrc i.f.a i.ty, intSrc i.f.b i.ty]) (fun i => intDst i.f.d i.ty)
    (fun i _ _ _ ops => { words := intWords i.ty (i.mbit 5) (opInt i.ty ops 0 - opInt i.ty ops 1) }) ∧
  CompletesLanewise .mul (fun i => [intSrc i.f.a i.ty, intSrc i.f.b i.ty]) (fun i => intDst i.f.d i.ty)
    (fun i _ _ _ ops => { words := intWords i.ty (i.mbit 5) (opInt i.ty ops 0 * opInt i.ty ops 1) }) ∧
  CompletesLanewise .mulh (fun i => [intSrc i.f.a i.ty, intSrc i.f.b i.ty]) (fun i => intDst i.f.d i.ty)
    (fun i _ _ _ ops => { words := intWords i.ty (i.mbit 5) (opInt i.ty ops 0 * opInt i.ty ops 1 / 2 ^ i.ty.ibits) }) ∧
  CompletesLanewise .mad (fun i => [intSrc i.f.a i.ty, intSrc i.f.b i.ty, intSrc i.f.c i.ty]) (fun i => intDst i.f.d i.ty)
    (fun i _ _ _ ops => { words := intWords i.ty (i.mbit 5) (opInt i.ty ops 0 * opInt i.ty ops 1 + opInt i.ty ops 2) })

/-- 04 R95, R94: quotient and remainder, with the results of a zero divisor and of the overflowing quotient. -/
def Obligations.DivisionCompletes : Prop :=
  CompletesLanewise .div (fun i => [intSrc i.f.a i.ty, intSrc i.f.b i.ty]) (fun i => intDst i.f.d i.ty)
    (fun i _ _ _ ops => { words := intWords i.ty (i.mbit 5) (
      if opInt i.ty ops 1 = 0 then (if i.ty.isSigned then -1 else 2 ^ i.ty.ibits - 1)
      else if i.ty.isSigned ∧ opInt i.ty ops 0 = -(2 ^ (i.ty.ibits - 1)) ∧ opInt i.ty ops 1 = -1
        then (if i.mbit 5 then 2 ^ (i.ty.ibits - 1) - 1 else -(2 ^ (i.ty.ibits - 1)))
      else Int.tdiv (opInt i.ty ops 0) (opInt i.ty ops 1)) }) ∧
  CompletesLanewise .rem (fun i => [intSrc i.f.a i.ty, intSrc i.f.b i.ty]) (fun i => intDst i.f.d i.ty)
    (fun i _ _ _ ops => { words := intWords i.ty (i.mbit 5) (
      if opInt i.ty ops 1 = 0 then opInt i.ty ops 0
      else if i.ty.isSigned ∧ opInt i.ty ops 0 = -(2 ^ (i.ty.ibits - 1)) ∧ opInt i.ty ops 1 = -1 then 0
      else Int.tmod (opInt i.ty ops 0) (opInt i.ty ops 1)) })

/-- 04 R94, R97, R99; 03 R70, R71: minimum, maximum, bitwise operations, shifts, SEL, MOVI and ADDI.
01 Table 1.3; 09 R243; 17 R430: OR into q1 of the unit that the team holds pushes the words of its executing lanes, in ascending order, while the
queue has room; OR.b64 into q3 of an aligned address, once its release at .sys has taken effect, hands the lowest executing lane's address to the
processor of its port, which holds fewer than 64 blocks. -/
def Obligations.LogicAndMovesComplete : Prop :=
  CompletesLanewise .min (fun i => [intSrc i.f.a i.ty, intSrc i.f.b i.ty]) (fun i => intDst i.f.d i.ty)
    (fun i _ _ _ ops => { words := intWords i.ty (i.mbit 5) (if opInt i.ty ops 0 ≤ opInt i.ty ops 1 then opInt i.ty ops 0 else opInt i.ty ops 1) }) ∧
  CompletesLanewise .max (fun i => [intSrc i.f.a i.ty, intSrc i.f.b i.ty]) (fun i => intDst i.f.d i.ty)
    (fun i _ _ _ ops => { words := intWords i.ty (i.mbit 5) (if opInt i.ty ops 0 ≤ opInt i.ty ops 1 then opInt i.ty ops 1 else opInt i.ty ops 0) }) ∧
  CompletesLanewise .and (fun i => [intSrc i.f.a i.ty, intSrc i.f.b i.ty]) (fun i => intDst i.f.d i.ty)
    (fun i _ _ _ ops => { words := (List.range i.ty.iwords).map fun k => ((opn ops 0).getD k 0) &&& ((opn ops 1).getD k 0) }) ∧
  CompletesLanewise .or (fun i => [intSrc i.f.a i.ty, intSrc i.f.b i.ty]) (fun i => intDst i.f.d i.ty)
    (fun i _ _ _ ops => { words := (List.range i.ty.iwords).map fun k => ((opn ops 0).getD k 0) ||| ((opn ops 1).getD k 0) })
    (fun i => ∀ q, regOf i.f.d ≠ .q q) ∧
  CompletesLanewise .xor (fun i => [intSrc i.f.a i.ty, intSrc i.f.b i.ty]) (fun i => intDst i.f.d i.ty)
    (fun i _ _ _ ops => { words := (List.range i.ty.iwords).map fun k => ((opn ops 0).getD k 0) ^^^ ((opn ops 1).getD k 0) }) ∧
  CompletesLanewise .shl (fun i => [intSrc i.f.a i.ty, wordSrc i.f.b]) (fun i => intDst i.f.d i.ty)
    (fun i _ _ _ ops => { words := intWords i.ty false (
      if i.ty.ibits ≤ ((opn ops 1).getD 0 0).toNat then 0 else opInt i.ty ops 0 * 2 ^ ((opn ops 1).getD 0 0).toNat) }) ∧
  CompletesLanewise .shr (fun i => [intSrc i.f.a i.ty, wordSrc i.f.b]) (fun i => intDst i.f.d i.ty)
    (fun i _ _ _ ops => { words := intWords i.ty false (
      if i.ty.ibits ≤ ((opn ops 1).getD 0 0).toNat then (if i.ty.isSigned ∧ opInt i.ty ops 0 < 0 then -1 else 0)
      else opInt i.ty ops 0 / 2 ^ ((opn ops 1).getD 0 0).toNat) }) ∧
  CompletesLanewise .sel (fun i => [intSrc i.f.a i.ty, intSrc i.f.b i.ty]) (fun i => intDst i.f.d i.ty)
    (fun i s _ l ops =>
      { words := (if s.readPred i.g (i.mb 8 6) l = 1 ∨ (s.readPred i.g (i.mb 8 6) l = 2 ∧ i.mbit 5) then opn ops 0 else opn ops 1) }) ∧
  CompletesLanewise .movi (fun _ => []) (fun i => .reg i.f.d 1 1 true true)
    (fun i _ _ _ _ => { words := [i.f.imm14.signExtend 32] }) (fun i => i.f.x = false) ∧
  CompletesLanewise .moviWide (fun _ => []) (fun i => .reg i.f.d 1 1 true true)
    (fun i _ _ _ _ => { words := [(i.f.c.extractLsb' 0 4 ++ (i.f.mod ++ i.f.imm14) : BitVec 32)] }) (fun i => i.f.x = true) ∧
  CompletesLanewise .addi (fun i => [wordSrc i.f.d]) (fun i => .reg i.f.d 1 1 true true)
    (fun i _ _ _ ops => { words := intWords .s32 false (opInt .s32 ops 0 + i.f.imm14.toInt) }) (fun i => i.f.x = false) ∧
  CompletesLanewise .addiWide (fun i => [intSrc i.f.c (addiTy i.f)]) (fun i => intDst i.f.d (addiTy i.f))
    (fun i _ _ _ ops => { words := (intWords (addiTy i.f) (bitOf i.f.mod.toNat 11)
        (opInt (addiTy i.f) ops 0 + ((i.f.mod.extractLsb' 0 10 ++ i.f.imm14 : BitVec 24)).toInt)) }) (fun i => i.f.x = true) ∧
  Completes .or (fun s i => regOf i.f.d = .q 1 ∧ PushReady i ∧ (s.unit (unitOf i.gid)).holder = some i.g.team ∧
      (s.unit (unitOf i.gid)).q1.length + (pushedWords s i).flatten.length ≤ 1024)
    (fun s i t => (t.unit (unitOf i.gid)).q1 = (s.unit (unitOf i.gid)).q1 ++ (pushedWords s i).flatten ∧
      Leaves s i i.next ((freedNames i [intSrc i.f.a i.ty, intSrc i.f.b i.ty]).foldl Ctx.clearName i.ctx) t) ∧
  (∀ s1 ws rest, Completes .or (fun s i => regOf i.f.d = .q 3 ∧ i.ty = .b64 ∧ PushReady i ∧ pushedWords s i = ws :: rest ∧
      (join64 ws).toNat % 128 = 0 ∧ (s.port (portOf i.gid)).handed.length + (s.port (portOf i.gid)).running.length < 64 ∧
      s.releaseOr i.gid i.g 5 = .ok s1)
    (fun _ i t => (t.port (portOf i.gid)).handed = (s1.port (portOf i.gid)).handed ++
        [⟨i.gid, i.g.team, sideOf i.gid, i.g.task, (join64 ws).setWidth 56, []⟩] ∧ (∀ a, t.byteAt a = s1.byteAt a) ∧
      ∃ g', t.group? i.gid = some g' ∧ g'.ctx =
        { (freedNames i [intSrc i.f.a i.ty, intSrc i.f.b i.ty]).foldl Ctx.clearName i.ctx with pc := i.next, via := viaOf i }))

/-- 04 R98, 05 R133, R150, 06 R163: a compare writes the predicate that d[2:0] names by the condition d[6:3]. -/
def Obligations.ComparesComplete : Prop :=
  CompletesLanewise .cmp (fun i => [intSrc i.f.a i.ty, intSrc i.f.b i.ty]) (fun i => .pred (bitsOf i.f.d.toNat 2 0))
    (fun i _ _ _ ops => { pred := predOf (condInt (bitsOf i.f.d.toNat 6 3) (opInt i.ty ops 0) (opInt i.ty ops 1)) }) ∧
  CompletesLanewise .fcmp (fun i => [wordSrc i.f.a, wordSrc i.f.b]) (fun i => .pred (bitsOf i.f.d.toNat 2 0))
    (fun i _ _ _ ops =>
      let a := fopn i.ty.fmt (i.mbit 4) ops 0
      let b := fopn i.ty.fmt (i.mbit 4) ops 1
      { pred := predOf (condFloat (bitsOf i.f.d.toNat 6 3) (a.cmp b)),
        flags := flagIf (a.isSig || b.isSig || ((a.isNan || b.isNan) && decide (2 ≤ bitsOf i.f.d.toNat 6 3) && decide (bitsOf i.f.d.toNat 6 3 ≤ 5)))
          fInvalid }) ∧
  CompletesLanewise .xcmp (fun i => [xsrc i.f.a i.ty.fmt (comps i.ty), xsrc i.f.b i.ty.fmt (comps i.ty)]) (fun i => .pred (bitsOf i.f.d.toNat 2 0))
    (fun i _ _ _ ops =>
      let r := xcmp (bitsOf i.f.d.toNat 6 3) (xvals i.ty.fmt (xread i.ty.fmt (comps i.ty) (opn ops 0)))
        (xvals i.ty.fmt (xread i.ty.fmt (comps i.ty) (opn ops 1)))
      { pred := predOf r.1, flags := r.2 }) ∧
  CompletesLanewise .icmp (fun i => [xsrc i.f.a i.ty.fmt 2, xsrc i.f.b i.ty.fmt 2]) (fun i => .pred (bitsOf i.f.d.toNat 2 0))
    (fun i _ _ _ ops => { pred := icmpOf (bitsOf i.f.d.toNat 6 3) (ivOpn i.ty.fmt ops 0) (ivOpn i.ty.fmt ops 1) }) ∧
  CompletesLanewise .iisempty (fun i => [xsrc i.f.a i.ty.fmt 2]) (fun i => .pred (bitsOf i.f.d.toNat 2 0))
    (fun i _ _ _ ops => { pred := predOf (ivOpn i.ty.fmt ops 0).isNone })

/-- 04 R100, R101; 02 R59: the bit operations and the keyed counter generator. -/
def Obligations.BitOperationsComplete : Prop :=
  CompletesLanewise .popc (fun i => [intSrc i.f.a i.ty]) (fun i => .reg i.f.d 1 1 true false)
    (fun i _ _ _ ops => { words := (halves (BitVec.ofNat 64 (popcount i.ty.ibits (opNat ops 0)))).take 1 }) ∧
  CompletesLanewise .clz (fun i => [intSrc i.f.a i.ty]) (fun i => .reg i.f.d 1 1 true false)
    (fun i _ _ _ ops => { words := (halves (BitVec.ofNat 64 (leadingZeros i.ty.ibits (opNat ops 0)))).take 1 }) ∧
  CompletesLanewise .brev (fun i => [intSrc i.f.a i.ty]) (fun i => intDst i.f.d i.ty)
    (fun i _ _ _ ops => { words := (halves (BitVec.ofNat 64 (reverseBits i.ty.ibits (opNat ops 0)))).take i.ty.iwords }) ∧
  CompletesLanewise .bfx (fun i => [wordSrc i.f.a]) (fun i => .reg i.f.d 1 1 true (i.mbit 13))
    (fun i _ _ _ ops =>
      let v := bitsOf ((opn ops 0).getD 0 0).toNat (i.mb 4 0 + (i.mb 9 5 + 1) - 1) (i.mb 4 0)
      { words := [if i.mbit 13 then BitVec.ofInt 32 (signedOf (i.mb 9 5 + 1) v) else BitVec.ofNat 32 v] }) ∧
  CompletesLanewise .bfi (fun i => [wordSrc i.f.d, wordSrc i.f.a]) (fun i => .reg i.f.d 1 1 true false)
    (fun i _ _ _ ops =>
      let m : W32 := BitVec.ofNat 32 ((2 ^ (i.mb 9 5 + 1) - 1) <<< i.mb 4 0)
      { words := [((opn ops 0).getD 0 0 &&& ~~~m) ||| (((opn ops 1).getD 0 0 <<< i.mb 4 0) &&& m)] }) ∧
  CompletesLanewise .kcg (fun i => [{ fld := i.f.a, n := 2, al := 2 }, { fld := i.f.c, n := 2, al := 2 }]) (fun i => .reg i.f.d 1 1 true false)
    (fun _ _ _ _ ops => { words := [kcg (join64 (opn ops 0)) (join64 (opn ops 1))] })

/-- 04 R102, R103; 05 R136 to R141: conversions, packing and MX blocks. How PACK joins two patterns (log 19), what MXD.ftz does to a subnormal element
(log 20), what a 32-bit raw destination of I2I saturates to (log 51), and that an infinity to E4M3 is not inexact (log 70) are the model's choices. -/
def Obligations.ConversionsComplete : Prop :=
  CompletesLanewise .f2f (fun i => [if i.f.cvtRnd = 5 then { fld := i.f.a, n := 2, al := 2 } else wordSrc i.f.a]) (fun i => fdst i.f.d)
    (fun i _ _ _ ops => fres (cvtF (Ty.ofCode i.f.cvtDst).fmt (Rnd.ofCode i.f.cvtRnd ((opn ops 0).getD 1 0)) i.f.cvtSat (i.f.cvtFtz .f2f)
      (fopn (Ty.ofCode (i.f.cvtSrc .f2f)).fmt (i.f.cvtFtz .f2f) ops 0))) ∧
  CompletesLanewise .f2i (fun i => [wordSrc i.f.a]) (fun i => intDst i.f.d (Ty.ofCode i.f.cvtDst))
    (fun i _ _ _ ops =>
      let r := f2i (Ty.ofCode i.f.cvtDst) (Rnd.ofCode i.f.cvtRnd) i.f.cvtSat (fopn (Ty.ofCode (i.f.cvtSrc .f2i)).fmt (i.f.cvtFtz .f2i) ops 0)
      { words := r.1, flags := r.2 }) ∧
  CompletesLanewise .i2f (fun i => [intSrc i.f.a (Ty.ofCode (i.f.cvtSrc .i2f))]) (fun i => fdst i.f.d)
    (fun i _ _ _ ops => fres (roundTo (Ty.ofCode i.f.cvtDst).fmt (Rnd.ofCode i.f.cvtRnd) i.f.cvtSat false
      (Dy.ofInt (opInt (Ty.ofCode (i.f.cvtSrc .i2f)) ops 0) 0))) ∧
  CompletesLanewise .i2i (fun i => [intSrc i.f.a (Ty.ofCode (i.f.cvtSrc .i2i))]) (fun i => intDst i.f.d (Ty.ofCode i.f.cvtDst))
    (fun i _ _ _ ops => { words := intWords (Ty.ofCode i.f.cvtDst) i.f.cvtSat (opInt (Ty.ofCode (i.f.cvtSrc .i2i)) ops 0) }) ∧
  CompletesLanewise .pack (fun i => [wordSrc i.f.a, wordSrc i.f.c])
    (fun i => if Ty.ofCode (i.f.cvtSrc .pack) = .f32 then fdst i.f.d else intDst i.f.d (Ty.ofCode i.f.cvtDst))
    (fun i _ _ _ ops =>
      let dt := Ty.ofCode i.f.cvtDst
      if Ty.ofCode (i.f.cvtSrc .pack) = .f32 then
        let c := fun k => cvtF dt.fmt (Rnd.ofCode i.f.cvtRnd) i.f.cvtSat (i.f.cvtFtz .pack) (fopn .f32 (i.f.cvtFtz .pack) ops k)
        { words := packTwo dt.fmt.width (c 0).1 (c 1).1, flags := (c 0).2 ||| (c 1).2 }
      else
        let c := fun k => ((intWords dt i.f.cvtSat (opInt (Ty.ofCode (i.f.cvtSrc .pack)) ops k)).getD 0 0).toNat
        { words := packTwo dt.ibits (c 0) (c 1) }) ∧
  CompletesLanewise .unpack (fun i => [wordSrc i.f.a])
    (fun i => if Ty.ofCode i.f.cvtDst = .f32 then fdst i.f.d else intDst i.f.d (Ty.ofCode i.f.cvtDst))
    (fun i _ _ _ ops =>
      let w := (opn ops 0).getD 0 0
      let st := Ty.ofCode (i.f.cvtSrc .unpack)
      if Ty.ofCode i.f.cvtDst = .f32 then fres (cvtF .f32 .rne false false (fpDecode st.fmt (elementOf w st.fmt.width i.f.cvtIdx)))
      else { words := intWords (Ty.ofCode i.f.cvtDst) i.f.cvtSat (intVal st [BitVec.ofNat 32 (elementOf w st.ibits i.f.cvtIdx)]) }) ∧
  CompletesLanewise .mxq (fun i => [if i.mb 8 6 = 5 then { fld := i.f.a, n := 2, al := 2 } else wordSrc i.f.a]) (fun i => fdst i.f.d)
    (fun i s _ l _ => mxqLane i (if i.mb 8 6 = 5 then { fld := i.f.a, n := 2, al := 2 } else wordSrc i.f.a) s l)
    (fun i => i.f.a.toNat < 112 ∧ i.f.d.toNat < 112) ∧
  CompletesLanewise .mxd (fun i => [wordSrc i.f.a]) (fun i => fdst i.f.d)
    (fun i _ _ _ ops =>
      let ef : Fmt := match i.mb 3 2 with | 0 => .e4m3 | 1 => .e5m2 | _ => .e2m1
      let w := ((opn ops 0).getD 0 0).toNat
      fres (cvtF i.ty.fmt (Rnd.ofCode (i.mb 8 6)) (i.mbit 5) (i.mbit 4) (mxValue ef (flushElt ef (i.mbit 4) (w % 2 ^ ef.width)) (bitsOf w 15 8))))

/-- 05 R131 to R135: floating-point addition, multiplication and FFMA give the exact value rounded once; minimum and maximum; special functions as the
model computes them, which where it cannot decide a rounding takes the lower end of a bracket of the exact value (log 11). -/
def Obligations.FloatingPointCompletes : Prop :=
  CompletesLanewise .fadd (fun i => [wordSrc i.f.a, wordSrc i.f.b]) (fun i => fdst i.f.d)
    (fun i _ _ _ ops => fres (roundOp i.ty.fmt (Rnd.ofCode (i.mb 8 6)) (i.mbit 5) (i.mbit 4)
      (exactAdd (Rnd.ofCode (i.mb 8 6)).isRd (fopn i.ty.fmt (i.mbit 4) ops 0) (fopn i.ty.fmt (i.mbit 4) ops 1)))) ∧
  CompletesLanewise .fsub (fun i => [wordSrc i.f.a, wordSrc i.f.b]) (fun i => fdst i.f.d)
    (fun i _ _ _ ops => fres (roundOp i.ty.fmt (Rnd.ofCode (i.mb 8 6)) (i.mbit 5) (i.mbit 4)
      (exactAdd (Rnd.ofCode (i.mb 8 6)).isRd (fopn i.ty.fmt (i.mbit 4) ops 0) (fopn i.ty.fmt (i.mbit 4) ops 1).negate))) ∧
  CompletesLanewise .fmul (fun i => [wordSrc i.f.a, wordSrc i.f.b]) (fun i => fdst i.f.d)
    (fun i _ _ _ ops => fres (roundOp i.ty.fmt (Rnd.ofCode (i.mb 8 6)) (i.mbit 5) (i.mbit 4)
      (exactMul (fopn i.ty.fmt (i.mbit 4) ops 0) (fopn i.ty.fmt (i.mbit 4) ops 1)))) ∧
  CompletesLanewise .ffma (fun i => [wordSrc i.f.a, wordSrc i.f.b, wordSrc i.f.c]) (fun i => fdst i.f.d)
    (fun i _ _ _ ops => fres (roundOp i.ty.fmt (Rnd.ofCode (i.mb 8 6)) (i.mbit 5) (i.mbit 4)
      (exactFma (Rnd.ofCode (i.mb 8 6)).isRd (fopn i.ty.fmt (i.mbit 4) ops 0) (fopn i.ty.fmt (i.mbit 4) ops 1) (fopn i.ty.fmt (i.mbit 4) ops 2)))) ∧
  CompletesLanewise .fmin (fun i => [wordSrc i.f.a, wordSrc i.f.b]) (fun i => fdst i.f.d)
    (fun i _ _ _ ops => fres (fpMinMax i.ty.fmt false (fopn i.ty.fmt (i.mbit 4) ops 0) (fopn i.ty.fmt (i.mbit 4) ops 1))) ∧
  CompletesLanewise .fmax (fun i => [wordSrc i.f.a, wordSrc i.f.b]) (fun i => fdst i.f.d)
    (fun i _ _ _ ops => fres (fpMinMax i.ty.fmt true (fopn i.ty.fmt (i.mbit 4) ops 0) (fopn i.ty.fmt (i.mbit 4) ops 1))) ∧
  (∀ k ∈ [(Op.rcp, Sfu.rcp), (.rsq, .rsq), (.sqrt, .sqrt), (.exp2, .exp2), (.log2, .log2), (.sin, .sin), (.cos, .cos), (.tanh, .tanh)],
    CompletesLanewise k.1 (fun i => [wordSrc i.f.a]) (fun i => fdst i.f.d)
      (fun i _ _ _ ops => fres (sfu k.2 i.ty.fmt (Rnd.ofCode (i.mb 8 6)) (i.mbit 4) (fopn i.ty.fmt (i.mbit 4) ops 0))))

/-- 05 R142 to R153: error-free transforms and expansion instructions. -/
def Obligations.ExpansionsComplete : Prop :=
  CompletesLanewise .tsum (fun i => [wordSrc i.f.a, wordSrc i.f.b]) (fun i => xdst i.f.d i.ty.fmt 2)
    (fun i _ _ _ ops => let r := tsum i.ty.fmt (fopn i.ty.fmt false ops 0) (fopn i.ty.fmt false ops 1); xres i.ty.fmt ([r.1, r.2.1], r.2.2)) ∧
  CompletesLanewise .tprod (fun i => [wordSrc i.f.a, wordSrc i.f.b]) (fun i => xdst i.f.d i.ty.fmt 2)
    (fun i _ _ _ ops => let r := tprod i.ty.fmt (fopn i.ty.fmt false ops 0) (fopn i.ty.fmt false ops 1); xres i.ty.fmt ([r.1, r.2.1], r.2.2)) ∧
  CompletesLanewise .fmae (fun i => [wordSrc i.f.a, wordSrc i.f.b, wordSrc i.f.c]) (fun i => xdst i.f.d i.ty.fmt 3)
    (fun i _ _ _ ops =>
      let r := fmae i.ty.fmt (fopn i.ty.fmt false ops 0) (fopn i.ty.fmt false ops 1) (fopn i.ty.fmt false ops 2)
      xres i.ty.fmt ([r.1, r.2.1, r.2.2.1], r.2.2.2)) ∧
  (∀ k ∈ [(Op.xadd, xadd), (.xmul, xmul)],
    CompletesLanewise k.1 (fun i => [xsrc i.f.a i.ty.fmt (comps i.ty), xsrc i.f.b i.ty.fmt (comps i.ty)]) (fun i => xdst i.f.d i.ty.fmt (comps i.ty))
      (fun i _ _ _ ops => xres i.ty.fmt (k.2 i.ty.fmt (xvals i.ty.fmt (xread i.ty.fmt (comps i.ty) (opn ops 0)))
        (xvals i.ty.fmt (xread i.ty.fmt (comps i.ty) (opn ops 1)))))) ∧
  CompletesLanewise .xrenorm (fun i => [xsrc i.f.a i.ty.fmt (comps i.ty)]) (fun i => xdst i.f.d i.ty.fmt (comps i.ty))
    (fun i _ _ _ ops => xres i.ty.fmt (xcomp i.ty.fmt (xvals i.ty.fmt (xread i.ty.fmt (comps i.ty) (opn ops 0))) (comps i.ty))) ∧
  CompletesLanewise .xcomp (fun i => [xsrc i.f.a i.ty.fmt (comps i.ty)]) (fun i => xdst i.f.d i.ty.fmt (i.mb 1 0) (i.mb 1 0 == 1))
    (fun i _ _ _ ops => xres i.ty.fmt (xcomp i.ty.fmt (xvals i.ty.fmt (xread i.ty.fmt (comps i.ty) (opn ops 0))) (i.mb 1 0))) ∧
  (∀ k ∈ [(Op.xneg, xneg), (.xabs, xabs)],
    CompletesLanewise k.1 (fun i => [xsrc i.f.a i.ty.fmt (comps i.ty)]) (fun i => xdst i.f.d i.ty.fmt (comps i.ty))
      (fun i _ _ _ ops => xres i.ty.fmt (k.2 i.ty.fmt (xread i.ty.fmt (comps i.ty) (opn ops 0))))) ∧
  CompletesLanewise .xhead (fun i => [xsrc i.f.a i.ty.fmt (comps i.ty)]) (fun i => xdst i.f.d i.ty.fmt 1 true)
    (fun i _ _ _ ops => xres i.ty.fmt (xhead i.ty.fmt (xread i.ty.fmt (comps i.ty) (opn ops 0)))) ∧
  CompletesLanewise .xsplit (fun i => [wordSrc i.f.a]) (fun i => xdst i.f.d .bf16 3)
    (fun _ _ _ _ ops => xres .bf16 (xsplit (fopn .f32 false ops 0))) ∧
  CompletesLanewise .xjoin (fun i => [xsrc i.f.a i.ty.fmt (comps i.ty)]) (fun i => fdst i.f.d)
    (fun i _ _ _ ops => fres (xjoin (if i.mbit 0 then .f32 else i.ty.fmt) (Rnd.ofCode (i.mb 8 6))
      (xvals i.ty.fmt (xread i.ty.fmt (comps i.ty) (opn ops 0)))))

/-- 06 R157 to R165: interval instructions. Where lanes make an empty interval, by IDIV by [0, 0], IMEET of disjoint intervals, ISQRT of one wholly
below zero or IMAKE.two with lo above hi, the instruction completes, sets the empty flag and, unless its launch masks that, parks its group. -/
def Obligations.IntervalsComplete : Prop :=
  (∀ k ∈ [(Op.iadd, iaddOf), (.isub, isubOf), (.imul, imulOf), (.idiv, idivOf), (.imeet, imeetOf)],
    CompletesLanewise k.1 (fun i => [xsrc i.f.a i.ty.fmt 2, xsrc i.f.b i.ty.fmt 2]) (fun i => xdst i.f.d i.ty.fmt 2)
      (fun i _ _ _ ops => ivRes i.ty.fmt (ivBin i.ty.fmt (ivOpn i.ty.fmt ops 0) (ivOpn i.ty.fmt ops 1) (k.2 i.ty.fmt)))) ∧
  CompletesLanewise .ifma (fun i => [xsrc i.f.a i.ty.fmt 2, xsrc i.f.b i.ty.fmt 2, xsrc i.f.c i.ty.fmt 2]) (fun i => xdst i.f.d i.ty.fmt 2)
    (fun i _ _ _ ops => ivRes i.ty.fmt (ifmaOf i.ty.fmt (ivOpn i.ty.fmt ops 0) (ivOpn i.ty.fmt ops 1) (ivOpn i.ty.fmt ops 2))) ∧
  CompletesLanewise .ihull (fun i => [xsrc i.f.a i.ty.fmt 2, xsrc i.f.b i.ty.fmt 2]) (fun i => xdst i.f.d i.ty.fmt 2)
    (fun i _ _ _ ops => ivRes i.ty.fmt (ihullOf i.ty.fmt (ivOpn i.ty.fmt ops 0) (ivOpn i.ty.fmt ops 1))) ∧
  CompletesLanewise .imake (fun i => [wordSrc i.f.a, wordSrc i.f.c]) (fun i => xdst i.f.d i.ty.fmt 2)
    (fun i _ _ _ ops => ivRes i.ty.fmt (imakeTwoOf i.ty.fmt (fopn i.ty.fmt false ops 0) (fopn i.ty.fmt false ops 1))) (fun i => i.mbit 0 = true) ∧
  CompletesLanewise .imake (fun i => [wordSrc i.f.a]) (fun i => xdst i.f.d i.ty.fmt 2)
    (fun i _ _ _ ops => ivRes i.ty.fmt (imakeOf i.ty.fmt (fopn i.ty.fmt false ops 0))) (fun i => i.mbit 0 = false) ∧
  (∀ k ∈ [(Op.ilo, (fun _ x => x.lo : Fmt → Iv → FpVal), fun f : Fmt => f.infCode.getD 0), (.ihi, fun _ x => x.hi, fun f => signed f true (f.infCode.getD 0)),
      (.imid, imidOf, Fmt.nanCode), (.iwid, iwidOf, Fmt.nanCode)],
    CompletesLanewise k.1 (fun i => [xsrc i.f.a i.ty.fmt 2]) (fun i => fdst i.f.d)
      (fun i _ _ _ ops => fres (match ivOpn i.ty.fmt ops 0 with | some x => boundCode i.ty.fmt (k.2.1 i.ty.fmt x) | none => k.2.2 i.ty.fmt, 0))) ∧
  (∀ k ∈ [(Op.ineg, (fun f x => (ivCodes f ⟨x.hi.negate, x.lo.negate⟩, 0) : Fmt → Iv → IvOut)), (.iabs, fun f x => (ivCodes f (iabsIv x), 0)),
      (.isqr, isqrOf), (.isqrt, isqrtIvOf)],
    CompletesLanewise k.1 (fun i => [xsrc i.f.a i.ty.fmt 2]) (fun i => xdst i.f.d i.ty.fmt 2)
      (fun i _ _ _ ops => ivRes i.ty.fmt (ivUn i.ty.fmt (ivOpn i.ty.fmt ops 0) (k.2 i.ty.fmt)))) ∧
  CompletesLanewise .ihalf (fun i => [xsrc i.f.a i.ty.fmt 2]) (fun i => xdst i.f.d i.ty.fmt 2)
    (fun i _ _ _ ops => ivRes i.ty.fmt (ivUn i.ty.fmt (ivOpn i.ty.fmt ops 0) (ihalfOf i.ty.fmt (i.mbit 0)))) ∧
  (∀ k ∈ [(Op.imeet, imeetOf, 1), (.idiv, idivOf, 4)],
    MakesEmpty k.1 (fun i => [xsrc i.f.a i.ty.fmt 2, xsrc i.f.b i.ty.fmt 2]) (fun i => xdst i.f.d i.ty.fmt 2)
      (fun i _ _ _ ops => ivRes i.ty.fmt (ivBin i.ty.fmt (ivOpn i.ty.fmt ops 0) (ivOpn i.ty.fmt ops 1) (k.2.1 i.ty.fmt))) k.2.2) ∧
  MakesEmpty .isqrt (fun i => [xsrc i.f.a i.ty.fmt 2]) (fun i => xdst i.f.d i.ty.fmt 2)
    (fun i _ _ _ ops => ivRes i.ty.fmt (ivUn i.ty.fmt (ivOpn i.ty.fmt ops 0) (isqrtIvOf i.ty.fmt))) 2 ∧
  MakesEmpty .imake (fun i => [wordSrc i.f.a, wordSrc i.f.c]) (fun i => xdst i.f.d i.ty.fmt 2)
    (fun i _ _ _ ops => ivRes i.ty.fmt (imakeTwoOf i.ty.fmt (fopn i.ty.fmt false ops 0) (fopn i.ty.fmt false ops 1))) 5 (fun i => i.mbit 0 = true)

/-! ### Control flow and the group (04 R104 to R110, R118 to R126; 01 R28) -/

/-- 04 R104, R105: a branch that is taken continues at its target; when some active lanes do not take it, they are left in m7 and the
others are active. A branch that no lane takes continues after it. -/
def Obligations.BranchesComplete : Prop :=
  (∀ o ∈ [Op.bra, .call, .bri, .calli, .ret],
    Completes o (fun _ i => i.f.g ≠ 0 ∧ i.lanes = 0 ∧ (o = .bri ∨ o = .calli → 112 ≤ i.f.a.toNat ∧ i.f.a.toNat < 124))
      (fun s i t => Leaves s i i.next i.ctx t)) ∧
  (∀ o ∈ [Op.bra, .call], ∀ div : Bool,
    Completes o (fun _ i => (i.f.g = 0 ∨ i.lanes ≠ 0) ∧ (o = .call → i.g.pendG 11 = false) ∧ div = decide (i.f.g ≠ 0 ∧ i.lanes ≠ i.ctx.am))
      (fun s i t =>
        let c := if div then { i.ctx.maskSet 7 (i.ctx.am &&& ~~~i.lanes) with am := i.lanes } else i.ctx
        Leaves s i (i.pc + BitVec.ofInt 56 (4 * i.f.off21.toInt)) (if o = .call then c.gSet 11 (i.next.setWidth 64) 0 else c) t)) ∧
  (∀ o ∈ [Op.bri, .calli, .ret], ∀ div : Bool,
    Completes o (fun _ i => (i.f.g = 0 ∨ i.lanes ≠ 0) ∧ (o = .calli → i.g.pendG 11 = false) ∧ div = decide (i.f.g ≠ 0 ∧ i.lanes ≠ i.ctx.am) ∧
        ReadyG i (if o = .ret then 123 else i.f.a) ∧ bits (valueG i (if o = .ret then 123 else i.f.a)) 63 56 = 0 ∧
        (valueG i (if o = .ret then 123 else i.f.a)).toNat % 4 = 0)
      (fun s i t =>
        let c := if div then { i.ctx.maskSet 7 (i.ctx.am &&& ~~~i.lanes) with am := i.lanes } else i.ctx
        Leaves s i ((valueG i (if o = .ret then 123 else i.f.a)).setWidth 56) (if o = .calli then c.gSet 11 (i.next.setWidth 64) 0 else c) t))

/-- 04 R107 to R109: EXIT takes the executing lanes out of LIVE and AM and, when no live lane is left, ends the group, which stops counting
toward its team; YIELD leaves its quarter without a current group.
04 R126: GRESUME continues a group parked by a fault, at its PC where the record is restartable or follows the instruction, and GRESUME.next
after the instruction; GKILL ends it. The status is 0. -/
def Obligations.EndAndResumeComplete : Prop :=
  (Completes .exit (fun _ i => i.lanes = 0 ∨ i.ctx.live &&& ~~~i.lanes ≠ 0)
     (fun s i t => Leaves s i i.next { i.ctx with live := i.ctx.live &&& ~~~i.lanes, am := i.ctx.am &&& ~~~i.lanes } t) ∧
   Completes .exit (fun _ i => i.lanes ≠ 0 ∧ i.ctx.live &&& ~~~i.lanes = 0)
     (fun s i t => (∃ g', t.group? i.gid = some g' ∧ g'.stat = .ended ∧ g'.ctx.live = 0 ∧ g'.ctx.am = 0) ∧
       (t.team i.g.team).members = (s.team i.g.team).members - (if i.g.spawned then 0 else 1) ∧ (∀ a, t.byteAt a = s.byteAt a)) ∧
   Completes .yield (fun _ _ => True)
     (fun s i t => (t.unit (unitOf i.gid)).current = none ∧ (∃ g', t.group? i.gid = some g' ∧ g'.ctx = { i.ctx with pc := i.next, via := viaOf i }) ∧
       (∀ j, j ≠ i.gid → t.group? j = s.group? j) ∧ ∀ a, t.byteAt a = s.byteAt a)) ∧
  (∀ o ∈ [Op.gresume, .gresumeNext, .gkill],
     Completes o (fun s i => Unguarded i ∧ ReadyG i i.f.a ∧ 112 ≤ i.f.d.toNat ∧ i.f.d.toNat < 124 ∧ i.g.pendG (gIndex i.f.d) = false ∧
         let w := valueG i i.f.a
         bits w 31 24 = s.chofer.package ∧ bits w 18 16 = dieOf i.gid ∧
         ∃ v x r, s.parkedBy (dieOf i.gid) w = some (v, x) ∧ v ≠ i.gid ∧ x.stat = .parkedFault ∧ x.fault = some r ∧
           (o = .gresume → r.restartable = true ∨ r.after = true) ∧ (o = .gresumeNext → r.length.isSome = true ∨ r.after = true))
       (fun s i t => (∃ g', t.group? i.gid = some g' ∧ g'.ctx.gGet (gIndex i.f.d) = 0 ∧ g'.ctx.pc = i.next) ∧
         ∀ v x r, s.parkedBy (dieOf i.gid) (valueG i i.f.a) = some (v, x) → x.fault = some r →
           ∃ y, t.group? v = some y ∧ y.fault = none ∧ (if o = .gkill then y.stat = .ended else y.stat = .ready ∧
             y.ctx.pc = if o = .gresumeNext ∧ r.after = false then x.ctx.pc + BitVec.ofNat 56 (r.length.getD 0) else x.ctx.pc)))

/-- 04 R118 to R121: TRAP enters its launch's handler at 64 times its number, keeping the return PC and AM; ERET returns. -/
def Obligations.TrapsComplete : Prop :=
  Completes .trap (fun _ i => i.lanes = 0) (fun s i t => Leaves s i i.next i.ctx t) ∧
  Completes .trap (fun _ i => i.lanes ≠ 0 ∧ i.ctx.inHandler = false ∧ i.l.handler ≠ 0)
    (fun s i t => Leaves s i (i.l.handler + BitVec.ofNat 56 (64 * i.mb 5 0))
      { i.ctx with inHandler := true, trapPc := i.next, trapAm := i.ctx.am, am := i.lanes } t) ∧
  Completes .trap (fun _ i => i.lanes ≠ 0 ∧ (i.ctx.inHandler = true ∨ i.l.handler = 0))
    (fun _ i t => ParkedBy t i.gid 0x11 (if i.ctx.inHandler then 0x100 + i.mb 5 0 else i.mb 5 0)) ∧
  Completes .eret (fun _ i => Unguarded i ∧ i.ctx.inHandler = true)
    (fun s i t => Leaves s i i.ctx.trapPc { i.ctx with inHandler := false, am := i.ctx.trapAm &&& i.ctx.live } t)

/-- 04 R118, R122 to R125; 01 R28: ICSYNC, SRD, SWR, WBASE and RLS. -/
def Obligations.SystemInstructionsComplete : Prop :=
  Completes .icsync (fun _ i => Unguarded i)
    (fun s i t => Leaves s i i.next i.ctx t ∧ ∃ g', t.group? i.gid = some g' ∧ g'.ibuf = []) ∧
  CompletesLanewise .srd (fun _ => []) (fun i => .reg i.f.d (if i.mb 5 0 = 0x0B then 2 else 1) (if i.mb 5 0 = 0x0B then 2 else 1) true false)
    (fun i s _ l _ => { words := (halves (BitVec.ofNat 64 (s.special i (i.mb 5 0) l))).take (if i.mb 5 0 = 0x0B then 2 else 1) })
    (fun i => (i.mb 5 0 = 0 → i.f.d.toNat < 112) ∧ (i.mb 5 0 = 0x0C → i.g.outst = [])) ∧
  Completes .swr (fun _ i => Unguarded i ∧ ReadyG i i.f.a ∧ i.mb 5 0 = 0x0C ∧ i.g.outst = [])
    (fun s i t => Leaves s i i.next { i.ctx with fpsr := (valueG i i.f.a).setWidth 6 } t) ∧
  Completes .wbase (fun _ i => Unguarded i ∧ i.mbit 13 = false) (fun s i t => Leaves s i i.next { i.ctx with wbase := i.mb 8 0 } t) ∧
  Completes .wbase (fun _ i => Unguarded i ∧ i.mbit 13 = true ∧ ReadyG i i.f.a ∧ (valueG i i.f.a).toNat % 16 = 0 ∧ (valueG i i.f.a).toNat ≤ 400)
    (fun s i t => Leaves s i i.next { i.ctx with wbase := (valueG i i.f.a).toNat } t) ∧
  Completes .rls (fun _ i => Unguarded i ∧ i.f.a.toNat < 112 ∧ i.ctx.wbase + i.f.a.toNat + i.mb 6 0 < i.l.regs + 1 ∧ i.f.a.toNat + i.mb 6 0 ≤ 111)
    (fun s i t => Leaves s i i.next (((List.range (i.mb 6 0 + 1)).map (i.ctx.wbase + i.f.a.toNat + ·)).foldl Ctx.clearName i.ctx) t)

/-! ### Masks, votes and shuffles (04 R111 to R113) -/

/-- 04 R111 (Table 4.5): MAND, MOR, MNOT and MSET write a mask register; MACT makes the lanes of a mask that are live active. -/
def Obligations.MaskInstructionsComplete : Prop :=
  Completes .mand (fun _ i => Unguarded i)
    (fun s i t => Leaves s i i.next (i.ctx.maskSet (i.mb 13 10) (maskSel i (i.mb 9 6) &&& maskSel i (i.mb 5 2))) t) ∧
  Completes .mor (fun _ i => Unguarded i)
    (fun s i t => Leaves s i i.next (i.ctx.maskSet (i.mb 13 10) (maskSel i (i.mb 9 6) ||| maskSel i (i.mb 5 2))) t) ∧
  Completes .mnot (fun _ i => Unguarded i)
    (fun s i t => Leaves s i i.next (i.ctx.maskSet (i.mb 13 10) (onesMask i.width &&& ~~~maskSel i (i.mb 9 6))) t) ∧
  Completes .mact (fun _ i => Unguarded i)
    (fun s i t => Leaves s i i.next { i.ctx with am := maskSel i (i.mb 9 6) &&& i.ctx.live } t) ∧
  Completes .mset (fun _ i => Unguarded i ∧ i.mbit 9 = false)
    (fun s i t => Leaves s i i.next (i.ctx.maskSet (i.mb 13 10)
      (maskOf ((lanesOf i.width i.ctx.am).filter fun l => modeHolds (i.mb 4 3) (s.readPred i.g (i.mb 7 5) l)))) t) ∧
  Completes .mset (fun _ i => Unguarded i ∧ i.mbit 9 = true ∧ i.f.a.toNat < 124 ∧ srcFaults i (wordSrc i.f.a) = [] ∧
      poisonFaults i (lanesOf i.width i.ctx.am) [wordSrc i.f.a] = [])
    (fun s i t => Leaves s i i.next ((freedNames i [wordSrc i.f.a]).foldl Ctx.clearName (i.ctx.maskSet (i.mb 13 10)
      (maskOf ((lanesOf i.width i.ctx.am).filter fun l =>
        (s.readSrc i 0 0 l (wordSrc i.f.a)).getD 0 0 ≠ 0 ∧ srcPoison i l (wordSrc i.f.a) = 0)))) t)

/-- 04 R111 to R113: MRD reads 32 bits of a mask into the active lanes; VOTE writes its answer to a predicate in every lane of the group;
SHFL gives each executing lane the source of the lane it selects. -/
def Obligations.CrossLaneInstructionsComplete : Prop :=
  CompletesLanewise .mrd (fun _ => []) (fun i => .reg i.f.d 1 1 true false)
    (fun i _ _ _ _ => { words := [(maskSel i (i.mb 9 6)).extractLsb' (32 * i.mb 1 0) 32] }) (fun i => Unguarded i ∧ i.lanes = i.ctx.am) ∧
  Completes .vote (fun _ i => Unguarded i ∧ i.width ≤ 128)
    (fun s i t => (∃ g', t.group? i.gid = some g' ∧ g'.ctx.pc = i.next ∧ ∀ l < i.width, i.mb 2 0 ≠ 0 → i.g.pendP (i.mb 2 0) l = false →
        let u := lanesOf i.width (maskSel i (i.mb 13 10) &&& i.ctx.am)
        g'.ctx.predGet (i.mb 2 0) l = predOf (voteOf (i.mb 9 8)
          (u.filter fun k => modeHolds (i.mb 4 3) (s.readPred i.g (i.mb 7 5) k)).length u.length)) ∧ Kept s t) ∧
  Completes .shfl (fun s i => i.f.d.toNat < 112 ∧ i.f.a.toNat < 112 ∧ (i.mbit 7 = false → i.f.b.toNat < 124) ∧
      let n := if i.mbit 8 then 2 else 1
      let a : Src := { fld := i.f.a, n := n, al := n }
      let xs := if i.mbit 7 then [] else [wordSrc i.f.b]
      LaneReady s i (a :: xs) (.reg i.f.d n n true false) 0 s ∧ ∀ l < 128, srcPoison i l a = 0)
    (fun s i t =>
      let n := if i.mbit 8 then 2 else 1
      let a : Src := { fld := i.f.a, n := n, al := n }
      let xs := if i.mbit 7 then [] else [wordSrc i.f.b]
      let by_ := fun l => if i.mbit 7 then (if i.mb 13 12 = 2 then i.f.c.signExtend 32 else i.f.c.setWidth 32)
        else (s.readSrc i 1 0 l (wordSrc i.f.b)).getD 0 0
      LaneEffect s i (a :: xs) (.reg i.f.d n n true false)
        (fun l => { words := s.readSrc i 0 0 ((shflLane (i.mb 13 12) (shflSegment i.width (i.mb 11 9)) (by_ l) l).getD l) a }) t)

/-! ### Memory (08 R205 to R222; 06 R166, R167) -/

/-- 08 R211, R230; 06 R167: a load whose operands are ready, whose addresses are aligned and translate and whose data need not be asked for writes
what the read of each lane's address gives, as its type says; .acq acquires at its scope first. An ILD some of whose pairs are read as empty sets
the empty flag once it has completed, and parks its group unless its launch masks that, with the lowest address among those lanes (06 R159).
10 R276; 17 R420, R427: one that must ask for data of another agent waits, in the state in which it has asked, and changes no register. -/
def Obligations.LoadsComplete : Prop :=
  (∀ o ∈ [Op.ld, .ild], ∀ s2 : State,
    Completes o (fun s i => i.g.acquiring = false ∧
        let srcs := memSrcs i
        let d := loadDst i
        let lanes := i.compute d
        let xs := accessesOf s i srcs lanes
        let s1 := s.useRanges (coreOf i.gid) (foundAt (xs.map (s.locate i .read)))
        let rd := s2.readAll (i.who s) (foundAt (xs.map (s.locate i .read)))
        queueSource srcs = none ∧ memFaults s i lanes srcs d = [] ∧ alignFaults 1 (memWidth i.ty) xs = [] ∧
        (∀ x ∈ xs, ∃ l, s.locate i .read x = .at_ l) ∧
        s1.askAll (i.who s) .read ((foundAt (xs.map (s.locate i .read))).map fun l => (l, .read)) = none ∧
        (if i.mb 5 4 = 1 then s1.acquireOr i.gid i.g (i.mb 8 6) else .ok s1) = .ok s2 ∧ s.hits i false xs = [] ∧ linkFaults rd.2 = [] ∧
        (lanes ≠ [] → (rd.1.setGroup i.gid (i.g.free (freedNames i srcs))).admits i.gid (i.g.free (freedNames i srcs))
          (((i.g.free (freedNames i srcs)).needs (dstNames i d)).length * (i.width / 32)) = true))
      (fun s i t =>
        let srcs := memSrcs i
        let d := loadDst i
        let xs := accessesOf s i srcs (i.compute d)
        let ls := foundAt (xs.map (s.locate i .read))
        let rd := s2.readAll (i.who s) ls
        let made := rd.2.filter fun x => (loadRes i.ty x.1.x x.2.1 x.2.2).made ≠ 0
        ∃ g', t.group? i.gid = some g' ∧ g'.ctx.am = i.ctx.am ∧
          (∀ x ∈ rd.2, holdsLane i d x.1.x.lane (loadRes i.ty x.1.x x.2.1 x.2.2) g'.ctx) ∧
          (made ≠ [] → (g'.ctx.fpsr ||| flagsOf g'.outst).getLsbD 5 = true) ∧
          if made = [] ∨ i.l.emptyMask = true then g'.ctx.pc = i.next
          else g'.ctx.pc = i.pc ∧ ParkedBy t i.gid 9 3 ∧ ∃ r, g'.fault = some r ∧
            r.words.getD 4 0 = (maskOf (made.map (·.1.x.lane))).extractLsb' 0 64 ∧
            r.words.getD 6 0 = BitVec.ofNat 64 ((leastOf (made.map (·.1.x.va))).getD 0 % 2 ^ 56))) ∧
  (∀ o ∈ [Op.ld, .ild], ∀ (s2 : State) (ls : List Located),
    Completes o (fun s i => i.g.acquiring = false ∧
        let srcs := memSrcs i
        let d := loadDst i
        let xs := accessesOf s i srcs (i.compute d)
        queueSource srcs = none ∧ memFaults s i (i.compute d) srcs d = [] ∧ alignFaults 1 (memWidth i.ty) xs = [] ∧
        (∀ x ∈ xs, ∃ l, s.locate i .read x = .at_ l) ∧ ls = foundAt (xs.map (s.locate i .read)) ∧
        (s.useRanges (coreOf i.gid) ls).askAll (i.who s) .read (ls.map fun l => (l, .read)) = some s2)
      (fun _ i t => Waits s2 i (askedWait ls .read) t))

/-- 08 R211, R228, R233; 15 R376: a store whose operands are ready and whose addresses are aligned and translate, with nothing to ask for, performs
its lanes' writes in ascending order, each by the model's write of one lane, and at .die or wider then writes stash sectors back (log 23); one with
.rel, or to a doorbell, once its release has taken effect. It changes nothing else but its group's PC and the names its last-read bits free.
17 R420, R421: host sectors that its lanes cover whole and that the home slice does not own go out as one message each; one lane of host memory is
written in the home slice, which then holds the sector modified.
17 R420, R427: a store that must ask for data of another agent waits, its release having taken effect, in the state in which it has asked; asking the
host for a sector sends RdShared or RdOwn to it once; asking another package sends a request for the bytes on the port of its route. -/
def Obligations.StoresComplete : Prop :=
  (∀ o ∈ [Op.st, .ist], ∀ (s2 : State) (g2 : Group),
    Completes o (fun s i => i.g.acquiring = false ∧
        let srcs := memSrcs i ++ [storeSrc i]
        let w := i.who s
        let xs := accessesOf s i srcs i.list
        let ls := foundAt (xs.map (s.locate i .write))
        let data := s.storeData i srcs
        let way := s2.laneKind w (s2.wholeSectors (ls.map fun l => (l, data l.x.lane))) ls
        queueSource srcs = none ∧ memFaults s i i.list srcs .none = [] ∧ alignFaults 1 (memWidth i.ty) xs = [] ∧
        (∀ x ∈ xs, ∃ l, s.locate i .write x = .at_ l) ∧ s.hits i true xs = [] ∧
        (s.useRanges (coreOf i.gid) ls).storeRelease i ls = .ok (s2, g2) ∧
        s2.askStore w way (fun _ => false) (fun l => BitVec.ofNat 64 (data l.x.lane)) ls = none)
      (fun s i t =>
        let srcs := memSrcs i ++ [storeSrc i]
        let w := i.who s
        let ls := foundAt ((accessesOf s i srcs i.list).map (s.locate i .write))
        let data := s.storeData i srcs
        let whole := s2.wholeSectors (ls.map fun l => (l, data l.x.lane))
        let s3 := ls.foldl (fun st l => st.storeLane w (s2.laneKind w whole ls) (fun _ => false) l (data l.x.lane)) s2
        let s4 := if 3 ≤ i.mb 8 6 then ls.foldl (fun st l => st.pushSector w l) s3 else s3
        Leaves (s4.sendWhole w whole) i i.next ((freedNames i srcs).foldl Ctx.clearName i.ctx) t)) ∧
  (∀ o ∈ [Op.st, .ist], ∀ (s2 s3 : State) (g2 : Group) (ls : List Located),
    Completes o (fun s i => i.g.acquiring = false ∧
        let srcs := memSrcs i ++ [storeSrc i]
        let w := i.who s
        let xs := accessesOf s i srcs i.list
        let data := s.storeData i srcs
        let way := s2.laneKind w (s2.wholeSectors (ls.map fun l => (l, data l.x.lane))) ls
        queueSource srcs = none ∧ memFaults s i i.list srcs .none = [] ∧ alignFaults 1 (memWidth i.ty) xs = [] ∧
        (∀ x ∈ xs, ∃ l, s.locate i .write x = .at_ l) ∧ s.hits i true xs = [] ∧ ls = foundAt (xs.map (s.locate i .write)) ∧
        (s.useRanges (coreOf i.gid) ls).storeRelease i ls = .ok (s2, g2) ∧
        s2.askStore w way (fun _ => false) (fun l => BitVec.ofNat 64 (data l.x.lane)) ls = some s3)
      (fun _ i t => Waits s3 i (askedWait ls .write) t)) ∧
  (∀ (s : State) (w : Who) (k : Kind) (h : Nat),
    (s.sendHost w k h).host.sent = s.host.sent ++ (if h / 64 ∈ s.host.asked then [] else [if k = .read then HostMsg.rdShared (h / 64) else .rdOwn (h / 64)]) ∧
    h / 64 ∈ (s.sendHost w k h).host.asked ∧ (s.linked (dieOf w.gid) (homeDie h) = true → ∀ n v bad, (s.writeHost w h n v bad).mesi h = .m)) ∧
  (∀ (s : State) (w : Who) (enc : Bool) (pkg t n key p : Nat) (op : SliceOp), s.reply w.who key = none → s.route pkg = some p →
    s.asking w.who key = false → s.overlapping w.who pkg t n = false → (w.ctx = 0 ∨ s.holdsKey w.ctx w.part = true) →
    ∃ s1 f r, s.askWord w enc pkg t n key op = some s1 ∧ (s1.port p).sent = (s.port p).sent ++ [f] ∧ f.kind = 1 ∧ f.dst = pkg ∧
      f.body = .request r ∧ r.target = t ∧ r.bytes = n ∧ r.op = op ∧ s1.asking w.who key = true)

/-- 08 R205, R233: the read-after-write law of a team's scratchpad: a write of n bytes at a key of it is what each of them then reads as, and every
other byte of the scratchpad reads as before. -/
def Obligations.ScratchpadStoreFrame : Prop :=
  ∀ (t : Team) (key n v now : Nat) (bad : Bool) (unit : Option Nat) (a : Nat),
    (t.writeScratch key n v now bad unit).scratchByte a =
      if key ≤ a ∧ a < key + n then BitVec.ofNat 8 (v >>> (8 * (a - key))) else t.scratchByte a

/-- 14 R343, R347; 00 R4: a write of n bytes at a slice is what the slice then answers there, least significant byte first, and every other
byte reads as before. -/
def Obligations.MemoryReadAfterWrite : Prop :=
  ∀ (s : State) (t n v : Nat) (bad : Bool) (a : Nat),
    (s.writeMem t n v bad).byteAt a = if t ≤ a ∧ a < t + n then BitVec.ofNat 8 (v >>> (8 * (a - t))) else s.byteAt a

/-! ### Matrix units and tensors (09 R239 to R270) -/

/-- 09 R240, R241, R253, R256: MRES takes a free unit that its team held last, or says that another team has it; MREL frees it; MWAIT and
MFENCE go on when their condition holds. -/
def Obligations.UnitReservationsComplete : Prop :=
  Completes .mres (fun s i => Unguarded i ∧ i.width ≤ 128 ∧
      ((s.unit (unitOf i.gid)).holder = some i.g.team ∨ ((s.unit (unitOf i.gid)).holder = none ∧ (s.unit (unitOf i.gid)).clearing = none ∧
        (s.unit (unitOf i.gid)).lastHolder = some i.g.team) ∨ ((s.unit (unitOf i.gid)).holder.isSome = true ∧ i.mbit 3 = false)))
    (fun s i t =>
      let got := decide ((s.unit (unitOf i.gid)).holder = some i.g.team ∨ (s.unit (unitOf i.gid)).holder = none)
      (got = true → (t.unit (unitOf i.gid)).holder = some i.g.team) ∧
      ∃ g', t.group? i.gid = some g' ∧ g'.ctx.pc = i.next ∧
        ∀ l < i.width, i.mb 2 0 ≠ 0 → i.g.pendP (i.mb 2 0) l = false → g'.ctx.predGet (i.mb 2 0) l = if got then 1 else 0) ∧
  Completes .mrel (fun s i => Unguarded i ∧ (s.unit (unitOf i.gid)).holder = some i.g.team ∧
      (s.unit (unitOf i.gid)).ops.all (fun o => o.team ≠ i.g.team))
    (fun _ i t => (t.unit (unitOf i.gid)).holder = none ∧ (t.unit (unitOf i.gid)).q0 = [] ∧ (t.unit (unitOf i.gid)).q1 = [] ∧
      ∃ g', t.group? i.gid = some g' ∧ g'.ctx = { i.ctx with pc := i.next, via := viaOf i }) ∧
  Completes .mwait (fun s i => Unguarded i ∧ ((s.unit (unitOf i.gid)).ops.filter fun o => o.gid = i.gid).length ≤ i.mb 5 0)
    (fun s i t => Leaves s i i.next i.ctx t) ∧
  Completes .mfence (fun s i => Unguarded i ∧ s.storing i.gid = false)
    (fun s i t => Leaves s i i.next i.ctx t ∧ ∃ g', t.group? i.gid = some g' ∧ g'.fenced = s.clock)

/-- 09 R244 to R257: MMA, MZERO, MLDA, MSTA and MLDB with legal operands enter their operation, with the values they read, in the queue of a
unit that their team holds and that has room.
09 R266, R267: MDRAIN with a double-buffered weight of 10, 12 or 17 as its type, without a momentum or with one that is double-buffered, of type 10 and
of the weight's extents, whose elements translate, enters its operation. A weight that is single-buffered or of another type parks the group, class 0x0B,
code 0x0002. -/
def Obligations.MatrixOperationsQueue : Prop :=
  (Completes .mma (fun s i =>
       let form := formOf i.f
       let fromQ := i.f.a == 125
       let nb := if form.mx then 2 else 1
       let gs := (if fromQ then [] else gNames i.f.a 3) ++ gNames i.f.b nb
       let args := (if fromQ then [0, 0, 0] else s.readGs i 0 i.f.a 3) ++ s.readGs i 1 i.f.b nb
       let m := Mma.ofArgs i.f args
       Unguarded i ∧ (fromQ = false → mxReg i.f.a 9 = []) ∧ mxReg i.f.b (if form.mx then 10 else 11) = [] ∧
       ¬(i.mbit 8 = true ∧ bitsOf i.f.c.toNat 4 0 = bitsOf i.f.d.toNat 4 0) ∧ gPoisonFaults i gs = [] ∧
       m.formatCodes (s.scratchSize i.g.team) = [] ∧ TakesOp s i m.occupancy ∧
       (fromQ = true → 64 * m.passes ≤ (s.unit (unitOf i.gid)).q1.length))
     (fun s i t =>
       let form := formOf i.f
       let fromQ := i.f.a == 125
       let nb := if form.mx then 2 else 1
       let gs := (if fromQ then [] else gNames i.f.a 3) ++ gNames i.f.b nb
       let args := (if fromQ then [0, 0, 0] else s.readGs i 0 i.f.a 3) ++ s.readGs i 1 i.f.b nb
       let m := Mma.ofArgs i.f args
       let need := if fromQ then 64 * m.passes else 0
       Queues s i { newOp i s m.occupancy args gs with
         words := ((s.unit (unitOf i.gid)).q1.take need),
         codes := (if form.a.isNone then (s.team i.g.team).code (s.ownSide i.gid i.g.team) (i.mb 7 6) else []) } t ∧
       (t.unit (unitOf i.gid)).q1 = (s.unit (unitOf i.gid)).q1.drop need) ∧
   Completes .mzero (fun s i => Unguarded i ∧ TakesOp s i (i.mb 4 0 + 1)) (fun s i t => Queues s i (newOp i s (i.mb 4 0 + 1) [] []) t) ∧
   Completes .mlda (fun s i => Unguarded i ∧ ReadyG i i.f.a ∧ (localWord (valueG i i.f.a) 12288 (s.scratchSize i.g.team)).isSome = true ∧ TakesOp s i 48)
     (fun s i t => Queues s i (newOp i s 48 [valueG i i.f.a] [gIndex i.f.a]) t) ∧
   (∀ n occ : Nat, Completes .msta (fun s i => Unguarded i ∧ ReadyG i i.f.a ∧ (n, occ) = (if i.f.tyCode i.o = 10 then (12288, 48) else (6144, 24)) ∧
       (localWord (valueG i i.f.a) n (s.scratchSize i.g.team)).isSome = true ∧ TakesOp s i occ)
     (fun s i t => Queues s i (newOp i s occ [valueG i i.f.a] [gIndex i.f.a]) t)) ∧
   (∀ n : Nat, Completes .mldb (fun s i => Unguarded i ∧ ReadyG i i.f.a ∧ ReadyG i i.f.c ∧ n = bits (valueG i i.f.c) 52 32 ∧
       (localWord (valueG i i.f.a) n (s.scratchSize i.g.team)).isSome = true ∧ bits (valueG i i.f.c) 63 53 = 0 ∧ bits (valueG i i.f.c) 31 22 = 0 ∧
       n % 256 = 0 ∧ 0 < n ∧ n ≤ 0x100000 ∧ bits (valueG i i.f.c) 21 0 % 256 = 0 ∧ bits (valueG i i.f.c) 21 0 + n ≤ 2 ^ 22 ∧ TakesOp s i (n / 256))
     (fun s i t => Queues s i (newOp i s (n / 256) [valueG i i.f.a, valueG i i.f.c] [gIndex i.f.a, gIndex i.f.c]) t))) ∧
  (∀ w m : List W64, Completes .mdrain (fun s i =>
       let args := s.readGs i 0 i.f.a 3
       let d := Drain.ofArgs i.f args
       let at_ := fun (a : Acc) (x : Nat × Nat) => ∃ p e, s.xlat i.gid i.g a x.2 x.1 = .ok p e
       Unguarded i ∧ mxReg i.f.a 9 = [] ∧ gPoisonFaults i (gNames i.f.a 3) = [] ∧ ¬(d.res = true ∧ d.c = d.d) ∧
       (if d.sgdm then (s.team i.g.team).tensor (s.ownSide i.gid i.g.team) d.mid = some m ∧ Tensor.ty m = 10 ∧ Tensor.double m = true ∧
         Tensor.dims m = Tensor.dims w else m = []) ∧
       (s.team i.g.team).tensor (s.ownSide i.gid i.g.team) d.id = some w ∧ Tensor.double w = true ∧
       (Tensor.ty w = 10 ∨ Tensor.ty w = 17 ∨ Tensor.ty w = 12) ∧ (d.sr = true → Tensor.ty w = 12) ∧
       drainResv i.f (args.getD 2 0) = true ∧ TakesOp s i (if d.res then 96 else 48) ∧
       ∀ e ∈ d.elements w, (∀ x ∈ d.writes w m e.2, at_ .write x) ∧ ∀ x ∈ d.reads w m e.2, at_ .read x)
     (fun s i t =>
       let args := s.readGs i 0 i.f.a 3
       let d := Drain.ofArgs i.f args
       ∃ op, (t.unit (unitOf i.gid)).ops = (s.unit (unitOf i.gid)).ops ++ [op] ∧ op.o = .mdrain ∧ op.args = args ∧ op.gid = i.gid ∧
         op.team = i.g.team ∧ op.weight = some (d.id, w) ∧ op.momentum = (if d.sgdm then some (d.mid, m) else none) ∧
         ∃ g', t.group? i.gid = some g' ∧ g'.ctx = { i.ctx with pc := i.next, via := viaOf i })) ∧
  (∀ w : List W64, Completes .mdrain (fun s i =>
       let d := Drain.ofArgs i.f (s.readGs i 0 i.f.a 3)
       Unguarded i ∧ mxReg i.f.a 9 = [] ∧ gPoisonFaults i (gNames i.f.a 3) = [] ∧ ¬(d.res = true ∧ d.c = d.d) ∧ d.sgdm = false ∧
       (s.team i.g.team).tensor (s.ownSide i.gid i.g.team) d.id = some w ∧
       ¬(Tensor.double w = true ∧ (Tensor.ty w = 10 ∨ Tensor.ty w = 17 ∨ Tensor.ty w = 12)))
     (fun _ i t => ParkedBy t i.gid 0xB 2 ∧ ∃ g', t.group? i.gid = some g' ∧ g'.ctx = { i.ctx with fpsr := i.ctx.fpsr ||| flagsOf i.g.outst }))

/-- 09 R262 to R265, R270: TDEF binds a legal descriptor to a free id; TDEF.commit flips it; TKILL unbinds it; TINFO reads a dword of it; CTWR
writes a code table. TDEF, TDEF.commit and TKILL with .team act so on both sides of a paired team. -/
def Obligations.TensorInstructionsComplete : Prop :=
  (∀ va ws s1, Completes .tdef (fun s i => i.g.acquiring = false ∧ Unguarded i ∧ NamesG i i.f.d ∧ ReadyG i i.f.a ∧
      va = (valueG i i.f.a).toNat % 2 ^ 56 ∧ va % 64 = 0 ∧ ImageReady s i 8 va ws s1 ∧ i.mbit 13 = false ∧
      ((s1.team i.g.team).tensor (s1.ownSide i.gid i.g.team) (i.mb 11 5)) = none ∧ 2 ≤ Tensor.ty ws ∧ Tensor.ty ws ≤ 17 ∧
      Tensor.resvOk ws = true ∧ Tensor.alignOk ws = true ∧ Tensor.geometryOk ws = true ∧ Tensor.flagsOk ws = true ∧ s1.entriesOn (coreOf i.gid) < 128)
    (fun _ i t => (t.team i.g.team).tensor (s1.ownSide i.gid i.g.team) (i.mb 11 5) = some ws ∧
      ∃ g', t.group? i.gid = some g' ∧ g'.ctx.pc = i.next ∧ g'.ctx.gGet (gIndex i.f.d) = 0)) ∧
  (∀ va ws s1, Completes .tdef (fun s i => i.g.acquiring = false ∧ Unguarded i ∧ NamesG i i.f.d ∧ ReadyG i i.f.a ∧
      va = (valueG i i.f.a).toNat % 2 ^ 56 ∧ va % 64 = 0 ∧ ImageReady s i 8 va ws s1 ∧ i.mbit 13 = true ∧ (s1.team i.g.team).paired = true ∧
      (∀ side < 2, (s1.team i.g.team).tensor side (i.mb 11 5) = none) ∧ 2 ≤ Tensor.ty ws ∧ Tensor.ty ws ≤ 17 ∧
      Tensor.resvOk ws = true ∧ Tensor.alignOk ws = true ∧ Tensor.geometryOk ws = true ∧ Tensor.flagsOk ws = true ∧
      ∀ side < 2, s1.entriesOn (coreOf i.gid / 2 * 2 + side) < 128)
    (fun _ i t => (∀ side < 2, (t.team i.g.team).tensor side (i.mb 11 5) = some ws) ∧
      ∃ g', t.group? i.gid = some g' ∧ g'.ctx.pc = i.next ∧ g'.ctx.gGet (gIndex i.f.d) = 0)) ∧
  (∀ w v : List W64, Completes .tdefCommit (fun s i => Unguarded i ∧ NamesG i i.f.d ∧ gIndex i.f.d ≤ 11 ∧ ReadyG i i.f.a ∧ i.mbit 13 = true ∧
      (s.team i.g.team).paired = true ∧ namedWait i s true true false (i.mb 11 5) = false ∧ (s.team i.g.team).tensor 0 (i.mb 11 5) = some w ∧
      (s.team i.g.team).tensor 1 (i.mb 11 5) = some v ∧ (valueG i i.f.a).getLsbD 0 = true)
    (fun s i t => (t.team i.g.team).tensor 0 (i.mb 11 5) = some (flipped w) ∧ (t.team i.g.team).tensor 1 (i.mb 11 5) = some (flipped v) ∧
      ∃ g', t.group? i.gid = some g' ∧ g'.ctx.pc = i.next ∧
        g'.ctx.gGet (gIndex i.f.d) = (flipped (if s.ownSide i.gid i.g.team = 0 then w else v)).getD 7 0)) ∧
  Completes .tkill (fun s i => Unguarded i ∧ i.mbit 13 = true ∧ (s.team i.g.team).paired = true ∧ namedWait i s true true true (i.mb 11 5) = false)
    (fun _ i t => (∀ side < 2, (t.team i.g.team).tensor side (i.mb 11 5) = none) ∧
      ∃ g', t.group? i.gid = some g' ∧ g'.ctx = { i.ctx with pc := i.next, via := viaOf i }) ∧
  (∀ w, Completes .tdefCommit (fun s i => Unguarded i ∧ NamesG i i.f.d ∧ gIndex i.f.d ≤ 11 ∧ ReadyG i i.f.a ∧ i.mbit 13 = false ∧
      namedWait i s false true false (i.mb 11 5) = false ∧ (s.team i.g.team).tensor (s.ownSide i.gid i.g.team) (i.mb 11 5) = some w ∧
      (valueG i i.f.a).getLsbD 0 = true)
    (fun s i t => (t.team i.g.team).tensor (s.ownSide i.gid i.g.team) (i.mb 11 5) = some (flipped w) ∧
      ∃ g', t.group? i.gid = some g' ∧ g'.ctx.pc = i.next ∧ g'.ctx.gGet (gIndex i.f.d) = (flipped w).getD 7 0)) ∧
  Completes .tkill (fun s i => Unguarded i ∧ i.mbit 13 = false ∧ namedWait i s false true true (i.mb 11 5) = false)
    (fun s i t => (t.team i.g.team).tensor (s.ownSide i.gid i.g.team) (i.mb 11 5) = none ∧
      ∃ g', t.group? i.gid = some g' ∧ g'.ctx = { i.ctx with pc := i.next, via := viaOf i }) ∧
  (∀ w, Completes .tinfo (fun s i => Unguarded i ∧ NamesG i i.f.d ∧ (s.team i.g.team).tensor (s.ownSide i.gid i.g.team) (i.mb 11 5) = some w)
    (fun s i t => GivesG s i (w.getD (i.mb 2 0) 0) t)) ∧
  Completes .ctwr (fun _ i => Unguarded i ∧ mxReg i.f.a 8 = [] ∧ gPoisonFaults i (gNames i.f.a 4) = [] ∧
      (gNames i.f.a 4).all (fun n => !i.g.pendG n) = true)
    (fun s i t => (∀ e < 16, tget 0 (t.team i.g.team).codes (64 * s.ownSide i.gid i.g.team + 16 * i.mb 1 0 + e) =
        (i.ctx.gGet (gIndex i.f.a + e / 4)).extractLsb' (16 * (e % 4)) 16) ∧
      ∃ g', t.group? i.gid = some g' ∧ g'.ctx = { i.ctx with pc := i.next, via := viaOf i })

/-! ### Order, barriers, waits, atomics, children (04 R114 to R117; 06 R168 to R170; 08 R213 to R225) -/

/-- 08 R219, R221, R224, R225: FENCE whose release and acquire have taken effect, and IFENCE whose release has, go on and change nothing more; a BAR of
a group placed at its team's start, released at .team, counts an arrival, or in a paired team sends it to the barrier unit (13 R331), and, but for
BAR.pass, waits for the phase to end, and with S = 1 then for its results. That the release of an IFENCE is never narrower than .die is the model's choice (log 9). -/
def Obligations.FencesAndBarriersComplete : Prop :=
  (∀ s1 s2, Completes .fence (fun s i => i.g.acquiring = false ∧ s.storing i.gid = false ∧
      (if i.mb 5 4 ≠ 1 then s.releaseOr i.gid i.g (i.mb 8 6) else .ok s) = .ok s1 ∧
      (if i.mb 5 4 ≠ 2 then s1.acquireClean i.gid i.g (i.mb 8 6) else .ok s1) = .ok s2)
    (fun _ i t => Leaves s2 i i.next i.ctx t)) ∧
  (∀ s1, Completes .ifence (fun s i => i.g.acquiring = false ∧ s.storing i.gid = false ∧ s.releaseOr i.gid i.g (max 3 (i.mb 8 6)) = .ok s1)
    (fun _ i t => Leaves s1 i i.next i.ctx t)) ∧
  (∀ o ∈ [Op.bar, .barPass], ∀ s1 : State,
    Completes o (fun s i => i.g.acquiring = false ∧ Unguarded i ∧ i.g.spawned = false ∧ s.releaseOr i.gid i.g 1 = .ok s1)
      (fun _ i t =>
        let m := s1.team i.g.team
        (if m.paired then t.team i.g.team = m ∧
            (t.cluster (clusterOf i.gid)).arrivals = (s1.cluster (clusterOf i.gid)).arrivals ++ [(i.gid, i.g.team, i.mb 11 10, decide (o = .bar))]
          else t.team i.g.team = m.arrive (i.mb 11 10)) ∧
        ∃ g', t.group? i.gid = some g' ∧ g'.ctx = { i.ctx with pc := i.next, via := viaOf i } ∧
          (o = .bar → g'.stat = .waiting (if m.paired then .arriving (i.mb 11 10) i.pc (i.f.s && !i.g.outst.isEmpty)
            else .barrier (i.mb 11 10) (tget false m.parity (i.mb 11 10)) i.pc (i.f.s && !i.g.outst.isEmpty)))))

/-- 08 R225: a barrier phase completes when its arrivals reach the groups placed at start that have not ended: the count becomes 0 and the
parity flips; before that it counts. -/
def Obligations.BarrierPhase : Prop :=
  ∀ (t : Team) (id : Nat), 0 < t.members →
    let u := t.arrive id
    (tget 0 t.arrivals id + 1 < t.members → tget 0 u.arrivals id = tget 0 t.arrivals id + 1 ∧ tget false u.parity id = tget false t.parity id) ∧
    (t.members ≤ tget 0 t.arrivals id + 1 → tget 0 u.arrivals id = 0 ∧ tget false u.parity id = !tget false t.parity id) ∧
    ∀ j, j ≠ id → tget 0 u.arrivals j = tget 0 t.arrivals j ∧ tget false u.parity j = tget false t.parity j

/-- 08 R213 to R218, R228, R230: ATOM and RED whose operands are ready, whose addresses are aligned and translate, which need not ask and whose release
and acquire have taken effect perform their actions, one for each address in ascending order of its lowest lane, and ATOM writes each lane the
value that its action found. An action at a scratchpad is the chain of its lanes' actions on what the scratchpad holds.
17 R420, R427: those that must ask for data of another agent, or whose action another package performs, wait once their release has taken effect, in
the state in which they have asked.
08 R214 (Table 8.5): what an atomic action leaves in memory for integer and raw types. -/
def Obligations.AtomicsComplete : Prop :=
  (∀ o ∈ [Op.atom, .red], ∀ (s2 s3 : State) (g2 : Group),
     Completes o (fun s i => i.g.acquiring = false ∧
         let op := atomOp i
         let ty := atomTy i
         let ret := decide (o = .atom)
         let srcs := atomSrcs i
         let d := atomDst ret i
         let lanes := i.compute d
         let w := i.who s
         let xs := s.accessesAt i 0 srcs lanes (atomSize ty)
         let ls := foundAt (xs.map (s.locate i .atomic))
         let s1 := s.useRanges (coreOf i.gid) ls
         let way := s1.wayOf w ret op ty (fun _ => false)
         let arg := s.atomArg i 0
         let r := (s3.countFor i.gid i.g 0x24 (byAddress ls).length).atomAll w op ty (fun l => way l == .lazy) (fun l => way l == .quiet) (fun _ => false)
           arg (byAddress ls)
         queueSource srcs = none ∧ memFaults s i lanes srcs d = [] ∧ alignFaults 1 (atomSize ty) xs = [] ∧
         (∀ x ∈ xs, ∃ l, s.locate i .atomic x = .at_ l) ∧ (ret = true → s1.storing i.gid = false) ∧ s.hits i true xs = [] ∧
         s1.atomRelease i ls = .ok (s2, g2) ∧ s2.askActs w op ty way arg (byAddress ls) = none ∧ s2.atomAcquire i g2 = .ok s3 ∧
         (ret = true → ∀ v ∈ r.2, v.2.2.2 ≠ 5) ∧
         (i.g.granted.isSome = true ∨ ((∀ a ∈ byAddress ls, way a.1 ≠ .far) ∧
           (lanes ≠ [] → (r.1.setGroup i.gid (i.g.free (freedNames i srcs))).admits i.gid (i.g.free (freedNames i srcs))
             (((i.g.free (freedNames i srcs)).needs (dstNames i d)).length * (i.width / 32)) = true))))
       (fun s i t =>
         let op := atomOp i
         let ty := atomTy i
         let ret := decide (o = .atom)
         let d := atomDst ret i
         let w := i.who s
         let ls := foundAt ((s.accessesAt i 0 (atomSrcs i) (i.compute d) (atomSize ty)).map (s.locate i .atomic))
         let way := (s.useRanges (coreOf i.gid) ls).wayOf w ret op ty (fun _ => false)
         let r := (s3.countFor i.gid i.g 0x24 (byAddress ls).length).atomAll w op ty (fun l => way l == .lazy) (fun l => way l == .quiet) (fun _ => false)
           (s.atomArg i 0) (byAddress ls)
         Kept r.1 t ∧ (∀ j, j ≠ i.gid → t.group? j = r.1.group? j) ∧
         ∃ g', t.group? i.gid = some g' ∧ g'.ctx.pc = i.next ∧ g'.ctx.am = i.ctx.am ∧
           (o = .atom → ∀ l ∈ i.compute d, ∀ v, r.2.find? (fun y => y.1 = l) = some v →
             holdsLane i d l { words := (halves (BitVec.ofNat 64 v.2.1)).take (atomSize ty / 4), bad := v.2.2.2 } g'.ctx))) ∧
  (∀ o ∈ [Op.atom, .red], ∀ (s2 s3 : State) (g2 : Group) (ls : List Located),
     Completes o (fun s i => i.g.acquiring = false ∧
         let op := atomOp i
         let ty := atomTy i
         let ret := decide (o = .atom)
         let srcs := atomSrcs i
         let d := atomDst ret i
         let xs := s.accessesAt i 0 srcs (i.compute d) (atomSize ty)
         let s1 := s.useRanges (coreOf i.gid) ls
         let way := s1.wayOf (i.who s) ret op ty (fun _ => false)
         let after := i.g.free (freedNames i srcs)
         queueSource srcs = none ∧ memFaults s i (i.compute d) srcs d = [] ∧ alignFaults 1 (atomSize ty) xs = [] ∧
         (∀ x ∈ xs, ∃ l, s.locate i .atomic x = .at_ l) ∧ ls = foundAt (xs.map (s.locate i .atomic)) ∧
         (ret = true → s1.storing i.gid = false) ∧ s.hits i true xs = [] ∧
         (i.g.granted.isSome = true ∨ (s1.setGroup i.gid after).admits i.gid after ((after.needs (dstNames i d)).length * (i.width / 32)) = true) ∧
         i.compute d ≠ [] ∧ s1.atomRelease i ls = .ok (s2, g2) ∧ s2.askActs (i.who s) op ty way (s.atomArg i 0) (byAddress ls) = some s3)
       (fun _ i t => Waits s3 i (askedWait ls .atom) t)) ∧
  (∀ (s : State) (w : Who) (op : AtomOp) (ty : AtomTy) (l : Located) (xs : List (W64 × W64)) (side off : Nat), l.p = .scratch side off →
     l.x.w = atomSize ty →
     let r := s.performAtom w op ty l xs
     let old := (s.team w.team).readScratch (scratchKey side off) (atomSize ty)
     (r.1.team w.team).readScratch (scratchKey side off) (atomSize ty) =
       (atomChain op ty (BitVec.ofNat 64 old) xs).2.toNat % 2 ^ (8 * atomSize ty) ∧ r.2.1 = (atomChain op ty (BitVec.ofNat 64 old) xs).1) ∧
  (∀ m x c : W64,
     (atomApply .add .n64 m x c = m + x) ∧ (atomApply .and .b64 m x c = m &&& x) ∧ (atomApply .or .b64 m x c = m ||| x) ∧
     (atomApply .xor .b64 m x c = m ^^^ x) ∧ (atomApply .xchg .b64 m x c = x) ∧ (atomApply .cas .b64 m x c = if m = x then c else m) ∧
     (atomApply .min .n64 m x c = if m.toNat ≤ x.toNat then m else x) ∧ (atomApply .max .n64 m x c = if x.toNat ≤ m.toNat then m else x) ∧
     (atomApply .min .s64 m x c = if m.toInt ≤ x.toInt then m else x) ∧ (atomApply .max .s64 m x c = if x.toInt ≤ m.toInt then m else x) ∧
     (atomApply .add .n32 m x c = (m.setWidth 32 + x.setWidth 32).setWidth 64))

/-- 08 R220: PREF raises no fault for its addresses: with a ready address operand, and no walk to wait for, it goes on and changes no register
but those its last-read bit frees, and no other group's context.
08 R222: WAITA whose condition holds, in every lane, of what its reads give after its acquire goes on with those values. -/
def Obligations.PrefetchAndWaitComplete : Prop :=
  (Completes .pref (fun s i => i.g.acquiring = false ∧ operandFaults i [addrSrc i.f.a] .none = [] ∧ poisonFaults i i.list [addrSrc i.f.a] = [] ∧
       ∀ x ∈ (i.list.map fun l => (⟨l, ((((join64 (opn (s.operands i 0 l [addrSrc i.f.a]) 0)).toNat : Int) +
         (BitVec.ofNat 8 (i.mb 11 4)).toInt * 256) % 2 ^ 56).toNat, 1⟩ : Access)), x.va < localBase → ∀ v, s.locate i .hint x ≠ .walk v)
     (fun s i t => (∃ g', t.group? i.gid = some g' ∧ g'.ctx = { (freedNames i [addrSrc i.f.a]).foldl Ctx.clearName i.ctx with pc := i.next, via := viaOf i }) ∧
       (∀ j, j ≠ i.gid → (t.group? j).map (·.ctx) = (s.group? j).map (·.ctx)))) ∧
  (∀ s2 : State, Completes .waita (fun s i => i.g.acquiring = false ∧
       let t := waitaTy i
       let srcs := [addrSrc i.f.a, intSrc i.f.b t]
       let d := intDst i.f.d t
       let lanes := i.compute d
       let xs := s.accessesAt i 0 srcs lanes (t.ibits / 8)
       let ls := foundAt (xs.map (s.locate i .read))
       let rd := s2.readAll (i.who s) ls
       queueSource srcs = none ∧ memFaults s i lanes srcs d = [] ∧ alignFaults 1 (t.ibits / 8) xs = [] ∧
       (∀ x ∈ xs, ∃ l, s.locate i .read x = .at_ l) ∧ s.storing i.gid = false ∧
       (s.useRanges (coreOf i.gid) ls).askAll (i.who s) .read (ls.map fun l => (l, .read)) = none ∧
       (s.useRanges (coreOf i.gid) ls).acquireOr i.gid i.g (i.mb 7 5) = .ok s2 ∧
       (∀ x ∈ rd.2, x.2.2 = 0 ∧ condInt (i.mb 13 10) (intVal t (halves (BitVec.ofNat 64 x.2.1)))
         (intVal t (opn (s.operands i 0 x.1.x.lane srcs) 1)) = true) ∧ s.hits i false xs = [] ∧
       (lanes ≠ [] → (rd.1.setGroup i.gid (i.g.free (freedNames i srcs))).admits i.gid (i.g.free (freedNames i srcs))
         (((i.g.free (freedNames i srcs)).needs (dstNames i d)).length * (i.width / 32)) = true))
     (fun s i t =>
       let ty := waitaTy i
       let srcs := [addrSrc i.f.a, intSrc i.f.b ty]
       let d := intDst i.f.d ty
       let xs := s.accessesAt i 0 srcs (i.compute d) (ty.ibits / 8)
       let rd := s2.readAll (i.who s) (foundAt (xs.map (s.locate i .read)))
       ∃ g', t.group? i.gid = some g' ∧ g'.ctx.pc = i.next ∧ g'.ctx.am = i.ctx.am ∧
         ∀ x ∈ rd.2, holdsLane i d x.1.x.lane { words := intWords ty false x.2.1 } g'.ctx))

/-- 04 R114 to R117; 07 R190: SPAWN, once its release at .team has taken effect, puts its children, one for each executing lane in lane order, at the
end of the pan of its core that has their entry address, where that has room for them, or of a new one; without an executing lane it only goes on. That
a pan keeps the largest number of arguments of its children is the model's choice (log 69), and so is that the entry address is judged without an
executing lane too (log 18). -/
def Obligations.SpawnCompletes : Prop :=
  Completes .spawn (fun _ i => i.g.acquiring = false ∧ i.list = [] ∧ ReadyG i i.f.a ∧ argFaults i i.f.b (i.mb 13 11) = [] ∧
      poisonFaults i i.list (argSrcs i.f.b (i.mb 13 11)) = [] ∧ bits (valueG i i.f.a) 63 56 = 0 ∧ (valueG i i.f.a).toNat % 4 = 0)
    (fun s i t => Leaves s i i.next ((freedNames i (argSrcs i.f.b (i.mb 13 11))).foldl Ctx.clearName i.ctx) t) ∧
  ∀ (k : Nat) (p : Pan) (s1 : State),
    Completes .spawn (fun s i => i.g.acquiring = false ∧ i.list ≠ [] ∧ ReadyG i i.f.a ∧ argFaults i i.f.b (i.mb 13 11) = [] ∧
        poisonFaults i i.list (argSrcs i.f.b (i.mb 13 11)) = [] ∧ bits (valueG i i.f.a) 63 56 = 0 ∧ (valueG i i.f.a).toNat % 4 = 0 ∧
        s.releaseOr i.gid i.g 1 = .ok s1 ∧
        s1.receivingPan i ((valueG i i.f.a).setWidth 56) (i.mb 13 11) = some (k, p) ∧ p.children.length + i.list.length ≤ 1024)
      (fun s i t => tfind (t.core (coreOf i.gid)).pans k = some { p with
          args := (max p.args (i.mb 13 11)),
          children := (p.children ++ i.list.map fun l => (s.operands i 0 l (argSrcs i.f.b (i.mb 13 11))).flatten) } ∧
        ∃ g', t.group? i.gid = some g' ∧ g'.ctx.pc = i.next)

/-- 06 R168 to R170: IBIS whose lanes do not split writes each its own interval and the predicate false. One whose lanes split, with arguments or
without, keeps one half in each such lane, gives the other with the lane's arguments to a child, in lane order, and writes the predicate true there: the
children are placed as SPAWN places them, here in a pan that has room, or in a new one. -/
def Obligations.BisectionCompletes : Prop :=
  Completes .ibis (fun s i => i.g.acquiring = false ∧ i.width ≤ 128 ∧ i.mb 8 7 = 0 ∧
      LaneReady s i [xsrc i.f.a i.ty.fmt 2] (xdst i.f.d i.ty.fmt 2) 0 s ∧ ReadyG i i.f.b ∧
      bits (valueG i i.f.b) 63 56 = 0 ∧ (valueG i i.f.b).toNat % 4 = 0 ∧
      ∀ l ∈ i.list, (ibisLane i.ty.fmt (i.mbit 6) (ivOpn i.ty.fmt (s.operands i 0 l [xsrc i.f.a i.ty.fmt 2]) 0)).2 = none)
    (fun s i t => ∃ g', t.group? i.gid = some g' ∧ g'.ctx.pc = i.next ∧ ∀ l ∈ i.list,
      holdsLane i (xdst i.f.d i.ty.fmt 2) l
        { words := xwrite i.ty.fmt (ibisLane i.ty.fmt (i.mbit 6) (ivOpn i.ty.fmt (s.operands i 0 l [xsrc i.f.a i.ty.fmt 2]) 0)).1 } g'.ctx ∧
      (i.mb 2 0 ≠ 0 → i.g.pendP (i.mb 2 0) l = false → g'.ctx.predGet (i.mb 2 0) l = 0)) ∧
  (∀ (s1 : State) (k : Nat) (p : Pan), Completes .ibis (fun s i => i.g.acquiring = false ∧ i.width ≤ 128 ∧
      LaneReady s i (ibisSrcs i) (xdst i.f.d i.ty.fmt 2) 0 s ∧ argFaults i i.f.c (i.mb 8 7) = [] ∧ queueTwice [i.f.a, i.f.b, i.f.c] = [] ∧
      ReadyG i i.f.b ∧ bits (valueG i i.f.b) 63 56 = 0 ∧ (valueG i i.f.b).toNat % 4 = 0 ∧ ibisChildren s i ≠ [] ∧
      s.releaseOr i.gid i.g 1 = .ok s1 ∧ s1.receivingPan i ((valueG i i.f.b).setWidth 56) (xregs i.ty.fmt 2 + i.mb 8 7) = some (k, p) ∧
      p.children.length + (ibisChildren s i).length ≤ 1024)
    (fun s i t => tfind (t.core (coreOf i.gid)).pans k =
        some { p with args := max p.args (xregs i.ty.fmt 2 + i.mb 8 7), children := p.children ++ ibisChildren s i } ∧
      ∃ g', t.group? i.gid = some g' ∧ g'.ctx.pc = i.next ∧ ∀ l ∈ i.list,
        holdsLane i (xdst i.f.d i.ty.fmt 2) l { words := xwrite i.ty.fmt (ibisOf s i l).1 } g'.ctx ∧
        (i.mb 2 0 ≠ 0 → i.g.pendP (i.mb 2 0) l = false → g'.ctx.predGet (i.mb 2 0) l = if (ibisOf s i l).2.isSome then 1 else 0)))

/-! ### Copies, tasks, ranges, observation (10 R280 to R288; 11 R301 to R313; 15 R365 to R384) -/

/-- 15 R365, R366: COPY by its launch's producer group, of a legal block whose extents are reachable, once its release has taken effect adds a copy to
its die's queue, and its team waits for it to end.
15 R381 to R384: TDEC, once its release at .pkg has taken effect, sends a decrement to the die of its handle, counted until it is applied; LAUNCH of a legal
record within its rights fills the lowest free slot of its die and gives the handle; TSTAT gives a slot's word. -/
def Obligations.SluiceInstructionsComplete : Prop :=
  (∀ (va : Nat) (b : List W64) (s1 s2 : State),
     Completes .copy (fun s i => i.g.acquiring = false ∧ Unguarded i ∧ ReadyG i i.f.a ∧ va = (valueG i i.f.a).toNat % 2 ^ 56 ∧ va % 128 = 0 ∧
         ImageReady s i 16 va b s1 ∧ i.g.spawned = false ∧ i.g.index = i.l.producer ∧
         let src : End := ⟨Block.endpoint b false, (endTensor i s1 (Block.endpoint b false)).getD []⟩
         let dst : End := ⟨Block.endpoint b true, (endTensor i s1 (Block.endpoint b true)).getD []⟩
         (endTensor i s1 (Block.endpoint b false)).isSome = true ∧ (endTensor i s1 (Block.endpoint b true)).isSome = true ∧
         (∀ q, src.quarter = some q ∨ dst.quarter = some q → (s1.unit (4 * coreOf i.gid + q)).holder = some i.g.team) ∧
         blockOk b src dst = true ∧ s1.extentFaults i .read src b = .ok [] ∧ s1.extentFaults i .write dst b = .ok [] ∧
         src.inBounds b (s1.scratchSize i.g.team) = true ∧ dst.inBounds b (s1.scratchSize i.g.team) = true ∧
         (Block.wantsWord b = true → Block.dw b 9 51 32 + 4 ≤ s1.scratchSize i.g.team) ∧ (s1.die (dieOf i.gid)).copies.length < 4096 ∧
         s1.releaseOr i.gid i.g (max 3 (i.mb 8 6)) = .ok s2)
       (fun _ i t => (∃ c : Copy, (t.die (dieOf i.gid)).copies = (s2.die (dieOf i.gid)).copies ++ [c] ∧ c.block = b ∧ c.gid = i.gid ∧
           c.team = i.g.team ∧ c.id = s2.nextCopy ∧ c.engine = none ∧ c.chunks = 0) ∧ t.nextCopy = s2.nextCopy + 1 ∧
         (t.team i.g.team).copies = (s2.team i.g.team).copies + 1 ∧ (∀ a, t.byteAt a = s2.byteAt a) ∧
         ∃ g', t.group? i.gid = some g' ∧ g'.ctx = { i.ctx with pc := i.next, via := viaOf i })) ∧
  ((∀ s1 g1, Completes .tdec (fun s i => i.g.acquiring = false ∧ Unguarded i ∧ ReadyG i i.f.a ∧ bits (valueG i i.f.a) 63 32 = 0 ∧
       (valueG i i.f.a).getLsbD 15 = true ∧ s.releaseOr i.gid i.g 4 = .ok s1 ∧ s1.group? i.gid = some g1)
     (fun _ i t =>
       let h : BitVec 32 := (valueG i i.f.a).setWidth 32
       (t.die (bits h 14 12)).decrements = (s1.die (bits h 14 12)).decrements ++ [⟨h, i.mb 11 0, some i.gid⟩] ∧
       ∃ g', t.group? i.gid = some g' ∧ g'.ctx = { i.ctx with pc := i.next, via := viaOf i } ∧ g'.acks = g1.acks + 1)) ∧
   (∀ va w s1 n, Completes .launch (fun s i => i.g.acquiring = false ∧ Unguarded i ∧ NamesG i i.f.d ∧ ReadyG i i.f.a ∧
       va = (valueG i i.f.a).toNat % 2 ^ 56 ∧ va % 128 = 0 ∧ ImageReady s i 16 va w s1 ∧ recordOk w = true ∧
       beyondRights i.l (parseLaunch w) = false ∧ s1.freeSlot (dieOf i.gid) = some n)
     (fun _ i t =>
       let k := 4096 * dieOf i.gid + n
       (t.task k).launch = parseLaunch w ∧ (t.task k).state = (if (parseLaunch w).count = 0 then .ready else .waiting) ∧
       (t.task k).gen = (s1.task k).gen ∧ ∃ g', t.group? i.gid = some g' ∧ g'.ctx.pc = i.next ∧
         g'.ctx.gGet (gIndex i.f.d) = (t.handle k).setWidth 64)) ∧
   Completes .tstat (fun _ i => Unguarded i ∧ NamesG i i.f.d ∧ ReadyG i i.f.a ∧ bits (valueG i i.f.a) 63 32 = 0 ∧ (valueG i i.f.a).getLsbD 15 = true)
     (fun s i t =>
       let x := s.task (4096 * bits (valueG i i.f.a) 14 12 + bits (valueG i i.f.a) 11 0)
       GivesG s i (if x.launch.ctx ≠ 0 ∧ x.launch.ctx ≠ i.l.ctx then 0 else BitVec.ofNat 64 x.word) t))

/-- 10 R280, R282, R283: RSET and RSET.repl of an image, once their release has taken effect, where the directory lies in this package and what their
change waits for has come, answer that change: status 1, 2, 3, 4 or 7 with no change, or the new directory and status 0. Their changes in the
order of R283: 3 for an invalid or migrating image or an invalid entry; RSET: 2 for an overlap, 4 for a full directory, else the record inserted;
RSET.repl: 1 where no record has its base, 7 where that is migrating, 2 for an overlap with another, else the record replaced.
10 R281: RSPLIT, RMERGE, RINV and RCOMP of a key with resv bits, and RCOMP of an invalid new target, give status 3 and change nothing. That a new
target whose bits [63:56] are not 0 is invalid is the model's choice (log 72). 13 R335: RSET and RSET.repl wait, and change nothing, while another
change of the directory is under way. -/
def Obligations.RangeSetsAndMissesComplete : Prop :=
  (∀ o ∈ [Op.rset, .rsetRepl], ∀ (va : Nat) (w : List W64) (s1 s2 s3 : State) (sp : Space) (rs : List RangeRec),
     Completes o (fun s i => i.g.acquiring = false ∧ Unguarded i ∧ NamesG i i.f.d ∧ ReadyG i i.f.a ∧ i.g.change = none ∧
         va = (valueG i i.f.a).toNat % 2 ^ 56 ∧ va % 32 = 0 ∧ ImageReady s i 4 va w s1 ∧
         let r : RangeRec := ⟨w.getD 0 0, w.getD 1 0, w.getD 2 0, w.getD 3 0⟩
         ChangeReady s1 i r.asid s2 sp rs ∧
         ∀ new force extent move, rsetChange (decide (o = .rsetRepl)) r sp rs = .became new force extent move → Settled s2 i r.asid extent s3)
       (fun _ i t =>
         let r : RangeRec := ⟨w.getD 0 0, w.getD 1 0, w.getD 2 0, w.getD 3 0⟩
         Answers s2 s3 i r.asid sp rs (rsetChange (decide (o = .rsetRepl)) r sp rs) t)) ∧
  (∀ o ∈ [Op.rset, .rsetRepl], ∀ (va : Nat) (w : List W64) (s1 s0 s2 : State) (sp : Space) (rs : List RangeRec),
     Completes o (fun s i => i.g.acquiring = false ∧ Unguarded i ∧ NamesG i i.f.d ∧ ReadyG i i.f.a ∧ i.g.change = none ∧
         va = (valueG i i.f.a).toNat % 2 ^ 56 ∧ va % 32 = 0 ∧ ImageReady s i 4 va w s1 ∧ sp.valid = true ∧ sp.gen % 2 = 1 ∧
         let r : RangeRec := ⟨w.getD 0 0, w.getD 1 0, w.getD 2 0, w.getD 3 0⟩
         DirRead s1 i r.asid s0 s2 sp rs)
       (fun _ i t =>
         let r : RangeRec := ⟨w.getD 0 0, w.getD 1 0, w.getD 2 0, w.getD 3 0⟩
         Waits ((s2.forget (i.who s0).who).need (i.who s0) (.dir (dieOf i.gid) r.asid)) i .reply t)) ∧
  (∀ (repl : Bool) (r : RangeRec) (sp : Space) (rs : List RangeRec),
     let meets := fun (x : RangeRec) => overlaps x.base x.limit r.base r.limit = true
     (r.ok = false ∨ r.moving = true ∨ sp.valid = false → rsetChange repl r sp rs = .no 3) ∧
     (r.ok = true ∧ r.moving = false ∧ sp.valid = true →
       (repl = false →
         ((∃ x ∈ rs, meets x) → rsetChange repl r sp rs = .no 2) ∧
         ((∀ x ∈ rs, ¬meets x) → rsetChange repl r sp rs = if rs.length < 65536 then .became (insertRec r rs) [] none none else .no 4)) ∧
       (repl = true →
         ((∀ x ∈ rs, x.base ≠ r.base) → rsetChange repl r sp rs = .no 1) ∧
         ∀ n old, rs.findIdx? (fun x => x.base = r.base) = some n → rs[n]? = some old →
           rsetChange repl r sp rs = if old.moving then .no 7 else if (rs.eraseIdx n).any (fun x => overlaps x.base x.limit r.base r.limit) then .no 2
             else .became (rs.set n r) [n] (some (r.base, max old.limit r.limit)) none))) ∧
  (∀ o ∈ [Op.rsplit, .rmerge, .rinv, .rcomp],
     Completes o (fun _ i => i.g.acquiring = false ∧ Unguarded i ∧ NamesG i i.f.d ∧ ReadyG i i.f.a ∧ (o = .rcomp → ReadyG i i.f.c) ∧ i.g.change = none ∧
         ((keyOf (valueG i i.f.a)).resv = true ∨ (o = .rcomp ∧ badTarget (valueG i i.f.c).toNat = true)))
       (fun s i t => GivesStatus s i 3 t))

/-- 10 R280 to R282, R284, R286 to R288: RSPLIT, RMERGE, RINV.del and RCOMP, once their release has taken effect, where the directory lies in this
package and what their change waits for has come, answer their change: a status with no change, or the new directory, and for RCOMP the move that
it starts, with status 0. RINV without .del drops the copies of the range that covers its key, status 0, or of the key's block, status 1. Where no
range covers the key the status is 1; a migrating range gives RSPLIT, RMERGE and RINV.del 7, and RCOMP 7 where its target is valid.
They wait, and change nothing, while another change of the directory is under way (13 R335). 10 R285: RQRY asks the walker of its cluster for a
walk, and gives the four dwords of the record that the walk finds, or zeros where none covers its key. -/
def Obligations.RangeChangesComplete : Prop :=
  (∀ p ∈ [(Op.rsplit, (fun _ => rsplitChange : Iss → Key → Space → List RangeRec → Change)), (.rmerge, fun _ => rmergeChange),
       (.rinv, fun _ => rinvChange), (.rcomp, fun i => rcompChange i (valueG i i.f.c).toNat)],
     ∀ (k : Key) (s2 s3 : State) (sp : Space) (rs : List RangeRec),
     Completes p.1 (fun s i => i.g.acquiring = false ∧ Unguarded i ∧ NamesG i i.f.d ∧ ReadyG i i.f.a ∧ i.g.change = none ∧
         (p.1 = .rinv → i.mbit 13 = true) ∧ (p.1 = .rcomp → ReadyG i i.f.c ∧ badTarget (valueG i i.f.c).toNat = false) ∧
         k = keyOf (valueG i i.f.a) ∧ k.resv = false ∧ ChangeReady s i k.asid s2 sp rs ∧
         ∀ new force extent move, p.2 i k sp rs = .became new force extent move → Settled s2 i k.asid extent s3)
       (fun _ i t => Answers s2 s3 i k.asid sp rs (p.2 i k sp rs) t)) ∧
  (∀ o ∈ [Op.rsplit, .rmerge, .rinv, .rcomp], ∀ (k : Key) (s0 s2 : State) (sp : Space) (rs : List RangeRec),
     Completes o (fun s i => i.g.acquiring = false ∧ Unguarded i ∧ NamesG i i.f.d ∧ ReadyG i i.f.a ∧ i.g.change = none ∧
         (o = .rinv → i.mbit 13 = true) ∧ (o = .rcomp → ReadyG i i.f.c ∧ badTarget (valueG i i.f.c).toNat = false) ∧
         k = keyOf (valueG i i.f.a) ∧ k.resv = false ∧ sp.valid = true ∧ sp.gen % 2 = 1 ∧ DirRead s i k.asid s0 s2 sp rs)
       (fun _ i t => Waits ((s2.forget (i.who s0).who).need (i.who s0) (.dir (dieOf i.gid) k.asid)) i .reply t)) ∧
  (∀ (k : Key) (s3 : State), Completes .rinv (fun s i => i.g.acquiring = false ∧ Unguarded i ∧ NamesG i i.f.d ∧ ReadyG i i.f.a ∧ i.mbit 13 = false ∧
      k = keyOf (valueG i i.f.a) ∧ k.resv = false ∧ s.askDir (i.who s) (dieOf i.gid) k.asid = none ∧
      let sp := s.space (i.who s) (dieOf i.gid) k.asid
      let x := match coveringRec (if sp.valid then s.records (i.who s) sp else []) k.va with
        | some (_, r) => (r.base, r.limit)
        | none => (k.va, k.va + 64)
      (s.touchDir (i.who s) (dieOf i.gid) k.asid).settle i (i.mb 8 6) k.asid x.1 x.2 = .ok s3)
    (fun s i t =>
      let sp := s.space (i.who s) (dieOf i.gid) k.asid
      let c := coveringRec (if sp.valid then s.records (i.who s) sp else []) k.va
      let x := match c with
        | some (_, r) => (r.base, r.limit)
        | none => (k.va, k.va + 64)
      GivesStatus (s3.changeCopies i k.asid [] x none) i (if c.isSome then 0 else 1) t)) ∧
  (∀ (i : Iss) (new : Nat) (k : Key) (sp : Space) (rs : List RangeRec),
    (coveringRec rs k.va = none → rsplitChange k sp rs = .no 1 ∧ rinvChange k sp rs = .no 1 ∧ rcompChange i new k sp rs = .no 1) ∧
    (∀ n r, coveringRec rs k.va = some (n, r) →
      rinvChange k sp rs = (if r.moving then .no 7 else .became (rs.eraseIdx n) [] (some (r.base, r.limit)) none) ∧
      (r.moving = true → rsplitChange k sp rs = .no 7) ∧
      (k.va = r.base → r.moving = false → rsplitChange k sp rs = .no 6) ∧
      (RangeRec.moveOk r.base r.limit r.target new = false → rcompChange i new k sp rs = .no 3) ∧
      (RangeRec.moveOk r.base r.limit r.target new = true → rcompChange i new k sp rs =
        if r.alias_ || r.part || r.moving then .no 7 else .became (rs.set n (r.startMove new)) [n] (some (r.base, r.limit))
          (some { asid := k.asid, base := r.base, size := r.size, src := r.target, dst := new, scope := i.mb 8 6, cluster := clusterOf i.gid }))) ∧
    ((∀ r ∈ rs, r.base ≠ k.va) → rmergeChange k sp rs = .no 1)) ∧
  (∀ (a : WalkAnswer), Completes .rqry (fun _ i => i.g.acquiring = false ∧ Unguarded i ∧ NamesG i i.f.d ∧ gIndex i.f.d ≤ 8 ∧
      (∀ j < 4, i.g.pendG (gIndex i.f.d + j) = false) ∧ ReadyG i i.f.a ∧ (keyOf (valueG i i.f.a)).resv = false ∧
      i.g.answers.find? (·.raw) = some a ∧ (match a.res with | .found _ => True | .miss c _ => c ≤ 2))
    (fun s i t => Kept s t ∧ ∃ g', t.group? i.gid = some g' ∧ g'.ctx.pc = i.next ∧
      ∀ j < 4, g'.ctx.gGet (gIndex i.f.d + j) = match a.res with
        | .found e => [e.image.w0, e.image.w1, e.image.w2, e.image.w3].getD j 0
        | .miss _ _ => 0)) ∧
  Completes .rqry (fun _ i => i.g.acquiring = false ∧ Unguarded i ∧ NamesG i i.f.d ∧ gIndex i.f.d ≤ 8 ∧ ReadyG i i.f.a ∧
      (keyOf (valueG i i.f.a)).resv = false ∧ i.g.answers.find? (·.raw) = none)
    (fun s i t =>
      let k := keyOf (valueG i i.f.a)
      let c := s.cluster (clusterOf i.gid)
      Waits (s.setCluster (clusterOf i.gid) { c with queue := c.queue ++
        [{ gid := some i.gid, core := coreOf i.gid, asid := k.asid, va := k.va, ra := false, why := 2 }] }) i (.walk [k.va]) t)

/-- 11 R301, R303, R309, R313: ENTER and LEAVE move the region stack; WATCH sets a slot of its die; SAMPL sets a core's sampling word and
gives the one before; CNTRD reads a counter of its core. -/
def Obligations.ObservationCompletes : Prop :=
  Completes .enter (fun _ i => Unguarded i)
    (fun _ i t => ∃ g', t.group? i.gid = some g' ∧ g'.ctx = { i.ctx with
      pc := i.next, via := viaOf i,
      regions := (if i.ctx.rdepth < 16 then BitVec.ofNat 16 (i.f.c.toNat % 4 * 2 ^ 14 + i.f.mod.toNat) :: i.ctx.regions else i.ctx.regions),
      rdepth := (min (i.ctx.rdepth + 1) 0xFFFF) }) ∧
  Completes .leave (fun _ i => Unguarded i)
    (fun _ i t => ∃ g', t.group? i.gid = some g' ∧ g'.ctx = { i.ctx with
      pc := i.next, via := viaOf i,
      regions := (if i.ctx.rdepth ≤ 16 ∧ i.ctx.rdepth ≠ 0 then i.ctx.regions.drop 1 else i.ctx.regions),
      rdepth := (i.ctx.rdepth - 1) }) ∧
  (∀ va w s1, Completes .watch (fun s i => i.g.acquiring = false ∧ Unguarded i ∧ NamesG i i.f.d ∧ ReadyG i i.f.a ∧
      va = (valueG i i.f.a).toNat % 2 ^ 56 ∧ va % 32 = 0 ∧ ImageReady s i 4 va w s1 ∧ watchOk w = true)
    (fun _ i t => t.slot (dieOf i.gid) (i.mb 1 0) = w ∧
      ∃ g', t.group? i.gid = some g' ∧ g'.ctx.pc = i.next ∧ g'.ctx.gGet (gIndex i.f.d) = 0)) ∧
  (∀ c, Completes .sampl (fun _ i => Unguarded i ∧ NamesG i i.f.d ∧ ReadyG i i.f.a ∧ samplingOk (valueG i i.f.a) = true ∧
      c = 16 * dieOf i.gid + bits (valueG i i.f.a) 55 52)
    (fun s i t => (t.core c).sampling = valueG i i.f.a ∧
      ∃ g', t.group? i.gid = some g' ∧ g'.ctx.pc = i.next ∧ g'.ctx.gGet (gIndex i.f.d) = (s.core c).sampling)) ∧
  CompletesLanewise .cntrd (fun _ => []) (fun i => .reg i.f.d 1 1 true false)
    (fun i s _ _ _ => { words := [BitVec.ofNat 32 (s.counter (coreOf i.gid) (i.mb 7 0))] }) (fun i => i.l.super = true ∨ i.l.cntrd = true)

/-! ### Events of cores and groups (07; 08 R222, R223; 10 R293 to R297; 11; 13 R331) -/

/-- 07 R180, R178, R188; 08 R222, R236; 04 R108; 10 R297: once its results have come, a group parked on switch is ready, and a group that runs
ahead has its entry results; an acknowledgement is counted down; an old ready group is aged; an ended group leaves its slot and its team;
a group that waits for the pool or for a pan issues again, and so does one parked in WAITA whose repeat would end its wait, or whose time limit has
passed; another repeat leaves it parked. Each leaves every other group. -/
def Obligations.GroupEventsHappen : Prop :=
  (∀ gid g, Happens (.resultWriteback gid) (fun s => s.group? gid = some g ∧ g.stat = .parkedSwitch ∧ g.stop = none ∧ s.come g.outst = true)
    (fun s t => t.group? gid = some { g.written with stat := .ready, age := 0, aged := false } ∧
      g.written.ctx = { g.ctx with fpsr := g.ctx.fpsr ||| flagsOf g.outst } ∧ g.written.outst = [] ∧ ∀ j, j ≠ gid → t.group? j = s.group? j)) ∧
  (∀ gid g r, Happens (.resultWriteback gid) (fun s => s.group? gid = some g ∧ g.stat = .runahead ∧ g.ra = some r ∧ r.entry ≠ [] ∧
      s.come r.entry = true)
    (fun s t => t.group? gid = some { g with ra := some { r with entry := [], saved := { r.saved with fpsr := r.saved.fpsr ||| flagsOf r.entry } } } ∧
      ∀ j, j ≠ gid → t.group? j = s.group? j)) ∧
  (∀ gid g, Happens (.writeAcknowledgement gid) (fun s => s.group? gid = some g ∧ s.owedAcks gid < g.acks)
    (fun s t => t.group? gid = some { g with acks := g.acks - 1 } ∧ ∀ j, j ≠ gid → t.group? j = s.group? j)) ∧
  (∀ gid g, Happens (.groupAged gid) (fun s => s.group? gid = some g ∧ g.stat = .ready ∧ g.aged = false ∧ Config.agedAt ≤ g.age ∧
      (s.unit (unitOf gid)).current ≠ some gid)
    (fun s t => t.group? gid = some { g with aged := true } ∧ ∀ j, j ≠ gid → t.group? j = s.group? j)) ∧
  (∀ gid g, Happens (.groupEnd gid) (fun s => s.group? gid = some g ∧ g.stat = .ended ∧ g.outst = [] ∧ g.acks = 0 ∧ s.quiet gid = true ∧
      s.storing gid = false)
    (fun s t => t.group? gid = none ∧ gid ∉ (t.team g.team).groups ∧ ∀ j, j ≠ gid → t.group? j = s.group? j)) ∧
  (∀ gid g n frees, Happens (.poolAllocationRetry gid) (fun s => s.group? gid = some g ∧ g.stat = .waiting (.pool n frees) ∧
      (s.setGroup gid (g.free frees)).admits gid (g.free frees) n = true ∧ s.stopping g.team = false)
    (fun s t => t.group? gid = some { g with stat := .ready, age := 0, aged := false } ∧ ∀ j, j ≠ gid → t.group? j = s.group? j)) ∧
  (∀ gid g k n, Happens (.spawnStallReissue gid) (fun s => s.group? gid = some g ∧ g.stat = .waiting (.pan k n) ∧ s.stopping g.team = false ∧
      ∀ p, s.pan? (coreOf gid) k = some p → p.children.length + n ≤ Config.panSize)
    (fun s t => t.group? gid = some { g with stat := .ready, age := 0, aged := false } ∧ ∀ j, j ≠ gid → t.group? j = s.group? j)) ∧
  (∀ gid g l f, Happens (.waitaReread gid) (fun s => s.group? gid = some g ∧ g.stat = .waiting (.waita l f) ∧ s.stopping g.team = false ∧
      s.walking gid = false ∧ ∀ s1 g1 w, acquired (s.issOf gid g .waita f) s (waitaEffect (s.issOf gid g .waita f)) ≠ .wait s1 g1 w)
    (fun s t => t.group? gid = some { g with stat := .ready, age := 0, aged := false } ∧ ∀ j, j ≠ gid → t.group? j = s.group? j)) ∧
  (∀ gid g l f s1 g1 w, Happens (.waitaReread gid) (fun s => s.group? gid = some g ∧ g.stat = .waiting (.waita l f) ∧ s.stopping g.team = false ∧
      s.walking gid = false ∧ acquired (s.issOf gid g .waita f) s (waitaEffect (s.issOf gid g .waita f)) = .wait s1 g1 w)
    (fun _ t => (∃ g', t.group? gid = some g' ∧ g'.stat = .waiting (.waita l f) ∧ g'.ctx = g1.ctx) ∧ ∀ j, j ≠ gid → t.group? j = s1.group? j)) ∧
  (∀ gid g n f, Happens (.waitaTimeLimit gid) (fun s => s.group? gid = some g ∧ g.stat = .waiting (.waita (some n) f) ∧ n ≤ s.clock ∧
      s.stopping g.team = false)
    (fun s t => t.group? gid = some { g with stat := .ready, age := 0, aged := false } ∧ ∀ j, j ≠ gid → t.group? j = s.group? j))

/-- 10 R293, R295, R297: a group parked on switch starts to run ahead when a load that has not returned was issued more than 300 clk ago, its
quarter has 256 free slices and fewer than two such groups, and it has not run ahead since it issued: its checkpoint is frozen, the names
that its loads have still to write read as poisoned, and its other results are written. At the end of runahead its checkpoint is restored,
and it is ready when its entry results are written, and parked on switch otherwise. That a group's other results are written at the entry rests on the
reading that a result may write back at any later step (log 7).
10 R295, R296, Table 10.6: in runahead a lane of a load with a poisoned address accesses nothing and writes poison; one with a clean address takes what
local memory, L1 or in a stash window the stash holds; any other writes poison, and prefetches its line, or asks for a walk, or is counted as dropped.
10 R298: no instruction that a group runs ahead changes a register, a predicate or a mask of any other group, or those that it will have after, and but
for what loads and prefetches fetch, none changes memory, a team or a task. -/
def Obligations.RunaheadEventsHappen : Prop :=
  (∀ gid g, Happens (.runaheadEntry gid) (fun s => s.group? gid = some g ∧ g.stat = .parkedSwitch ∧ g.ra = none ∧ g.ranAhead = false ∧
      g.stop = none ∧ s.stopping g.team = false ∧ (∃ o ∈ g.outst, s.awaited o = true ∧ o.time + 300 < s.clock) ∧ s.runningAhead (unitOf gid) < 2 ∧
      256 ≤ s.freeSlices (unitOf gid))
    (fun s t => (∃ g' r, t.group? gid = some g' ∧ g'.stat = .runahead ∧ g'.ra = some r ∧ g'.outst = [] ∧
      r.saved = { g.ctx with fpsr := g.ctx.fpsr ||| flagsOf (g.outst.filter fun o => !s.awaited o) } ∧ r.entry = g.outst.filter s.awaited ∧
      (∀ o ∈ r.entry, ∀ n ∈ o.gs, g'.ctx.gBad n = 1) ∧ (∀ o ∈ r.entry, ∀ m ∈ o.regs, ∀ l < 128, m.2.getLsbD l = true → g'.ctx.vBad m.1 l = 1) ∧
      g'.ctx.pc = g.ctx.pc ∧ g'.ctx.v = g.ctx.v ∧ g'.ctx.g = g.ctx.g) ∧ ∀ j, j ≠ gid → t.group? j = s.group? j)) ∧
  (∀ gid g r, Happens (.runaheadExit gid) (fun s => s.group? gid = some g ∧ g.ra = some r ∧
      (r.entry = [] ∨ 512 ≤ r.count ∨ (s.starved (unitOf gid)).isSome = true ∨ s.stopping g.team = true))
    (fun s t => (∃ g', t.group? gid = some g' ∧ g'.ra = none ∧ g'.ctx = r.saved ∧ g'.outst = r.entry ∧
      g'.stat = (if r.entry = [] then Stat.ready else .parkedSwitch)) ∧ ∀ j, j ≠ gid → t.group? j = s.group? j)) ∧
  (∀ (s : State) (i : Iss) (w : Who) (t : Ty) (x : Access),
    (s.runaheadLane i w t x true).1 = s ∧ (s.runaheadLane i w t x true).2.bad = 1 ∧
    let r := s.runaheadLane i w t x false
    (∀ va, s.locate i .read x = .walk va → r.1 = s.askWalk i.gid i.g [va] true 1 ∧ r.2.bad = 1) ∧
    (∀ f, s.locate i .read x = .flt f → r.1 = s.countFor i.gid i.g 0x20 1 ∧ r.2.bad = 1) ∧
    (∀ l h, s.locate i .read x = .at_ l → l.p = .host h → r.1 = s.countFor i.gid i.g 0x20 1 ∧ r.2.bad = 1) ∧
    (∀ l side off, s.locate i .read x = .at_ l → l.p = .scratch side off →
      r.1 = (s.performRead w l).s ∧ r.2.words = (loadRes t x (s.performRead w l).v (s.performRead w l).bad).words) ∧
    (∀ l a, s.locate i .read x = .at_ l → l.p = .hbm a → s.unitHeld l = none → s.stashFor w l = none →
      (∀ y, s.l1Hit { w with scope := 0 } l = some y → r.1 = s ∧
        ((y.get (x.va % 64) x.w).2 = 0 → r.2.words = (loadRes t x (y.get (x.va % 64) x.w).1 0).words)) ∧
      (s.l1Hit { w with scope := 0 } l = none →
        r.1 = (s.prefetchLine w true l).countFor i.gid i.g (0x10 + quarterOf i.gid) 1 ∧ r.2.bad = 1)) ∧
    (∀ l a k, s.locate i .read x = .at_ l → l.p = .hbm a → s.unitHeld l = none → s.stashFor w l = some k →
      (∀ y, tfind (s.team k).stash ((s.team k).stashKey x.va) = some y → r.1 = s ∧
        ((y.get (x.va % 64) x.w).2 = 0 → r.2.words = (loadRes t x (y.get (x.va % 64) x.w).1 0).words)) ∧
      (tfind (s.team k).stash ((s.team k).stashKey x.va) = none →
        r.1 = (s.prefetchLine w true l).countFor i.gid i.g (0x10 + quarterOf i.gid) 1 ∧ r.2.bad = 1))) ∧
  (∀ (s : State) (gid : Nat) (g : Group) (r : Runahead) (o : Op) (f : Fields), s.cur = some gid → s.group? gid = some g → g.ra = some r →
    ∃ t, exec (.of o f) s = .next t ∧
      (∃ g', t.group? gid = some g' ∧ ((g'.ra = none ∧ g'.ctx = r.saved ∧ g'.outst = r.entry) ∨
        ∃ r', g'.ra = some r' ∧ r'.saved = r.saved ∧ r'.entry = r.entry)) ∧
      (∀ j, j ≠ gid → (t.group? j).map (·.ctx) = (s.group? j).map (·.ctx)) ∧
      (o ≠ .ld → o ≠ .ild → o ≠ .pref → (∀ a, t.byteAt a = s.byteAt a) ∧ t.teams = s.teams ∧ t.tasks = s.tasks))

/-- 07 R187, R189, R191 to R194; 13 R331; 08 R223: forced save takes the slices of the quarter's victim once its image can be written, and a
restoration gives it back its slot; a pan's timer expires; a pan launches its first children as a group whose lanes hold them; the barrier
unit takes the oldest arrival of its cluster; a pending fault record enters its ring; an entry of the overflow area moves to a pan. That a missing
argument of a pan's child reads 0 is the model's choice (log 69), and so is that a victim's outstanding results are written at its save (log 37). -/
def Obligations.PoolAndPanEventsHappen : Prop :=
  (∀ k gid g0 s1, Happens (.forcedSave k) (fun s => s.saveVictim k = some (gid, g0) ∧
      (let g := g0.written
       let g1 := { g with stat := savedStat g, answers := [], age := 0, aged := false }
       s.writeCells (s.imager g.team (coreOf gid)) (coreOf gid) (s.imageBase g.team (s.sideIn g.team gid))
         ((groupImage g1 (s.startOrder g)).map fun c => { c with off := c.off + groupAt (s.launchOf g) (slotOf gid) }) = (s1, true)))
    (fun _ t => ∃ g' w b, t.group? gid = some g' ∧ g'.stat = .saved w b ∧ slicesOf g' = 0 ∧ g'.outst = [] ∧
      g'.ctx = { g0.ctx with fpsr := g0.ctx.fpsr ||| flagsOf g0.outst } ∧ (t.unit k).current ≠ some gid)) ∧
  (∀ k gid g b w, Happens (.forcedSaveRestore k) (fun s => s.restoreNext k = some (gid, g) ∧ g.stat = .saved b w ∧
      s.askCells (s.imager g.team (coreOf gid)) (coreOf gid) (s.imageBase g.team (s.sideIn g.team gid) + groupAt (s.launchOf g) (slotOf gid))
        (groupImage g 0) = none)
    (fun s t => (∃ g', t.group? gid = some g' ∧ g'.stat = (match b with | some x => .waiting x | none => if w then .parkedFault else .ready) ∧
      g'.ctx.pc = g.ctx.pc ∧ g'.ctx.am = g.ctx.am ∧ g'.ctx.live = g.ctx.live ∧ g'.ctx.bound = g.ctx.bound ∧ g'.fault = g.fault) ∧
      ∀ j, j ≠ gid → t.group? j = s.group? j)) ∧
  (∀ core k p, Happens (.panTimerExpiry core k) (fun s => s.pan? core k = some p ∧ p.children ≠ [] ∧ p.expired = false ∧
      p.started + panClk (s.task p.task).launch ≤ s.clock)
    (fun _ t => t.pan? core k = some { p with expired := true })) ∧
  (∀ core k p gid, Happens (.panLaunch core k) (fun s => s.panSlot core k = some (p, gid))
    (fun s t => let l := (s.task p.task).launch
      let n := min l.width p.children.length
      ∃ g', t.group? gid = some g' ∧ g'.team = p.team ∧ g'.spawned = true ∧ g'.width = l.width ∧ g'.ctx.pc = p.entry ∧ g'.ctx.am = onesMask n ∧
        g'.ctx.live = onesMask n ∧ g'.ctx.gGet 0 = l.param ∧
        (∀ c < n, ∀ a < p.args, l.width ≤ 128 → g'.ctx.vGet a c = (p.children.getD c []).getD a 0) ∧
        (p.children.length ≤ l.width → t.pan? core k = none))) ∧
  (∀ cl gid key id r, Happens (.barrierUnitArrival cl) (fun s => (s.cluster cl).arrivals = (gid, key, id, false) :: r ∧ (tfind s.teams key).isSome = true)
    (fun s t => (t.cluster cl).arrivals = r ∧ t.team key = (s.team key).arrive id)) ∧
  (∀ cl gid key id r g i back sw, Happens (.barrierUnitArrival cl) (fun s => (s.cluster cl).arrivals = (gid, key, id, true) :: r ∧
      (tfind s.teams key).isSome = true ∧ s.group? gid = some g ∧ g.stat = .waiting (.arriving i back sw))
    (fun s t => (t.cluster cl).arrivals = r ∧ t.team key = (s.team key).arrive id ∧
      t.group? gid = some { g with stat := .waiting (.barrier id (tget false (s.team key).parity id) back sw) })) ∧
  (∀ d n p r x, Happens (.pendingFaultRecordWrite d) (fun s => s.nextPending d = some n ∧ (s.die d).pending[n]? = some p ∧ p.ctx = 0 ∧
      s.ownerRing d 0 = some r ∧ s.ringWrite d 0 r 64 p.words = some x)
    (fun s t => (t.die d).pending = (s.die d).pending.eraseIdx n ∧ (t.die d).faultRing = some { r with written := r.written + 1 } ∧
      ∀ a, t.byteAt a = x.1.byteAt a)) ∧
  (∀ d n p r x, Happens (.pendingFaultRecordWrite d) (fun s => s.nextPending d = some n ∧ (s.die d).pending[n]? = some p ∧ p.ctx ≠ 0 ∧
      s.ownerRing d p.ctx = some r ∧ s.ringWrite d p.ctx r 64 p.words = some x)
    (fun s t => (t.die d).pending = (s.die d).pending.eraseIdx n ∧ ∀ a, t.byteAt a = x.1.byteAt a)) ∧
  (∀ core key, Happens (.overflowMove core key) (fun s => trising (s.core core).pans = true ∧ (s.team key).on core = true ∧
      0 < (s.team key).spilled ∧ s.stopping key = false ∧
      ((s.moveEntry core key (s.teamLaunch key).overflowCap 0).team key).spilled < (s.team key).spilled)
    (fun s t => (t.team key).spilled + 1 = (s.team key).spilled ∧ ∃ k p, t.pan? core k = some p ∧ p.team = key ∧ p.children ≠ []))

/-- 11 R304, R305, R311, R314: when the count of instructions reaches 0 the tag falls on the next one; once the tagged instruction has
completed its record enters the ring of sample records, marked when its group is parked by a fault, and a new interval is drawn; a
completed instruction's debug stop parks its group, with the address where the slot was hit, and the PC stays; the sweeper adds what each
counter of its die has risen to that counter's total and keeps the reading. The sweep leaves out counters 4 to 7 of a core, whose totals are
free values (log 7). That the stop at the edge of a sampled instruction is armed when its record is written is the reading of log 34. -/
def Obligations.ObservationEventsHappen : Prop :=
  (∀ k, Happens (.sampleTag k) (fun s => (s.unit k).toTag = some 0 ∧ (s.unit k).tagNext = false)
    (fun s t => t.unit k = { s.unit k with tagNext := true } ∧ t.groups = s.groups)) ∧
  (∀ k gid w g, ∀ early : Bool, Happens (.sampleRecord k) (fun s => (s.unit k).tagged = some (gid, w) ∧ s.group? gid = some g ∧ bits (w.getD 2 0) 63 32 = 0 ∧
      (if early then g.stat = .parkedFault else g.stat ≠ .parkedFault ∧ g.ra = none ∧
        ∀ o ∈ g.outst, o.seq = (s.unit k).tagSeq → o.due ≤ s.clock))
    (fun s t => let word := (s.core (k / 4)).sampling
      let rec_ := if early then w.set 4 (w.getD 4 0 ||| 0x2000000000) else w
      (t.unit k).tagged = none ∧ (t.unit k).toTag = (if samples word (k % 4) then some (s.draw word (k % 4)) else none) ∧
      (∀ r, (s.die (k / 64)).sampleRing = some r → match s.ringWrite (k / 64) 0 r 64 rec_ with
        | some x => (t.die (k / 64)).sampleRing = some x.2 ∧ ∀ a, t.byteAt a = x.1.byteAt a
        | none => ∀ a, t.byteAt a = (s.ringFull (k / 64) 0 r).byteAt a) ∧
      (∃ g', t.group? gid = some g' ∧ g' = { g with edgeStop := g'.edgeStop } ∧
        g'.edgeStop = (g.edgeStop || (word.getLsbD 62 && samples word (k % 4)))) ∧ ∀ j, j ≠ gid → t.group? j = s.group? j)) ∧
  (∀ gid g code a m, Happens (.watchStop gid) (fun s => s.group? gid = some g ∧ g.stop = some (code, a, m) ∧ code < 2 ^ 16 ∧ g.outst = [] ∧ g.ra = none)
    (fun s t => ParkedBy t gid 0x12 code ∧ (∃ g' r, t.group? gid = some g' ∧ g'.fault = some r ∧ r.after = true ∧ g'.ctx = g.ctx ∧ g'.stop = none ∧
      r.words.getD 4 0 = m.extractLsb' 0 64 ∧ r.words.getD 5 0 = m.extractLsb' 64 64 ∧
      r.words.getD 6 0 = (if code = 2 then a.setWidth 64 else 0)) ∧ ∀ j, j ≠ gid → t.group? j = s.group? j)) ∧
  (∀ d, Happens (.harrowSweep d) (fun s => (s.die d).config ≠ [] ∧ (s.die d).swept = true ∧ s.unswept d ≠ [] ∧ trising s.counters = true ∧ s.acting = 0)
    (fun s t => (∀ x ∈ s.unswept d, tget 0 (t.die d).harrow x.1 = x.2) ∧ (∀ k, (∀ x ∈ s.unswept d, k ≠ x.1) →
        tget 0 (t.die d).harrow k = tget 0 (s.die d).harrow k) ∧ t.groups = s.groups ∧
      (s.chofer.contexts = [] → (s.die d).own = [] → s.host.held = [] → (∀ k, (s.die k).partials = []) → s.present.length + 22 * 256 < Config.linesPerSlice →
        (∀ a, s.configWord d 4 ≤ a → a < s.configWord d 4 + 8 * 22 * 256 → tget 0 s.owners (a / 256) = 0 ∧ inChofer a = false ∧
          s.linked d (ownerDie a) = true ∧ s.doorbellOf a 1 = none) →
        ∀ x ∈ s.unswept d, ¬(x.1 / 256 < 16 ∧ 4 ≤ x.1 % 256 ∧ x.1 % 256 < 8) →
        t.readMem (s.configWord d 4 + 8 * x.1) 8 =
          (s.readMem (s.configWord d 4 + 8 * x.1) 8 + (x.2 + 2 ^ 32 - tget 0 (s.die d).harrow x.1) % 2 ^ 32) % 2 ^ 64)))

/-! ### Events of matrix units, ranges, slices and links (09; 10 R289, R290; 13; 14) -/

/-- 09 R240, R241, R249 to R253, R271: a unit that has cleared itself is its team's; it begins its next operation; its oldest operation, which it
has begun, completes with what it computes in the slots, the B-slice or the scratchpad, and leaves the queue, an MMA with a status word in
q0; a unit that its holder gives up, or that its ended holder leaves, is free; a drain whose ranges have changed ends. -/
def Obligations.UnitEventsHappen : Prop :=
  (∀ k team, Happens (.unitClearComplete k) (fun s => (s.unit k).clearing = some team ∧ (s.unit k).holder = none)
    (fun s t => (t.unit k).holder = some team ∧ (t.unit k).clearing = none ∧ (∀ n, tget 0 (t.unit k).acc n = 0) ∧
      (∀ n, tget 0 (t.unit k).bslice n = 0) ∧ (t.unit k).q0 = [] ∧ (t.unit k).q1 = [] ∧ t.groups = s.groups)) ∧
  (∀ k l o r, Happens (.matrixOperationExecute k) (fun s => (s.unit k).ops = l ++ o :: r ∧ (∀ x ∈ l, x.executed = true) ∧ o.executed = false)
    (fun s t => (t.unit k).ops = l ++ { o with executed := true } :: r ∧ (t.unit k).acc = (s.unit k).acc ∧ t.groups = s.groups)) ∧
  (∀ k o r, Happens (.matrixOperationComplete k) (fun s => (s.unit k).ops = o :: r ∧ o.executed = true ∧ o.o ∈ [Op.mma, .mzero, .mlda, .msta, .mldb])
    (fun s t => let u := s.unit k
      (t.unit k).ops = r ∧
      (o.o = .mma → let m := Mma.ofArgs o.f o.args
        let v := s.runMma o u
        t.unit k = { v.pushStatus (o.statusWord 1 ((if v.slotNonFinite m.d then 4 else 0) + (if v.slotBad m.d || (m.res && v.slotBad m.c) then 2 else 0))
          m.d) with ops := r }) ∧
      (o.o = .mzero → t.unit k = { s.runMzero o u with ops := r }) ∧ (o.o = .mlda → t.unit k = { s.runMlda o u with ops := r }) ∧
      (o.o = .mldb → t.unit k = { s.runMldb o u with ops := r }) ∧
      (o.o = .msta → t.unit k = { u with ops := r } ∧ ∀ key, t.team key = (s.runMsta o u).team key) ∧
      (o.o ≠ .msta → t.teams = s.teams) ∧ t.groups = s.groups)) ∧
  (∀ k team, Happens (.unitRelease k) (fun s => (s.unit k).holder = some team ∧ (∀ o ∈ (s.unit k).ops, o.team ≠ team) ∧
      (s.teamOver team = true ∨ ∃ e ∈ s.groups, unitOf e.1 = k ∧ e.2.team = team ∧ e.2.stat = .waiting (.unit uRelease 0)))
    (fun _ t => (t.unit k).holder = none ∧ (t.unit k).q0 = [] ∧ (t.unit k).q1 = [])) ∧
  (∀ k o r s1 st, Happens (.mdrainAbort k) (fun s => (s.unit k).ops = o :: r ∧ o.o = .mdrain ∧ o.aborted = true ∧ o.stored = false ∧
      s.runDrain k o (s.unit k) = (s1, some st) ∧ (s1.ports.any fun p => p.2.waiting.any fun x => x.who = drainWho k) = false)
    (fun s t => (t.unit k).ops = r ∧
      (t.unit k).q0 = ((s.unit k).pushStatus (o.statusWord 2 st (Drain.ofArgs o.f o.args).d)).q0))

/-- 13 R332, R336, R337, R340; 10 R276, R285, R289, R290: the walker takes up the first request that it may; its cache answers what it covers, but
no RQRY, else a walk gives what the directory holds, and a range found answers every request among the 64 that it covers and enters the cache; a
changing directory is read again 64 clk later, and again while it is changing, and what it then holds answers as a first read would; a result enters
the core's range table and its group issues again, or the engine that asked has it; a walker's error answers the
requests that it holds; a unit of a compaction is held, then copied, then passed by the cursor; a compaction whose units have all moved
ends with its record at the new target and a note. The mover of a target outside local HBM is the model's choice (log 38), and the context id of the
note is read so (log 39). -/
def Obligations.RangeEventsHappen : Prop :=
  (∀ cl n r e, Happens (.rangeWalk cl) (fun s => s.fresh cl = some n ∧ (s.cluster cl).queue[n]? = some r ∧ r.asks = false ∧
      (s.cluster cl).cached r.asid r.va = some e)
    (fun s t => (t.cluster cl).queue = (s.cluster cl).queue.eraseIdx n ∧ (t.cluster cl).results = (s.cluster cl).results ++ [(r, .found e)] ∧
      (t.cluster cl).cache.head? = some (r.asid, e) ∧ t.groups = s.groups)) ∧
  (∀ cl n r x s1, Happens (.rangeWalk cl) (fun s => s.fresh cl = some n ∧ (s.cluster cl).queue[n]? = some r ∧
      (r.asks = true ∨ (s.cluster cl).cached r.asid r.va = none) ∧ s.walk (walker cl) (cl / 4) r.asid r.va = (s1, .done x) ∧
      s1.cluster cl = s.cluster cl)
    (fun _ t => WalkEnds s1 cl n r x t)) ∧
  (∀ cl n r x s1, Happens (.walkGenerationRetry cl) (fun s => s.due cl = some n ∧ (s.cluster cl).queue[n]? = some r ∧
      s.walk (walker cl) (cl / 4) r.asid r.va = (s1, .done x) ∧ s1.cluster cl = s.cluster cl)
    (fun _ t => WalkEnds s1 cl n r x t)) ∧
  (∀ cl n r s1, Happens (.walkGenerationRetry cl) (fun s => s.due cl = some n ∧ (s.cluster cl).queue[n]? = some r ∧
      s.walk (walker cl) (cl / 4) r.asid r.va = (s1, .odd) ∧ (s1.cluster cl) = s.cluster cl)
    (fun s t => (t.cluster cl).queue = (s.cluster cl).queue.set n { r with retry := s.clock + 64, gen := none, walking := true } ∧
      (t.cluster cl).results = (s.cluster cl).results)) ∧
  (∀ cl r e l gid g vas, Happens (.rangeTableFill cl) (fun s => (s.cluster cl).results = (r, .found e) :: l ∧ r.gid = some gid ∧
      r.ra = false ∧ s.group? gid = some g ∧ g.stat = .waiting (.walk vas) ∧ clusterOf gid = cl ∧ (∀ q ∈ (s.cluster cl).queue, q.gid ≠ some gid) ∧
      ∀ x ∈ l, x.1.gid ≠ some gid)
    (fun s t => (t.cluster cl).results = l ∧ (r.asks = false → (t.core r.core).rtable.head? = some e) ∧
      t.group? gid = some { g with answers := g.answers ++ [⟨r.asid, r.va, .found e, r.asks⟩], stat := .ready, age := 0, aged := false } ∧
      ∀ j, j ≠ gid → t.group? j = s.group? j)) ∧
  (∀ cl r x l who, Happens (.rangeTableFill cl) (fun s => (s.cluster cl).results = (r, x) :: l ∧ r.gid = some who ∧ s.group? who = none ∧ 2 ^ 20 ≤ who)
    (fun s t => (t.cluster cl).results = l ∧ (t.core r.core).answers = (s.core r.core).answers ++ [(who, ⟨r.asid, r.va, x, false⟩)] ∧
      t.groups = s.groups)) ∧
  (∀ cl, Happens (.walkerError cl) (fun _ => True)
    (fun s t => (t.cluster cl).queue = (s.cluster cl).queue.drop 64 ∧ (t.cluster cl).results = (s.cluster cl).results ++
      ((s.cluster cl).queue.take 64).map fun r => (r, WalkResult.miss 3 (BitVec.ofNat 56 r.va)))) ∧
  (∀ n m w, Happens (.compactionUnitMove n) (fun s => s.move? n = some (m, w) ∧ 256 * m.done < m.size ∧ s.quiet (s.mover m 0).who = true ∧
      m.sent = false ∧ m.held = false ∧ s.askFlush w (m.src + 256 * m.done) (m.dst + 256 * m.done) = none ∧
      n < (s.flushUnit w (m.src + 256 * m.done) (m.dst + 256 * m.done)).moves.length)
    (fun s t => t.moves[n]? = some { m with held := true } ∧
      ∀ a, t.byteAt a = (s.flushUnit w (m.src + 256 * m.done) (m.dst + 256 * m.done)).byteAt a)) ∧
  (∀ n m w x, Happens (.compactionUnitMove n) (fun s => s.move? n = some (m, w) ∧ 256 * m.done < m.size ∧ s.quiet (s.mover m 0).who = true ∧
      m.sent = false ∧ m.held = true ∧ s.askUnit w (m.src + 256 * m.done) (m.dst + 256 * m.done) = none ∧
      x = s.copyUnit w (m.src + 256 * m.done) (m.dst + 256 * m.done) m.poisoned ∧ x.1.quiet w.who = true ∧
      x.1.askDir w (m.cluster / 4) m.asid = none ∧ n < x.1.moves.length)
    (fun _ t => let m1 := { m with poisoned := x.2, done := m.done + 1, held := false, sent := false }
      t.moves[n]? = some m1 ∧
      ∀ a, t.byteAt a = (State.setMoving { x.1 with moves := x.1.moves.set n m1 } w { m with poisoned := x.2 } fun r =>
        r.setCursor (m.done + 1)).byteAt a)) ∧
  (∀ n m w, Happens (.compactionDone n) (fun s => s.move? n = some (m, w) ∧ m.size ≤ 256 * m.done ∧ s.quiet (s.mover m 0).who = true ∧
      s.askDir w (m.cluster / 4) m.asid = none)
    (fun s t => t.moves = s.moves.eraseIdx n ∧
      let s1 : State := { (s.setMoving w m RangeRec.endMove).forget w.who with moves := s.moves.eraseIdx n }
      let index := match s.movingRec w m with | some (k, _, _) => k | none => 0
      ∀ a, t.byteAt a = (s1.postNote (dieOf w.gid) 0 (0x03 * 2 ^ 56 + m.base) m.asid index 0 0 (w.ctx * 2 ^ 32 + m.poisoned.toNat)).byteAt a))

/-- 14 R347, R354 to R357; 16 R393; 17 R422, R425: once the package has reported that it is ready, a slice takes its oldest request, once the host
holds nothing that it needs: it reads, writes, writes and gives what it replaced, or performs the atomic action, and answers with the value or an
acknowledgement; what the host may hold of what is to be served, evicted, flushed or merged is asked for first; an evicted sector is no longer
present, and reads as before; the owning slice records the join of a partial copy and acknowledges the REDs that wait; a flushed partial copy is
applied and gone; the merge of a C line leaves no partial copy of it. -/
def Obligations.SliceEventsHappen : Prop :=
  (∀ d r q g, Happens (.sliceAccess d) (fun s => s.published = true ∧ (s.die d).requests = r :: q ∧ s.snoopNeeded (reqKind r) r.target = false ∧
      r.op = .read ∧ g = (s.taking d q).readHbm d r.ctx r.target r.bytes)
    (fun s t => (t.die d).requests = q ∧ t.groups = s.groups ∧ (∀ a, t.byteAt a = g.s.byteAt a) ∧
      AnswersRequest s r 2 (.response (BitVec.ofNat 64 g.v) g.bad) t)) ∧
  (∀ d r q v bad, Happens (.sliceAccess d) (fun s => s.published = true ∧ (s.die d).requests = r :: q ∧
      s.snoopNeeded (reqKind r) r.target = false ∧ r.op = .write v bad)
    (fun s t => (t.die d).requests = q ∧
      (∀ a, t.byteAt a = (((s.taking d q).writeHbm d r.ctx r.target r.bytes v.toNat bad).strayed none r.target).byteAt a) ∧
      AnswersRequest s r 3 .ack t)) ∧
  (∀ d r q op ty xs g, Happens (.sliceAccess d) (fun s => s.published = true ∧ (s.die d).requests = r :: q ∧
      s.snoopNeeded (reqKind r) r.target = false ∧ r.op = .atom op ty xs ∧
      g = (s.taking d q).atomHbm d r.ctx r.target r.bytes fun v => (atomChain op ty (BitVec.ofNat 64 v) xs).2.toNat)
    (fun s t => (t.die d).requests = q ∧ (∀ a, t.byteAt a = (g.s.strayed none r.target).byteAt a) ∧
      AnswersRequest s r 2 (.response (BitVec.ofNat 64 g.v) g.bad) t)) ∧
  (∀ d r q v g, Happens (.sliceAccess d) (fun s => s.published = true ∧ (s.die d).requests = r :: q ∧
      s.snoopNeeded (reqKind r) r.target = false ∧ r.op = .swap v ∧ g = (s.taking d q).readHbm d r.ctx r.target r.bytes)
    (fun s t => (t.die d).requests = q ∧
      (∀ a, t.byteAt a = (((s.taking d q).writeHbm d r.ctx r.target r.bytes v.toNat false).strayed none r.target).byteAt a) ∧
      AnswersRequest s r 2 (.response (BitVec.ofNat 64 g.v) g.bad) t)) ∧
  (∀ d r q, Happens (.sliceAccess d) (fun s => s.published = true ∧ (s.die d).requests = r :: q ∧ s.snoopNeeded (reqKind r) r.target = true)
    (fun s t => Snooped s ((s.snoops (reqKind r) r.target).map (·.1)) t)) ∧
  (∀ sec, Happens (.sectorEviction sec) (fun s => tget false s.present sec = true ∧ trising s.llc = true ∧ tget 0 s.owners (sec / 4) = 0 ∧
      ∀ d, ∀ p ∈ (s.die d).partials, p.line ≠ sec / 4)
    (fun s t => tget false t.present sec = false ∧ ∀ a, t.byteAt a = s.byteAt a)) ∧
  (∀ d line p, Happens (.partialJoin d line) (fun s => s.partial? d line = some p ∧ p.joined = false)
    (fun s t => (t.partial? d line).map (·.joined) = some true ∧ (tget 0 t.cLines line).testBit d = true ∧
      ∀ gid g, s.group? gid = some g → t.group? gid = some { g with acks := g.acks - p.waiting.count gid })) ∧
  (∀ d line p, Happens (.partialFlush d line) (fun s => s.partial? d line = some p ∧ s.mergeHeld line = [])
    (fun s t => t.partial? d line = none ∧ (tget 0 t.cLines line).testBit d = false ∧ t.groups = s.groups ∧
      ∀ a, t.byteAt a = (s.applyPartial p).byteAt a)) ∧
  (∀ line, Happens (.cLineMerge line) (fun s => (∃ d < 8, (s.partial? d line).isSome = true) ∧ s.mergeHeld line = [])
    (fun s t => (∀ d < 8, t.partial? d line = none) ∧ tget 0 t.cLines line = 0 ∧ t.groups = s.groups)) ∧
  (∀ sec d line, ∀ e ∈ [Instr.sectorEviction sec, .partialFlush d line, .cLineMerge line],
    Happens e (fun s => tget false s.present sec = true ∧ sec / 4 = line ∧ (s.partial? d line).isSome = true ∧ s.mergeHeld line ≠ [])
      (fun s t => Snooped s (s.mergeHeld line) t))

/-- 14 R359, R360, R362, R364; 07 R188; 09 R248; 11 R313: a corrected error changes no value and is counted where it was found; an
uncorrectable error poisons the word, the lanes, the element or the data that it strikes, and no other of its kind, and drops an entry of a
range cache; a word that fails persistently is poisoned and known as such. A group that runs ahead has the error also in the registers that it will
have after, unless it has bound the name anew (01 R29). That a B-slice has a mark for each 4-byte word is the model's choice (log 71). -/
def Obligations.ErrorEventsHappen : Prop :=
  (∀ found, Occurs (.hbmScrub found) (fun _ => True) (fun s t =>
      (∀ a, t.byteAt a = s.byteAt a) ∧ t.poison = s.poison ∧ t.groups = s.groups ∧ t.teams = s.teams ∧ t.units = s.units ∧
      let one := fun k => tget 0 t.counters k = (tget 0 s.counters k + 1) % 2 ^ 32
      match found with
      | .none => t.counters = s.counters
      | .hbm w => one ((22 * (ownerDie (8 * w) % 8) + 20) * 256 + 0x08)
      | .slice w => one ((22 * (ownerDie (8 * w) % 8) + 20) * 256 + 0x06)
      | .core c => one ((22 * (c % 128 / 16) + c % 16) * 256 + 0x25))) ∧
  (∀ w, Occurs (.uncorrectableError (.memWord w)) (fun _ => 8 * w < hbmEnd)
    (fun s t => tget false t.poison w = true ∧ (∀ x, x ≠ w → tget false t.poison x = tget false s.poison x) ∧ ∀ a, t.byteAt a = s.byteAt a)) ∧
  (∀ gid name lanes g, Occurs (.uncorrectableError (.register gid name lanes)) (fun s => s.group? gid = some g ∧ name ∈ g.ctx.bound)
    (fun s t => ∃ g', t.group? gid = some g' ∧ (∀ l < 128, g'.ctx.vBad name l = if l < g.width ∧ lanes.getLsbD l = true then 1 else g.ctx.vBad name l) ∧
      (∀ m, m ≠ name → ∀ l < 128, g'.ctx.vBad m l = g.ctx.vBad m l) ∧ g'.ctx.v = g.ctx.v ∧
      (∀ r, g.ra = some r → ∃ r', g'.ra = some r' ∧ r'.saved.v = r.saved.v ∧ ∀ m, ∀ l < 128, r'.saved.vBad m l =
        if m = name ∧ name ∉ r.bound ∧ l < g.width ∧ lanes.getLsbD l = true then 1 else r.saved.vBad m l) ∧
      ∀ j, j ≠ gid → t.group? j = s.group? j)) ∧
  (∀ gid seq lanes g, Occurs (.uncorrectableError (.returned gid seq lanes)) (fun s => s.group? gid = some g ∧ g.ra = none)
    (fun s t => ∃ g', t.group? gid = some g' ∧ g'.ctx.v = g.ctx.v ∧ g'.ctx.g = g.ctx.g ∧ g'.outst = g.outst ∧
      (∀ m, ∀ l < 128, g'.ctx.vBad m l = if (∃ o ∈ g.outst, s.awaited o = true ∧ o.seq = seq ∧
        ∃ x ∈ o.regs, x.1 = m ∧ (x.2 &&& lanes).getLsbD l = true) then 1 else g.ctx.vBad m l) ∧
      ∀ j, j ≠ gid → t.group? j = s.group? j)) ∧
  (∀ w x, Occurs (.uncorrectableError (.hostWord w)) (fun s => tfind s.host.sectors (w / 8) = some x)
    (fun s t => tfind t.host.sectors (w / 8) = some { x with bad := x.bad ||| BitVec.ofNat 8 (2 ^ (w % 8)) } ∧
      ∀ k, k ≠ w / 8 → tfind t.host.sectors k = tfind s.host.sectors k)) ∧
  (∀ key side w, Occurs (.uncorrectableError (.scratchWord key side w)) (fun s => (tfind s.teams key).isSome = true ∧ 4 * w < s.scratchSize key)
    (fun s t => tget false (t.team key).scratchPoison (scratchKey side 0 / 4 + w) = true ∧ (t.team key).scratch = (s.team key).scratch ∧
      (∀ x, x ≠ scratchKey side 0 / 4 + w → tget false (t.team key).scratchPoison x = tget false (s.team key).scratchPoison x) ∧
      ∀ k, k ≠ key → tfind t.teams k = tfind s.teams k)) ∧
  (∀ cl n, Occurs (.uncorrectableError (.rangeCache cl n)) (fun s => n < (s.cluster cl).cache.length)
    (fun s t => (t.cluster cl).cache = (s.cluster cl).cache.eraseIdx n)) ∧
  (∀ d line p, Occurs (.uncorrectableError (.partialCopy d line)) (fun s => s.partial? d line = some p)
    (fun _ t => t.partial? d line = some { p with bad := true })) ∧
  (∀ k slot n, Occurs (.uncorrectableError (.accumulator k slot n)) (fun _ => slot < 32 ∧ n < 3072)
    (fun s t => t.unit k = { s.unit k with accPoison := tset false (s.unit k).accPoison (3072 * slot + n) true })) ∧
  (∀ k w, Occurs (.uncorrectableError (.bSlice k w)) (fun _ => 4 * w < 2 ^ 22)
    (fun s t => t.unit k = { s.unit k with bPoison := tset false (s.unit k).bPoison w true })) ∧
  (∀ core line n w x, Occurs (.uncorrectableError (.l1Word core line n w)) (fun s => n < 4 ∧ w < 8 ∧ x.valid ≠ 0 ∧ (s.core core).sector (4 * line + n) = some x)
    (fun s t => (t.core core).sector (4 * line + n) = some { x with bad := x.bad.set w 1 } ∧
      ∀ k y, k ≠ 4 * line + n → (s.core core).sector k = some y → y.valid ≠ 0 → (t.core core).sector k = some y)) ∧
  (∀ key n w x, Occurs (.uncorrectableError (.stashWord key n w)) (fun s => w < 8 ∧ tfind (s.team key).stash n = some x)
    (fun s t => tfind (t.team key).stash n = some { x with bad := x.bad.set w 1 } ∧
      ∀ k, k ≠ n → tfind (t.team key).stash k = tfind (s.team key).stash k)) ∧
  (∀ w, Occurs (.hbmPersistentFault w) (fun _ => 8 * w < hbmEnd)
    (fun s t => tget false t.poison w = true ∧ w ∈ t.deadWords ∧ ∀ a, t.byteAt a = s.byteAt a))

/-- 14 R361; 13 R329, R339: resends are counted, at the die that sends (the model's choice, log 79), and the sixteenth of one transfer that fails
takes the link down; a die-to-die link that is down is known to its die, which holds no partial copy of the other die's lines, the words of those
that it held being poisoned, and a group whose load the link carried parks with the lanes of it poisoned; the event's code is presumed (log 60); the oldest
aperture store of a cluster is performed, poisoned when the link delivers an error; a pair link that is down parks the groups of the teams
that span it, also one that a fault has parked before (the model's choice, log 57). -/
def Obligations.LinkEventsHappen : Prop :=
  (∀ src dst failed, Happens (.dieLinkResend src ⟨dst, failed⟩) (fun _ => src ≠ dst)
    (fun s t => tget 0 t.counters ((22 * src + 20) * 256 + 10) = (tget 0 s.counters ((22 * src + 20) * 256 + 10) + 1) % 2 ^ 32 ∧
      if failed ∧ 15 ≤ tget 0 (s.die src).resends dst then dst ∈ (t.die src).deadLinks
      else tget 0 (t.die src).resends dst = (if failed then tget 0 (s.die src).resends dst + 1 else 0) ∧
        (t.die src).deadLinks = (s.die src).deadLinks)) ∧
  (∀ cl pair failed, Happens (.pairLinkResend cl ⟨pair, failed⟩) (fun _ => pair < 2)
    (fun s t => tget 0 t.counters ((22 * (cl / 4) + (16 + cl % 4)) * 256 + 5) =
        (tget 0 s.counters ((22 * (cl / 4) + (16 + cl % 4)) * 256 + 5) + 1) % 2 ^ 32 ∧
      if failed ∧ 15 ≤ tget 0 (s.cluster cl).resends pair then pair ∈ (t.cluster cl).linkDown
      else tget 0 (t.cluster cl).resends pair = (if failed then tget 0 (s.cluster cl).resends pair + 1 else 0) ∧
        (t.cluster cl).linkDown = (s.cluster cl).linkDown)) ∧
  (∀ src dst, Happens (.dieLinkDown src dst) (fun s => src ≠ dst ∧ dst ∉ (s.die src).deadLinks ∧ ∀ e ∈ s.groups, e.2.crossing s dst = [])
    (fun s t => dst ∈ (t.die src).deadLinks ∧ (∀ p ∈ (t.die src).partials, ownerDie (256 * p.line) ≠ dst) ∧
      t.chofer.events = s.chofer.events ++ [(evLinkDown, 8 * src + dst)] ∧
      ∀ p ∈ (s.die src).partials, ownerDie (256 * p.line) = dst → ∀ w ∈ p.words, tget false t.poison (w.1 / 8) = true)) ∧
  (∀ src dst gid g o l, Happens (.dieLinkDown src dst) (fun s => src ≠ dst ∧ dst ∉ (s.die src).deadLinks ∧ trising s.groups = true ∧
      s.group? gid = some g ∧ g.ra = none ∧ g.stat ≠ .ended ∧ dieOf gid = src ∧ g.crossing s dst = o :: l)
    (fun s t => dst ∈ (t.die src).deadLinks ∧ ParkedBy t gid 8 5 ∧ ∃ g' r, t.group? gid = some g' ∧ g'.fault = some r ∧ g'.ctx.pc = o.pc ∧
      r.words.getD 4 0 = (o.from_ dst).extractLsb' 0 64 ∧ r.words.getD 5 0 = (o.from_ dst).extractLsb' 64 64 ∧
      ∀ x ∈ g.crossing s dst, ∀ m ∈ x.regs, ∀ k < 128, (m.2 &&& x.from_ dst).getLsbD k = true → g'.ctx.vBad m.1 k = 1)) ∧
  (∀ cl error a r, Happens (.pairApertureAccess ⟨cl, error⟩) (fun s => (s.cluster cl).aperture = a :: r ∧ (tfind s.teams a.team).isSome = true)
    (fun s t => (t.cluster cl).aperture = r ∧ t.team a.team =
      (s.team a.team).writeScratch (scratchKey a.side a.off) a.data.length (ofBytes a.data) s.clock (a.poison || error))) ∧
  (∀ cl pair gid g, Happens (.pairLinkDown cl pair) (fun s => pair < 2 ∧ pair ∉ (s.cluster cl).linkDown ∧ (gid, g) ∈ s.groups ∧
      trising s.groups = true ∧ g.stat ≠ .ended ∧ (tfind s.teams g.team).isSome = true ∧ (s.team g.team).paired = true ∧
      (s.team g.team).saved = false ∧ (s.team g.team).core = pairCore cl pair)
    (fun _ t => pair ∈ (t.cluster cl).linkDown ∧ ParkedBy t gid 8 4))

/-! ### Events of copies, tasks and the package (15; 16) -/

/-- 15 R370, R372, R374; 09 R241: a free engine of a die, the lowest by the model's choice (log 33), takes the oldest copy that waits; a chunk is done, the last one ending the copy, or
waits for data, or ends the copy with a status, which is 3 when its team no longer holds a unit that it names; a copy that has ended leaves
its die, writes its completion word, sends its decrement, pushes its status, and counts no longer for its team. -/
def Obligations.CopyEventsHappen : Prop :=
  (∀ d e c, Happens (.copyStart d) (fun s => s.freeEngine d = some e ∧ s.nextCopyOf d = some c)
    (fun s t => ∃ x ∈ (t.die d).copies, x = { c with engine := some e } ∧ (t.die d).copies.length = (s.die d).copies.length ∧ t.groups = s.groups)) ∧
  (∀ d e c s1, Happens (.copyChunk d e) (fun s => s.copyOn d e = some c ∧ c.ending = none ∧ c.holds s = true ∧ c.chunk s = (s1, none, true))
    (fun _ t => (t.die d).copies = (s1.die d).copies.map (fun x => if x.id = c.id then
        { x with chunks := c.chunks + 1, ending := if Block.size c.block ≤ Config.chunkSize * (c.chunks + 1) then some 0 else none } else x) ∧ ∀ a, t.byteAt a = s1.byteAt a)) ∧
  (∀ d e c s1, Happens (.copyChunk d e) (fun s => s.copyOn d e = some c ∧ c.ending = none ∧ c.holds s = true ∧ c.chunk s = (s1, none, false))
    (fun s t => t = { s1 with freeCtr := s.freeCtr + 1 })) ∧
  (∀ d e c s1 n b, Happens (.copyChunk d e) (fun s => s.copyOn d e = some c ∧ c.ending = none ∧ c.holds s = true ∧ c.chunk s = (s1, some n, b))
    (fun _ t => (t.die d).copies = (s1.die d).copies.map (fun x => if x.id = c.id then { x with ending := some n } else x) ∧
      ∀ a, t.byteAt a = s1.byteAt a)) ∧
  (∀ d e c, Happens (.copyChunk d e) (fun s => s.copyOn d e = some c ∧ c.ending = none ∧ c.holds s = false)
    (fun s t => (t.die d).copies = (s.die d).copies.map (fun x => if x.id = c.id then { x with ending := some 3 } else x) ∧
      ∀ a, t.byteAt a = s.byteAt a)) ∧
  (∀ d e c n, Happens (.copyEnd d e) (fun s => s.copyOn d e = some c ∧ c.ending = some n ∧ s.quiet (copyWho c.id) = true ∧
      (tfind s.teams c.team).isSome = true ∧ 1 < (s.team c.team).copies)
    (fun s t => let u := s.team c.team
      let q := (if u.paired then 4 * c.side else 0) + 2
      let h : BitVec 32 := BitVec.ofNat 32 (Block.dw c.block 10 31 0)
      (∀ x ∈ (t.die d).copies, x.id ≠ c.id) ∧ (t.team c.team).copies = u.copies - 1 ∧
      (Block.wantsWord c.block = true → (t.team c.team).readScratch (scratchKey c.side (Block.dw c.block 9 51 32)) 4 =
        (if n = 0 then Block.dw c.block 9 31 0 else 0xE0000000 + n) % 2 ^ 32) ∧
      (Block.wantsDec c.block = true → (t.die (bits h 14 12)).decrements = (s.die (bits h 14 12)).decrements ++ [⟨h, 1, none⟩]) ∧
      (Block.wantsPush c.block = true → u.saved = false → (tget [] u.queues q).length < 64 →
        tget [] (t.team c.team).queues q = tget [] u.queues q ++ [BitVec.ofNat 32 (n * 2 ^ 24 + fieldAt (c.engine.getD 0) 3 16 + Block.tag c.block +
          (if tget false u.lost q then 2 ^ 23 else 0))])))

/-- 15 R376, R378, R380, R382, R385 to R389: a doorbell is a decrement for its die's scheduler, or is dropped and counted; the scheduler applies the
oldest decrement it has: a waiting task's count falls, at 0 the task is ready, and a stale handle is counted; a team of the head task is
placed, its groups at the entry with every lane live, or a launch is stopped for it; priorities are computed again; a launch whose teams
have ended makes its completion write, sends its decrements and frees its slot with the next generation; a stopped team that has drained is
saved, and a saved team is restored, or a launch is stopped for it. -/
def Obligations.TaskEventsHappen : Prop :=
  (∀ t w v slot, Happens (.doorbell t w v) (fun s => s.doorbellOf t w = some slot ∧ w = 8 ∧ t % 8 = 0 ∧ bits v 47 16 = 0)
    (fun s u => ∃ h, (u.die (ownerDie t)).decrements = (s.die (ownerDie t)).decrements ++ [⟨h, bits v 15 0, none⟩] ∧
      bits h 11 0 = slot % 4096 ∧ bits h 31 16 = bits v 63 48)) ∧
  (∀ t w v slot, Happens (.doorbell t w v) (fun s => s.doorbellOf t w = some slot ∧ ¬(w = 8 ∧ t % 8 = 0 ∧ bits v 47 16 = 0))
    (fun s u => tget 0 u.counters ((22 * ownerDie t + 21) * 256 + 6) = (tget 0 s.counters ((22 * ownerDie t + 21) * 256 + 6) + 1) % 2 ^ 32 ∧
      ∀ d, (u.die d).decrements = (s.die d).decrements)) ∧
  (∀ d h n l k x, Happens (.decrement d) (fun s => (s.die d).decrements = ⟨h, n, none⟩ :: l ∧ s.live h = some (k, x) ∧ x.state = .waiting)
    (fun _ t => (t.die d).decrements = l ∧ (t.task k).launch = x.launch ∧ (t.task k).count = x.count - n ∧
      (t.task k).state = (if x.count ≤ n then .ready else .waiting))) ∧
  (∀ d h n l, Happens (.decrement d) (fun s => (s.die d).decrements = ⟨h, n, none⟩ :: l ∧ s.live h = none)
    (fun s t => (t.die d).decrements = l ∧ t.tasks = s.tasks ∧
      tget 0 t.counters ((22 * d + 21) * 256 + 4) = (tget 0 s.counters ((22 * d + 21) * 256 + 4) + 1) % 2 ^ 32)) ∧
  (∀ d k x, Happens (.teamDispatch d) (fun s => s.dispatch d = some (.place k x))
    (fun s t => let l := (s.task k).launch
      (t.task k).state = .running ∧ (t.task k).placed = (s.task k).placed + 1 ∧
      (t.team (teamKey k (s.task k).placed)).groups = x.gids ∧ (t.team (teamKey k (s.task k).placed)).core = x.core ∧
      ∀ gid ∈ x.gids, ∃ g, t.group? gid = some g ∧ g.stat = .ready ∧ g.ctx.pc = l.entry ∧ g.ctx.am = onesMask l.width ∧
        g.ctx.live = onesMask l.width ∧ g.ctx.gGet 0 = l.param ∧ g.team = teamKey k (s.task k).placed)) ∧
  (∀ d k, Happens (.teamDispatch d) (fun s => s.dispatch d = some (.stop k)) (fun s t => (t.task k).state = .preempted ∧ t.groups = s.groups)) ∧
  Happens .priorityRecompute (fun s => s.canRecompute = true ∧ trising s.tasks = true)
    (fun s t => (∀ e ∈ s.tasks, e.2.state ≠ .free → (t.task e.1).effective = s.effectiveOf e.2) ∧ t.groups = s.groups) ∧
  (∀ k, Happens (.launchCompletion k) (fun s => s.completes k = true ∧ ((s.task k).launch.doneAddr = 0 ∨ (s.task k).written = true))
    (fun s t => (t.task k).state = .free ∧ (t.task k).gen = ((s.task k).gen + 1) % 2 ^ 16 ∧ t.groups = s.groups ∧
      ∀ d, (t.die d).decrements = (s.die d).decrements ++
        ((s.task k).launch.succ.filter fun h => h ≠ 0 ∧ bits h 14 12 = d).map fun h => ⟨h, 1, none⟩)) ∧
  (∀ k s0 x, Happens (.launchCompletion k) (fun s => s.completes k = true ∧ (s.task k).launch.doneAddr ≠ 0 ∧ (s.task k).written = false ∧
      s0 = s.bringAll (s.scheduler k (16 * (k / 4096))) (16 * (k / 4096)) [((s.task k).launch.doneAddr.toNat, 4)] ∧
      s0.reachFor (s.scheduler k (16 * (k / 4096))) (16 * (k / 4096)) .write .write [((s.task k).launch.doneAddr.toNat, 4)] = .ok [x])
    (fun s t => let s1 := s0.performWrite (s.scheduler k (16 * (k / 4096))) x (s.task k).launch.doneValue.toNat false
      if s1.quiet (taskWho k) = true then (t.task k).state = .free ∧ (t.task k).gen = ((s.task k).gen + 1) % 2 ^ 16
      else (t.task k).written = true ∧ (t.task k).state = .completing)) ∧
  (∀ key s1, Happens (.teamPreemption key) (fun s => (tfind s.teams key).isSome = true ∧ s.stopping key = true ∧ s.teamDrained key = true ∧
      s1 = s.preemptTeam key ∧ (s1.team key).saved = true)
    (fun s t => (t.team key).saved = true ∧ (t.team key).groups = [] ∧ (∀ gid ∈ (s.team key).groups, t.group? gid = none) ∧
      key ∈ (t.task (s.team key).task).savedTeams)) ∧
  (∀ key core x s1, Happens (.teamRestore key core) (fun s => s.headSaved key core = true ∧ s.savedSeat key core = some x ∧
      s1 = s.restoreTeam key x ∧ (s1.team key).saved = false)
    (fun s t => (t.team key).saved = false ∧ (t.team key).core = x.core ∧ (t.team key).groups.length = (s.team key).savedGroups.length ∧
      (t.task (s.team key).task).state = .running)) ∧
  (∀ key core v, Happens (.teamRestore key core) (fun s => s.headSaved key core = true ∧ s.savedSeat key core = none ∧ s.savedSeatOn key = none ∧
      s.nextVictim (core / 16) (s.team key).task = some v)
    (fun s t => (t.task v).state = .preempted ∧ t.groups = s.groups))

/-- 16 R393 to R400: a package reset gives the reset state but for what is outside the package and its retired cores; an image is measured
or discarded with its reason; a step of bring-up passes or fails; the number command sets the package's number; a block is taken; the
start command names a bad field, or why the supervisor cannot start, or measures the supervisor object with its digest field read as 0, and
the package runs; a retired core is known. Four points are the model's choice: memory that nothing has written reads 0 (logs 4 and 15), the length of
the supervisor object and the fields of a kernel entry are opaque (log 26), and which ports train at step 3 is given (log 59). -/
def Obligations.StartUpEventsHappen : Prop :=
  Occurs .packageReset (fun _ => True)
    (fun s t => t = { State.reset with inputs := s.inputs, freeCtr := s.freeCtr + 1, chofer := { State.reset.chofer with retired := s.chofer.retired } }) ∧
  (∀ b, Occurs (.firmwareImage b) (fun s => s.chofer.status = 0 ∨ s.chofer.status = 2)
    (fun _ t => if imageCheck b = 0 then t.chofer.status = 3 ∧ t.chofer.m0 = Config.sha3x512 (signedBytes b)
      else t.chofer.status = 2 ∧ t.chofer.detail = 256 * imageCheck b)) ∧
  (∀ f, Occurs (.bringUp f) (fun s => s.chofer.status = 3 ∧ s.chofer.detail / 256 ≠ 3)
    (fun s t => match f with
      | some x => t.chofer.status = 5 ∧ t.chofer.detail = x.1 % 256 * 256 + x.2 % 256 ∧ ∀ k < 16, (t.port k).up = false
      | none => if s.chofer.detail / 256 < 5 then t.chofer.status = 3 ∧ t.chofer.detail = 256 * (s.chofer.detail / 256 + 1)
        else t.chofer.status = 4)) ∧
  Occurs (.bringUp none) (fun s => s.chofer.status = 3 ∧ s.chofer.detail / 256 = 3)
    (fun _ t => t.chofer.status = 3 ∧ t.chofer.detail = 256 * 4 ∧ ∀ k < 16, (t.port k).up = true) ∧
  (∀ n, Occurs (.numberCommand n) (fun s => s.chofer.status = 4 ∧ n < 256)
    (fun s t => t.chofer.package = n ∧ t.chofer.listGen = (s.chofer.listGen + 1) % 2 ^ 64 ∧ t.groups = s.groups)) ∧
  (∀ d b, Occurs (.configurationBlock d b) (fun s => (s.chofer.status = 4 ∨ s.chofer.status = 6) ∧ d < 8)
    (fun s t => tfind t.chofer.blocks d = some b ∧ ∀ k, k ≠ d → tfind t.chofer.blocks k = tfind s.chofer.blocks k)) ∧
  (∀ a v, Occurs (.startCommand a v) (fun s => s.chofer.status = 4 ∨ s.chofer.status = 6)
    (fun s t => match s.badField with
      | some x => t.chofer.status = 6 ∧ t.chofer.detail = 256 * x.1 + x.2 ∧ t.groups = s.groups
      | none =>
        let header := s.bytesAt a.toNat 0x80
        let object := s.bytesAt a.toNat (Config.objectLength header)
        let e := Config.kernelEntry (s.bytesAt (a.toNat + dwordAt header 0x20 / 2 ^ 32) 32)
        let s1 := (List.range 8).foldl (fun (st : State) d => st.programDie d) s
        if e.2.1 ≠ 0 ∧ e.2.1 ≠ 3 then t.chofer.status = 6 ∧ t.chofer.detail = 10 ∧ t.groups = s.groups
        else match s1.noSupervisor (v.toNat + e.1) e.2.2 with
        | some d => t.chofer.status = 6 ∧ t.chofer.detail = 256 * d + 10 ∧ t.groups = s.groups
        | none => t.chofer.status = 7 ∧ t.chofer.m3 = Config.sha3x512 (object.take 0x40 ++ List.replicate 64 0 ++ object.drop 0x80))) ∧
  (∀ c, Occurs (.retireCommand c) (fun s => c < 128 ∧ c ∉ s.chofer.retired)
    (fun s t => c ∈ t.chofer.retired ∧ (∀ x ∈ s.chofer.retired, x ∈ t.chofer.retired) ∧ t.chofer.listGen = (s.chofer.listGen + 1) % 2 ^ 64))

/-- 16 R409 to R416; 17 R426: a context is created with its rings and no participant; a participant is added; a launch is admitted into the
lowest free slot (the model's choice, log 33) and logged; a report is signed over its body; revocation takes a participant, parks its groups and ends its copies; a route
entry, throttling and the thermal shutdown. -/
def Obligations.ContextEventsHappen : Prop :=
  (∀ c, Occurs (.createContext c) (fun s => s.canCreate c = true)
    (fun s t => ∃ x, t.context c.ctx = some x ∧ x.quorum = c.quorum ∧ x.parts = [] ∧ x.rings.length = 4 ∧ x.log = [] ∧ t.groups = s.groups)) ∧
  (∀ c x, Occurs (.addParticipant c) (fun s => s.canAdd c = true ∧ s.context c.ctx = some x)
    (fun _ t => t.context c.ctx = some { x with parts := x.parts ++ [(c.part, c.digests)] })) ∧
  (∀ c x n, Occurs (.admitLaunch c) (fun s => s.canAdmit c = true ∧ s.context c.ctx = some x ∧ s.freeSlot c.die = some n)
    (fun _ t => (∃ y, t.context c.ctx = some y ∧ y.log = x.log ++ [c.digest]) ∧ (t.task (4096 * c.die + n)).launch = parseLaunch c.record ∧
      (t.task (4096 * c.die + n)).part = c.part ∧ (t.task (4096 * c.die + n)).state ≠ .free)) ∧
  (∀ ctx nonce x, Occurs (.attestationReport ctx nonce) (fun s => nonce.length = 64 ∧ s.context ctx = some x)
    (fun s t => t.chofer.report = s.reportBody ctx x nonce ++ (Config.mldsaSign (Config.sha3x512 (s.reportBody ctx x nonce))).toList)) ∧
  (∀ c x, Occurs (.revocation c) (fun s => s.canRevoke c = true ∧ s.context c.ctx = some x ∧ trising s.groups = true)
    (fun s t => (∃ y, t.context c.ctx = some y ∧ c.part ∈ y.revoked ∧ ∀ p ∈ y.parts, p.1 ≠ c.part) ∧
      (∀ e ∈ s.groups, s.isOf e.2.task c.ctx c.part = true → e.2.stat ≠ .ended → (∀ w b, e.2.stat ≠ .saved w b) → ParkedBy t e.1 0x13 1) ∧
      ∀ d, ∀ y ∈ (t.die d).copies, s.isOf y.task c.ctx c.part = true → y.ending = some 4)) ∧
  (∀ p a b, Occurs (.routeTableWrite p a b) (fun _ => p < 256 ∧ portOk a = true ∧ portOk b = true)
    (fun _ t => tfind t.chofer.routes p = if a.isNone ∧ b.isNone then none else some (a, b))) ∧
  (∀ on, Occurs (.powerThrottle on) (fun _ => True) (fun s t => t.chofer.throttle = on ∧ t.groups = s.groups)) ∧
  (∀ d, Occurs (.thermalShutdown d) (fun _ => d < 256)
    (fun _ t => t.chofer.stopped = true ∧ t.chofer.status = 5 ∧ t.chofer.detail = 256 * d ∧ t.host.opened = false))

/-! ### Events of the host link, the fabric and collectives (17) -/

/-- 17 R418 to R423: the host opens the link; a snoop is answered, with data when the sector is modified, and leaves its sector invalid,
shared or as it was; the host's answer fills a sector, in M after RdOwn, or completes a write; an evicted sector is invalid; a host read is answered with the
bytes of its pieces, those of an encrypted line zeros with poison, and a host write is performed and completed, one of another width than 8 bytes over a
doorbell being dropped and counted; and the answer to a back-invalidation snoop. That the host may hold exclusive what it has read is the model's
choice (log 27). -/
def Obligations.HostEventsHappen : Prop :=
  (∀ base, Happens (.cxlOpen base) (fun s => 4 ≤ s.chofer.status ∧ s.chofer.status ≠ 5)
    (fun _ t => t.host.opened = true ∧ t.host.hdmBase = base)) ∧
  (∀ h, Happens (.snpData h) (fun s => s.host.opened = true)
    (fun s t => let x := s.hostSector h
      t.host.sent = s.host.sent ++ [.snpResp (h / 64) (if x.state = .m then some x.data else none) (if x.state = .m then x.bad else 0)] ∧
      (t.hostSector h).state = (if x.state = .i then Mesi.i else .s))) ∧
  (∀ h, Happens (.snpInv h) (fun s => s.host.opened = true)
    (fun s t => let x := s.hostSector h
      t.host.sent = s.host.sent ++ [.snpResp (h / 64) (if x.state = .m then some x.data else none) (if x.state = .m then x.bad else 0)] ∧
      (t.hostSector h).state = .i)) ∧
  (∀ h, Happens (.snpCur h) (fun s => s.host.opened = true)
    (fun s t => let x := s.hostSector h
      t.host.sent = s.host.sent ++ [.snpResp (h / 64) (if x.state = .m then some x.data else none) (if x.state = .m then x.bad else 0)] ∧
      (t.hostSector h).state = x.state)) ∧
  (∀ h e data bad, Happens (.hostResponse h e data bad) (fun s => h / 64 ∈ s.host.asked ∧ data.length = 64)
    (fun s t => tfind t.host.sectors (h / 64) = some ⟨if h / 64 ∈ s.host.owning then .m else if e then .e else .s, data, bad⟩ ∧
      h / 64 ∉ t.host.asked)) ∧
  (∀ h e data bad w, Happens (.hostResponse h e data bad) (fun s => h / 64 ∉ s.host.asked ∧ s.host.writing.find? (fun x => x.1 = h / 64) = some w)
    (fun s t => t.host.writing = s.host.writing.erase w ∧ ∀ g, s.group? w.2 = some g → t.group? w.2 = some { g with acks := g.acks - 1 })) ∧
  (∀ h x, Happens (.hostSectorEviction h) (fun s => tfind s.host.sectors (h / 64) = some x ∧ x.state ≠ .i ∧ s.mesi h = x.state)
    (fun s t => tfind t.host.sectors (h / 64) = none ∧
      t.host.sent = s.host.sent ++ [if x.state = .m then .dirtyEvict (h / 64) x.data x.bad else .cleanEvict (h / 64)])) ∧
  (∀ addr n, Happens (.cxlMemRead addr n) (fun s => s.mapped addr n = true ∧ 0 < n)
    (fun s t => let r := s.hostBytes (s.hdm addr) n
      t.host.sent = s.host.sent ++ [.readData addr r.2.1 r.2.2] ∧ tfind t.host.held (s.hdm addr / 64) = some true ∧ t.groups = s.groups)) ∧
  (∀ addr n, Happens (.cxlMemRead addr n) (fun s => s.mapped addr n = true ∧ 0 < n ∧ s.hdm addr % 64 + n ≤ 64)
    (fun s t => let at_ := s.hdm addr
      let g := s.readSlice (ownerDie at_) 0 at_ n
      t.host.sent = s.host.sent ++ [if s.isEncrypted at_ then .readData addr (List.replicate n 0) true
        else .readData addr g.2.1 (decide (∃ c ∈ g.2.2, c ≠ 0))])) ∧
  (∀ addr data bad, Happens (.cxlMemWrite addr data bad) (fun s => s.mapped addr data.length = true)
    (fun s t => t.host.sent = s.host.sent ++ [.completion addr] ∧ t.groups = s.groups ∧
      ∀ a, t.byteAt a = (s.hostStore (s.hdm addr) data bad).byteAt a)) ∧
  (∀ addr data bad, Happens (.cxlMemWrite addr data bad) (fun s => s.mapped addr data.length = true ∧ 0 < data.length ∧
      s.hdm addr % 64 + data.length ≤ 64 ∧ data.length ≠ 8 ∧ s.isEncrypted (s.hdm addr) = false ∧ inChofer (s.hdm addr) = false ∧
      (s.doorbellOf (s.hdm addr) data.length).isSome = true ∧
      s.acting = 0)
    (fun s t => t.host.sent = s.host.sent ++ [.completion addr] ∧ t.diesT = s.diesT ∧ (∀ a, t.byteAt a = s.byteAt a) ∧
      let k := (22 * ownerDie (s.hdm addr) + 21) * 256 + 6
      tget 0 t.counters k = (tget 0 s.counters k + 1) % 2 ^ 32)) ∧
  (∀ sec inv, Happens (.biSnoopResponse sec) (fun s => tfind s.host.snooping sec = some inv ∧ ∀ c ∈ s.cores, ∀ x ∈ c.2.wanted, x.1 ≠ sec)
    (fun _ t => tfind t.host.snooping sec = none ∧ tfind t.host.held sec = if inv then none else some false))

/-- 17 R424 to R429; 16 R393, R399: a flit of a revoked participant is dropped and counted, and so is one for this package that does not open; a flit
for another package goes on with one hop more, or is dropped and counted after eight or without a route; a
request for this package waits at the slice of its die; a response or an acknowledgement ends the access that its tag names; a neighbour's
number is kept; a resend is counted, and the sixteenth of one transfer that fails takes the port down; the accesses that wait at a port
that goes down and are not delivered yet, and one that has waited 2²⁴ clk, end as they could not be delivered. Which of them are delivered is a free
value (log 28), the event's code is presumed (log 60), and that the link from the sending package is no hop is the model's choice (log 80). -/
def Obligations.FabricEventsHappen : Prop :=
  let far := fun (x : Trans) => x.ack = false ∧ ¬(2 ^ 42 ≤ x.who ∧ x.who < 2 ^ 42 + 128)
  (∀ k f j, Happens (.flitReceive k f) (fun s => s.canReceive k f = true ∧ f.kind ∈ [1, 2, 3, 4] ∧ channelOf f.kind = some f.channel ∧
      s.refused f = false ∧ f.dst ≠ s.chofer.package ∧ f.hops < 8 ∧ s.route f.dst = some j)
    (fun s t => (t.port j).sent = (s.port j).sent ++ [{ f with hops := f.hops + 1, sequence := (s.port j).sequence % 2 ^ 32 }])) ∧
  (∀ k f, Happens (.flitReceive k f) (fun s => s.canReceive k f = true ∧ f.kind ∈ [1, 2, 3, 4] ∧ channelOf f.kind = some f.channel ∧
      s.refused f = false ∧ f.dst ≠ s.chofer.package ∧ (8 ≤ f.hops ∨ s.route f.dst = none))
    (fun s t => tget 0 (t.port k).counts 1 = tget 0 (s.port k).counts 1 + 1 ∧ ∀ j, (t.port j).sent = (s.port j).sent)) ∧
  (∀ k f, Happens (.flitReceive k f) (fun s => s.canReceive k f = true ∧ f.kind ∈ [1, 2, 3, 4] ∧ channelOf f.kind = some f.channel ∧
      s.refused f = true)
    (fun s t => tget 0 (t.port k).counts 3 = tget 0 (s.port k).counts 3 + 1 ∧ ∀ j, (t.port j).sent = (s.port j).sent)) ∧
  (∀ k f, Happens (.flitReceive k f) (fun s => s.canReceive k f = true ∧ f.kind ∈ [1, 2, 3, 4] ∧ channelOf f.kind = some f.channel ∧
      s.refused f = false ∧ f.dst = s.chofer.package ∧ s.opens f = false)
    (fun s t => tget 0 (t.port k).counts 2 = tget 0 (s.port k).counts 2 + 1 ∧ t.replies = s.replies ∧ t.diesT = s.diesT ∧
      (f.kind = 2 → ∀ x ∈ (t.port (f.tag / 2 ^ 28)).waiting, x.tag = f.tag → x.failed = true))) ∧
  (∀ k f r, Happens (.flitReceive k f) (fun s => s.canReceive k f = true ∧ f.kind = 1 ∧ f.channel = 0 ∧ f.dst = s.chofer.package ∧ f.ctx = 0 ∧
      f.body = .request r ∧ r.target < hbmEnd)
    (fun s t => ∃ x, (t.die (ownerDie r.target)).requests = (s.die (ownerDie r.target)).requests ++ [x] ∧ x.target = r.target ∧ x.op = r.op ∧
      x.package = f.src ∧ x.tag = f.tag)) ∧
  (∀ k f v bad x, Happens (.flitReceive k f) (fun s => s.canReceive k f = true ∧ f.kind = 2 ∧ f.channel = 1 ∧ f.dst = s.chofer.package ∧ f.ctx = 0 ∧
      f.body = .response v bad ∧ s.trans f.tag = some x ∧ far x)
    (fun s t => t.replies = s.replies ++ [⟨x.who, x.va, v, bad, x.atom, x.package, x.target, x.stale⟩] ∧ ∀ y ∈ (t.port (x.tag / 2 ^ 28)).waiting, y.tag ≠ x.tag)) ∧
  (∀ k f x g, Happens (.flitReceive k f) (fun s => s.canReceive k f = true ∧ f.kind = 3 ∧ f.channel = 1 ∧ f.dst = s.chofer.package ∧ f.ctx = 0 ∧
      f.body = .ack ∧ s.trans f.tag = some x ∧ x.ack = true ∧ s.group? x.who = some g)
    (fun _ t => t.group? x.who = some { g with acks := g.acks - 1 } ∧ ∀ y ∈ (t.port (x.tag / 2 ^ 28)).waiting, y.tag ≠ x.tag)) ∧
  (∀ k f n, Happens (.flitReceive k f) (fun s => s.canReceive k f = true ∧ f.kind = 5 ∧ f.channel = 3 ∧ f.body = .management n)
    (fun s t => (t.port k).neighbour = some n ∧ ((t.port k).up = false ↔ s.chofer.status = 7 ∧ n = s.chofer.package))) ∧
  (∀ k failed, Happens (.flitResend ⟨k, failed⟩) (fun _ => k < 16)
    (fun s t => tget 0 (t.port k).counts 0 = tget 0 (s.port k).counts 0 + 1 ∧
      if failed ∧ 15 ≤ (s.port k).resends then (t.port k).up = false
      else (t.port k).up = (s.port k).up ∧ (t.port k).resends = (if failed then (s.port k).resends + 1 else 0))) ∧
  (∀ k, Happens (.portDown k) (fun s => (s.port k).up = true ∧ ∀ x ∈ (s.port k).waiting, x.tag / 2 ^ 28 = k)
    (fun s t => (t.port k).up = false ∧ (evPortDown, k) ∈ t.chofer.events ∧
      ∀ x ∈ (s.port k).waiting.zipIdx, if s.undelivered x.2 then (∀ y ∈ (t.port k).waiting, y.tag ≠ x.1.tag) ∧ (far x.1 →
          (⟨x.1.who, x.1.va, 0, if x.1.failed then 8 else 7, x.1.atom, x.1.package, x.1.target, x.1.stale⟩ : Reply) ∈ t.replies)
        else (∀ y ∈ (s.port k).waiting.zipIdx, y.1.tag = x.1.tag → s.undelivered y.2 = false) → x.1 ∈ (t.port k).waiting)) ∧
  (∀ k tag x, Happens (.accessTimeout k tag) (fun s => s.expired k tag = some x ∧ x.tag / 2 ^ 28 = k ∧ far x)
    (fun s t => (∀ y ∈ (t.port k).waiting, y.tag ≠ x.tag) ∧ t.replies = s.replies ++ 
      [⟨x.who, x.va, 0, if x.failed then 8 else 7, x.atom, x.package, x.target, x.stale⟩])) ∧
  (∀ k tag x g, Happens (.accessTimeout k tag) (fun s => s.expired k tag = some x ∧ x.tag / 2 ^ 28 = k ∧ x.ack = true ∧ s.group? x.who = some g)
    (fun _ t => (∀ y ∈ (t.port k).waiting, y.tag ≠ x.tag) ∧ t.group? x.who = some { g with acks := g.acks - 1 }))

/-- 17 R431, R432, R436 to R439: a processor takes the oldest block handed to it, which ends with the first check that it fails, or runs with its
contribution sent, its generation being the group's; a contribution that is not stale is kept and a stale one is counted; the package's
results are written before the hand-off word, which is written once those are acknowledged; a collective that ends writes its status and
leaves its processor, with the actions that its block asks for. The order in which the checks read the blocks, with that of a rank named twice before
those of one block alone, is the model's choice (log 56). -/
def Obligations.CollectiveEventsHappen : Prop :=
  (∀ k h r vs s1, Happens (.collectiveAccept k) (fun s => TakesBlock s k h r vs s1 ∧ s1.runsRank k (CBlock.ofWords vs) = true)
    (fun _ t => Enters t k h r (CBlock.ofWords vs) (some (2, 0)))) ∧
  (∀ k h r vs s1, Happens (.collectiveAccept k) (fun s => TakesBlock s k h r vs s1 ∧ s1.runsRank k (CBlock.ofWords vs) = false ∧
      (CBlock.alone (CBlock.ofWords vs) = 1 ∨ CBlock.alone (CBlock.ofWords vs) = 2))
    (fun _ t => Enters t k h r (CBlock.ofWords vs) (some (1, CBlock.alone (CBlock.ofWords vs))))) ∧
  (∀ k h r vs s1 st, Happens (.collectiveAccept k) (fun s => TakesBlock s k h r vs s1 ∧ s1.runsRank k (CBlock.ofWords vs) = false ∧
      CBlock.alone (CBlock.ofWords vs) ≠ 1 ∧ CBlock.alone (CBlock.ofWords vs) ≠ 2 ∧
      s1.readTable (s.collEngine k h.gid h.team h.task) (coreOf h.gid) (CBlock.ofWords vs) = .bad st)
    (fun _ t => let b := CBlock.ofWords vs
      Enters t k h r b (some (if CBlock.alone b ≠ 0 then (1, CBlock.alone b) else (st, CBlock.rank b))))) ∧
  (∀ k h r vs s1 s2 ts, Happens (.collectiveAccept k) (fun s => TakesBlock s k h r vs s1 ∧ s1.runsRank k (CBlock.ofWords vs) = false ∧
      CBlock.alone (CBlock.ofWords vs) ≠ 1 ∧ CBlock.alone (CBlock.ofWords vs) ≠ 2 ∧
      s1.readTable (s.collEngine k h.gid h.team h.task) (coreOf h.gid) (CBlock.ofWords vs) = .ok s2 ts ∧
      s.checkOf (CBlock.ofWords vs) h.gid ts ≠ 0)
    (fun s t => Enters t k h r (CBlock.ofWords vs) (some (1, s.checkOf (CBlock.ofWords vs) h.gid ts)))) ∧
  (∀ k h r vs s1 ts s2 s3 c, Happens (.collectiveAccept k) (fun s => TakesBlock s k h r vs s1 ∧ s1.runsRank k (CBlock.ofWords vs) = false ∧
      (let w := s.collEngine k h.gid h.team h.task
       let b := CBlock.ofWords vs
       let t := ts.map (BitVec.ofNat 32 ·)
       CBlock.alone b = 0 ∧ s1.readTable w (coreOf h.gid) b = .ok s2 ts ∧ s.checkOf b h.gid ts = 0 ∧
       s2.revokedRank w.ctx t = none ∧ s2.readSends w (coreOf h.gid) b t = (s3, some c)))
    (fun _ t => let b := CBlock.ofWords vs
      Enters t k h r b none ∧ tfind (t.port k).generations (CBlock.group b) = some (CBlock.generation b) ∧ c ∈ (t.port k).early)) ∧
  (∀ k c, Happens (.collectiveFlit k c) (fun s => (s.port k).holds c = true)
    (fun s t => match tfind (s.port k).generations c.group with
      | some g => if stale g c.generation then (t.port k).early = (s.port k).early ∧ tget 0 (t.port k).counts 4 = tget 0 (s.port k).counts 4 + 1
        else (t.port k).early = (s.port k).early ++ [c]
      | none => (t.port k).early = (s.port k).early ++ [c])) ∧
  (∀ k n c cs s1, Happens (.handoff k n) (fun s => s.canHandOff k n = true ∧ s.coll k n = some c ∧ c.lowered = false ∧
      gather (s.contributions (CBlock.group c.block) (CBlock.generation c.block)) (s.packageRanks c.table) = some cs ∧
      s.storeWords (s.collEngine k c.gid c.team c.task) (coreOf c.gid) (resultWrites c.block (results c.block s.freeCtr cs true)) = .ok s1 ∧
      (s1.setColl k n { c with lowered := true }).quiet (collWho k) = false ∧ n < (s1.port k).running.length)
    (fun _ t => t.coll k n = some { c with lowered := true } ∧ ∀ a, t.byteAt a = s1.byteAt a)) ∧
  (∀ k n c cs s1, Happens (.handoff k n) (fun s => s.canHandOff k n = true ∧ s.coll k n = some c ∧ c.lowered = true ∧
      gather (s.contributions (CBlock.group c.block) (CBlock.generation c.block)) (s.packageRanks c.table) = some cs ∧
      (s.setColl k n { c with lowered := true }).storeWords (s.collEngine k c.gid c.team c.task) (coreOf c.gid)
        [(CBlock.handAddr c.block % 2 ^ 56, 8, CBlock.generation c.block * 2 ^ 48 + CBlock.group c.block * 2 ^ 32 + 2 ^ 24)] = .ok s1 ∧
      n < (s1.port k).running.length)
    (fun _ t => t.coll k n = some { c with lowered := true, handoff := true } ∧ ∀ a, t.byteAt a = s1.byteAt a)) ∧
  (∀ k n c st d s1 s2, Happens (.collectiveEnd k n) (fun s => s.coll k n = some c ∧ s.verdict c = some (.error (st, d)) ∧ st ≠ 5 ∧
      s.quiet (collWho k) = true ∧
      s1 = s.setColl k n { c with status := some (st, d) } ∧
      s1.actColl k n 1 [((c.addr.toNat + 0x58) % 2 ^ 56, 8, st * 2 ^ 56 + d % 2 ^ 16 * 2 ^ 32)] = (s2, true) ∧
      CBlock.flag c.block 0 = false ∧ CBlock.flag c.block 2 = false)
    (fun _ t => (t.port k).running = (s2.port k).running.eraseIdx n ∧ (∀ a, t.byteAt a = s2.byteAt a) ∧
      (CBlock.flag c.block 1 = true → let h : BitVec 32 := BitVec.ofNat 32 (CBlock.handle c.block)
        (t.die (bits h 14 12)).decrements = (s2.die (bits h 14 12)).decrements ++ [⟨h, 1, none⟩]))) ∧
  (∀ k n c st d s1 s2 s3, Happens (.collectiveEnd k n) (fun s => s.coll k n = some c ∧ s.verdict c = some (.error (st, d)) ∧ st ≠ 5 ∧
      s.quiet (collWho k) = true ∧
      s1 = s.setColl k n { c with status := some (st, d) } ∧
      s1.actColl k n 1 [((c.addr.toNat + 0x58) % 2 ^ 56, 8, st * 2 ^ 56 + d % 2 ^ 16 * 2 ^ 32)] = (s2, true) ∧
      s2.actColl k n 2 (if CBlock.flag c.block 0 ∧ CBlock.doneAddr c.block ≠ 0 then [(CBlock.doneAddr c.block, 4,
        if st = 0 then CBlock.doneValue c.block else 0xE0000000 + st)] else []) = (s3, true) ∧
      CBlock.flag c.block 1 = false ∧ CBlock.flag c.block 2 = true)
    (fun _ t => let s4 := s3.pushStatus k c.team c.side (st * 2 ^ 24 + CBlock.tag c.block)
      (t.port k).running = (s4.port k).running.eraseIdx n ∧ t.team c.team = s4.team c.team ∧ ∀ a, t.byteAt a = s3.byteAt a)) ∧
  (∀ k n c cs s1, Happens (.collectiveEnd k n) (fun s => s.coll k n = some c ∧ s.verdict c = some (.ok cs) ∧ s.quiet (collWho k) = true ∧
      s.storeWords (s.collEngine k c.gid c.team c.task) (coreOf c.gid) (resultWrites c.block (c.loosen (fun i => s.free (0x1D0000 + i % 0x10000))
        (results c.block s.freeCtr cs false))) = .ok s1 ∧
      (s1.setColl k n { c with status := some (0, 0) }).quiet (collWho k) = false ∧ n < (s1.port k).running.length)
    (fun _ t => t.coll k n = some { c with status := some (0, 0) } ∧ ∀ a, t.byteAt a = s1.byteAt a))

/-! ### The fetch that gives no instruction -/

/-- 01 R31, 03 R81, R82: a fetch that gives no instruction parks the group that fetches with the fault's class and code; nothing else of the
group's registers changes but FPSR, to which earlier results' flags are written. -/
def Obligations.BadFetchParks : Prop :=
  ∀ (why : FetchFault) (gid : Nat) (g : Group), Occurs (.nonInstructionFetch why)
    (fun s => s.cur = some gid ∧ s.group? gid = some g ∧ g.ra = none ∧ (fetchFlt why).1.cls < 256 ∧ (fetchFlt why).1.code < 65536)
    (fun s t => ParkedBy t gid (fetchFlt why).1.cls (fetchFlt why).1.code ∧ (∀ j, j ≠ gid → t.group? j = s.group? j) ∧
      ∃ g', t.group? gid = some g' ∧ g'.ctx = { g.ctx with fpsr := g.ctx.fpsr ||| flagsOf g.outst })

/-! ### Rules of the spec stated whole, and the faults of instructions -/

/-- 04 R119: NOP has no effect; BRK with an executing lane parks the group with a debug-stop record, class 0x12, code 0x0001, with those lanes
set and the restartable bit 0. -/
def Obligations.NopAndBreakComplete : Prop :=
  Completes .nop (fun _ _ => True) (fun s i t => Leaves s i i.next i.ctx t) ∧
  Completes .brk (fun _ i => i.lanes = 0) (fun s i t => Leaves s i i.next i.ctx t) ∧
  Completes .brk (fun _ i => i.lanes ≠ 0) (fun _ i t => ParkedBy t i.gid 0x12 1 ∧
    ∃ g' r, t.group? i.gid = some g' ∧ g'.fault = some r ∧ bits (r.words.getD 0 0) 10 10 = 0 ∧ r.restartable = false ∧
      r.words.getD 4 0 = i.lanes.extractLsb' 0 64 ∧ r.words.getD 5 0 = i.lanes.extractLsb' 64 64)

/-- 03 R72: BRA and CALL that are taken continue at PC + 4 × sext(off21), with PC the address of their own first word, whether or not an
extension word follows; the target lies within −4 MiB to +4 MiB − 4 of that word, and an offset of 0 targets the instruction itself. -/
def Obligations.FormJTargets : Prop :=
  ∀ o ∈ [Op.bra, .call], Completes o (fun _ i => i.f.g = 0 ∨ i.lanes ≠ 0)
    (fun _ i t => (∃ g', t.group? i.gid = some g' ∧ g'.ctx.pc = i.pc + BitVec.ofInt 56 (4 * i.f.off21.toInt) ∧
        (i.f.off21 = 0 → g'.ctx.pc = i.pc)) ∧
      -(4 * 2 ^ 20) ≤ 4 * i.f.off21.toInt ∧ 4 * i.f.off21.toInt ≤ 4 * 2 ^ 20 - 4)

/-- 03 R80: a supervisor-only sub-op that user code issues parks its group with a privilege fault, code 0x0001, whatever lanes execute, and
has no effect: no register of the group but FPSR, to which earlier results' flags are written, no other group, team, task, core, unit or
cluster changes, and no memory but the ring of fault records, which receives the record, or counts it where it is full. -/
def Obligations.PrivilegeFault : Prop :=
  ∀ (s : State) (gid : Nat) (g : Group) (o : Op) (f : Fields), s.cur = some gid → s.group? gid = some g → g.ra = none →
    supervisorOnly o = true → (s.launchOf g).super = false →
    ∃ t, exec (.of o f) s = .next t ∧ ParkedBy t gid 0xF 1 ∧
      (∃ g', t.group? gid = some g' ∧ g'.ctx = { g.ctx with fpsr := g.ctx.fpsr ||| flagsOf g.outst }) ∧
      (∀ j, j ≠ gid → t.group? j = s.group? j) ∧ t.teams = s.teams ∧ t.tasks = s.tasks ∧ t.cores = s.cores ∧ t.units = s.units ∧
      t.clusters = s.clusters ∧ ((s.launchOf g).ctx = 0 → (s.die (dieOf gid)).faultRing = none → ∀ a, t.byteAt a = s.byteAt a) ∧
      ((s.launchOf g).ctx = 0 → ∀ r, (s.die (dieOf gid)).faultRing = some r → (∀ p ∈ (s.die (dieOf gid)).pending, p.ctx ≠ 0) →
        ∃ g' x, t.group? gid = some g' ∧ g'.fault = some x ∧ ∀ a, t.byteAt a = (match s.ringWrite (dieOf gid) 0 r 64 x.words with
          | some y => y.1
          | none => s.ringFull (dieOf gid) 0 r).byteAt a)

/-- 01 R16, R18, R19, R21, R23; 08 R211: an integer instruction with an illegal operand parks its group with the first of them, class 0x03;
a load or store whose operands are legal and ready and one of whose addresses is misaligned parks its group, class 0x04, code 0x0001;
and each leaves the group's registers, but FPSR, to which earlier results' flags are written. Which faults precede which is read so where the spec gives
no order (log 18). -/
def Obligations.OperandAndAlignmentFaults : Prop :=
  (∀ o ∈ [Op.sub, .mul, .mulh], ∀ x : Flt,
    Completes o (fun _ i => pickFault (operandFaults i [intSrc i.f.a i.ty, intSrc i.f.b i.ty] (intDst i.f.d i.ty)) = some x ∧
        queueSource [intSrc i.f.a i.ty, intSrc i.f.b i.ty] = none)
      (fun _ i t => x.cls = 3 ∧ ParkedBy t i.gid 3 (x.code % 65536) ∧
        ∃ g', t.group? i.gid = some g' ∧ g'.ctx = { i.ctx with fpsr := i.ctx.fpsr ||| flagsOf i.g.outst })) ∧
  (∀ o ∈ [Op.ld, .ild, .st, .ist],
    Completes o (fun s i => i.g.acquiring = false ∧
        let srcs := memSrcs i ++ (if o = .st ∨ o = .ist then [storeSrc i] else [])
        let d := if o = .st ∨ o = .ist then Dst.none else loadDst i
        let lanes := if o = .st ∨ o = .ist then i.list else i.compute d
        let a := if o = .st ∨ o = .ist then Acc.write else .read
        let xs := accessesOf s i srcs lanes
        queueSource srcs = none ∧ memFaults s i lanes srcs d = [] ∧ (∃ x ∈ xs, x.va % memWidth i.ty ≠ 0) ∧
        ∀ y ∈ foundFaults (xs.map (s.locate i a)), classRank 4 < classRank y.cls)
      (fun _ i t => ParkedBy t i.gid 4 1 ∧
        ∃ g', t.group? i.gid = some g' ∧ g'.ctx = { i.ctx with fpsr := i.ctx.fpsr ||| flagsOf i.g.outst }))

/-- 01 R31 to R33, R458: taking a fault parks the group, whose registers and PC stay, with a record of its class, code, context, PC, place,
launch, address space, lanes and address; the record goes to its die, whole or in a confidential context without what is withheld. That a withheld record
keeps its bit 10 is the model's reading (log 41). -/
def Obligations.FaultRecordContents : Prop :=
  ∀ (s : State) (gid : Nat) (g : Group) (x : Flt) (n : Option Nat), x.cls < 256 → x.code < 65536 → (s.launchOf g).ctx < 4096 →
    let t := s.takeFault gid g x n
    (∃ g' r, t.group? gid = some g' ∧ g'.stat = .parkedFault ∧ g'.ctx = { g.ctx with fpsr := g.ctx.fpsr ||| flagsOf g.outst } ∧ g'.fault = some r ∧
      r.length = n ∧ r.restartable = restartable x.cls x.code ∧
      bits (r.words.getD 0 0) 7 0 = x.cls ∧ bits (r.words.getD 0 0) 31 16 = x.code ∧ bits (r.words.getD 0 0) 63 32 = (s.launchOf g).ctx ∧
      bits (r.words.getD 0 0) 10 10 = (restartable x.cls x.code).toNat ∧ bits (r.words.getD 0 0) 8 8 = (addrValid x.cls x.code).toNat ∧
      r.words.getD 1 0 = g.ctx.pc.setWidth 64 ∧ r.words.getD 2 0 = s.ident gid g ∧
      r.words.getD 4 0 = x.lanes.extractLsb' 0 64 ∧ r.words.getD 5 0 = x.lanes.extractLsb' 64 64 ∧
      bits (r.words.getD 3 0) 31 0 = (s.handle g.task).toNat ∧ bits (r.words.getD 3 0) 59 48 = (s.launchOf g).asid % 2 ^ 12 ∧
      r.words.getD 6 0 = (if addrValid x.cls x.code then BitVec.ofNat 64 (x.addr.getD 0 % 2 ^ 56) else 0) ∧
      ((s.launchOf g).ctx = 0 → (s.die (dieOf gid)).faultRing = none →
        (t.die (dieOf gid)).pending = (s.die (dieOf gid)).pending ++ [⟨0, r.words⟩]) ∧
      ((s.launchOf g).ctx ≠ 0 → s.ctxRing (s.launchOf g).ctx 0 = none → (s.die (dieOf gid)).faultRing = none →
        (t.die (dieOf gid)).pending = (s.die (dieOf gid)).pending ++ [⟨(s.launchOf g).ctx, r.words⟩, ⟨0, withheld r.words⟩])) ∧
    (∀ j, j ≠ gid → t.group? j = s.group? j) ∧ t.teams = s.teams ∧ t.units = s.units ∧
    ((s.launchOf g).ctx = 0 → (s.die (dieOf gid)).faultRing = none → ∀ a, t.byteAt a = s.byteAt a)

/-! ### Encoding, the step, reset, and the form of memory -/

/-- 03 R62 to R81: the decoder reads from an instruction's words that instruction, with every field at every value its encoding admits. -/
def Obligations.DecodeEncode : Prop :=
  ∀ (o : Op) (f : Fields), wfFields o f = true → decodeWords (encode (.of o f)) = .ok (.of o f)

/-- 03 R62, R64, R81: an instruction that the decoder reads is well formed, and its words are those it was read from: the first, and the
second when X = 1. -/
def Obligations.EncodeDecode : Prop :=
  ∀ (w0 w1 : W32) (i : Instr), decode w0 w1 = .ok i → i.wf = true ∧ encode i = if xField w0 then [w0, w1] else [w0]

/-- 03 Tables 3.1, 3.2, 3.10, 3.11: words written out bit by bit decode to the instructions they stand for. -/
def Obligations.DecodesSpecWords : Prop :=
  decode 0 0 = .ok (.nop ⟨false, 0, 0, 0, 0, false, 0, false, false, false, 0, 0⟩) ∧
  -- op 0x01, X 0, S 1, G 2, d 3, a 5, b 0x70
  decode 0b000001_0_1_010_0000011_0000101_1110000 0 = .ok (.add ⟨true, 2, 3, 5, 0x70, false, 0, false, false, false, 0, 0⟩) ∧
  -- op 0x31, off21 −1
  decode 0b110001_0_0_000_111111111111111111111 0 = .ok (.bra ⟨false, 0, 0x7F, 0x7F, 0x7F, false, 0, false, false, false, 0, 0⟩) ∧
  -- op 0x0E with d[6:3] = 5 (.ge), d[2:0] = 4
  decode 0b001110_0_0_000_0101100_0000001_0000010 0 = .ok (.cmp ⟨false, 0, 0x2C, 1, 2, false, 0, false, false, false, 0, 0⟩) ∧
  -- op 0x06 with an extension word of type .s32 (4) and opx 1
  decode 0b000110_1_0_000_0000001_0000010_0000011 0b111111_00_0_0_0_0000000_00100_000_0_0_0001 =
    .ok (.rem ⟨false, 0, 1, 2, 3, true, 0, false, false, false, 0, 0x801⟩) ∧
  -- X = 1 and no extension word; a first word with op 0x3F; an unlisted sub-op; FFMA without its extension word
  decode 0b000001_1_0_000_0000001_0000010_0000011 0 = .error (.illegal 1 true) ∧
  decode 0xFFFFFFFF 0 = .error (.boundary 2) ∧
  decode 0b000000_0_0_000_0000000_0000000_1111111 0 = .error (.illegal 2 false) ∧
  decode 0b010110_0_0_000_0000001_0000010_0000011 0 = .error (.illegal 5 false)

/-- A step runs what it fetches (log 3, log 9): with no input waiting and a group selected, the words that its fetch gives at its PC decode to
the instruction that exec runs; where the PC is mapped to plain memory of the package that the group's buffer does not hold, those words are
what memory holds. An input, or an event of the model's agenda, is run in its place, a fetch that waits leaves what it has asked for, and a clk in
which nothing more can happen passes. -/
def Obligations.StepRunsDecoded : Prop :=
  (∀ (s : State) (gid : Nat) (g : Group) (s2 : State) (g2 : Group) (w0 : W32), s.inputs = [] →
    s.turn.action = .issue (s.turn.issueNext gid) → s.turn.group? gid = some g → s.turn.isRevoked g = false →
    (s.turn.wake gid g).fetchWord gid g 0 g.ctx.pc = .word s2 g2 w0 → opField w0 ≠ 0x3F →
      (xField w0 = false → ∀ i, decode w0 0 = .ok i → step s = exec i (s2.setGroup gid g2)) ∧
      (xField w0 = true → ∀ s3 g3 w1, s2.fetchWord gid g2 1 (g.ctx.pc + 4) = .word s3 g3 w1 → ∀ i, decode w0 w1 = .ok i →
        step s = exec i (s3.setGroup gid g3))) ∧
  (∀ (s s1 : State), s.inputs = [] → s.turn.action = .issue (.wait s1) → step s = .next { s1 with freeCtr := s1.freeCtr + 1 }) ∧
  (∀ (s : State) (e : Instr) (r : List Instr), s.inputs = e :: r →
    step s = if comesFromOutside e then exec e (State.actFor { s.turn with inputs := r } e) else .next { s.turn with inputs := r }) ∧
  (∀ (s : State) (e : Instr), s.inputs = [] → s.turn.action = .event e → step s = exec e (s.turn.actFor e)) ∧
  (∀ (s : State) (e : Instr), s.inputs = [] → s.turn.action = .ask e →
    step s = exec e (State.actFor { s.turn with asked := s.turn.clock } e)) ∧
  (∀ s : State, s.inputs = [] → s.turn.action = .idle → step s = .next s.turn) ∧
  (∀ (s : State) (gid : Nat) (g : Group) (n : Nat) (va : Addr) (t : Nat) (e : RangeEntry),
    s.xlat gid g .fetch 4 va.toNat = .ok (.hbm t) (some e) → s.ask (s.fetcher gid g) .read .read ⟨⟨0, va.toNat, 4⟩, .hbm t, some e⟩ = none →
    e.image.enc = false → tget 0 s.owners (t / 256) = 0 → (∀ i < 4, inChofer (t + i) = false ∧ s.doorbellOf (t + i) 1 = none) →
    s.linked (dieOf gid) (ownerDie t) = true → (∀ d, ∀ p ∈ (s.die d).partials, p.line ≠ t / 256) → s.makeWay (ownerDie t) (t / 256) = s →
    s.anyPoison t 4 = false → tfind g.ibuf va.toNat = none →
    ∃ s1 g1, s.fetchWord gid g n va = .word s1 g1 (BitVec.ofNat 32 (s.readMem t 4)) ∧ g1.ctx = g.ctx)

/-- 16 R393: right after package reset no group, team or task is there, the clock is 0, every slice is invalid, no range is cached, the links
are closed, and Chofer awaits an image. That unlisted memory reads 0 is the model's choice (log 4), and so are the registers that the spec
gives no value (log 15). Memory has its canonical form. -/
def Obligations.ResetValues : Prop :=
  (∀ gid, State.reset.group? gid = none) ∧ (∀ k, tfind State.reset.teams k = none) ∧ (∀ k, (State.reset.task k).state = .free ∧ (State.reset.task k).gen = 0) ∧
  State.reset.clock = 0 ∧ (∀ n, tget false State.reset.present n = false) ∧ (∀ a, State.reset.byteAt a = 0) ∧
  (∀ c, (State.reset.core c).rtable = [] ∧ (State.reset.core c).sampling = 0) ∧ (∀ u, (State.reset.unit u).holder = none) ∧
  State.reset.host.opened = false ∧ (∀ p, (State.reset.port p).up = false) ∧ State.reset.chofer.status = 0 ∧ State.reset.chofer.m0 = 0 ∧
  (∀ c, State.reset.context c = none) ∧ (∀ n, tget 0 State.reset.counters n = 0) ∧ Memory.wf State.reset = true

/-- Every step keeps the canonical form of the lists that hold memory: keys strictly rise, and no entry of HBM or of the poison marks equals
what an unlisted one reads as. -/
def Obligations.StepKeepsMemoryForm : Prop :=
  ∀ s t : State, Memory.wf s = true → step s = .next t → Memory.wf t = true
end

