-- ==== Sys2Proof/Laws/Encoding.lean ====
section
/-! SUPPORT. Laws of the encoding (03 Tables 3.1, 3.2): each field of a word that the encoder makes. -/

namespace Sys2Proof

theorem extract_high {n m : Nat} (x : BitVec n) (y : BitVec m) (k w : Nat) (h : m ≤ k) :
    (x ++ y).extractLsb' k w = x.extractLsb' (k - m) w := by
  ext i hi
  rw [← BitVec.getLsbD_eq_getElem, ← BitVec.getLsbD_eq_getElem]
  simp only [BitVec.getLsbD_extractLsb', BitVec.getLsbD_append, hi, decide_true, Bool.true_and]
  rw [if_neg (by omega)]
  congr 1; omega

theorem extract_low {n m : Nat} (x : BitVec n) (y : BitVec m) (k w : Nat) (h : k + w ≤ m) :
    (x ++ y).extractLsb' k w = y.extractLsb' k w := by
  ext i hi
  rw [← BitVec.getLsbD_eq_getElem, ← BitVec.getLsbD_eq_getElem]
  simp only [BitVec.getLsbD_extractLsb', BitVec.getLsbD_append, hi, decide_true, Bool.true_and]
  rw [if_pos (by omega)]

theorem extract_all {n : Nat} (x : BitVec n) : x.extractLsb' 0 n = x := BitVec.extractLsb'_eq_self

theorem bit_high {n m : Nat} (x : BitVec n) (y : BitVec m) (k : Nat) (h : m ≤ k) : (x ++ y).getLsbD k = x.getLsbD (k - m) := by
  rw [BitVec.getLsbD_append, if_neg (by omega)]

theorem bit_low {n m : Nat} (x : BitVec n) (y : BitVec m) (k : Nat) (h : k < m) : (x ++ y).getLsbD k = y.getLsbD k := by
  rw [BitVec.getLsbD_append, if_pos h]

theorem bit_ofBool (b : Bool) : (BitVec.ofBool b).getLsbD 0 = b := by cases b <;> rfl

theorem opcode_lt (o : Op) : o.opcode < 63 := by cases o <;> decide

/-- Nothing of a first word is lost: what the decoder reads in it is what the encoder put there. -/
theorem read_encodeFirst (o : Op) (f : Fields) :
    opField (encodeFirst o f) = o.opcode ∧ xField (encodeFirst o f) = f.x ∧ (encodeFirst o f).getLsbD 24 = f.s ∧
      (encodeFirst o f).extractLsb' 21 3 = f.g ∧ (encodeFirst o f).extractLsb' 14 7 = f.d ∧
      (encodeFirst o f).extractLsb' 7 7 = f.a ∧ (encodeFirst o f).extractLsb' 0 7 = f.b := by
  have hop : (BitVec.ofNat 6 o.opcode).toNat = o.opcode :=
    (BitVec.toNat_ofNat ..).trans (Nat.mod_eq_of_lt (Nat.lt_succ_of_lt (opcode_lt o)))
  unfold opField xField encodeFirst
  refine ⟨?_, ?_, ?_, ?_, ?_, ?_, ?_⟩
  · rw [extract_high _ _ _ _ (by decide), extract_all, hop]
  · rw [bit_low _ _ _ (by decide), bit_high _ _ _ (by decide), bit_ofBool]
  · rw [bit_low _ _ _ (by decide), bit_low _ _ _ (by decide), bit_high _ _ _ (by decide), bit_ofBool]
  · rw [extract_low _ _ _ _ (by decide), extract_low _ _ _ _ (by decide), extract_low _ _ _ _ (by decide), extract_high _ _ _ _ (by decide), extract_all]
  · rw [extract_low _ _ _ _ (by decide), extract_low _ _ _ _ (by decide), extract_low _ _ _ _ (by decide), extract_low _ _ _ _ (by decide), extract_high _ _ _ _ (by decide), extract_all]
  · rw [extract_low _ _ _ _ (by decide), extract_low _ _ _ _ (by decide), extract_low _ _ _ _ (by decide), extract_low _ _ _ _ (by decide), extract_low _ _ _ _ (by decide), extract_high _ _ _ _ (by decide), extract_all]
  · rw [extract_low _ _ _ _ (by decide), extract_low _ _ _ _ (by decide), extract_low _ _ _ _ (by decide), extract_low _ _ _ _ (by decide), extract_low _ _ _ _ (by decide), extract_low _ _ _ _ (by decide), extract_all]

/-- Nothing of an extension word is lost. -/
theorem read_encodeExt (f : Fields) :
    opField (encodeExt f) = 0x3F ∧ (encodeExt f).extractLsb' 24 2 = f.gm ∧ (encodeExt f).getLsbD 23 = f.la ∧ (encodeExt f).getLsbD 22 = f.lb ∧
      (encodeExt f).getLsbD 21 = f.lc ∧ (encodeExt f).extractLsb' 14 7 = f.c ∧ (encodeExt f).extractLsb' 0 14 = f.mod := by
  unfold opField encodeExt
  refine ⟨?_, ?_, ?_, ?_, ?_, ?_, ?_⟩
  · rw [extract_high _ _ _ _ (by decide), extract_all]; rfl
  · rw [extract_low _ _ _ _ (by decide), extract_high _ _ _ _ (by decide), extract_all]
  · rw [bit_low _ _ _ (by decide), bit_low _ _ _ (by decide), bit_high _ _ _ (by decide), bit_ofBool]
  · rw [bit_low _ _ _ (by decide), bit_low _ _ _ (by decide), bit_low _ _ _ (by decide), bit_high _ _ _ (by decide), bit_ofBool]
  · rw [bit_low _ _ _ (by decide), bit_low _ _ _ (by decide), bit_low _ _ _ (by decide), bit_low _ _ _ (by decide), bit_high _ _ _ (by decide), bit_ofBool]
  · rw [extract_low _ _ _ _ (by decide), extract_low _ _ _ _ (by decide), extract_low _ _ _ _ (by decide), extract_low _ _ _ _ (by decide), extract_low _ _ _ _ (by decide), extract_high _ _ _ _ (by decide), extract_all]
  · rw [extract_low _ _ _ _ (by decide), extract_low _ _ _ _ (by decide), extract_low _ _ _ _ (by decide), extract_low _ _ _ _ (by decide), extract_low _ _ _ _ (by decide), extract_low _ _ _ _ (by decide), extract_all]

/-- The decoder's fields of an encoded instruction are its fields. -/
theorem fieldsOf_encode (o : Op) (f : Fields) (h : f.canonical = true) :
    fieldsOf (encodeFirst o f) (if f.x then encodeExt f else 0) = f := by
  obtain ⟨-, hx, hs, hg, hd, ha, hb⟩ := read_encodeFirst o f
  obtain ⟨-, em, el, eb, ec, ef, en⟩ := read_encodeExt f
  unfold fieldsOf
  unfold xField at hx
  simp only [hx, hs, hg, hd, ha, hb]
  cases hxx : f.x with
  | true => simp only [if_true, em, el, eb, ec, ef, en, Bool.true_and]; rw [← hxx]
  | false =>
    obtain ⟨s, g, d, a, b, x, gm, la, lb, lc, c, m⟩ := f
    simp only at hxx; subst hxx
    simp [Fields.canonical] at h
    simp [h]

end Sys2Proof
end

