-- ==== Sys2Proof/Laws/Table.lean ====
section
/-! SUPPORT. Laws of sparse tables: reading after writing, and the canonical form. -/

namespace Sys2Proof.Machine

variable {α : Type}

@[simp] theorem tfind_nil (k : Nat) : tfind ([] : Table α) k = none := rfl

theorem tfind_tdel_same (t : Table α) (k : Nat) : tfind (tdel t k) k = none := by
  induction t with
  | nil => rfl
  | cons e r ih => obtain ⟨j, v⟩ := e; simp only [tdel]; split <;> simp_all [tfind]

theorem tfind_tdel_other (t : Table α) {k j : Nat} (h : j ≠ k) : tfind (tdel t k) j = tfind t j := by
  induction t with
  | nil => rfl
  | cons e r ih => obtain ⟨i, v⟩ := e; simp only [tdel, tfind]; split <;> rename_i hi <;> simp_all [tfind]; intro hij; omega

theorem tfind_tins_same (t : Table α) (k : Nat) (v : α) (h : tfind t k = none) : tfind (tins t k v) k = some v := by
  induction t with
  | nil => simp [tins, tfind]
  | cons e r ih =>
    obtain ⟨i, w⟩ := e
    simp only [tins]
    split
    · simp [tfind]
    · have hi : i ≠ k := by intro hik; simp [tfind, hik] at h
      simp [tfind, hi] at h ⊢
      exact ih h

theorem tfind_tins_other (t : Table α) {k j : Nat} (v : α) (h : j ≠ k) : tfind (tins t k v) j = tfind t j := by
  induction t with
  | nil => simp [tins, tfind]; omega
  | cons e r ih =>
    obtain ⟨i, w⟩ := e
    simp only [tins]
    split
    · simp [tfind]; omega
    · simp [tfind, ih]

/-- A key reads as the value put there. -/
@[simp] theorem tfind_tput_same (t : Table α) (k : Nat) (v : α) : tfind (tput t k v) k = some v :=
  tfind_tins_same _ _ _ (tfind_tdel_same t k)

/-- Every other key reads as before. -/
theorem tfind_tput_other (t : Table α) {k j : Nat} (v : α) (h : j ≠ k) : tfind (tput t k v) j = tfind t j := by
  rw [tput, tfind_tins_other _ v h, tfind_tdel_other _ h]

theorem tfind_tput (t : Table α) (k j : Nat) (v : α) : tfind (tput t k v) j = if j = k then some v else tfind t j := by
  by_cases h : j = k
  · simp [h]
  · simp [h, tfind_tput_other]

/-- What tmod does to a key. -/
theorem tfind_tmod (t : Table α) (k j : Nat) (f : α → α) :
    tfind (tmod t k f) j = if j = k then (tfind t k).map f else tfind t j := by
  unfold tmod
  by_cases h : j = k
  · subst h; cases hk : tfind t j <;> simp [hk]
  · cases hk : tfind t k <;> simp [h, tfind_tput_other]

section Default
variable [DecidableEq α]

@[simp] theorem tget_tset_same (d : α) (t : Table α) (k : Nat) (v : α) : tget d (tset d t k v) k = v := by
  unfold tset tget; split
  · simp_all [tfind_tdel_same]
  · simp

theorem tget_tset_other (d : α) (t : Table α) {k j : Nat} (v : α) (h : j ≠ k) : tget d (tset d t k v) j = tget d t j := by
  unfold tset tget; split
  · rw [tfind_tdel_other _ h]
  · rw [tfind_tput_other _ _ h]

theorem tget_tset (d : α) (t : Table α) (k j : Nat) (v : α) : tget d (tset d t k v) j = if j = k then v else tget d t j := by
  by_cases h : j = k
  · simp [h]
  · simp [h, tget_tset_other]

end Default

/-! ### The canonical form -/

/-- Every key of a table is above a bound. -/
def above (n : Nat) (t : Table α) : Prop := ∀ e ∈ t, n < e.1

theorem trising_cons (j : Nat) (v : α) (t : Table α) : trising ((j, v) :: t) = true ↔ above j t ∧ trising t = true := by
  induction t generalizing j v with
  | nil => simp [trising, above]
  | cons e r ih =>
    obtain ⟨k, w⟩ := e
    simp only [trising, Bool.and_eq_true, decide_eq_true_eq]
    constructor
    · rintro ⟨h, hr⟩
      refine ⟨?_, hr⟩
      intro x hx
      rcases List.mem_cons.1 hx with rfl | hx
      · exact h
      · have := (ih k w).1 hr |>.1 x hx; omega
    · rintro ⟨h, hr⟩; exact ⟨h (k, w) (by simp), hr⟩

theorem mem_tdel {t : Table α} {k : Nat} {e : Nat × α} (h : e ∈ tdel t k) : e ∈ t ∧ e.1 ≠ k := by
  induction t with
  | nil => simp [tdel] at h
  | cons x r ih =>
    obtain ⟨j, v⟩ := x
    simp only [tdel] at h
    split at h
    · exact ⟨List.mem_cons_of_mem _ (ih h).1, (ih h).2⟩
    · rcases List.mem_cons.1 h with rfl | h
      · simp; assumption
      · exact ⟨List.mem_cons_of_mem _ (ih h).1, (ih h).2⟩

theorem mem_tins {t : Table α} {k : Nat} {v : α} {e : Nat × α} (h : e ∈ tins t k v) : e = (k, v) ∨ e ∈ t := by
  induction t with
  | nil => simpa [tins] using h
  | cons x r ih =>
    obtain ⟨j, w⟩ := x
    simp only [tins] at h
    split at h
    · simpa using h
    · rcases List.mem_cons.1 h with rfl | h
      · simp
      · rcases ih h with h | h
        · exact .inl h
        · exact .inr (List.mem_cons_of_mem _ h)

theorem trising_tdel {t : Table α} (k : Nat) (h : trising t = true) : trising (tdel t k) = true := by
  induction t with
  | nil => rfl
  | cons x r ih =>
    obtain ⟨j, v⟩ := x
    rw [trising_cons] at h
    simp only [tdel]
    split
    · exact ih h.2
    · rw [trising_cons]; exact ⟨fun e he => h.1 e (mem_tdel he).1, ih h.2⟩

theorem trising_tins {t : Table α} (k : Nat) (v : α) (h : trising t = true) (hk : ∀ e ∈ t, e.1 ≠ k) : trising (tins t k v) = true := by
  induction t with
  | nil => rfl
  | cons x r ih =>
    obtain ⟨j, w⟩ := x
    have h' := (trising_cons j w r).1 h
    simp only [tins]
    split
    · rename_i hlt
      rw [trising_cons]
      refine ⟨fun e he => ?_, h⟩
      rcases List.mem_cons.1 he with rfl | he
      · exact hlt
      · have := h'.1 e he; omega
    · have hj := hk (j, w) (by simp)
      simp only [ne_eq] at hj
      rw [trising_cons]
      refine ⟨fun e he => ?_, ih h'.2 fun e he => hk e (List.mem_cons_of_mem _ he)⟩
      rcases mem_tins he with rfl | he
      · simp; omega
      · exact h'.1 e he

/-- Putting a value keeps the keys strictly rising. -/
theorem trising_tput {t : Table α} (k : Nat) (v : α) (h : trising t = true) : trising (tput t k v) = true :=
  trising_tins k v (trising_tdel k h) fun _ he => (mem_tdel he).2

theorem trising_tmod {t : Table α} (k : Nat) (f : α → α) (h : trising t = true) : trising (tmod t k f) = true := by
  unfold tmod; split
  · exact trising_tput _ _ h
  · exact h

theorem trising_filter {t : Table α} (p : Nat × α → Bool) (h : trising t = true) : trising (t.filter p) = true := by
  induction t with
  | nil => rfl
  | cons x r ih =>
    obtain ⟨j, v⟩ := x
    rw [trising_cons] at h
    rw [List.filter_cons]
    split
    · rw [trising_cons]; exact ⟨fun e he => h.1 e (List.mem_filter.1 he).1, ih h.2⟩
    · exact ih h.2

/-- Writing a value, or the unlisted one, keeps the canonical form. -/
theorem twf_tset [DecidableEq α] {d : α} {t : Table α} (k : Nat) (v : α) (h : twf d t = true) : twf d (tset d t k v) = true := by
  simp only [twf, Bool.and_eq_true, List.all_eq_true, decide_eq_true_eq] at h ⊢
  unfold tset
  split
  · exact ⟨trising_tdel k h.1, fun e he => h.2 e (mem_tdel he).1⟩
  · refine ⟨trising_tput k v h.1, fun e he => ?_⟩
    rcases mem_tins he with rfl | he
    · simpa
    · exact h.2 e (mem_tdel he).1

theorem twf_filter [DecidableEq α] {d : α} {t : Table α} (p : Nat × α → Bool) (h : twf d t = true) : twf d (t.filter p) = true := by
  simp only [twf, Bool.and_eq_true, List.all_eq_true, decide_eq_true_eq] at h ⊢
  exact ⟨trising_filter p h.1, fun e he => h.2 e (List.mem_filter.1 he).1⟩

end Sys2Proof.Machine
end

