-- ==== Sys2Proof/Laws/State.lean ====
section
/-! SUPPORT. What each update of the state changes and what it leaves: one lemma per field per update. -/

namespace Sys2Proof.Machine

variable (s : State)

@[simp] theorem State.setGroup_inputs (gid : Nat) (g : Group) : (s.setGroup gid g).inputs = s.inputs := rfl
@[simp] theorem State.setGroup_clock (gid : Nat) (g : Group) : (s.setGroup gid g).clock = s.clock := rfl
@[simp] theorem State.setGroup_cur (gid : Nat) (g : Group) : (s.setGroup gid g).cur = s.cur := rfl
@[simp] theorem State.setGroup_freeCtr (gid : Nat) (g : Group) : (s.setGroup gid g).freeCtr = s.freeCtr := rfl
@[simp] theorem State.setGroup_acting (gid : Nat) (g : Group) : (s.setGroup gid g).acting = s.acting := rfl
@[simp] theorem State.setGroup_nextStamp (gid : Nat) (g : Group) : (s.setGroup gid g).nextStamp = s.nextStamp := rfl
@[simp] theorem State.setGroup_nextOrder (gid : Nat) (g : Group) : (s.setGroup gid g).nextOrder = s.nextOrder := rfl
@[simp] theorem State.setGroup_nextCopy (gid : Nat) (g : Group) : (s.setGroup gid g).nextCopy = s.nextCopy := rfl
@[simp] theorem State.setGroup_teams (gid : Nat) (g : Group) : (s.setGroup gid g).teams = s.teams := rfl
@[simp] theorem State.setGroup_tasks (gid : Nat) (g : Group) : (s.setGroup gid g).tasks = s.tasks := rfl
@[simp] theorem State.setGroup_cores (gid : Nat) (g : Group) : (s.setGroup gid g).cores = s.cores := rfl
@[simp] theorem State.setGroup_units (gid : Nat) (g : Group) : (s.setGroup gid g).units = s.units := rfl
@[simp] theorem State.setGroup_clusters (gid : Nat) (g : Group) : (s.setGroup gid g).clusters = s.clusters := rfl
@[simp] theorem State.setGroup_diesT (gid : Nat) (g : Group) : (s.setGroup gid g).diesT = s.diesT := rfl
@[simp] theorem State.setGroup_counters (gid : Nat) (g : Group) : (s.setGroup gid g).counters = s.counters := rfl
@[simp] theorem State.setGroup_hbm (gid : Nat) (g : Group) : (s.setGroup gid g).hbm = s.hbm := rfl
@[simp] theorem State.setGroup_llc (gid : Nat) (g : Group) : (s.setGroup gid g).llc = s.llc := rfl
@[simp] theorem State.setGroup_present (gid : Nat) (g : Group) : (s.setGroup gid g).present = s.present := rfl
@[simp] theorem State.setGroup_poison (gid : Nat) (g : Group) : (s.setGroup gid g).poison = s.poison := rfl
@[simp] theorem State.setGroup_deadWords (gid : Nat) (g : Group) : (s.setGroup gid g).deadWords = s.deadWords := rfl
@[simp] theorem State.setGroup_sealBad (gid : Nat) (g : Group) : (s.setGroup gid g).sealBad = s.sealBad := rfl
@[simp] theorem State.setGroup_owners (gid : Nat) (g : Group) : (s.setGroup gid g).owners = s.owners := rfl
@[simp] theorem State.setGroup_sealedLines (gid : Nat) (g : Group) : (s.setGroup gid g).sealedLines = s.sealedLines := rfl
@[simp] theorem State.setGroup_cLines (gid : Nat) (g : Group) : (s.setGroup gid g).cLines = s.cLines := rfl
@[simp] theorem State.setGroup_moves (gid : Nat) (g : Group) : (s.setGroup gid g).moves = s.moves := rfl
@[simp] theorem State.setGroup_spoilt (gid : Nat) (g : Group) : (s.setGroup gid g).spoilt = s.spoilt := rfl
@[simp] theorem State.setGroup_respoken (gid : Nat) (g : Group) : (s.setGroup gid g).respoken = s.respoken := rfl
@[simp] theorem State.setGroup_needs (gid : Nat) (g : Group) : (s.setGroup gid g).needs = s.needs := rfl
@[simp] theorem State.setGroup_asked (gid : Nat) (g : Group) : (s.setGroup gid g).asked = s.asked := rfl
@[simp] theorem State.setGroup_replies (gid : Nat) (g : Group) : (s.setGroup gid g).replies = s.replies := rfl
@[simp] theorem State.setGroup_host (gid : Nat) (g : Group) : (s.setGroup gid g).host = s.host := rfl
@[simp] theorem State.setGroup_ports (gid : Nat) (g : Group) : (s.setGroup gid g).ports = s.ports := rfl
@[simp] theorem State.setGroup_chofer (gid : Nat) (g : Group) : (s.setGroup gid g).chofer = s.chofer := rfl

@[simp] theorem State.modGroup_inputs (gid : Nat) (f : Group → Group) : (s.modGroup gid f).inputs = s.inputs := rfl
@[simp] theorem State.modGroup_clock (gid : Nat) (f : Group → Group) : (s.modGroup gid f).clock = s.clock := rfl
@[simp] theorem State.modGroup_cur (gid : Nat) (f : Group → Group) : (s.modGroup gid f).cur = s.cur := rfl
@[simp] theorem State.modGroup_freeCtr (gid : Nat) (f : Group → Group) : (s.modGroup gid f).freeCtr = s.freeCtr := rfl
@[simp] theorem State.modGroup_acting (gid : Nat) (f : Group → Group) : (s.modGroup gid f).acting = s.acting := rfl
@[simp] theorem State.modGroup_nextStamp (gid : Nat) (f : Group → Group) : (s.modGroup gid f).nextStamp = s.nextStamp := rfl
@[simp] theorem State.modGroup_nextOrder (gid : Nat) (f : Group → Group) : (s.modGroup gid f).nextOrder = s.nextOrder := rfl
@[simp] theorem State.modGroup_nextCopy (gid : Nat) (f : Group → Group) : (s.modGroup gid f).nextCopy = s.nextCopy := rfl
@[simp] theorem State.modGroup_teams (gid : Nat) (f : Group → Group) : (s.modGroup gid f).teams = s.teams := rfl
@[simp] theorem State.modGroup_tasks (gid : Nat) (f : Group → Group) : (s.modGroup gid f).tasks = s.tasks := rfl
@[simp] theorem State.modGroup_cores (gid : Nat) (f : Group → Group) : (s.modGroup gid f).cores = s.cores := rfl
@[simp] theorem State.modGroup_units (gid : Nat) (f : Group → Group) : (s.modGroup gid f).units = s.units := rfl
@[simp] theorem State.modGroup_clusters (gid : Nat) (f : Group → Group) : (s.modGroup gid f).clusters = s.clusters := rfl
@[simp] theorem State.modGroup_diesT (gid : Nat) (f : Group → Group) : (s.modGroup gid f).diesT = s.diesT := rfl
@[simp] theorem State.modGroup_counters (gid : Nat) (f : Group → Group) : (s.modGroup gid f).counters = s.counters := rfl
@[simp] theorem State.modGroup_hbm (gid : Nat) (f : Group → Group) : (s.modGroup gid f).hbm = s.hbm := rfl
@[simp] theorem State.modGroup_llc (gid : Nat) (f : Group → Group) : (s.modGroup gid f).llc = s.llc := rfl
@[simp] theorem State.modGroup_present (gid : Nat) (f : Group → Group) : (s.modGroup gid f).present = s.present := rfl
@[simp] theorem State.modGroup_poison (gid : Nat) (f : Group → Group) : (s.modGroup gid f).poison = s.poison := rfl
@[simp] theorem State.modGroup_deadWords (gid : Nat) (f : Group → Group) : (s.modGroup gid f).deadWords = s.deadWords := rfl
@[simp] theorem State.modGroup_sealBad (gid : Nat) (f : Group → Group) : (s.modGroup gid f).sealBad = s.sealBad := rfl
@[simp] theorem State.modGroup_owners (gid : Nat) (f : Group → Group) : (s.modGroup gid f).owners = s.owners := rfl
@[simp] theorem State.modGroup_sealedLines (gid : Nat) (f : Group → Group) : (s.modGroup gid f).sealedLines = s.sealedLines := rfl
@[simp] theorem State.modGroup_cLines (gid : Nat) (f : Group → Group) : (s.modGroup gid f).cLines = s.cLines := rfl
@[simp] theorem State.modGroup_moves (gid : Nat) (f : Group → Group) : (s.modGroup gid f).moves = s.moves := rfl
@[simp] theorem State.modGroup_spoilt (gid : Nat) (f : Group → Group) : (s.modGroup gid f).spoilt = s.spoilt := rfl
@[simp] theorem State.modGroup_respoken (gid : Nat) (f : Group → Group) : (s.modGroup gid f).respoken = s.respoken := rfl
@[simp] theorem State.modGroup_needs (gid : Nat) (f : Group → Group) : (s.modGroup gid f).needs = s.needs := rfl
@[simp] theorem State.modGroup_asked (gid : Nat) (f : Group → Group) : (s.modGroup gid f).asked = s.asked := rfl
@[simp] theorem State.modGroup_replies (gid : Nat) (f : Group → Group) : (s.modGroup gid f).replies = s.replies := rfl
@[simp] theorem State.modGroup_host (gid : Nat) (f : Group → Group) : (s.modGroup gid f).host = s.host := rfl
@[simp] theorem State.modGroup_ports (gid : Nat) (f : Group → Group) : (s.modGroup gid f).ports = s.ports := rfl
@[simp] theorem State.modGroup_chofer (gid : Nat) (f : Group → Group) : (s.modGroup gid f).chofer = s.chofer := rfl

@[simp] theorem State.setTeam_inputs (k : Nat) (v : Team) : (s.setTeam k v).inputs = s.inputs := rfl
@[simp] theorem State.setTeam_clock (k : Nat) (v : Team) : (s.setTeam k v).clock = s.clock := rfl
@[simp] theorem State.setTeam_cur (k : Nat) (v : Team) : (s.setTeam k v).cur = s.cur := rfl
@[simp] theorem State.setTeam_freeCtr (k : Nat) (v : Team) : (s.setTeam k v).freeCtr = s.freeCtr := rfl
@[simp] theorem State.setTeam_acting (k : Nat) (v : Team) : (s.setTeam k v).acting = s.acting := rfl
@[simp] theorem State.setTeam_nextStamp (k : Nat) (v : Team) : (s.setTeam k v).nextStamp = s.nextStamp := rfl
@[simp] theorem State.setTeam_nextOrder (k : Nat) (v : Team) : (s.setTeam k v).nextOrder = s.nextOrder := rfl
@[simp] theorem State.setTeam_nextCopy (k : Nat) (v : Team) : (s.setTeam k v).nextCopy = s.nextCopy := rfl
@[simp] theorem State.setTeam_groups (k : Nat) (v : Team) : (s.setTeam k v).groups = s.groups := rfl
@[simp] theorem State.setTeam_tasks (k : Nat) (v : Team) : (s.setTeam k v).tasks = s.tasks := rfl
@[simp] theorem State.setTeam_cores (k : Nat) (v : Team) : (s.setTeam k v).cores = s.cores := rfl
@[simp] theorem State.setTeam_units (k : Nat) (v : Team) : (s.setTeam k v).units = s.units := rfl
@[simp] theorem State.setTeam_clusters (k : Nat) (v : Team) : (s.setTeam k v).clusters = s.clusters := rfl
@[simp] theorem State.setTeam_diesT (k : Nat) (v : Team) : (s.setTeam k v).diesT = s.diesT := rfl
@[simp] theorem State.setTeam_counters (k : Nat) (v : Team) : (s.setTeam k v).counters = s.counters := rfl
@[simp] theorem State.setTeam_hbm (k : Nat) (v : Team) : (s.setTeam k v).hbm = s.hbm := rfl
@[simp] theorem State.setTeam_llc (k : Nat) (v : Team) : (s.setTeam k v).llc = s.llc := rfl
@[simp] theorem State.setTeam_present (k : Nat) (v : Team) : (s.setTeam k v).present = s.present := rfl
@[simp] theorem State.setTeam_poison (k : Nat) (v : Team) : (s.setTeam k v).poison = s.poison := rfl
@[simp] theorem State.setTeam_deadWords (k : Nat) (v : Team) : (s.setTeam k v).deadWords = s.deadWords := rfl
@[simp] theorem State.setTeam_sealBad (k : Nat) (v : Team) : (s.setTeam k v).sealBad = s.sealBad := rfl
@[simp] theorem State.setTeam_owners (k : Nat) (v : Team) : (s.setTeam k v).owners = s.owners := rfl
@[simp] theorem State.setTeam_sealedLines (k : Nat) (v : Team) : (s.setTeam k v).sealedLines = s.sealedLines := rfl
@[simp] theorem State.setTeam_cLines (k : Nat) (v : Team) : (s.setTeam k v).cLines = s.cLines := rfl
@[simp] theorem State.setTeam_moves (k : Nat) (v : Team) : (s.setTeam k v).moves = s.moves := rfl
@[simp] theorem State.setTeam_spoilt (k : Nat) (v : Team) : (s.setTeam k v).spoilt = s.spoilt := rfl
@[simp] theorem State.setTeam_respoken (k : Nat) (v : Team) : (s.setTeam k v).respoken = s.respoken := rfl
@[simp] theorem State.setTeam_needs (k : Nat) (v : Team) : (s.setTeam k v).needs = s.needs := rfl
@[simp] theorem State.setTeam_asked (k : Nat) (v : Team) : (s.setTeam k v).asked = s.asked := rfl
@[simp] theorem State.setTeam_replies (k : Nat) (v : Team) : (s.setTeam k v).replies = s.replies := rfl
@[simp] theorem State.setTeam_host (k : Nat) (v : Team) : (s.setTeam k v).host = s.host := rfl
@[simp] theorem State.setTeam_ports (k : Nat) (v : Team) : (s.setTeam k v).ports = s.ports := rfl
@[simp] theorem State.setTeam_chofer (k : Nat) (v : Team) : (s.setTeam k v).chofer = s.chofer := rfl

@[simp] theorem State.setTask_inputs (k : Nat) (v : Task) : (s.setTask k v).inputs = s.inputs := rfl
@[simp] theorem State.setTask_clock (k : Nat) (v : Task) : (s.setTask k v).clock = s.clock := rfl
@[simp] theorem State.setTask_cur (k : Nat) (v : Task) : (s.setTask k v).cur = s.cur := rfl
@[simp] theorem State.setTask_freeCtr (k : Nat) (v : Task) : (s.setTask k v).freeCtr = s.freeCtr := rfl
@[simp] theorem State.setTask_acting (k : Nat) (v : Task) : (s.setTask k v).acting = s.acting := rfl
@[simp] theorem State.setTask_nextStamp (k : Nat) (v : Task) : (s.setTask k v).nextStamp = s.nextStamp := rfl
@[simp] theorem State.setTask_nextOrder (k : Nat) (v : Task) : (s.setTask k v).nextOrder = s.nextOrder := rfl
@[simp] theorem State.setTask_nextCopy (k : Nat) (v : Task) : (s.setTask k v).nextCopy = s.nextCopy := rfl
@[simp] theorem State.setTask_groups (k : Nat) (v : Task) : (s.setTask k v).groups = s.groups := rfl
@[simp] theorem State.setTask_teams (k : Nat) (v : Task) : (s.setTask k v).teams = s.teams := rfl
@[simp] theorem State.setTask_cores (k : Nat) (v : Task) : (s.setTask k v).cores = s.cores := rfl
@[simp] theorem State.setTask_units (k : Nat) (v : Task) : (s.setTask k v).units = s.units := rfl
@[simp] theorem State.setTask_clusters (k : Nat) (v : Task) : (s.setTask k v).clusters = s.clusters := rfl
@[simp] theorem State.setTask_diesT (k : Nat) (v : Task) : (s.setTask k v).diesT = s.diesT := rfl
@[simp] theorem State.setTask_counters (k : Nat) (v : Task) : (s.setTask k v).counters = s.counters := rfl
@[simp] theorem State.setTask_hbm (k : Nat) (v : Task) : (s.setTask k v).hbm = s.hbm := rfl
@[simp] theorem State.setTask_llc (k : Nat) (v : Task) : (s.setTask k v).llc = s.llc := rfl
@[simp] theorem State.setTask_present (k : Nat) (v : Task) : (s.setTask k v).present = s.present := rfl
@[simp] theorem State.setTask_poison (k : Nat) (v : Task) : (s.setTask k v).poison = s.poison := rfl
@[simp] theorem State.setTask_deadWords (k : Nat) (v : Task) : (s.setTask k v).deadWords = s.deadWords := rfl
@[simp] theorem State.setTask_sealBad (k : Nat) (v : Task) : (s.setTask k v).sealBad = s.sealBad := rfl
@[simp] theorem State.setTask_owners (k : Nat) (v : Task) : (s.setTask k v).owners = s.owners := rfl
@[simp] theorem State.setTask_sealedLines (k : Nat) (v : Task) : (s.setTask k v).sealedLines = s.sealedLines := rfl
@[simp] theorem State.setTask_cLines (k : Nat) (v : Task) : (s.setTask k v).cLines = s.cLines := rfl
@[simp] theorem State.setTask_moves (k : Nat) (v : Task) : (s.setTask k v).moves = s.moves := rfl
@[simp] theorem State.setTask_spoilt (k : Nat) (v : Task) : (s.setTask k v).spoilt = s.spoilt := rfl
@[simp] theorem State.setTask_respoken (k : Nat) (v : Task) : (s.setTask k v).respoken = s.respoken := rfl
@[simp] theorem State.setTask_needs (k : Nat) (v : Task) : (s.setTask k v).needs = s.needs := rfl
@[simp] theorem State.setTask_asked (k : Nat) (v : Task) : (s.setTask k v).asked = s.asked := rfl
@[simp] theorem State.setTask_replies (k : Nat) (v : Task) : (s.setTask k v).replies = s.replies := rfl
@[simp] theorem State.setTask_host (k : Nat) (v : Task) : (s.setTask k v).host = s.host := rfl
@[simp] theorem State.setTask_ports (k : Nat) (v : Task) : (s.setTask k v).ports = s.ports := rfl
@[simp] theorem State.setTask_chofer (k : Nat) (v : Task) : (s.setTask k v).chofer = s.chofer := rfl

@[simp] theorem State.setCore_inputs (k : Nat) (v : CoreSt) : (s.setCore k v).inputs = s.inputs := rfl
@[simp] theorem State.setCore_clock (k : Nat) (v : CoreSt) : (s.setCore k v).clock = s.clock := rfl
@[simp] theorem State.setCore_cur (k : Nat) (v : CoreSt) : (s.setCore k v).cur = s.cur := rfl
@[simp] theorem State.setCore_freeCtr (k : Nat) (v : CoreSt) : (s.setCore k v).freeCtr = s.freeCtr := rfl
@[simp] theorem State.setCore_acting (k : Nat) (v : CoreSt) : (s.setCore k v).acting = s.acting := rfl
@[simp] theorem State.setCore_nextStamp (k : Nat) (v : CoreSt) : (s.setCore k v).nextStamp = s.nextStamp := rfl
@[simp] theorem State.setCore_nextOrder (k : Nat) (v : CoreSt) : (s.setCore k v).nextOrder = s.nextOrder := rfl
@[simp] theorem State.setCore_nextCopy (k : Nat) (v : CoreSt) : (s.setCore k v).nextCopy = s.nextCopy := rfl
@[simp] theorem State.setCore_groups (k : Nat) (v : CoreSt) : (s.setCore k v).groups = s.groups := rfl
@[simp] theorem State.setCore_teams (k : Nat) (v : CoreSt) : (s.setCore k v).teams = s.teams := rfl
@[simp] theorem State.setCore_tasks (k : Nat) (v : CoreSt) : (s.setCore k v).tasks = s.tasks := rfl
@[simp] theorem State.setCore_units (k : Nat) (v : CoreSt) : (s.setCore k v).units = s.units := rfl
@[simp] theorem State.setCore_clusters (k : Nat) (v : CoreSt) : (s.setCore k v).clusters = s.clusters := rfl
@[simp] theorem State.setCore_diesT (k : Nat) (v : CoreSt) : (s.setCore k v).diesT = s.diesT := rfl
@[simp] theorem State.setCore_counters (k : Nat) (v : CoreSt) : (s.setCore k v).counters = s.counters := rfl
@[simp] theorem State.setCore_hbm (k : Nat) (v : CoreSt) : (s.setCore k v).hbm = s.hbm := rfl
@[simp] theorem State.setCore_llc (k : Nat) (v : CoreSt) : (s.setCore k v).llc = s.llc := rfl
@[simp] theorem State.setCore_present (k : Nat) (v : CoreSt) : (s.setCore k v).present = s.present := rfl
@[simp] theorem State.setCore_poison (k : Nat) (v : CoreSt) : (s.setCore k v).poison = s.poison := rfl
@[simp] theorem State.setCore_deadWords (k : Nat) (v : CoreSt) : (s.setCore k v).deadWords = s.deadWords := rfl
@[simp] theorem State.setCore_sealBad (k : Nat) (v : CoreSt) : (s.setCore k v).sealBad = s.sealBad := rfl
@[simp] theorem State.setCore_owners (k : Nat) (v : CoreSt) : (s.setCore k v).owners = s.owners := rfl
@[simp] theorem State.setCore_sealedLines (k : Nat) (v : CoreSt) : (s.setCore k v).sealedLines = s.sealedLines := rfl
@[simp] theorem State.setCore_cLines (k : Nat) (v : CoreSt) : (s.setCore k v).cLines = s.cLines := rfl
@[simp] theorem State.setCore_moves (k : Nat) (v : CoreSt) : (s.setCore k v).moves = s.moves := rfl
@[simp] theorem State.setCore_spoilt (k : Nat) (v : CoreSt) : (s.setCore k v).spoilt = s.spoilt := rfl
@[simp] theorem State.setCore_respoken (k : Nat) (v : CoreSt) : (s.setCore k v).respoken = s.respoken := rfl
@[simp] theorem State.setCore_needs (k : Nat) (v : CoreSt) : (s.setCore k v).needs = s.needs := rfl
@[simp] theorem State.setCore_asked (k : Nat) (v : CoreSt) : (s.setCore k v).asked = s.asked := rfl
@[simp] theorem State.setCore_replies (k : Nat) (v : CoreSt) : (s.setCore k v).replies = s.replies := rfl
@[simp] theorem State.setCore_host (k : Nat) (v : CoreSt) : (s.setCore k v).host = s.host := rfl
@[simp] theorem State.setCore_ports (k : Nat) (v : CoreSt) : (s.setCore k v).ports = s.ports := rfl
@[simp] theorem State.setCore_chofer (k : Nat) (v : CoreSt) : (s.setCore k v).chofer = s.chofer := rfl

@[simp] theorem State.setUnit_inputs (k : Nat) (v : UnitSt) : (s.setUnit k v).inputs = s.inputs := rfl
@[simp] theorem State.setUnit_clock (k : Nat) (v : UnitSt) : (s.setUnit k v).clock = s.clock := rfl
@[simp] theorem State.setUnit_cur (k : Nat) (v : UnitSt) : (s.setUnit k v).cur = s.cur := rfl
@[simp] theorem State.setUnit_freeCtr (k : Nat) (v : UnitSt) : (s.setUnit k v).freeCtr = s.freeCtr := rfl
@[simp] theorem State.setUnit_acting (k : Nat) (v : UnitSt) : (s.setUnit k v).acting = s.acting := rfl
@[simp] theorem State.setUnit_nextStamp (k : Nat) (v : UnitSt) : (s.setUnit k v).nextStamp = s.nextStamp := rfl
@[simp] theorem State.setUnit_nextOrder (k : Nat) (v : UnitSt) : (s.setUnit k v).nextOrder = s.nextOrder := rfl
@[simp] theorem State.setUnit_nextCopy (k : Nat) (v : UnitSt) : (s.setUnit k v).nextCopy = s.nextCopy := rfl
@[simp] theorem State.setUnit_groups (k : Nat) (v : UnitSt) : (s.setUnit k v).groups = s.groups := rfl
@[simp] theorem State.setUnit_teams (k : Nat) (v : UnitSt) : (s.setUnit k v).teams = s.teams := rfl
@[simp] theorem State.setUnit_tasks (k : Nat) (v : UnitSt) : (s.setUnit k v).tasks = s.tasks := rfl
@[simp] theorem State.setUnit_cores (k : Nat) (v : UnitSt) : (s.setUnit k v).cores = s.cores := rfl
@[simp] theorem State.setUnit_clusters (k : Nat) (v : UnitSt) : (s.setUnit k v).clusters = s.clusters := rfl
@[simp] theorem State.setUnit_diesT (k : Nat) (v : UnitSt) : (s.setUnit k v).diesT = s.diesT := rfl
@[simp] theorem State.setUnit_counters (k : Nat) (v : UnitSt) : (s.setUnit k v).counters = s.counters := rfl
@[simp] theorem State.setUnit_hbm (k : Nat) (v : UnitSt) : (s.setUnit k v).hbm = s.hbm := rfl
@[simp] theorem State.setUnit_llc (k : Nat) (v : UnitSt) : (s.setUnit k v).llc = s.llc := rfl
@[simp] theorem State.setUnit_present (k : Nat) (v : UnitSt) : (s.setUnit k v).present = s.present := rfl
@[simp] theorem State.setUnit_poison (k : Nat) (v : UnitSt) : (s.setUnit k v).poison = s.poison := rfl
@[simp] theorem State.setUnit_deadWords (k : Nat) (v : UnitSt) : (s.setUnit k v).deadWords = s.deadWords := rfl
@[simp] theorem State.setUnit_sealBad (k : Nat) (v : UnitSt) : (s.setUnit k v).sealBad = s.sealBad := rfl
@[simp] theorem State.setUnit_owners (k : Nat) (v : UnitSt) : (s.setUnit k v).owners = s.owners := rfl
@[simp] theorem State.setUnit_sealedLines (k : Nat) (v : UnitSt) : (s.setUnit k v).sealedLines = s.sealedLines := rfl
@[simp] theorem State.setUnit_cLines (k : Nat) (v : UnitSt) : (s.setUnit k v).cLines = s.cLines := rfl
@[simp] theorem State.setUnit_moves (k : Nat) (v : UnitSt) : (s.setUnit k v).moves = s.moves := rfl
@[simp] theorem State.setUnit_spoilt (k : Nat) (v : UnitSt) : (s.setUnit k v).spoilt = s.spoilt := rfl
@[simp] theorem State.setUnit_respoken (k : Nat) (v : UnitSt) : (s.setUnit k v).respoken = s.respoken := rfl
@[simp] theorem State.setUnit_needs (k : Nat) (v : UnitSt) : (s.setUnit k v).needs = s.needs := rfl
@[simp] theorem State.setUnit_asked (k : Nat) (v : UnitSt) : (s.setUnit k v).asked = s.asked := rfl
@[simp] theorem State.setUnit_replies (k : Nat) (v : UnitSt) : (s.setUnit k v).replies = s.replies := rfl
@[simp] theorem State.setUnit_host (k : Nat) (v : UnitSt) : (s.setUnit k v).host = s.host := rfl
@[simp] theorem State.setUnit_ports (k : Nat) (v : UnitSt) : (s.setUnit k v).ports = s.ports := rfl
@[simp] theorem State.setUnit_chofer (k : Nat) (v : UnitSt) : (s.setUnit k v).chofer = s.chofer := rfl

@[simp] theorem State.setCluster_inputs (k : Nat) (v : ClusterSt) : (s.setCluster k v).inputs = s.inputs := rfl
@[simp] theorem State.setCluster_clock (k : Nat) (v : ClusterSt) : (s.setCluster k v).clock = s.clock := rfl
@[simp] theorem State.setCluster_cur (k : Nat) (v : ClusterSt) : (s.setCluster k v).cur = s.cur := rfl
@[simp] theorem State.setCluster_freeCtr (k : Nat) (v : ClusterSt) : (s.setCluster k v).freeCtr = s.freeCtr := rfl
@[simp] theorem State.setCluster_acting (k : Nat) (v : ClusterSt) : (s.setCluster k v).acting = s.acting := rfl
@[simp] theorem State.setCluster_nextStamp (k : Nat) (v : ClusterSt) : (s.setCluster k v).nextStamp = s.nextStamp := rfl
@[simp] theorem State.setCluster_nextOrder (k : Nat) (v : ClusterSt) : (s.setCluster k v).nextOrder = s.nextOrder := rfl
@[simp] theorem State.setCluster_nextCopy (k : Nat) (v : ClusterSt) : (s.setCluster k v).nextCopy = s.nextCopy := rfl
@[simp] theorem State.setCluster_groups (k : Nat) (v : ClusterSt) : (s.setCluster k v).groups = s.groups := rfl
@[simp] theorem State.setCluster_teams (k : Nat) (v : ClusterSt) : (s.setCluster k v).teams = s.teams := rfl
@[simp] theorem State.setCluster_tasks (k : Nat) (v : ClusterSt) : (s.setCluster k v).tasks = s.tasks := rfl
@[simp] theorem State.setCluster_cores (k : Nat) (v : ClusterSt) : (s.setCluster k v).cores = s.cores := rfl
@[simp] theorem State.setCluster_units (k : Nat) (v : ClusterSt) : (s.setCluster k v).units = s.units := rfl
@[simp] theorem State.setCluster_diesT (k : Nat) (v : ClusterSt) : (s.setCluster k v).diesT = s.diesT := rfl
@[simp] theorem State.setCluster_counters (k : Nat) (v : ClusterSt) : (s.setCluster k v).counters = s.counters := rfl
@[simp] theorem State.setCluster_hbm (k : Nat) (v : ClusterSt) : (s.setCluster k v).hbm = s.hbm := rfl
@[simp] theorem State.setCluster_llc (k : Nat) (v : ClusterSt) : (s.setCluster k v).llc = s.llc := rfl
@[simp] theorem State.setCluster_present (k : Nat) (v : ClusterSt) : (s.setCluster k v).present = s.present := rfl
@[simp] theorem State.setCluster_poison (k : Nat) (v : ClusterSt) : (s.setCluster k v).poison = s.poison := rfl
@[simp] theorem State.setCluster_deadWords (k : Nat) (v : ClusterSt) : (s.setCluster k v).deadWords = s.deadWords := rfl
@[simp] theorem State.setCluster_sealBad (k : Nat) (v : ClusterSt) : (s.setCluster k v).sealBad = s.sealBad := rfl
@[simp] theorem State.setCluster_owners (k : Nat) (v : ClusterSt) : (s.setCluster k v).owners = s.owners := rfl
@[simp] theorem State.setCluster_sealedLines (k : Nat) (v : ClusterSt) : (s.setCluster k v).sealedLines = s.sealedLines := rfl
@[simp] theorem State.setCluster_cLines (k : Nat) (v : ClusterSt) : (s.setCluster k v).cLines = s.cLines := rfl
@[simp] theorem State.setCluster_moves (k : Nat) (v : ClusterSt) : (s.setCluster k v).moves = s.moves := rfl
@[simp] theorem State.setCluster_spoilt (k : Nat) (v : ClusterSt) : (s.setCluster k v).spoilt = s.spoilt := rfl
@[simp] theorem State.setCluster_respoken (k : Nat) (v : ClusterSt) : (s.setCluster k v).respoken = s.respoken := rfl
@[simp] theorem State.setCluster_needs (k : Nat) (v : ClusterSt) : (s.setCluster k v).needs = s.needs := rfl
@[simp] theorem State.setCluster_asked (k : Nat) (v : ClusterSt) : (s.setCluster k v).asked = s.asked := rfl
@[simp] theorem State.setCluster_replies (k : Nat) (v : ClusterSt) : (s.setCluster k v).replies = s.replies := rfl
@[simp] theorem State.setCluster_host (k : Nat) (v : ClusterSt) : (s.setCluster k v).host = s.host := rfl
@[simp] theorem State.setCluster_ports (k : Nat) (v : ClusterSt) : (s.setCluster k v).ports = s.ports := rfl
@[simp] theorem State.setCluster_chofer (k : Nat) (v : ClusterSt) : (s.setCluster k v).chofer = s.chofer := rfl

@[simp] theorem State.setDie_inputs (k : Nat) (v : DieSt) : (s.setDie k v).inputs = s.inputs := rfl
@[simp] theorem State.setDie_clock (k : Nat) (v : DieSt) : (s.setDie k v).clock = s.clock := rfl
@[simp] theorem State.setDie_cur (k : Nat) (v : DieSt) : (s.setDie k v).cur = s.cur := rfl
@[simp] theorem State.setDie_freeCtr (k : Nat) (v : DieSt) : (s.setDie k v).freeCtr = s.freeCtr := rfl
@[simp] theorem State.setDie_acting (k : Nat) (v : DieSt) : (s.setDie k v).acting = s.acting := rfl
@[simp] theorem State.setDie_nextStamp (k : Nat) (v : DieSt) : (s.setDie k v).nextStamp = s.nextStamp := rfl
@[simp] theorem State.setDie_nextOrder (k : Nat) (v : DieSt) : (s.setDie k v).nextOrder = s.nextOrder := rfl
@[simp] theorem State.setDie_nextCopy (k : Nat) (v : DieSt) : (s.setDie k v).nextCopy = s.nextCopy := rfl
@[simp] theorem State.setDie_groups (k : Nat) (v : DieSt) : (s.setDie k v).groups = s.groups := rfl
@[simp] theorem State.setDie_teams (k : Nat) (v : DieSt) : (s.setDie k v).teams = s.teams := rfl
@[simp] theorem State.setDie_tasks (k : Nat) (v : DieSt) : (s.setDie k v).tasks = s.tasks := rfl
@[simp] theorem State.setDie_cores (k : Nat) (v : DieSt) : (s.setDie k v).cores = s.cores := rfl
@[simp] theorem State.setDie_units (k : Nat) (v : DieSt) : (s.setDie k v).units = s.units := rfl
@[simp] theorem State.setDie_clusters (k : Nat) (v : DieSt) : (s.setDie k v).clusters = s.clusters := rfl
@[simp] theorem State.setDie_counters (k : Nat) (v : DieSt) : (s.setDie k v).counters = s.counters := rfl
@[simp] theorem State.setDie_hbm (k : Nat) (v : DieSt) : (s.setDie k v).hbm = s.hbm := rfl
@[simp] theorem State.setDie_llc (k : Nat) (v : DieSt) : (s.setDie k v).llc = s.llc := rfl
@[simp] theorem State.setDie_present (k : Nat) (v : DieSt) : (s.setDie k v).present = s.present := rfl
@[simp] theorem State.setDie_poison (k : Nat) (v : DieSt) : (s.setDie k v).poison = s.poison := rfl
@[simp] theorem State.setDie_deadWords (k : Nat) (v : DieSt) : (s.setDie k v).deadWords = s.deadWords := rfl
@[simp] theorem State.setDie_sealBad (k : Nat) (v : DieSt) : (s.setDie k v).sealBad = s.sealBad := rfl
@[simp] theorem State.setDie_owners (k : Nat) (v : DieSt) : (s.setDie k v).owners = s.owners := rfl
@[simp] theorem State.setDie_sealedLines (k : Nat) (v : DieSt) : (s.setDie k v).sealedLines = s.sealedLines := rfl
@[simp] theorem State.setDie_cLines (k : Nat) (v : DieSt) : (s.setDie k v).cLines = s.cLines := rfl
@[simp] theorem State.setDie_moves (k : Nat) (v : DieSt) : (s.setDie k v).moves = s.moves := rfl
@[simp] theorem State.setDie_spoilt (k : Nat) (v : DieSt) : (s.setDie k v).spoilt = s.spoilt := rfl
@[simp] theorem State.setDie_respoken (k : Nat) (v : DieSt) : (s.setDie k v).respoken = s.respoken := rfl
@[simp] theorem State.setDie_needs (k : Nat) (v : DieSt) : (s.setDie k v).needs = s.needs := rfl
@[simp] theorem State.setDie_asked (k : Nat) (v : DieSt) : (s.setDie k v).asked = s.asked := rfl
@[simp] theorem State.setDie_replies (k : Nat) (v : DieSt) : (s.setDie k v).replies = s.replies := rfl
@[simp] theorem State.setDie_host (k : Nat) (v : DieSt) : (s.setDie k v).host = s.host := rfl
@[simp] theorem State.setDie_ports (k : Nat) (v : DieSt) : (s.setDie k v).ports = s.ports := rfl
@[simp] theorem State.setDie_chofer (k : Nat) (v : DieSt) : (s.setDie k v).chofer = s.chofer := rfl

@[simp] theorem State.setPort_inputs (k : Nat) (v : PortSt) : (s.setPort k v).inputs = s.inputs := rfl
@[simp] theorem State.setPort_clock (k : Nat) (v : PortSt) : (s.setPort k v).clock = s.clock := rfl
@[simp] theorem State.setPort_cur (k : Nat) (v : PortSt) : (s.setPort k v).cur = s.cur := rfl
@[simp] theorem State.setPort_freeCtr (k : Nat) (v : PortSt) : (s.setPort k v).freeCtr = s.freeCtr := rfl
@[simp] theorem State.setPort_acting (k : Nat) (v : PortSt) : (s.setPort k v).acting = s.acting := rfl
@[simp] theorem State.setPort_nextStamp (k : Nat) (v : PortSt) : (s.setPort k v).nextStamp = s.nextStamp := rfl
@[simp] theorem State.setPort_nextOrder (k : Nat) (v : PortSt) : (s.setPort k v).nextOrder = s.nextOrder := rfl
@[simp] theorem State.setPort_nextCopy (k : Nat) (v : PortSt) : (s.setPort k v).nextCopy = s.nextCopy := rfl
@[simp] theorem State.setPort_groups (k : Nat) (v : PortSt) : (s.setPort k v).groups = s.groups := rfl
@[simp] theorem State.setPort_teams (k : Nat) (v : PortSt) : (s.setPort k v).teams = s.teams := rfl
@[simp] theorem State.setPort_tasks (k : Nat) (v : PortSt) : (s.setPort k v).tasks = s.tasks := rfl
@[simp] theorem State.setPort_cores (k : Nat) (v : PortSt) : (s.setPort k v).cores = s.cores := rfl
@[simp] theorem State.setPort_units (k : Nat) (v : PortSt) : (s.setPort k v).units = s.units := rfl
@[simp] theorem State.setPort_clusters (k : Nat) (v : PortSt) : (s.setPort k v).clusters = s.clusters := rfl
@[simp] theorem State.setPort_diesT (k : Nat) (v : PortSt) : (s.setPort k v).diesT = s.diesT := rfl
@[simp] theorem State.setPort_counters (k : Nat) (v : PortSt) : (s.setPort k v).counters = s.counters := rfl
@[simp] theorem State.setPort_hbm (k : Nat) (v : PortSt) : (s.setPort k v).hbm = s.hbm := rfl
@[simp] theorem State.setPort_llc (k : Nat) (v : PortSt) : (s.setPort k v).llc = s.llc := rfl
@[simp] theorem State.setPort_present (k : Nat) (v : PortSt) : (s.setPort k v).present = s.present := rfl
@[simp] theorem State.setPort_poison (k : Nat) (v : PortSt) : (s.setPort k v).poison = s.poison := rfl
@[simp] theorem State.setPort_deadWords (k : Nat) (v : PortSt) : (s.setPort k v).deadWords = s.deadWords := rfl
@[simp] theorem State.setPort_sealBad (k : Nat) (v : PortSt) : (s.setPort k v).sealBad = s.sealBad := rfl
@[simp] theorem State.setPort_owners (k : Nat) (v : PortSt) : (s.setPort k v).owners = s.owners := rfl
@[simp] theorem State.setPort_sealedLines (k : Nat) (v : PortSt) : (s.setPort k v).sealedLines = s.sealedLines := rfl
@[simp] theorem State.setPort_cLines (k : Nat) (v : PortSt) : (s.setPort k v).cLines = s.cLines := rfl
@[simp] theorem State.setPort_moves (k : Nat) (v : PortSt) : (s.setPort k v).moves = s.moves := rfl
@[simp] theorem State.setPort_spoilt (k : Nat) (v : PortSt) : (s.setPort k v).spoilt = s.spoilt := rfl
@[simp] theorem State.setPort_respoken (k : Nat) (v : PortSt) : (s.setPort k v).respoken = s.respoken := rfl
@[simp] theorem State.setPort_needs (k : Nat) (v : PortSt) : (s.setPort k v).needs = s.needs := rfl
@[simp] theorem State.setPort_asked (k : Nat) (v : PortSt) : (s.setPort k v).asked = s.asked := rfl
@[simp] theorem State.setPort_replies (k : Nat) (v : PortSt) : (s.setPort k v).replies = s.replies := rfl
@[simp] theorem State.setPort_host (k : Nat) (v : PortSt) : (s.setPort k v).host = s.host := rfl
@[simp] theorem State.setPort_chofer (k : Nat) (v : PortSt) : (s.setPort k v).chofer = s.chofer := rfl

@[simp] theorem State.countCtx_inputs (c d h e n : Nat) : (s.countCtx c d h e n).inputs = s.inputs := by unfold State.countCtx; dsimp only; split <;> rfl
@[simp] theorem State.countCtx_clock (c d h e n : Nat) : (s.countCtx c d h e n).clock = s.clock := by unfold State.countCtx; dsimp only; split <;> rfl
@[simp] theorem State.countCtx_cur (c d h e n : Nat) : (s.countCtx c d h e n).cur = s.cur := by unfold State.countCtx; dsimp only; split <;> rfl
@[simp] theorem State.countCtx_freeCtr (c d h e n : Nat) : (s.countCtx c d h e n).freeCtr = s.freeCtr := by unfold State.countCtx; dsimp only; split <;> rfl
@[simp] theorem State.countCtx_acting (c d h e n : Nat) : (s.countCtx c d h e n).acting = s.acting := by unfold State.countCtx; dsimp only; split <;> rfl
@[simp] theorem State.countCtx_nextStamp (c d h e n : Nat) : (s.countCtx c d h e n).nextStamp = s.nextStamp := by unfold State.countCtx; dsimp only; split <;> rfl
@[simp] theorem State.countCtx_nextOrder (c d h e n : Nat) : (s.countCtx c d h e n).nextOrder = s.nextOrder := by unfold State.countCtx; dsimp only; split <;> rfl
@[simp] theorem State.countCtx_nextCopy (c d h e n : Nat) : (s.countCtx c d h e n).nextCopy = s.nextCopy := by unfold State.countCtx; dsimp only; split <;> rfl
@[simp] theorem State.countCtx_groups (c d h e n : Nat) : (s.countCtx c d h e n).groups = s.groups := by unfold State.countCtx; dsimp only; split <;> rfl
@[simp] theorem State.countCtx_teams (c d h e n : Nat) : (s.countCtx c d h e n).teams = s.teams := by unfold State.countCtx; dsimp only; split <;> rfl
@[simp] theorem State.countCtx_tasks (c d h e n : Nat) : (s.countCtx c d h e n).tasks = s.tasks := by unfold State.countCtx; dsimp only; split <;> rfl
@[simp] theorem State.countCtx_cores (c d h e n : Nat) : (s.countCtx c d h e n).cores = s.cores := by unfold State.countCtx; dsimp only; split <;> rfl
@[simp] theorem State.countCtx_units (c d h e n : Nat) : (s.countCtx c d h e n).units = s.units := by unfold State.countCtx; dsimp only; split <;> rfl
@[simp] theorem State.countCtx_clusters (c d h e n : Nat) : (s.countCtx c d h e n).clusters = s.clusters := by unfold State.countCtx; dsimp only; split <;> rfl
@[simp] theorem State.countCtx_hbm (c d h e n : Nat) : (s.countCtx c d h e n).hbm = s.hbm := by unfold State.countCtx; dsimp only; split <;> rfl
@[simp] theorem State.countCtx_llc (c d h e n : Nat) : (s.countCtx c d h e n).llc = s.llc := by unfold State.countCtx; dsimp only; split <;> rfl
@[simp] theorem State.countCtx_present (c d h e n : Nat) : (s.countCtx c d h e n).present = s.present := by unfold State.countCtx; dsimp only; split <;> rfl
@[simp] theorem State.countCtx_poison (c d h e n : Nat) : (s.countCtx c d h e n).poison = s.poison := by unfold State.countCtx; dsimp only; split <;> rfl
@[simp] theorem State.countCtx_deadWords (c d h e n : Nat) : (s.countCtx c d h e n).deadWords = s.deadWords := by unfold State.countCtx; dsimp only; split <;> rfl
@[simp] theorem State.countCtx_sealBad (c d h e n : Nat) : (s.countCtx c d h e n).sealBad = s.sealBad := by unfold State.countCtx; dsimp only; split <;> rfl
@[simp] theorem State.countCtx_owners (c d h e n : Nat) : (s.countCtx c d h e n).owners = s.owners := by unfold State.countCtx; dsimp only; split <;> rfl
@[simp] theorem State.countCtx_sealedLines (c d h e n : Nat) : (s.countCtx c d h e n).sealedLines = s.sealedLines := by unfold State.countCtx; dsimp only; split <;> rfl
@[simp] theorem State.countCtx_cLines (c d h e n : Nat) : (s.countCtx c d h e n).cLines = s.cLines := by unfold State.countCtx; dsimp only; split <;> rfl
@[simp] theorem State.countCtx_moves (c d h e n : Nat) : (s.countCtx c d h e n).moves = s.moves := by unfold State.countCtx; dsimp only; split <;> rfl
@[simp] theorem State.countCtx_spoilt (c d h e n : Nat) : (s.countCtx c d h e n).spoilt = s.spoilt := by unfold State.countCtx; dsimp only; split <;> rfl
@[simp] theorem State.countCtx_respoken (c d h e n : Nat) : (s.countCtx c d h e n).respoken = s.respoken := by unfold State.countCtx; dsimp only; split <;> rfl
@[simp] theorem State.countCtx_needs (c d h e n : Nat) : (s.countCtx c d h e n).needs = s.needs := by unfold State.countCtx; dsimp only; split <;> rfl
@[simp] theorem State.countCtx_asked (c d h e n : Nat) : (s.countCtx c d h e n).asked = s.asked := by unfold State.countCtx; dsimp only; split <;> rfl
@[simp] theorem State.countCtx_replies (c d h e n : Nat) : (s.countCtx c d h e n).replies = s.replies := by unfold State.countCtx; dsimp only; split <;> rfl
@[simp] theorem State.countCtx_host (c d h e n : Nat) : (s.countCtx c d h e n).host = s.host := by unfold State.countCtx; dsimp only; split <;> rfl
@[simp] theorem State.countCtx_ports (c d h e n : Nat) : (s.countCtx c d h e n).ports = s.ports := by unfold State.countCtx; dsimp only; split <;> rfl

@[simp] theorem State.count_inputs (d h e n : Nat) : (s.count d h e n).inputs = s.inputs := State.countCtx_inputs s s.acting d h e n
@[simp] theorem State.count_clock (d h e n : Nat) : (s.count d h e n).clock = s.clock := State.countCtx_clock s s.acting d h e n
@[simp] theorem State.count_cur (d h e n : Nat) : (s.count d h e n).cur = s.cur := State.countCtx_cur s s.acting d h e n
@[simp] theorem State.count_freeCtr (d h e n : Nat) : (s.count d h e n).freeCtr = s.freeCtr := State.countCtx_freeCtr s s.acting d h e n
@[simp] theorem State.count_acting (d h e n : Nat) : (s.count d h e n).acting = s.acting := State.countCtx_acting s s.acting d h e n
@[simp] theorem State.count_nextStamp (d h e n : Nat) : (s.count d h e n).nextStamp = s.nextStamp := State.countCtx_nextStamp s s.acting d h e n
@[simp] theorem State.count_nextOrder (d h e n : Nat) : (s.count d h e n).nextOrder = s.nextOrder := State.countCtx_nextOrder s s.acting d h e n
@[simp] theorem State.count_nextCopy (d h e n : Nat) : (s.count d h e n).nextCopy = s.nextCopy := State.countCtx_nextCopy s s.acting d h e n
@[simp] theorem State.count_groups (d h e n : Nat) : (s.count d h e n).groups = s.groups := State.countCtx_groups s s.acting d h e n
@[simp] theorem State.count_teams (d h e n : Nat) : (s.count d h e n).teams = s.teams := State.countCtx_teams s s.acting d h e n
@[simp] theorem State.count_tasks (d h e n : Nat) : (s.count d h e n).tasks = s.tasks := State.countCtx_tasks s s.acting d h e n
@[simp] theorem State.count_cores (d h e n : Nat) : (s.count d h e n).cores = s.cores := State.countCtx_cores s s.acting d h e n
@[simp] theorem State.count_units (d h e n : Nat) : (s.count d h e n).units = s.units := State.countCtx_units s s.acting d h e n
@[simp] theorem State.count_clusters (d h e n : Nat) : (s.count d h e n).clusters = s.clusters := State.countCtx_clusters s s.acting d h e n
@[simp] theorem State.count_hbm (d h e n : Nat) : (s.count d h e n).hbm = s.hbm := State.countCtx_hbm s s.acting d h e n
@[simp] theorem State.count_llc (d h e n : Nat) : (s.count d h e n).llc = s.llc := State.countCtx_llc s s.acting d h e n
@[simp] theorem State.count_present (d h e n : Nat) : (s.count d h e n).present = s.present := State.countCtx_present s s.acting d h e n
@[simp] theorem State.count_poison (d h e n : Nat) : (s.count d h e n).poison = s.poison := State.countCtx_poison s s.acting d h e n
@[simp] theorem State.count_deadWords (d h e n : Nat) : (s.count d h e n).deadWords = s.deadWords := State.countCtx_deadWords s s.acting d h e n
@[simp] theorem State.count_sealBad (d h e n : Nat) : (s.count d h e n).sealBad = s.sealBad := State.countCtx_sealBad s s.acting d h e n
@[simp] theorem State.count_owners (d h e n : Nat) : (s.count d h e n).owners = s.owners := State.countCtx_owners s s.acting d h e n
@[simp] theorem State.count_sealedLines (d h e n : Nat) : (s.count d h e n).sealedLines = s.sealedLines := State.countCtx_sealedLines s s.acting d h e n
@[simp] theorem State.count_cLines (d h e n : Nat) : (s.count d h e n).cLines = s.cLines := State.countCtx_cLines s s.acting d h e n
@[simp] theorem State.count_moves (d h e n : Nat) : (s.count d h e n).moves = s.moves := State.countCtx_moves s s.acting d h e n
@[simp] theorem State.count_spoilt (d h e n : Nat) : (s.count d h e n).spoilt = s.spoilt := State.countCtx_spoilt s s.acting d h e n
@[simp] theorem State.count_respoken (d h e n : Nat) : (s.count d h e n).respoken = s.respoken := State.countCtx_respoken s s.acting d h e n
@[simp] theorem State.count_needs (d h e n : Nat) : (s.count d h e n).needs = s.needs := State.countCtx_needs s s.acting d h e n
@[simp] theorem State.count_asked (d h e n : Nat) : (s.count d h e n).asked = s.asked := State.countCtx_asked s s.acting d h e n
@[simp] theorem State.count_replies (d h e n : Nat) : (s.count d h e n).replies = s.replies := State.countCtx_replies s s.acting d h e n
@[simp] theorem State.count_host (d h e n : Nat) : (s.count d h e n).host = s.host := State.countCtx_host s s.acting d h e n
@[simp] theorem State.count_ports (d h e n : Nat) : (s.count d h e n).ports = s.ports := State.countCtx_ports s s.acting d h e n

@[simp] theorem State.post_inputs (c v : Nat) : (s.post c v).inputs = s.inputs := rfl
@[simp] theorem State.post_clock (c v : Nat) : (s.post c v).clock = s.clock := rfl
@[simp] theorem State.post_cur (c v : Nat) : (s.post c v).cur = s.cur := rfl
@[simp] theorem State.post_freeCtr (c v : Nat) : (s.post c v).freeCtr = s.freeCtr := rfl
@[simp] theorem State.post_acting (c v : Nat) : (s.post c v).acting = s.acting := rfl
@[simp] theorem State.post_nextStamp (c v : Nat) : (s.post c v).nextStamp = s.nextStamp := rfl
@[simp] theorem State.post_nextOrder (c v : Nat) : (s.post c v).nextOrder = s.nextOrder := rfl
@[simp] theorem State.post_nextCopy (c v : Nat) : (s.post c v).nextCopy = s.nextCopy := rfl
@[simp] theorem State.post_groups (c v : Nat) : (s.post c v).groups = s.groups := rfl
@[simp] theorem State.post_teams (c v : Nat) : (s.post c v).teams = s.teams := rfl
@[simp] theorem State.post_tasks (c v : Nat) : (s.post c v).tasks = s.tasks := rfl
@[simp] theorem State.post_cores (c v : Nat) : (s.post c v).cores = s.cores := rfl
@[simp] theorem State.post_units (c v : Nat) : (s.post c v).units = s.units := rfl
@[simp] theorem State.post_clusters (c v : Nat) : (s.post c v).clusters = s.clusters := rfl
@[simp] theorem State.post_diesT (c v : Nat) : (s.post c v).diesT = s.diesT := rfl
@[simp] theorem State.post_counters (c v : Nat) : (s.post c v).counters = s.counters := rfl
@[simp] theorem State.post_hbm (c v : Nat) : (s.post c v).hbm = s.hbm := rfl
@[simp] theorem State.post_llc (c v : Nat) : (s.post c v).llc = s.llc := rfl
@[simp] theorem State.post_present (c v : Nat) : (s.post c v).present = s.present := rfl
@[simp] theorem State.post_poison (c v : Nat) : (s.post c v).poison = s.poison := rfl
@[simp] theorem State.post_deadWords (c v : Nat) : (s.post c v).deadWords = s.deadWords := rfl
@[simp] theorem State.post_sealBad (c v : Nat) : (s.post c v).sealBad = s.sealBad := rfl
@[simp] theorem State.post_owners (c v : Nat) : (s.post c v).owners = s.owners := rfl
@[simp] theorem State.post_sealedLines (c v : Nat) : (s.post c v).sealedLines = s.sealedLines := rfl
@[simp] theorem State.post_cLines (c v : Nat) : (s.post c v).cLines = s.cLines := rfl
@[simp] theorem State.post_moves (c v : Nat) : (s.post c v).moves = s.moves := rfl
@[simp] theorem State.post_spoilt (c v : Nat) : (s.post c v).spoilt = s.spoilt := rfl
@[simp] theorem State.post_respoken (c v : Nat) : (s.post c v).respoken = s.respoken := rfl
@[simp] theorem State.post_needs (c v : Nat) : (s.post c v).needs = s.needs := rfl
@[simp] theorem State.post_asked (c v : Nat) : (s.post c v).asked = s.asked := rfl
@[simp] theorem State.post_replies (c v : Nat) : (s.post c v).replies = s.replies := rfl
@[simp] theorem State.post_host (c v : Nat) : (s.post c v).host = s.host := rfl
@[simp] theorem State.post_ports (c v : Nat) : (s.post c v).ports = s.ports := rfl

@[simp] theorem State.putByte_inputs (t : Nat) (b : Byte) : (s.putByte t b).inputs = s.inputs := rfl
@[simp] theorem State.putByte_clock (t : Nat) (b : Byte) : (s.putByte t b).clock = s.clock := rfl
@[simp] theorem State.putByte_cur (t : Nat) (b : Byte) : (s.putByte t b).cur = s.cur := rfl
@[simp] theorem State.putByte_freeCtr (t : Nat) (b : Byte) : (s.putByte t b).freeCtr = s.freeCtr := rfl
@[simp] theorem State.putByte_acting (t : Nat) (b : Byte) : (s.putByte t b).acting = s.acting := rfl
@[simp] theorem State.putByte_nextStamp (t : Nat) (b : Byte) : (s.putByte t b).nextStamp = s.nextStamp := rfl
@[simp] theorem State.putByte_nextOrder (t : Nat) (b : Byte) : (s.putByte t b).nextOrder = s.nextOrder := rfl
@[simp] theorem State.putByte_nextCopy (t : Nat) (b : Byte) : (s.putByte t b).nextCopy = s.nextCopy := rfl
@[simp] theorem State.putByte_groups (t : Nat) (b : Byte) : (s.putByte t b).groups = s.groups := rfl
@[simp] theorem State.putByte_teams (t : Nat) (b : Byte) : (s.putByte t b).teams = s.teams := rfl
@[simp] theorem State.putByte_tasks (t : Nat) (b : Byte) : (s.putByte t b).tasks = s.tasks := rfl
@[simp] theorem State.putByte_cores (t : Nat) (b : Byte) : (s.putByte t b).cores = s.cores := rfl
@[simp] theorem State.putByte_units (t : Nat) (b : Byte) : (s.putByte t b).units = s.units := rfl
@[simp] theorem State.putByte_clusters (t : Nat) (b : Byte) : (s.putByte t b).clusters = s.clusters := rfl
@[simp] theorem State.putByte_diesT (t : Nat) (b : Byte) : (s.putByte t b).diesT = s.diesT := rfl
@[simp] theorem State.putByte_counters (t : Nat) (b : Byte) : (s.putByte t b).counters = s.counters := rfl
@[simp] theorem State.putByte_hbm (t : Nat) (b : Byte) : (s.putByte t b).hbm = s.hbm := rfl
@[simp] theorem State.putByte_poison (t : Nat) (b : Byte) : (s.putByte t b).poison = s.poison := rfl
@[simp] theorem State.putByte_deadWords (t : Nat) (b : Byte) : (s.putByte t b).deadWords = s.deadWords := rfl
@[simp] theorem State.putByte_sealBad (t : Nat) (b : Byte) : (s.putByte t b).sealBad = s.sealBad := rfl
@[simp] theorem State.putByte_owners (t : Nat) (b : Byte) : (s.putByte t b).owners = s.owners := rfl
@[simp] theorem State.putByte_sealedLines (t : Nat) (b : Byte) : (s.putByte t b).sealedLines = s.sealedLines := rfl
@[simp] theorem State.putByte_cLines (t : Nat) (b : Byte) : (s.putByte t b).cLines = s.cLines := rfl
@[simp] theorem State.putByte_moves (t : Nat) (b : Byte) : (s.putByte t b).moves = s.moves := rfl
@[simp] theorem State.putByte_spoilt (t : Nat) (b : Byte) : (s.putByte t b).spoilt = s.spoilt := rfl
@[simp] theorem State.putByte_needs (t : Nat) (b : Byte) : (s.putByte t b).needs = s.needs := rfl
@[simp] theorem State.putByte_asked (t : Nat) (b : Byte) : (s.putByte t b).asked = s.asked := rfl
@[simp] theorem State.putByte_replies (t : Nat) (b : Byte) : (s.putByte t b).replies = s.replies := rfl
@[simp] theorem State.putByte_host (t : Nat) (b : Byte) : (s.putByte t b).host = s.host := rfl
@[simp] theorem State.putByte_ports (t : Nat) (b : Byte) : (s.putByte t b).ports = s.ports := rfl
@[simp] theorem State.putByte_chofer (t : Nat) (b : Byte) : (s.putByte t b).chofer = s.chofer := rfl

@[simp] theorem State.spoil_inputs (lo n : Nat) : (s.spoil lo n).inputs = s.inputs := rfl
@[simp] theorem State.spoil_clock (lo n : Nat) : (s.spoil lo n).clock = s.clock := rfl
@[simp] theorem State.spoil_cur (lo n : Nat) : (s.spoil lo n).cur = s.cur := rfl
@[simp] theorem State.spoil_freeCtr (lo n : Nat) : (s.spoil lo n).freeCtr = s.freeCtr := rfl
@[simp] theorem State.spoil_acting (lo n : Nat) : (s.spoil lo n).acting = s.acting := rfl
@[simp] theorem State.spoil_nextStamp (lo n : Nat) : (s.spoil lo n).nextStamp = s.nextStamp := rfl
@[simp] theorem State.spoil_nextOrder (lo n : Nat) : (s.spoil lo n).nextOrder = s.nextOrder := rfl
@[simp] theorem State.spoil_nextCopy (lo n : Nat) : (s.spoil lo n).nextCopy = s.nextCopy := rfl
@[simp] theorem State.spoil_groups (lo n : Nat) : (s.spoil lo n).groups = s.groups := rfl
@[simp] theorem State.spoil_teams (lo n : Nat) : (s.spoil lo n).teams = s.teams := rfl
@[simp] theorem State.spoil_tasks (lo n : Nat) : (s.spoil lo n).tasks = s.tasks := rfl
@[simp] theorem State.spoil_cores (lo n : Nat) : (s.spoil lo n).cores = s.cores := rfl
@[simp] theorem State.spoil_units (lo n : Nat) : (s.spoil lo n).units = s.units := rfl
@[simp] theorem State.spoil_clusters (lo n : Nat) : (s.spoil lo n).clusters = s.clusters := rfl
@[simp] theorem State.spoil_diesT (lo n : Nat) : (s.spoil lo n).diesT = s.diesT := rfl
@[simp] theorem State.spoil_counters (lo n : Nat) : (s.spoil lo n).counters = s.counters := rfl
@[simp] theorem State.spoil_hbm (lo n : Nat) : (s.spoil lo n).hbm = s.hbm := rfl
@[simp] theorem State.spoil_llc (lo n : Nat) : (s.spoil lo n).llc = s.llc := rfl
@[simp] theorem State.spoil_present (lo n : Nat) : (s.spoil lo n).present = s.present := rfl
@[simp] theorem State.spoil_poison (lo n : Nat) : (s.spoil lo n).poison = s.poison := rfl
@[simp] theorem State.spoil_deadWords (lo n : Nat) : (s.spoil lo n).deadWords = s.deadWords := rfl
@[simp] theorem State.spoil_sealBad (lo n : Nat) : (s.spoil lo n).sealBad = s.sealBad := rfl
@[simp] theorem State.spoil_owners (lo n : Nat) : (s.spoil lo n).owners = s.owners := rfl
@[simp] theorem State.spoil_sealedLines (lo n : Nat) : (s.spoil lo n).sealedLines = s.sealedLines := rfl
@[simp] theorem State.spoil_cLines (lo n : Nat) : (s.spoil lo n).cLines = s.cLines := rfl
@[simp] theorem State.spoil_moves (lo n : Nat) : (s.spoil lo n).moves = s.moves := rfl
@[simp] theorem State.spoil_needs (lo n : Nat) : (s.spoil lo n).needs = s.needs := rfl
@[simp] theorem State.spoil_asked (lo n : Nat) : (s.spoil lo n).asked = s.asked := rfl
@[simp] theorem State.spoil_replies (lo n : Nat) : (s.spoil lo n).replies = s.replies := rfl
@[simp] theorem State.spoil_host (lo n : Nat) : (s.spoil lo n).host = s.host := rfl
@[simp] theorem State.spoil_ports (lo n : Nat) : (s.spoil lo n).ports = s.ports := rfl
@[simp] theorem State.spoil_chofer (lo n : Nat) : (s.spoil lo n).chofer = s.chofer := rfl

@[simp] theorem State.poisonWrite_inputs (t n : Nat) (b : Bool) : (s.poisonWrite t n b).inputs = s.inputs := rfl
@[simp] theorem State.poisonWrite_clock (t n : Nat) (b : Bool) : (s.poisonWrite t n b).clock = s.clock := rfl
@[simp] theorem State.poisonWrite_cur (t n : Nat) (b : Bool) : (s.poisonWrite t n b).cur = s.cur := rfl
@[simp] theorem State.poisonWrite_freeCtr (t n : Nat) (b : Bool) : (s.poisonWrite t n b).freeCtr = s.freeCtr := rfl
@[simp] theorem State.poisonWrite_acting (t n : Nat) (b : Bool) : (s.poisonWrite t n b).acting = s.acting := rfl
@[simp] theorem State.poisonWrite_nextStamp (t n : Nat) (b : Bool) : (s.poisonWrite t n b).nextStamp = s.nextStamp := rfl
@[simp] theorem State.poisonWrite_nextOrder (t n : Nat) (b : Bool) : (s.poisonWrite t n b).nextOrder = s.nextOrder := rfl
@[simp] theorem State.poisonWrite_nextCopy (t n : Nat) (b : Bool) : (s.poisonWrite t n b).nextCopy = s.nextCopy := rfl
@[simp] theorem State.poisonWrite_groups (t n : Nat) (b : Bool) : (s.poisonWrite t n b).groups = s.groups := rfl
@[simp] theorem State.poisonWrite_teams (t n : Nat) (b : Bool) : (s.poisonWrite t n b).teams = s.teams := rfl
@[simp] theorem State.poisonWrite_tasks (t n : Nat) (b : Bool) : (s.poisonWrite t n b).tasks = s.tasks := rfl
@[simp] theorem State.poisonWrite_cores (t n : Nat) (b : Bool) : (s.poisonWrite t n b).cores = s.cores := rfl
@[simp] theorem State.poisonWrite_units (t n : Nat) (b : Bool) : (s.poisonWrite t n b).units = s.units := rfl
@[simp] theorem State.poisonWrite_clusters (t n : Nat) (b : Bool) : (s.poisonWrite t n b).clusters = s.clusters := rfl
@[simp] theorem State.poisonWrite_diesT (t n : Nat) (b : Bool) : (s.poisonWrite t n b).diesT = s.diesT := rfl
@[simp] theorem State.poisonWrite_counters (t n : Nat) (b : Bool) : (s.poisonWrite t n b).counters = s.counters := rfl
@[simp] theorem State.poisonWrite_hbm (t n : Nat) (b : Bool) : (s.poisonWrite t n b).hbm = s.hbm := rfl
@[simp] theorem State.poisonWrite_llc (t n : Nat) (b : Bool) : (s.poisonWrite t n b).llc = s.llc := rfl
@[simp] theorem State.poisonWrite_present (t n : Nat) (b : Bool) : (s.poisonWrite t n b).present = s.present := rfl
@[simp] theorem State.poisonWrite_deadWords (t n : Nat) (b : Bool) : (s.poisonWrite t n b).deadWords = s.deadWords := rfl
@[simp] theorem State.poisonWrite_owners (t n : Nat) (b : Bool) : (s.poisonWrite t n b).owners = s.owners := rfl
@[simp] theorem State.poisonWrite_sealedLines (t n : Nat) (b : Bool) : (s.poisonWrite t n b).sealedLines = s.sealedLines := rfl
@[simp] theorem State.poisonWrite_cLines (t n : Nat) (b : Bool) : (s.poisonWrite t n b).cLines = s.cLines := rfl
@[simp] theorem State.poisonWrite_moves (t n : Nat) (b : Bool) : (s.poisonWrite t n b).moves = s.moves := rfl
@[simp] theorem State.poisonWrite_spoilt (t n : Nat) (b : Bool) : (s.poisonWrite t n b).spoilt = s.spoilt := rfl
@[simp] theorem State.poisonWrite_respoken (t n : Nat) (b : Bool) : (s.poisonWrite t n b).respoken = s.respoken := rfl
@[simp] theorem State.poisonWrite_needs (t n : Nat) (b : Bool) : (s.poisonWrite t n b).needs = s.needs := rfl
@[simp] theorem State.poisonWrite_asked (t n : Nat) (b : Bool) : (s.poisonWrite t n b).asked = s.asked := rfl
@[simp] theorem State.poisonWrite_replies (t n : Nat) (b : Bool) : (s.poisonWrite t n b).replies = s.replies := rfl
@[simp] theorem State.poisonWrite_host (t n : Nat) (b : Bool) : (s.poisonWrite t n b).host = s.host := rfl
@[simp] theorem State.poisonWrite_ports (t n : Nat) (b : Bool) : (s.poisonWrite t n b).ports = s.ports := rfl
@[simp] theorem State.poisonWrite_chofer (t n : Nat) (b : Bool) : (s.poisonWrite t n b).chofer = s.chofer := rfl

@[simp] theorem State.setCtxRing_inputs (c i : Nat) (r : Ring) : (s.setCtxRing c i r).inputs = s.inputs := rfl
@[simp] theorem State.setCtxRing_clock (c i : Nat) (r : Ring) : (s.setCtxRing c i r).clock = s.clock := rfl
@[simp] theorem State.setCtxRing_cur (c i : Nat) (r : Ring) : (s.setCtxRing c i r).cur = s.cur := rfl
@[simp] theorem State.setCtxRing_freeCtr (c i : Nat) (r : Ring) : (s.setCtxRing c i r).freeCtr = s.freeCtr := rfl
@[simp] theorem State.setCtxRing_acting (c i : Nat) (r : Ring) : (s.setCtxRing c i r).acting = s.acting := rfl
@[simp] theorem State.setCtxRing_nextStamp (c i : Nat) (r : Ring) : (s.setCtxRing c i r).nextStamp = s.nextStamp := rfl
@[simp] theorem State.setCtxRing_nextOrder (c i : Nat) (r : Ring) : (s.setCtxRing c i r).nextOrder = s.nextOrder := rfl
@[simp] theorem State.setCtxRing_nextCopy (c i : Nat) (r : Ring) : (s.setCtxRing c i r).nextCopy = s.nextCopy := rfl
@[simp] theorem State.setCtxRing_groups (c i : Nat) (r : Ring) : (s.setCtxRing c i r).groups = s.groups := rfl
@[simp] theorem State.setCtxRing_teams (c i : Nat) (r : Ring) : (s.setCtxRing c i r).teams = s.teams := rfl
@[simp] theorem State.setCtxRing_tasks (c i : Nat) (r : Ring) : (s.setCtxRing c i r).tasks = s.tasks := rfl
@[simp] theorem State.setCtxRing_cores (c i : Nat) (r : Ring) : (s.setCtxRing c i r).cores = s.cores := rfl
@[simp] theorem State.setCtxRing_units (c i : Nat) (r : Ring) : (s.setCtxRing c i r).units = s.units := rfl
@[simp] theorem State.setCtxRing_clusters (c i : Nat) (r : Ring) : (s.setCtxRing c i r).clusters = s.clusters := rfl
@[simp] theorem State.setCtxRing_diesT (c i : Nat) (r : Ring) : (s.setCtxRing c i r).diesT = s.diesT := rfl
@[simp] theorem State.setCtxRing_counters (c i : Nat) (r : Ring) : (s.setCtxRing c i r).counters = s.counters := rfl
@[simp] theorem State.setCtxRing_hbm (c i : Nat) (r : Ring) : (s.setCtxRing c i r).hbm = s.hbm := rfl
@[simp] theorem State.setCtxRing_llc (c i : Nat) (r : Ring) : (s.setCtxRing c i r).llc = s.llc := rfl
@[simp] theorem State.setCtxRing_present (c i : Nat) (r : Ring) : (s.setCtxRing c i r).present = s.present := rfl
@[simp] theorem State.setCtxRing_poison (c i : Nat) (r : Ring) : (s.setCtxRing c i r).poison = s.poison := rfl
@[simp] theorem State.setCtxRing_deadWords (c i : Nat) (r : Ring) : (s.setCtxRing c i r).deadWords = s.deadWords := rfl
@[simp] theorem State.setCtxRing_sealBad (c i : Nat) (r : Ring) : (s.setCtxRing c i r).sealBad = s.sealBad := rfl
@[simp] theorem State.setCtxRing_owners (c i : Nat) (r : Ring) : (s.setCtxRing c i r).owners = s.owners := rfl
@[simp] theorem State.setCtxRing_sealedLines (c i : Nat) (r : Ring) : (s.setCtxRing c i r).sealedLines = s.sealedLines := rfl
@[simp] theorem State.setCtxRing_cLines (c i : Nat) (r : Ring) : (s.setCtxRing c i r).cLines = s.cLines := rfl
@[simp] theorem State.setCtxRing_moves (c i : Nat) (r : Ring) : (s.setCtxRing c i r).moves = s.moves := rfl
@[simp] theorem State.setCtxRing_spoilt (c i : Nat) (r : Ring) : (s.setCtxRing c i r).spoilt = s.spoilt := rfl
@[simp] theorem State.setCtxRing_respoken (c i : Nat) (r : Ring) : (s.setCtxRing c i r).respoken = s.respoken := rfl
@[simp] theorem State.setCtxRing_needs (c i : Nat) (r : Ring) : (s.setCtxRing c i r).needs = s.needs := rfl
@[simp] theorem State.setCtxRing_asked (c i : Nat) (r : Ring) : (s.setCtxRing c i r).asked = s.asked := rfl
@[simp] theorem State.setCtxRing_replies (c i : Nat) (r : Ring) : (s.setCtxRing c i r).replies = s.replies := rfl
@[simp] theorem State.setCtxRing_host (c i : Nat) (r : Ring) : (s.setCtxRing c i r).host = s.host := rfl
@[simp] theorem State.setCtxRing_ports (c i : Nat) (r : Ring) : (s.setCtxRing c i r).ports = s.ports := rfl

@[simp] theorem State.setGroup_get_team (gid : Nat) (g : Group) (j : Nat) : (s.setGroup gid g).team j = s.team j := rfl
@[simp] theorem State.setGroup_get_task (gid : Nat) (g : Group) (j : Nat) : (s.setGroup gid g).task j = s.task j := rfl
@[simp] theorem State.setGroup_get_core (gid : Nat) (g : Group) (j : Nat) : (s.setGroup gid g).core j = s.core j := rfl
@[simp] theorem State.setGroup_get_unit (gid : Nat) (g : Group) (j : Nat) : (s.setGroup gid g).unit j = s.unit j := rfl
@[simp] theorem State.setGroup_get_cluster (gid : Nat) (g : Group) (j : Nat) : (s.setGroup gid g).cluster j = s.cluster j := rfl
@[simp] theorem State.setGroup_get_die (gid : Nat) (g : Group) (j : Nat) : (s.setGroup gid g).die j = s.die j := rfl
@[simp] theorem State.setGroup_get_port (gid : Nat) (g : Group) (j : Nat) : (s.setGroup gid g).port j = s.port j := rfl
@[simp] theorem State.setGroup_byteAt (gid : Nat) (g : Group) (a : Nat) : (s.setGroup gid g).byteAt a = s.byteAt a := rfl
@[simp] theorem State.modGroup_get_team (gid : Nat) (f : Group → Group) (j : Nat) : (s.modGroup gid f).team j = s.team j := rfl
@[simp] theorem State.modGroup_get_task (gid : Nat) (f : Group → Group) (j : Nat) : (s.modGroup gid f).task j = s.task j := rfl
@[simp] theorem State.modGroup_get_core (gid : Nat) (f : Group → Group) (j : Nat) : (s.modGroup gid f).core j = s.core j := rfl
@[simp] theorem State.modGroup_get_unit (gid : Nat) (f : Group → Group) (j : Nat) : (s.modGroup gid f).unit j = s.unit j := rfl
@[simp] theorem State.modGroup_get_cluster (gid : Nat) (f : Group → Group) (j : Nat) : (s.modGroup gid f).cluster j = s.cluster j := rfl
@[simp] theorem State.modGroup_get_die (gid : Nat) (f : Group → Group) (j : Nat) : (s.modGroup gid f).die j = s.die j := rfl
@[simp] theorem State.modGroup_get_port (gid : Nat) (f : Group → Group) (j : Nat) : (s.modGroup gid f).port j = s.port j := rfl
@[simp] theorem State.modGroup_byteAt (gid : Nat) (f : Group → Group) (a : Nat) : (s.modGroup gid f).byteAt a = s.byteAt a := rfl
@[simp] theorem State.setTeam_get_group (k : Nat) (v : Team) (j : Nat) : (s.setTeam k v).group? j = s.group? j := rfl
@[simp] theorem State.setTeam_get_task (k : Nat) (v : Team) (j : Nat) : (s.setTeam k v).task j = s.task j := rfl
@[simp] theorem State.setTeam_get_core (k : Nat) (v : Team) (j : Nat) : (s.setTeam k v).core j = s.core j := rfl
@[simp] theorem State.setTeam_get_unit (k : Nat) (v : Team) (j : Nat) : (s.setTeam k v).unit j = s.unit j := rfl
@[simp] theorem State.setTeam_get_cluster (k : Nat) (v : Team) (j : Nat) : (s.setTeam k v).cluster j = s.cluster j := rfl
@[simp] theorem State.setTeam_get_die (k : Nat) (v : Team) (j : Nat) : (s.setTeam k v).die j = s.die j := rfl
@[simp] theorem State.setTeam_get_port (k : Nat) (v : Team) (j : Nat) : (s.setTeam k v).port j = s.port j := rfl
@[simp] theorem State.setTeam_byteAt (k : Nat) (v : Team) (a : Nat) : (s.setTeam k v).byteAt a = s.byteAt a := rfl
@[simp] theorem State.setTask_get_group (k : Nat) (v : Task) (j : Nat) : (s.setTask k v).group? j = s.group? j := rfl
@[simp] theorem State.setTask_get_team (k : Nat) (v : Task) (j : Nat) : (s.setTask k v).team j = s.team j := rfl
@[simp] theorem State.setTask_get_core (k : Nat) (v : Task) (j : Nat) : (s.setTask k v).core j = s.core j := rfl
@[simp] theorem State.setTask_get_unit (k : Nat) (v : Task) (j : Nat) : (s.setTask k v).unit j = s.unit j := rfl
@[simp] theorem State.setTask_get_cluster (k : Nat) (v : Task) (j : Nat) : (s.setTask k v).cluster j = s.cluster j := rfl
@[simp] theorem State.setTask_get_die (k : Nat) (v : Task) (j : Nat) : (s.setTask k v).die j = s.die j := rfl
@[simp] theorem State.setTask_get_port (k : Nat) (v : Task) (j : Nat) : (s.setTask k v).port j = s.port j := rfl
@[simp] theorem State.setTask_byteAt (k : Nat) (v : Task) (a : Nat) : (s.setTask k v).byteAt a = s.byteAt a := rfl
@[simp] theorem State.setCore_get_group (k : Nat) (v : CoreSt) (j : Nat) : (s.setCore k v).group? j = s.group? j := rfl
@[simp] theorem State.setCore_get_team (k : Nat) (v : CoreSt) (j : Nat) : (s.setCore k v).team j = s.team j := rfl
@[simp] theorem State.setCore_get_task (k : Nat) (v : CoreSt) (j : Nat) : (s.setCore k v).task j = s.task j := rfl
@[simp] theorem State.setCore_get_unit (k : Nat) (v : CoreSt) (j : Nat) : (s.setCore k v).unit j = s.unit j := rfl
@[simp] theorem State.setCore_get_cluster (k : Nat) (v : CoreSt) (j : Nat) : (s.setCore k v).cluster j = s.cluster j := rfl
@[simp] theorem State.setCore_get_die (k : Nat) (v : CoreSt) (j : Nat) : (s.setCore k v).die j = s.die j := rfl
@[simp] theorem State.setCore_get_port (k : Nat) (v : CoreSt) (j : Nat) : (s.setCore k v).port j = s.port j := rfl
@[simp] theorem State.setCore_byteAt (k : Nat) (v : CoreSt) (a : Nat) : (s.setCore k v).byteAt a = s.byteAt a := rfl
@[simp] theorem State.setUnit_get_group (k : Nat) (v : UnitSt) (j : Nat) : (s.setUnit k v).group? j = s.group? j := rfl
@[simp] theorem State.setUnit_get_team (k : Nat) (v : UnitSt) (j : Nat) : (s.setUnit k v).team j = s.team j := rfl
@[simp] theorem State.setUnit_get_task (k : Nat) (v : UnitSt) (j : Nat) : (s.setUnit k v).task j = s.task j := rfl
@[simp] theorem State.setUnit_get_core (k : Nat) (v : UnitSt) (j : Nat) : (s.setUnit k v).core j = s.core j := rfl
@[simp] theorem State.setUnit_get_cluster (k : Nat) (v : UnitSt) (j : Nat) : (s.setUnit k v).cluster j = s.cluster j := rfl
@[simp] theorem State.setUnit_get_die (k : Nat) (v : UnitSt) (j : Nat) : (s.setUnit k v).die j = s.die j := rfl
@[simp] theorem State.setUnit_get_port (k : Nat) (v : UnitSt) (j : Nat) : (s.setUnit k v).port j = s.port j := rfl
@[simp] theorem State.setUnit_byteAt (k : Nat) (v : UnitSt) (a : Nat) : (s.setUnit k v).byteAt a = s.byteAt a := rfl
@[simp] theorem State.setCluster_get_group (k : Nat) (v : ClusterSt) (j : Nat) : (s.setCluster k v).group? j = s.group? j := rfl
@[simp] theorem State.setCluster_get_team (k : Nat) (v : ClusterSt) (j : Nat) : (s.setCluster k v).team j = s.team j := rfl
@[simp] theorem State.setCluster_get_task (k : Nat) (v : ClusterSt) (j : Nat) : (s.setCluster k v).task j = s.task j := rfl
@[simp] theorem State.setCluster_get_core (k : Nat) (v : ClusterSt) (j : Nat) : (s.setCluster k v).core j = s.core j := rfl
@[simp] theorem State.setCluster_get_unit (k : Nat) (v : ClusterSt) (j : Nat) : (s.setCluster k v).unit j = s.unit j := rfl
@[simp] theorem State.setCluster_get_die (k : Nat) (v : ClusterSt) (j : Nat) : (s.setCluster k v).die j = s.die j := rfl
@[simp] theorem State.setCluster_get_port (k : Nat) (v : ClusterSt) (j : Nat) : (s.setCluster k v).port j = s.port j := rfl
@[simp] theorem State.setCluster_byteAt (k : Nat) (v : ClusterSt) (a : Nat) : (s.setCluster k v).byteAt a = s.byteAt a := rfl
@[simp] theorem State.setDie_get_group (k : Nat) (v : DieSt) (j : Nat) : (s.setDie k v).group? j = s.group? j := rfl
@[simp] theorem State.setDie_get_team (k : Nat) (v : DieSt) (j : Nat) : (s.setDie k v).team j = s.team j := rfl
@[simp] theorem State.setDie_get_task (k : Nat) (v : DieSt) (j : Nat) : (s.setDie k v).task j = s.task j := rfl
@[simp] theorem State.setDie_get_core (k : Nat) (v : DieSt) (j : Nat) : (s.setDie k v).core j = s.core j := rfl
@[simp] theorem State.setDie_get_unit (k : Nat) (v : DieSt) (j : Nat) : (s.setDie k v).unit j = s.unit j := rfl
@[simp] theorem State.setDie_get_cluster (k : Nat) (v : DieSt) (j : Nat) : (s.setDie k v).cluster j = s.cluster j := rfl
@[simp] theorem State.setDie_get_port (k : Nat) (v : DieSt) (j : Nat) : (s.setDie k v).port j = s.port j := rfl
@[simp] theorem State.setDie_byteAt (k : Nat) (v : DieSt) (a : Nat) : (s.setDie k v).byteAt a = s.byteAt a := rfl
@[simp] theorem State.setPort_get_group (k : Nat) (v : PortSt) (j : Nat) : (s.setPort k v).group? j = s.group? j := rfl
@[simp] theorem State.setPort_get_team (k : Nat) (v : PortSt) (j : Nat) : (s.setPort k v).team j = s.team j := rfl
@[simp] theorem State.setPort_get_task (k : Nat) (v : PortSt) (j : Nat) : (s.setPort k v).task j = s.task j := rfl
@[simp] theorem State.setPort_get_core (k : Nat) (v : PortSt) (j : Nat) : (s.setPort k v).core j = s.core j := rfl
@[simp] theorem State.setPort_get_unit (k : Nat) (v : PortSt) (j : Nat) : (s.setPort k v).unit j = s.unit j := rfl
@[simp] theorem State.setPort_get_cluster (k : Nat) (v : PortSt) (j : Nat) : (s.setPort k v).cluster j = s.cluster j := rfl
@[simp] theorem State.setPort_get_die (k : Nat) (v : PortSt) (j : Nat) : (s.setPort k v).die j = s.die j := rfl
@[simp] theorem State.setPort_byteAt (k : Nat) (v : PortSt) (a : Nat) : (s.setPort k v).byteAt a = s.byteAt a := rfl
@[simp] theorem State.countCtx_get_group (c d h e n : Nat) (j : Nat) : (s.countCtx c d h e n).group? j = s.group? j := by simp [State.group?]
@[simp] theorem State.countCtx_get_team (c d h e n : Nat) (j : Nat) : (s.countCtx c d h e n).team j = s.team j := by simp [State.team]
@[simp] theorem State.countCtx_get_task (c d h e n : Nat) (j : Nat) : (s.countCtx c d h e n).task j = s.task j := by simp [State.task]
@[simp] theorem State.countCtx_get_core (c d h e n : Nat) (j : Nat) : (s.countCtx c d h e n).core j = s.core j := by simp [State.core]
@[simp] theorem State.countCtx_get_unit (c d h e n : Nat) (j : Nat) : (s.countCtx c d h e n).unit j = s.unit j := by simp [State.unit]
@[simp] theorem State.countCtx_get_cluster (c d h e n : Nat) (j : Nat) : (s.countCtx c d h e n).cluster j = s.cluster j := by simp [State.cluster]
@[simp] theorem State.countCtx_get_port (c d h e n : Nat) (j : Nat) : (s.countCtx c d h e n).port j = s.port j := by simp [State.port]
@[simp] theorem State.countCtx_byteAt (c d h e n : Nat) (a : Nat) : (s.countCtx c d h e n).byteAt a = s.byteAt a := by simp [State.byteAt]
@[simp] theorem State.count_get_group (d h e n : Nat) (j : Nat) : (s.count d h e n).group? j = s.group? j := State.countCtx_get_group s s.acting d h e n j
@[simp] theorem State.count_get_team (d h e n : Nat) (j : Nat) : (s.count d h e n).team j = s.team j := State.countCtx_get_team s s.acting d h e n j
@[simp] theorem State.count_get_task (d h e n : Nat) (j : Nat) : (s.count d h e n).task j = s.task j := State.countCtx_get_task s s.acting d h e n j
@[simp] theorem State.count_get_core (d h e n : Nat) (j : Nat) : (s.count d h e n).core j = s.core j := State.countCtx_get_core s s.acting d h e n j
@[simp] theorem State.count_get_unit (d h e n : Nat) (j : Nat) : (s.count d h e n).unit j = s.unit j := State.countCtx_get_unit s s.acting d h e n j
@[simp] theorem State.count_get_cluster (d h e n : Nat) (j : Nat) : (s.count d h e n).cluster j = s.cluster j := State.countCtx_get_cluster s s.acting d h e n j
@[simp] theorem State.count_get_port (d h e n : Nat) (j : Nat) : (s.count d h e n).port j = s.port j := State.countCtx_get_port s s.acting d h e n j
@[simp] theorem State.count_byteAt (d h e n : Nat) (a : Nat) : (s.count d h e n).byteAt a = s.byteAt a := State.countCtx_byteAt s s.acting d h e n a
@[simp] theorem State.post_get_group (c v : Nat) (j : Nat) : (s.post c v).group? j = s.group? j := rfl
@[simp] theorem State.post_get_team (c v : Nat) (j : Nat) : (s.post c v).team j = s.team j := rfl
@[simp] theorem State.post_get_task (c v : Nat) (j : Nat) : (s.post c v).task j = s.task j := rfl
@[simp] theorem State.post_get_core (c v : Nat) (j : Nat) : (s.post c v).core j = s.core j := rfl
@[simp] theorem State.post_get_unit (c v : Nat) (j : Nat) : (s.post c v).unit j = s.unit j := rfl
@[simp] theorem State.post_get_cluster (c v : Nat) (j : Nat) : (s.post c v).cluster j = s.cluster j := rfl
@[simp] theorem State.post_get_die (c v : Nat) (j : Nat) : (s.post c v).die j = s.die j := rfl
@[simp] theorem State.post_get_port (c v : Nat) (j : Nat) : (s.post c v).port j = s.port j := rfl
@[simp] theorem State.post_byteAt (c v : Nat) (a : Nat) : (s.post c v).byteAt a = s.byteAt a := rfl
@[simp] theorem State.putByte_get_group (t : Nat) (b : Byte) (j : Nat) : (s.putByte t b).group? j = s.group? j := rfl
@[simp] theorem State.putByte_get_team (t : Nat) (b : Byte) (j : Nat) : (s.putByte t b).team j = s.team j := rfl
@[simp] theorem State.putByte_get_task (t : Nat) (b : Byte) (j : Nat) : (s.putByte t b).task j = s.task j := rfl
@[simp] theorem State.putByte_get_core (t : Nat) (b : Byte) (j : Nat) : (s.putByte t b).core j = s.core j := rfl
@[simp] theorem State.putByte_get_unit (t : Nat) (b : Byte) (j : Nat) : (s.putByte t b).unit j = s.unit j := rfl
@[simp] theorem State.putByte_get_cluster (t : Nat) (b : Byte) (j : Nat) : (s.putByte t b).cluster j = s.cluster j := rfl
@[simp] theorem State.putByte_get_die (t : Nat) (b : Byte) (j : Nat) : (s.putByte t b).die j = s.die j := rfl
@[simp] theorem State.putByte_get_port (t : Nat) (b : Byte) (j : Nat) : (s.putByte t b).port j = s.port j := rfl
@[simp] theorem State.spoil_get_group (lo n : Nat) (j : Nat) : (s.spoil lo n).group? j = s.group? j := rfl
@[simp] theorem State.spoil_get_team (lo n : Nat) (j : Nat) : (s.spoil lo n).team j = s.team j := rfl
@[simp] theorem State.spoil_get_task (lo n : Nat) (j : Nat) : (s.spoil lo n).task j = s.task j := rfl
@[simp] theorem State.spoil_get_core (lo n : Nat) (j : Nat) : (s.spoil lo n).core j = s.core j := rfl
@[simp] theorem State.spoil_get_unit (lo n : Nat) (j : Nat) : (s.spoil lo n).unit j = s.unit j := rfl
@[simp] theorem State.spoil_get_cluster (lo n : Nat) (j : Nat) : (s.spoil lo n).cluster j = s.cluster j := rfl
@[simp] theorem State.spoil_get_die (lo n : Nat) (j : Nat) : (s.spoil lo n).die j = s.die j := rfl
@[simp] theorem State.spoil_get_port (lo n : Nat) (j : Nat) : (s.spoil lo n).port j = s.port j := rfl
@[simp] theorem State.poisonWrite_get_group (t n : Nat) (b : Bool) (j : Nat) : (s.poisonWrite t n b).group? j = s.group? j := rfl
@[simp] theorem State.poisonWrite_get_team (t n : Nat) (b : Bool) (j : Nat) : (s.poisonWrite t n b).team j = s.team j := rfl
@[simp] theorem State.poisonWrite_get_task (t n : Nat) (b : Bool) (j : Nat) : (s.poisonWrite t n b).task j = s.task j := rfl
@[simp] theorem State.poisonWrite_get_core (t n : Nat) (b : Bool) (j : Nat) : (s.poisonWrite t n b).core j = s.core j := rfl
@[simp] theorem State.poisonWrite_get_unit (t n : Nat) (b : Bool) (j : Nat) : (s.poisonWrite t n b).unit j = s.unit j := rfl
@[simp] theorem State.poisonWrite_get_cluster (t n : Nat) (b : Bool) (j : Nat) : (s.poisonWrite t n b).cluster j = s.cluster j := rfl
@[simp] theorem State.poisonWrite_get_die (t n : Nat) (b : Bool) (j : Nat) : (s.poisonWrite t n b).die j = s.die j := rfl
@[simp] theorem State.poisonWrite_get_port (t n : Nat) (b : Bool) (j : Nat) : (s.poisonWrite t n b).port j = s.port j := rfl
@[simp] theorem State.poisonWrite_byteAt (t n : Nat) (b : Bool) (a : Nat) : (s.poisonWrite t n b).byteAt a = s.byteAt a := rfl
@[simp] theorem State.setCtxRing_get_group (c i : Nat) (r : Ring) (j : Nat) : (s.setCtxRing c i r).group? j = s.group? j := rfl
@[simp] theorem State.setCtxRing_get_team (c i : Nat) (r : Ring) (j : Nat) : (s.setCtxRing c i r).team j = s.team j := rfl
@[simp] theorem State.setCtxRing_get_task (c i : Nat) (r : Ring) (j : Nat) : (s.setCtxRing c i r).task j = s.task j := rfl
@[simp] theorem State.setCtxRing_get_core (c i : Nat) (r : Ring) (j : Nat) : (s.setCtxRing c i r).core j = s.core j := rfl
@[simp] theorem State.setCtxRing_get_unit (c i : Nat) (r : Ring) (j : Nat) : (s.setCtxRing c i r).unit j = s.unit j := rfl
@[simp] theorem State.setCtxRing_get_cluster (c i : Nat) (r : Ring) (j : Nat) : (s.setCtxRing c i r).cluster j = s.cluster j := rfl
@[simp] theorem State.setCtxRing_get_die (c i : Nat) (r : Ring) (j : Nat) : (s.setCtxRing c i r).die j = s.die j := rfl
@[simp] theorem State.setCtxRing_get_port (c i : Nat) (r : Ring) (j : Nat) : (s.setCtxRing c i r).port j = s.port j := rfl
@[simp] theorem State.setCtxRing_byteAt (c i : Nat) (r : Ring) (a : Nat) : (s.setCtxRing c i r).byteAt a = s.byteAt a := rfl

/-! ### Reading after writing -/

@[simp] theorem State.setTeam_same (k : Nat) (v : Team) : (s.setTeam k v).team k = v := by simp [State.team, State.setTeam]
theorem State.setTeam_other {k j : Nat} (v : Team) (h : j ≠ k) : (s.setTeam k v).team j = s.team j := by simp [State.team, State.setTeam, tfind_tput_other _ _ h]
@[simp] theorem State.setTask_same (k : Nat) (v : Task) : (s.setTask k v).task k = v := by simp [State.task, State.setTask]
theorem State.setTask_other {k j : Nat} (v : Task) (h : j ≠ k) : (s.setTask k v).task j = s.task j := by simp [State.task, State.setTask, tfind_tput_other _ _ h]
@[simp] theorem State.setCore_same (k : Nat) (v : CoreSt) : (s.setCore k v).core k = v := by simp [State.core, State.setCore]
theorem State.setCore_other {k j : Nat} (v : CoreSt) (h : j ≠ k) : (s.setCore k v).core j = s.core j := by simp [State.core, State.setCore, tfind_tput_other _ _ h]
@[simp] theorem State.setUnit_same (k : Nat) (v : UnitSt) : (s.setUnit k v).unit k = v := by simp [State.unit, State.setUnit]
theorem State.setUnit_other {k j : Nat} (v : UnitSt) (h : j ≠ k) : (s.setUnit k v).unit j = s.unit j := by simp [State.unit, State.setUnit, tfind_tput_other _ _ h]
@[simp] theorem State.setCluster_same (k : Nat) (v : ClusterSt) : (s.setCluster k v).cluster k = v := by simp [State.cluster, State.setCluster]
theorem State.setCluster_other {k j : Nat} (v : ClusterSt) (h : j ≠ k) : (s.setCluster k v).cluster j = s.cluster j := by simp [State.cluster, State.setCluster, tfind_tput_other _ _ h]
@[simp] theorem State.setDie_same (k : Nat) (v : DieSt) : (s.setDie k v).die k = v := by simp [State.die, State.setDie]
theorem State.setDie_other {k j : Nat} (v : DieSt) (h : j ≠ k) : (s.setDie k v).die j = s.die j := by simp [State.die, State.setDie, tfind_tput_other _ _ h]
@[simp] theorem State.setPort_same (k : Nat) (v : PortSt) : (s.setPort k v).port k = v := by simp [State.port, State.setPort]
theorem State.setPort_other {k j : Nat} (v : PortSt) (h : j ≠ k) : (s.setPort k v).port j = s.port j := by simp [State.port, State.setPort, tfind_tput_other _ _ h]
@[simp] theorem State.setGroup_same (gid : Nat) (g : Group) : (s.setGroup gid g).group? gid = some g := by
  simp [State.group?, State.setGroup]
theorem State.setGroup_other {gid j : Nat} (g : Group) (h : j ≠ gid) : (s.setGroup gid g).group? j = s.group? j := by
  simp [State.group?, State.setGroup, tfind_tput_other _ _ h]
theorem State.modGroup_get (gid j : Nat) (f : Group → Group) :
    (s.modGroup gid f).group? j = if j = gid then (s.group? gid).map f else s.group? j := by
  simp [State.group?, State.modGroup, tfind_tmod]

end Sys2Proof.Machine
end

