-- ==== Sys2Proof/Laws/Issue.lean ====
section
/-! SUPPORT. What issuing an instruction does, once for all: the group it leaves, and what it leaves alone. -/

namespace Sys2Proof.Machine

theorem Kept.refl (s : State) : Kept s s := by constructor <;> rfl

theorem Kept.trans {a b c : State} (h : Kept a b) (k : Kept b c) : Kept a c := by
  constructor
  · rw [k.inputs, h.inputs]
  · rw [k.clock, h.clock]
  · rw [k.cur, h.cur]
  · rw [k.acting, h.acting]
  · rw [k.nextStamp, h.nextStamp]
  · rw [k.nextOrder, h.nextOrder]
  · rw [k.nextCopy, h.nextCopy]
  · rw [k.teams, h.teams]
  · rw [k.tasks, h.tasks]
  · rw [k.cores, h.cores]
  · rw [k.clusters, h.clusters]
  · rw [k.hbm, h.hbm]
  · rw [k.llc, h.llc]
  · rw [k.present, h.present]
  · rw [k.poison, h.poison]
  · rw [k.deadWords, h.deadWords]
  · rw [k.owners, h.owners]
  · rw [k.sealedLines, h.sealedLines]
  · rw [k.cLines, h.cLines]
  · rw [k.moves, h.moves]
  · rw [k.sealBad, h.sealBad]
  · rw [k.asked, h.asked]
  · rw [k.spoilt, h.spoilt]
  · rw [k.respoken, h.respoken]
  · rw [k.host, h.host]
  · rw [k.ports, h.ports]

/-- A byte of memory that both keep reads the same. -/
theorem Kept.byteAt {s t : State} (h : Kept s t) (a : Nat) : t.byteAt a = s.byteAt a := by
  simp [State.byteAt, h.llc, h.hbm, h.spoilt, h.respoken]

theorem kept_setGroup (s : State) (gid : Nat) (g : Group) : Kept s (s.setGroup gid g) := by constructor <;> rfl
theorem kept_setUnit (s : State) (u : Nat) (v : UnitSt) : Kept s (s.setUnit u v) := by constructor <;> rfl
theorem kept_countCtx (s : State) (c d h e n : Nat) : Kept s (s.countCtx c d h e n) := by constructor <;> simp
theorem kept_replies (s : State) (l : List Reply) : Kept s { s with replies := l } := by constructor <;> rfl
theorem kept_answered (s : State) (l : List Reply) (n : List (Nat × Need)) : Kept s { s with replies := l, needs := n } := by constructor <;> rfl
theorem kept_freeCtr (s : State) (n : Nat) : Kept s { s with freeCtr := n } := by constructor <;> rfl

theorem kept_countFor (s : State) (gid : Nat) (g : Group) (e n : Nat) : Kept s (s.countFor gid g e n) := kept_countCtx ..

theorem kept_countIssue (s : State) (i : Iss) (g : Group) : Kept s (s.countIssue i g) := by
  unfold State.countIssue; simp only; split
  · exact kept_countFor ..
  · exact (kept_countFor ..).trans (kept_countFor ..)

theorem kept_taintG (s : State) (gid : Nat) (gs : List Nat) : Kept s (s.taintG gid gs) := by
  unfold State.taintG; simp only; split
  · exact kept_setUnit ..
  · exact .refl s

theorem kept_sampleIssue (s : State) (i : Iss) (g : Group) (out : Option Outst) : Kept s (s.sampleIssue i g out) := by
  unfold State.sampleIssue; simp only
  split
  · exact .refl s
  · split
    · exact kept_setUnit ..
    · split
      · exact kept_setUnit ..
      · exact .refl s

/-! ### The groups -/

@[simp] theorem countFor_groups (s : State) (gid : Nat) (g : Group) (e n : Nat) : (s.countFor gid g e n).groups = s.groups := by
  simp [State.countFor]
@[simp] theorem countIssue_groups (s : State) (i : Iss) (g : Group) : (s.countIssue i g).groups = s.groups := by
  unfold State.countIssue; simp only; split <;> simp
@[simp] theorem taintG_groups (s : State) (gid : Nat) (gs : List Nat) : (s.taintG gid gs).groups = s.groups := by
  unfold State.taintG; simp only; split <;> rfl
@[simp] theorem sampleIssue_groups (s : State) (i : Iss) (g : Group) (out : Option Outst) : (s.sampleIssue i g out).groups = s.groups := by
  unfold State.sampleIssue; simp only; split
  · rfl
  · split
    · rfl
    · split <;> rfl

/-- The group that an instruction leaves outside runahead (07 R180): its context at its next PC, its results outstanding with the new one,
parked: switch when S is set and a result is outstanding, or a stop waits. -/
def leftGroup (s : State) (i : Iss) (g : Group) (pc : Addr) (out : Option Outst) : Group :=
  let park := (i.f.s && !(g.outst ++ out.toList).isEmpty) || g.stop.isSome
  { g with ctx := { g.ctx with pc := pc, via := viaOf i }, issued := g.issued + 1, age := 0, aged := false, answers := [], crossed := [],
           released := false, granted := none, acks := ((s.group? i.gid).getD g).acks, acquiring := ((s.group? i.gid).getD g).acquiring, memAddr := 0, memLevel := 0, waitLimit := none,
           outst := g.outst ++ out.toList, stat := if park then .parkedSwitch else .ready, ranAhead := if park then false else g.ranAhead }

/-- Outside runahead an instruction leaves its group so. -/
theorem finish_group (s : State) (i : Iss) (g : Group) (pc : Addr) (out : Option Outst) (h : g.ra = none) :
    (s.finish i g pc out).group? i.gid = some (leftGroup s i g pc out) := by
  unfold State.finish
  simp only [h]
  simp [State.group?, State.setGroup, leftGroup, h]

/-- It leaves every other group alone. -/
theorem finish_other (s : State) (i : Iss) (g : Group) (pc : Addr) (out : Option Outst) (h : g.ra = none) {j : Nat} (hj : j ≠ i.gid) :
    (s.finish i g pc out).group? j = s.group? j := by
  unfold State.finish
  simp only [h]
  simp [State.group?, State.setGroup, tfind_tput_other _ _ hj]

/-- And everything else too. -/
theorem finish_kept (s : State) (i : Iss) (g : Group) (pc : Addr) (out : Option Outst) (h : g.ra = none) :
    Kept s (s.finish i g pc out) := by
  unfold State.finish
  simp only [h]
  have h1 := (kept_answered s (s.replies.filter fun r => r.who != i.gid) (s.needs.filter fun n => n.1 != i.gid)).trans
    (kept_taintG _ i.gid (if i.ra then [] else writtenG i out))
  refine Kept.trans ?_ (kept_countIssue ..)
  refine Kept.trans ?_ (kept_setGroup ..)
  exact h1.trans (kept_sampleIssue _ i g out)

/-! ### Issue -/

theorem Issues.settled_ra {s : State} {gid : Nat} {g : Group} {o : Op} (h : Issues s gid g o) : g.settled.ra = none := h.ra

theorem launchOf_settled (s : State) (g : Group) : s.launchOf g.settled = s.launchOf g := rfl

/-- Issue answers the state that the effect of the instruction ends in. -/
theorem issue_eq {s : State} {gid : Nat} {g : Group} {o : Op} (f : Fields) (body : Iss → State → Res) (h : Issues s gid g o) :
    issue o f s body = .next { s.conclude (s.issOf gid g.settled o f) (body (s.issOf gid g.settled o f) s) with freeCtr := s.freeCtr + 1 } := by
  unfold issue
  simp only [h.cur, h.group]
  have hra : (s.issOf gid g.settled o f).ra = false := by simp [State.issOf, Iss.ra, h.settled_ra]
  have hl : (supervisorOnly o && !(s.issOf gid g.settled o f).l.super) = false := by
    simp only [State.issOf, launchOf_settled]
    cases hs : supervisorOnly o
    · rfl
    · simp [h.super hs]
  simp only [hra, hl]
  rfl

/-- An effect that is performed: the step is next, with the group left so. -/
theorem issue_done {s s1 : State} {gid : Nat} {g g1 : Group} {o : Op} {f : Fields} {body : Iss → State → Res} {pc : Addr} {out : Option Outst}
    (h : Issues s gid g o) (hb : body (s.issOf gid g.settled o f) s = .done s1 g1 pc out) :
    issue o f s body = .next { s1.finish (s.issOf gid g.settled o f) g1 pc out with freeCtr := s.freeCtr + 1 } := by
  rw [issue_eq f body h, hb]; rfl

/-- An effect that is performed changes, beside what it did to the machine, only its group's context. -/
theorem done_leaves {s s1 : State} {gid : Nat} {g g1 : Group} {o : Op} {f : Fields} {body : Iss → State → Res} {pc : Addr} {out : Option Outst}
    (h : Issues s gid g o) (hb : body (s.issOf gid g.settled o f) s = .done s1 g1 pc out) (hra : g1.ra = none) :
    ∃ t, issue o f s body = .next t ∧ Leaves s1 (s.issOf gid g.settled o f) pc g1.ctx t :=
  ⟨_, issue_done h hb, ⟨_, finish_group _ _ _ _ _ hra, rfl⟩, fun _ hj => finish_other _ _ _ _ _ hra hj,
    (finish_kept _ _ _ _ _ hra).trans (kept_freeCtr _ _)⟩

/-- An effect that faults: the group parks with the record of the fault that 01 R34 names. -/
theorem issue_fault {s s1 : State} {gid : Nat} {g : Group} {o : Op} {f : Fields} {body : Iss → State → Res} {fs : List Flt} {x : Flt}
    (h : Issues s gid g o) (hb : body (s.issOf gid g.settled o f) s = .fault s1 fs) (hp : pickFault fs = some x) :
    issue o f s body = .next { s1.takeFault gid g.settled x (some (if f.x then 8 else 4)) with freeCtr := s.freeCtr + 1 } := by
  rw [issue_eq f body h, hb]
  have hra : (s.issOf gid g.settled o f).ra = false := by simp [State.issOf, Iss.ra, h.settled_ra]
  simp only [State.conclude, hra, hp]
  rfl

end Sys2Proof.Machine
end

