-- ==== Sys2Proof/Laws/Registers.lean ====
section
/-! SUPPORT. Registers of a context: reading after writing, and what writing the lanes of a destination does. -/

namespace Sys2Proof.Machine

/-! ### One write -/

theorem vGet_vSet (c : Ctx) (n l m k : Nat) (v : W32) (b : Nat) :
    (c.vSet n l v b).vGet m k = if 128 * m + k = 128 * n + l then v else c.vGet m k := by
  simp [Ctx.vGet, Ctx.vSet, tget_tset]
theorem vBad_vSet (c : Ctx) (n l m k : Nat) (v : W32) (b : Nat) :
    (c.vSet n l v b).vBad m k = if 128 * m + k = 128 * n + l then b else c.vBad m k := by
  simp [Ctx.vBad, Ctx.vSet, tget_tset]
theorem gGet_gSet (c : Ctx) (n m : Nat) (v : W64) (b : Nat) : (c.gSet n v b).gGet m = if m = n then v else c.gGet m := by
  simp [Ctx.gGet, Ctx.gSet, tget_tset]
theorem gBad_gSet (c : Ctx) (n m : Nat) (v : W64) (b : Nat) : (c.gSet n v b).gBad m = if m = n then b else c.gBad m := by
  simp [Ctx.gBad, Ctx.gSet, tget_tset]
theorem maskGet_maskSet (c : Ctx) (n m : Nat) (v : LaneMask) : (c.maskSet n v).maskGet m = if m = n then v else c.maskGet m := by
  simp [Ctx.maskGet, Ctx.maskSet, tget_tset]
/-- p0 reads true whatever is written to it (01 R25). -/
theorem predGet_zero (c : Ctx) (l : Nat) : c.predGet 0 l = 1 := rfl
/-- Writes to p0 are discarded (01 R25). -/
theorem predSet_zero (c : Ctx) (l : Nat) (v : BitVec 2) : c.predSet 0 l v = c := rfl
theorem predGet_predSet (c : Ctx) (p l q k : Nat) (v : BitVec 2) (hp : p ≠ 0) (hq : q ≠ 0) :
    (c.predSet p l v).predGet q k = if 128 * q + k = 128 * p + l then (if v = 3 then 2 else v) else c.predGet q k := by
  simp only [Ctx.predGet, Ctx.predSet, hp, hq, if_false, tget_tset]
  split <;> rfl

theorem SameRest.refl (c : Ctx) : SameRest c c := by constructor <;> rfl
theorem SameRest.trans {a b c : Ctx} (h : SameRest a b) (k : SameRest b c) : SameRest a c := by
  constructor
  · rw [k.pc, h.pc]
  · rw [k.wbase, h.wbase]
  · rw [k.am, h.am]
  · rw [k.live, h.live]
  · rw [k.masks, h.masks]
  · rw [k.fpsr, h.fpsr]
  · rw [k.regions, h.regions]
  · rw [k.rdepth, h.rdepth]
  · rw [k.inHandler, h.inHandler]
  · rw [k.trapPc, h.trapPc]
  · rw [k.trapAm, h.trapAm]

theorem rest_vSet (c : Ctx) (n l : Nat) (v : W32) (b : Nat) : SameRest c (c.vSet n l v b) := by constructor <;> rfl
theorem rest_gSet (c : Ctx) (n : Nat) (v : W64) (b : Nat) : SameRest c (c.gSet n v b) := by constructor <;> rfl
theorem rest_bind (c : Ctx) (n : Nat) : SameRest c (c.bind n) := by constructor <;> rfl
theorem rest_clearName (c : Ctx) (n : Nat) : SameRest c (c.clearName n) := by constructor <;> rfl
theorem rest_predSet (c : Ctx) (p l : Nat) (v : BitVec 2) : SameRest c (c.predSet p l v) := by
  unfold Ctx.predSet; split
  · exact .refl c
  · constructor <;> rfl

/-- A fold of writes that each leave the rest leaves the rest. -/
theorem rest_foldl {α : Type} (f : Ctx → α → Ctx) (hf : ∀ c a, SameRest c (f c a)) (l : List α) (c : Ctx) : SameRest c (l.foldl f c) := by
  induction l generalizing c with
  | nil => exact .refl c
  | cons a r ih => exact (hf c a).trans (ih _)

/-! ### The words of one lane -/

theorem putWords_v (s : State) (g : Group) (c : Ctx) (name lane : Nat) (ws : List W32) (bad m k : Nat) (hk : k < 128) (hl : lane < 128) :
    (s.putWords g c name lane ws bad).vGet m k =
      if k = lane ∧ name ≤ m ∧ m < name + ws.length then s.mergeV g m lane (ws.getD (m - name) 0) else c.vGet m k := by
  unfold State.putWords
  generalize hn : ws.length = n
  have key : ∀ (n : Nat), ((List.range n).foldl (fun c j => c.vSet (name + j) lane (s.mergeV g (name + j) lane (ws.getD j 0)) (s.mergeVBad g (name + j) lane bad)) c).vGet m k =
      if k = lane ∧ name ≤ m ∧ m < name + n then s.mergeV g m lane (ws.getD (m - name) 0) else c.vGet m k := by
    intro n
    induction n with
    | zero => simp <;> omega
    | succ n ih =>
      rw [List.range_succ, List.foldl_append]
      simp only [List.foldl_cons, List.foldl_nil]
      rw [vGet_vSet, ih]
      by_cases h : 128 * m + k = 128 * (name + n) + lane
      · have h1 : m = name + n := by omega
        have h2 : k = lane := by omega
        subst h1 h2
        simp
      · rw [if_neg h]
        by_cases hc : k = lane ∧ name ≤ m ∧ m < name + n
        · rw [if_pos hc, if_pos ⟨hc.1, hc.2.1, by omega⟩]
        · rw [if_neg hc, if_neg]
          rintro ⟨a, b, d⟩
          exact hc ⟨a, b, by omega⟩
  exact key n

theorem putWords_bad (s : State) (g : Group) (c : Ctx) (name lane : Nat) (ws : List W32) (bad m k : Nat) (hk : k < 128) (hl : lane < 128) :
    (s.putWords g c name lane ws bad).vBad m k =
      if k = lane ∧ name ≤ m ∧ m < name + ws.length then s.mergeVBad g m lane bad else c.vBad m k := by
  unfold State.putWords
  generalize hn : ws.length = n
  have key : ∀ (n : Nat), ((List.range n).foldl (fun c j => c.vSet (name + j) lane (s.mergeV g (name + j) lane (ws.getD j 0)) (s.mergeVBad g (name + j) lane bad)) c).vBad m k =
      if k = lane ∧ name ≤ m ∧ m < name + n then s.mergeVBad g m lane bad else c.vBad m k := by
    intro n
    induction n with
    | zero => simp <;> omega
    | succ n ih =>
      rw [List.range_succ, List.foldl_append]
      simp only [List.foldl_cons, List.foldl_nil]
      rw [vBad_vSet, ih]
      by_cases h : 128 * m + k = 128 * (name + n) + lane
      · have h1 : m = name + n := by omega
        have h2 : k = lane := by omega
        subst h1 h2
        simp
      · rw [if_neg h]
        by_cases hc : k = lane ∧ name ≤ m ∧ m < name + n
        · rw [if_pos hc, if_pos ⟨hc.1, hc.2.1, by omega⟩]
        · rw [if_neg hc, if_neg]
          rintro ⟨a, b, d⟩
          exact hc ⟨a, b, by omega⟩
  exact key n

theorem rest_putWords (s : State) (g : Group) (c : Ctx) (name lane : Nat) (ws : List W32) (bad : Nat) : SameRest c (s.putWords g c name lane ws bad) :=
  rest_foldl _ (fun _ _ => rest_vSet _ _ _ _ _) _ _

/-! ### The lanes of a destination -/

/-- The words of several lanes, written in order: each lane holds its own. -/
theorem putLanes_v (s : State) (g : Group) (name : Nat) (rs : List (Nat × LaneRes)) (c : Ctx) (m k : Nat) (hk : k < 128)
    (hl : ∀ r ∈ rs, r.1 < 128) (hn : (rs.map (·.1)).Nodup) :
    (rs.foldl (fun c r => s.putWords g c name r.1 r.2.words r.2.bad) c).vGet m k =
      match rs.find? fun r => r.1 == k && decide (name ≤ m ∧ m < name + r.2.words.length) with
      | some r => s.mergeV g m k (r.2.words.getD (m - name) 0)
      | none => c.vGet m k := by
  induction rs generalizing c with
  | nil => rfl
  | cons r t ih =>
    simp only [List.map_cons, List.nodup_cons] at hn
    rw [List.foldl_cons, ih _ (fun x hx => hl x (List.mem_cons_of_mem _ hx)) hn.2, List.find?_cons]
    have hr := hl r (by simp)
    by_cases h : r.1 = k ∧ (name ≤ m ∧ m < name + r.2.words.length)
    · have hp : (r.1 == k && decide (name ≤ m ∧ m < name + r.2.words.length)) = true := by simp [h]
      rw [hp]
      have hnone : (t.find? fun r => r.1 == k && decide (name ≤ m ∧ m < name + r.2.words.length)) = none := by
        rw [List.find?_eq_none]
        intro x hx hc
        simp only [Bool.and_eq_true, beq_iff_eq] at hc
        exact hn.1 (h.1 ▸ hc.1 ▸ List.mem_map_of_mem (f := (·.1)) hx)
      rw [hnone]
      simp only
      rw [putWords_v _ _ _ _ _ _ _ _ _ hk hr, if_pos ⟨h.1.symm, h.2⟩, h.1]
    · have hp : (r.1 == k && decide (name ≤ m ∧ m < name + r.2.words.length)) = false := by
        simp only [Bool.and_eq_false_iff, beq_eq_false_iff_ne, decide_eq_false_iff_not]
        by_cases h1 : r.1 = k
        · exact .inr fun h2 => h ⟨h1, h2⟩
        · exact .inl h1
      rw [hp]
      simp only
      split
      · rfl
      · rw [putWords_v _ _ _ _ _ _ _ _ _ hk hr, if_neg]
        rintro ⟨a, b⟩
        exact h ⟨a.symm, b⟩

theorem putLanes_bad (s : State) (g : Group) (name : Nat) (rs : List (Nat × LaneRes)) (c : Ctx) (m k : Nat) (hk : k < 128)
    (hl : ∀ r ∈ rs, r.1 < 128) (hn : (rs.map (·.1)).Nodup) :
    (rs.foldl (fun c r => s.putWords g c name r.1 r.2.words r.2.bad) c).vBad m k =
      match rs.find? fun r => r.1 == k && decide (name ≤ m ∧ m < name + r.2.words.length) with
      | some r => s.mergeVBad g m k r.2.bad
      | none => c.vBad m k := by
  induction rs generalizing c with
  | nil => rfl
  | cons r t ih =>
    simp only [List.map_cons, List.nodup_cons] at hn
    rw [List.foldl_cons, ih _ (fun x hx => hl x (List.mem_cons_of_mem _ hx)) hn.2, List.find?_cons]
    have hr := hl r (by simp)
    by_cases h : r.1 = k ∧ (name ≤ m ∧ m < name + r.2.words.length)
    · have hp : (r.1 == k && decide (name ≤ m ∧ m < name + r.2.words.length)) = true := by simp [h]
      rw [hp]
      have hnone : (t.find? fun r => r.1 == k && decide (name ≤ m ∧ m < name + r.2.words.length)) = none := by
        rw [List.find?_eq_none]
        intro x hx hc
        simp only [Bool.and_eq_true, beq_iff_eq] at hc
        exact hn.1 (h.1 ▸ hc.1 ▸ List.mem_map_of_mem (f := (·.1)) hx)
      rw [hnone]
      simp only
      rw [putWords_bad _ _ _ _ _ _ _ _ _ hk hr, if_pos ⟨h.1.symm, h.2⟩, h.1]
    · have hp : (r.1 == k && decide (name ≤ m ∧ m < name + r.2.words.length)) = false := by
        simp only [Bool.and_eq_false_iff, beq_eq_false_iff_ne, decide_eq_false_iff_not]
        by_cases h1 : r.1 = k
        · exact .inr fun h2 => h ⟨h1, h2⟩
        · exact .inl h1
      rw [hp]
      simp only
      split
      · rfl
      · rw [putWords_bad _ _ _ _ _ _ _ _ _ hk hr, if_neg]
        rintro ⟨a, b⟩
        exact h ⟨a.symm, b⟩

theorem rest_putLanes (s : State) (g : Group) (name : Nat) (rs : List (Nat × LaneRes)) (c : Ctx) :
    SameRest c (rs.foldl (fun c r => s.putWords g c name r.1 r.2.words r.2.bad) c) :=
  rest_foldl _ (fun _ _ => rest_putWords _ _ _ _ _ _ _) _ _

/-- The predicates of several lanes. -/
theorem putPreds (s : State) (g : Group) (p : Nat) (hp : p ≠ 0) (rs : List (Nat × LaneRes)) (c : Ctx) (q k : Nat) (hk : k < 128)
    (hl : ∀ r ∈ rs, r.1 < 128) (hn : (rs.map (·.1)).Nodup) :
    (rs.foldl (fun c r => c.predSet p r.1 (s.mergeP g p r.1 r.2.pred)) c).predGet q k =
      if q = p then
        match rs.find? fun r => r.1 == k with
        | some r => if s.mergeP g p k r.2.pred = 3 then 2 else s.mergeP g p k r.2.pred
        | none => c.predGet q k
      else c.predGet q k := by
  induction rs generalizing c with
  | nil => simp
  | cons r t ih =>
    simp only [List.map_cons, List.nodup_cons] at hn
    rw [List.foldl_cons, ih _ (fun x hx => hl x (List.mem_cons_of_mem _ hx)) hn.2, List.find?_cons]
    have hr := hl r (by simp)
    by_cases hq : q = p
    · subst hq
      simp only [if_true]
      by_cases h : r.1 = k
      · have hnone : (t.find? fun r => r.1 == k) = none := by
          rw [List.find?_eq_none]
          intro x hx hc
          simp only [beq_iff_eq] at hc
          exact hn.1 (h ▸ hc ▸ List.mem_map_of_mem (f := (·.1)) hx)
        simp only [h, beq_self_eq_true, hnone]
        rw [predGet_predSet _ _ _ _ _ _ hp hp, if_pos rfl]
      · have hb : (r.1 == k) = false := by simp [h]
        rw [hb]
        simp only
        split
        · rfl
        · rw [predGet_predSet _ _ _ _ _ _ hp hp, if_neg (by omega)]
    · simp only [hq, if_false]
      by_cases h0 : q = 0
      · subst h0; simp [Ctx.predGet]
      · rw [predGet_predSet _ _ _ _ _ _ hp h0, if_neg (by omega)]

theorem rest_putPreds (s : State) (g : Group) (p : Nat) (rs : List (Nat × LaneRes)) (c : Ctx) :
    SameRest c (rs.foldl (fun c r => c.predSet p r.1 (s.mergeP g p r.1 r.2.pred)) c) :=
  rest_foldl _ (fun _ _ => rest_predSet _ _ _ _) _ _

end Sys2Proof.Machine
end

