-- ==== Sys2Proof/Laws/Lanewise.lean ====
section
/-! SUPPORT. What a lane-wise instruction does, once for all of them. -/

namespace Sys2Proof.Machine

/-! ### Freed names -/

theorem tfind_filter_key {α : Type} (p : Nat → Bool) (t : Table α) (k : Nat) :
    tfind (t.filter fun e => p e.1) k = if p k then tfind t k else none := by
  induction t with
  | nil => simp
  | cons e r ih =>
    obtain ⟨j, v⟩ := e
    rw [List.filter_cons]
    by_cases hj : j = k
    · subst hj
      cases hp : p j
      · simp [ih, hp]
      · simp [tfind]
    · cases hp : p j
      · simp [ih, tfind, hj]
      · simp [tfind, hj, ih]

theorem vGet_clearName (c : Ctx) (n m l : Nat) (hl : l < 128) : (c.clearName n).vGet m l = if m = n then 0 else c.vGet m l := by
  simp only [Ctx.vGet, Ctx.clearName, tget]
  rw [tfind_filter_key fun k => k / 128 != n]
  have : (128 * m + l) / 128 = m := by omega
  rw [this]
  by_cases h : m = n <;> simp [h]
theorem vBad_clearName (c : Ctx) (n m l : Nat) (hl : l < 128) : (c.clearName n).vBad m l = if m = n then 0 else c.vBad m l := by
  simp only [Ctx.vBad, Ctx.clearName, tget]
  rw [tfind_filter_key fun k => k / 128 != n]
  have : (128 * m + l) / 128 = m := by omega
  rw [this]
  by_cases h : m = n <;> simp [h]

theorem vGet_clearNames (ns : List Nat) (c : Ctx) (m l : Nat) (hl : l < 128) :
    (ns.foldl Ctx.clearName c).vGet m l = if m ∈ ns then 0 else c.vGet m l := by
  induction ns generalizing c with
  | nil => simp
  | cons n r ih =>
    rw [List.foldl_cons, ih, vGet_clearName _ _ _ _ hl]
    by_cases h1 : m ∈ r <;> by_cases h2 : m = n <;> simp [h1, h2]
theorem vBad_clearNames (ns : List Nat) (c : Ctx) (m l : Nat) (hl : l < 128) :
    (ns.foldl Ctx.clearName c).vBad m l = if m ∈ ns then 0 else c.vBad m l := by
  induction ns generalizing c with
  | nil => simp
  | cons n r ih =>
    rw [List.foldl_cons, ih, vBad_clearName _ _ _ _ hl]
    by_cases h1 : m ∈ r <;> by_cases h2 : m = n <;> simp [h1, h2]

theorem rest_clearNames (ns : List Nat) (c : Ctx) : SameRest c (ns.foldl Ctx.clearName c) := rest_foldl _ rest_clearName _ _
theorem g_clearNames (ns : List Nat) (c : Ctx) :
    (ns.foldl Ctx.clearName c).g = c.g ∧ (ns.foldl Ctx.clearName c).gPoison = c.gPoison ∧ (ns.foldl Ctx.clearName c).preds = c.preds := by
  induction ns generalizing c with
  | nil => exact ⟨rfl, rfl, rfl⟩
  | cons n r ih => exact ih _

/-- Binding names changes no value. -/
theorem bindNames_ctx (ns : List Nat) (c : Ctx) :
    (ns.foldl Ctx.bind c).v = c.v ∧ (ns.foldl Ctx.bind c).vPoison = c.vPoison ∧ (ns.foldl Ctx.bind c).g = c.g ∧
    (ns.foldl Ctx.bind c).gPoison = c.gPoison ∧ (ns.foldl Ctx.bind c).preds = c.preds ∧ SameRest c (ns.foldl Ctx.bind c) := by
  induction ns generalizing c with
  | nil => exact ⟨rfl, rfl, rfl, rfl, rfl, .refl c⟩
  | cons n r ih => exact ⟨(ih _).1, (ih _).2.1, (ih _).2.2.1, (ih _).2.2.2.1, (ih _).2.2.2.2.1, (rest_bind c n).trans (ih _).2.2.2.2.2⟩

/-- Writing words touches neither uniform registers nor predicates. -/
theorem putLanes_other (s : State) (g : Group) (name : Nat) (rs : List (Nat × LaneRes)) (c : Ctx) :
    (rs.foldl (fun c r => s.putWords g c name r.1 r.2.words r.2.bad) c).g = c.g ∧
    (rs.foldl (fun c r => s.putWords g c name r.1 r.2.words r.2.bad) c).gPoison = c.gPoison ∧
    (rs.foldl (fun c r => s.putWords g c name r.1 r.2.words r.2.bad) c).preds = c.preds := by
  have one : ∀ (c : Ctx) lane ws bad, (s.putWords g c name lane ws bad).g = c.g ∧ (s.putWords g c name lane ws bad).gPoison = c.gPoison ∧
      (s.putWords g c name lane ws bad).preds = c.preds := by
    intro c lane ws bad
    unfold State.putWords
    generalize List.range ws.length = js
    induction js generalizing c with
    | nil => exact ⟨rfl, rfl, rfl⟩
    | cons j r ih => exact ih _
  induction rs generalizing c with
  | nil => exact ⟨rfl, rfl, rfl⟩
  | cons r t ih =>
    rw [List.foldl_cons]
    exact ⟨(ih _).1.trans (one ..).1, (ih _).2.1.trans (one ..).2.1, (ih _).2.2.trans (one ..).2.2⟩

theorem putPreds_other (s : State) (g : Group) (p : Nat) (rs : List (Nat × LaneRes)) (c : Ctx) :
    (rs.foldl (fun c r => c.predSet p r.1 (s.mergeP g p r.1 r.2.pred)) c).g = c.g ∧
    (rs.foldl (fun c r => c.predSet p r.1 (s.mergeP g p r.1 r.2.pred)) c).gPoison = c.gPoison ∧
    (rs.foldl (fun c r => c.predSet p r.1 (s.mergeP g p r.1 r.2.pred)) c).v = c.v ∧
    (rs.foldl (fun c r => c.predSet p r.1 (s.mergeP g p r.1 r.2.pred)) c).vPoison = c.vPoison := by
  induction rs generalizing c with
  | nil => exact ⟨rfl, rfl, rfl, rfl⟩
  | cons r t ih =>
    rw [List.foldl_cons]
    have one : (c.predSet p r.1 (s.mergeP g p r.1 r.2.pred)).g = c.g ∧ (c.predSet p r.1 (s.mergeP g p r.1 r.2.pred)).gPoison = c.gPoison ∧
        (c.predSet p r.1 (s.mergeP g p r.1 r.2.pred)).v = c.v ∧ (c.predSet p r.1 (s.mergeP g p r.1 r.2.pred)).vPoison = c.vPoison := by
      unfold Ctx.predSet; split <;> exact ⟨rfl, rfl, rfl, rfl⟩
    exact ⟨(ih _).1.trans one.1, (ih _).2.1.trans one.2.1, (ih _).2.2.1.trans one.2.2.1, (ih _).2.2.2.trans one.2.2.2⟩

/-! ### Frees and outstanding results -/

/-- What freeing names keeps of the outstanding results, one by one: they write no vector name that they did not. -/
theorem dropNames_sub (n : Nat) (ns : List Nat) (l : List Outst) {o : Outst} (h : o ∈ dropNames n ns l) :
    ∃ p ∈ l, (∀ r ∈ o.regs, r ∈ p.regs) ∧ o.gs = p.gs ∧ o.preds = p.preds := by
  obtain ⟨p, hp, rfl⟩ := List.mem_map.1 h
  exact ⟨p, hp, fun r hr => (List.mem_filter.1 hr).1, rfl, rfl⟩
/-- Freeing names leaves what holds of each outstanding result, where it depends on its uniform registers, its predicates and its flags. -/
theorem dropNames_map {β : Type} (f : Outst → β) (hf : ∀ (o : Outst) r fr, f { o with regs := r, freed := fr } = f o) (n : Nat) (ns : List Nat)
    (l : List Outst) : (dropNames n ns l).map f = l.map f := by
  simp only [dropNames, List.map_map]
  exact List.map_congr_left fun o _ => hf o _ _
theorem free_pendV (g : Group) (ns : List Nat) (m l : Nat) (h : g.pendV m l = false) : (g.free ns).pendV m l = false := by
  simp only [Group.pendV, Group.free, List.any_eq_false, List.any_eq_true, not_exists, not_and] at h ⊢
  intro o ho r hr
  obtain ⟨p, hp, h1, -⟩ := dropNames_sub _ ns _ ho
  exact h p hp r (h1 r hr)
theorem free_pendG (g : Group) (ns : List Nat) (m : Nat) : (g.free ns).pendG m = g.pendG m := by
  have := congrArg (fun l => l.any id) (dropNames_map (fun o => o.gs.contains m) (fun _ _ _ => rfl) g.issued ns g.outst)
  simpa [Group.pendG, Group.free, List.any_map, Function.comp_def] using this
theorem free_pendP (g : Group) (ns : List Nat) (p l : Nat) : (g.free ns).pendP p l = g.pendP p l := by
  have := congrArg (fun l => l.any id) (dropNames_map (fun o => o.preds.any fun r => r.1 == p && r.2.getLsbD l) (fun _ _ _ => rfl) g.issued ns g.outst)
  simpa [Group.pendP, Group.free, List.any_map, Function.comp_def] using this
theorem flagsOf_map (l : List Outst) : flagsOf l = (l.map (·.flags)).foldl (· ||| ·) 0 := by simp [flagsOf, List.foldl_map]
theorem free_flags (g : Group) (ns : List Nat) : flagsOf (g.free ns).outst = flagsOf g.outst := by
  rw [flagsOf_map, flagsOf_map]
  exact congrArg (fun l => l.foldl (· ||| ·) 0) (dropNames_map (·.flags) (fun _ _ _ => rfl) g.issued ns g.outst)
theorem flagsOf_append (a b : List Outst) : flagsOf (a ++ b) = flagsOf a ||| flagsOf b := by
  have key : ∀ (l : List Outst) (m : BitVec 6), l.foldl (fun m o => m ||| o.flags) m = m ||| flagsOf l := by
    intro l
    induction l with
    | nil => intro m; simp [flagsOf]
    | cons o r ih =>
      intro m
      rw [List.foldl_cons, ih]
      show _ = m ||| r.foldl (fun m o => m ||| o.flags) (0 ||| o.flags)
      rw [ih, BitVec.or_assoc]; simp
  rw [flagsOf, List.foldl_append, key]; rfl

/-! ### Lanes -/

theorem lanesOf_lt {w : Nat} {m : LaneMask} {l : Nat} (h : l ∈ lanesOf w m) : l < 128 := by
  simp only [lanesOf, List.mem_filter] at h
  refine Nat.lt_of_not_le fun hc => ?_
  rw [BitVec.getLsbD_of_ge _ _ hc] at h
  simp at h
theorem lanesOf_nodup (w : Nat) (m : LaneMask) : (lanesOf w m).Nodup := by
  unfold lanesOf; exact List.nodup_range.filter _
theorem compute_lt {i : Iss} {d : Dst} {l : Nat} (h : l ∈ i.compute d) : l < 128 := by
  unfold Iss.compute at h; split at h
  · simp at h; omega
  · exact lanesOf_lt h
theorem compute_nodup (i : Iss) (d : Dst) : (i.compute d).Nodup := by
  unfold Iss.compute; split
  · simp
  · exact lanesOf_nodup _ _

/-- The results of the lanes, each with its lane. -/
def pairs (ls : List Nat) (r : Nat → LaneRes) : List (Nat × LaneRes) := ls.map fun l => (l, r l)

theorem pairs_find (ls : List Nat) (r : Nat → LaneRes) (k : Nat) (p : Nat × LaneRes → Bool) (h : k ∈ ls ∧ p (k, r k) = true) :
    (pairs ls r).find? (fun x => x.1 == k && p x) = some (k, r k) := by
  unfold pairs
  induction ls with
  | nil => simp at h
  | cons a t ih =>
    rw [List.map_cons, List.find?_cons]
    by_cases ha : a = k
    · subst ha; simp [h.2]
    · have : ((a, r a).1 == k && p (a, r a)) = false := by simp [ha]
      rw [this]; exact ih ⟨(List.mem_cons.1 h.1).resolve_left fun e => ha e.symm, h.2⟩
theorem pairs_find_none (ls : List Nat) (r : Nat → LaneRes) (k : Nat) (p : Nat × LaneRes → Bool) (h : ¬(k ∈ ls ∧ p (k, r k) = true)) :
    (pairs ls r).find? (fun x => x.1 == k && p x) = none := by
  rw [List.find?_eq_none]
  intro x hx hc
  simp only [pairs, List.mem_map] at hx
  obtain ⟨l, hl, rfl⟩ := hx
  simp only [Bool.and_eq_true, beq_iff_eq] at hc
  obtain ⟨rfl, hp⟩ := hc
  exact h ⟨hl, hp⟩
theorem pairs_lanes (ls : List Nat) (r : Nat → LaneRes) : (pairs ls r).map (·.1) = ls := by
  simp [pairs, Function.comp_def]

theorem foldl_or {α : Type} (f : α → BitVec 6) (l : List α) (m : BitVec 6) :
    l.foldl (fun m x => m ||| f x) m = (l.map f).foldl (· ||| ·) m := by
  rw [List.foldl_map]

/-- Group fields that the write of a destination leaves. -/
structure SameGroup (g h : Group) : Prop where
  outst : h.outst = g.outst
  ra : g.ra = none → h.ra = none
  stop : h.stop = g.stop

/-- What the write of a destination does to a group's context. -/
theorem writeDst_spec (s : State) (i : Iss) (srcs : List Src) (d : Dst) (fixed : Option Nat) (load : Bool) (r : Nat → LaneRes)
    (hs : ∀ l ∈ i.compute d, (r l).skip = false) (hq : ∀ fld n al gOk sg k, d = .reg fld n al gOk sg → regOf fld ≠ .q k) :
    let w := s.writeDst i (i.g.free (freedNames i srcs)) d fixed load (pairs (i.compute d) r)
    LaneContext i srcs d r { w.1.ctx with pc := i.next } ∧ SameGroup (i.g.free (freedNames i srcs)) w.1 ∧
      flagsOf w.2.toList = ((i.compute d).map fun l => (r l).flags).foldl (· ||| ·) 0 := by
  intro w
  have hlive : ((pairs (i.compute d) r).filter fun x => !x.2.skip) = pairs (i.compute d) r := by
    apply List.filter_eq_self.2
    intro x hx
    simp only [pairs, List.mem_map] at hx
    obtain ⟨l, hl, rfl⟩ := hx
    simp [hs l hl]
  have hflags : (pairs (i.compute d) r).foldl (fun m r => m ||| r.2.flags) (0 : BitVec 6) =
      ((i.compute d).map fun l => (r l).flags).foldl (· ||| ·) 0 := by
    rw [foldl_or]; simp [pairs, Function.comp_def]
  have hf := g_clearNames (freedNames i srcs) i.g.ctx
  have hrest := rest_clearNames (freedNames i srcs) i.g.ctx
  have hv : ∀ m, ∀ l < 128, (i.g.free (freedNames i srcs)).ctx.vGet m l = if m ∈ freedNames i srcs then 0 else i.ctx.vGet m l :=
    fun m l hl => vGet_clearNames _ _ m l hl
  have hb : ∀ m, ∀ l < 128, (i.g.free (freedNames i srcs)).ctx.vBad m l = if m ∈ freedNames i srcs then 0 else i.ctx.vBad m l :=
    fun m l hl => vBad_clearNames _ _ m l hl
  have hg : ∀ n, (i.g.free (freedNames i srcs)).ctx.gGet n = i.ctx.gGet n ∧ (i.g.free (freedNames i srcs)).ctx.gBad n = i.ctx.gBad n := by
    intro n
    simp only [Ctx.gGet, Ctx.gBad, Group.free, hf]; exact ⟨rfl, rfl⟩
  have hp : ∀ p l, (i.g.free (freedNames i srcs)).ctx.predGet p l = i.ctx.predGet p l := by
    intro p l
    simp only [Ctx.predGet, Group.free, hf]; rfl
  have hr0 : SameRest i.ctx (i.g.free (freedNames i srcs)).ctx := hrest
  -- a context that differs from the freed one in nothing
  have plain : ∀ c : Ctx, c.v = (i.g.free (freedNames i srcs)).ctx.v → c.vPoison = (i.g.free (freedNames i srcs)).ctx.vPoison →
      (∀ l ∈ i.compute d, holdsLane i d l (r l) c) →
      (∀ n, ¬writesG d n → c.gGet n = i.ctx.gGet n ∧ c.gBad n = i.ctx.gBad n) →
      (∀ p, ∀ l < 128, ¬(l ∈ i.compute d ∧ writesPred d p) → c.predGet p l = i.ctx.predGet p l) →
      SameRest i.ctx c → c.pc = i.ctx.pc → LaneContext i srcs d r { c with pc := i.next } := by
    intro c h1 h2 h3 h4 h5 h6 h7
    refine ⟨rfl, ?_, ?_, ?_, h4, h5, ?_⟩
    · exact h3
    · intro m hm l hl _
      have := hv m l hl
      rw [if_pos hm] at this
      simpa [Ctx.vGet, h1] using this
    · intro m hm l hl _
      have a := hv m l hl
      have b := hb m l hl
      rw [if_neg hm] at a b
      exact ⟨by simpa [Ctx.vGet, h1] using a, by simpa [Ctx.vBad, h2] using b⟩
    · exact ⟨rfl, h6.2, h6.3, h6.4, h6.5, h6.6, h6.7, h6.8, h6.9, h6.10, h6.11⟩
  have hfind : ∀ (p : Nat × LaneRes → Bool) k, (pairs (i.compute d) r).find? (fun x => x.1 == k && p x) =
      if k ∈ i.compute d ∧ p (k, r k) = true then some (k, r k) else none := by
    intro p k; split
    · rename_i h; exact pairs_find _ _ _ _ h
    · rename_i h; exact pairs_find_none _ _ _ _ h
  have hfind1 : ∀ k, (pairs (i.compute d) r).find? (fun x => x.1 == k) = if k ∈ i.compute d then some (k, r k) else none := by
    intro k; have := hfind (fun _ => true) k; simpa using this
  have hlt : ∀ x ∈ pairs (i.compute d) r, x.1 < 128 := by
    intro x hx; simp only [pairs, List.mem_map] at hx; obtain ⟨l, hl, rfl⟩ := hx; exact compute_lt hl
  have hnd : ((pairs (i.compute d) r).map (·.1)).Nodup := by rw [pairs_lanes]; exact compute_nodup i d
  have hra : ∀ g : Group, g.ra = none → (g.free (freedNames i srcs)).ra = none := fun g h => by simp [Group.free, h]
  -- the flags of an entry that is written when its flags are not 0
  have hentry : ∀ o : Outst, o.flags = (pairs (i.compute d) r).foldl (fun m r => m ||| r.2.flags) (0 : BitVec 6) →
      flagsOf [o] = ((i.compute d).map fun l => (r l).flags).foldl (· ||| ·) 0 := by
    intro o ho; rw [← hflags, ← ho]; simp [flagsOf]
  have hmaybe : ∀ o : Outst, o.flags = (pairs (i.compute d) r).foldl (fun m r => m ||| r.2.flags) (0 : BitVec 6) →
      flagsOf (if (pairs (i.compute d) r).foldl (fun m r => m ||| r.2.flags) (0 : BitVec 6) = 0 then Option.none else some o).toList =
        ((i.compute d).map fun l => (r l).flags).foldl (· ||| ·) 0 := by
    intro o ho
    split
    · rename_i h0; rw [← hflags, h0]; rfl
    · exact hentry o ho
  -- nothing is written when no lane is computed
  have hvoid : i.compute d = [] → LaneContext i srcs d r { (i.g.free (freedNames i srcs)).ctx with pc := i.next } := by
    intro h0
    refine plain _ rfl rfl ?_ (fun n _ => hg n) (fun p l _ _ => hp p l) hr0 hr0.pc
    intro l hl; rw [h0] at hl; simp at hl
  cases hd : d with
  | none =>
    subst hd
    refine ⟨plain _ rfl rfl (fun _ _ => trivial) (fun n _ => hg n) (fun p l _ _ => hp p l) hr0 hr0.pc, ⟨rfl, fun h => h, rfl⟩, ?_⟩
    exact hmaybe _ rfl
  | pred p =>
    subst hd
    by_cases h0 : i.compute (.pred p) = []
    · have hw : w = (i.g.free (freedNames i srcs), if (pairs (i.compute (.pred p)) r).foldl (fun m r => m ||| r.2.flags) (0 : BitVec 6) = 0 then Option.none
          else some ⟨fixed, (i.g.free (freedNames i srcs)).issued, s.clock, load, [], [], [],
            (pairs (i.compute (.pred p)) r).foldl (fun m r => m ||| r.2.flags) (0 : BitVec 6),
            if load then s.clock + latencyOf (i.g.free (freedNames i srcs)).memLevel else 0, [], if load then i.pc else 0,
            if load then (i.g.free (freedNames i srcs)).crossed else []⟩) := by
        simp only [w, State.writeDst, hlive]
        rw [if_pos (by simp [pairs, h0])]
      rw [hw]
      exact ⟨hvoid h0, ⟨rfl, fun h => h, rfl⟩, hmaybe _ rfl⟩
    · have hne : (pairs (i.compute (.pred p)) r).isEmpty = false := by
        cases hc : i.compute (.pred p) with
        | nil => exact absurd hc h0
        | cons a t => rfl
      have hw : w = (({ i.g.free (freedNames i srcs) with
            ctx := ((pairs (i.compute (.pred p)) r).foldl (fun (c : Ctx) (x : Nat × LaneRes) =>
              c.predSet p x.1 (s.mergeP (i.g.free (freedNames i srcs)) p x.1 x.2.pred)) (i.g.free (freedNames i srcs)).ctx) } : Group),
          some ⟨fixed, (i.g.free (freedNames i srcs)).issued, s.clock, load, [], [],
            if p = 0 then [] else [(p, maskOf ((pairs (i.compute (.pred p)) r).map (·.1)))],
            (pairs (i.compute (.pred p)) r).foldl (fun m r => m ||| r.2.flags) (0 : BitVec 6),
            if load then s.clock + latencyOf (i.g.free (freedNames i srcs)).memLevel else 0, [], if load then i.pc else 0,
            if load then (i.g.free (freedNames i srcs)).crossed else []⟩) := by
        simp only [w, State.writeDst, hlive]
        rw [if_neg (by simp [hne])]
      rw [hw]
      have ho := putPreds_other s (i.g.free (freedNames i srcs)) p (pairs (i.compute (.pred p)) r) (i.g.free (freedNames i srcs)).ctx
      have hr1 := rest_putPreds s (i.g.free (freedNames i srcs)) p (pairs (i.compute (.pred p)) r) (i.g.free (freedNames i srcs)).ctx
      refine ⟨plain _ ho.2.2.1 ho.2.2.2 ?_ ?_ ?_ (hr0.trans hr1) (hr0.trans hr1).pc, ⟨rfl, fun h => h, rfl⟩, hentry _ rfl⟩
      · intro l hl hp0 hpend
        rw [putPreds _ _ _ hp0 _ _ _ _ (compute_lt hl) hlt hnd, if_pos rfl, hfind1, if_pos hl]
        have hm : s.mergeP (i.g.free (freedNames i srcs)) p l (r l).pred = (r l).pred := by
          simp [State.mergeP, free_pendP, hpend]
        simp only [hm]
      · intro n _
        have := hg n
        simpa [Ctx.gGet, Ctx.gBad, ho.1, ho.2.1] using this
      · intro q l hl hnot
        by_cases hp0 : p = 0
        · subst hp0
          have : ∀ (rs : List (Nat × LaneRes)) (c : Ctx), rs.foldl (fun c x => c.predSet 0 x.1 (s.mergeP (i.g.free (freedNames i srcs)) 0 x.1 x.2.pred)) c = c := by
            intro rs; induction rs with
            | nil => intro c; rfl
            | cons x t ih => intro c; rw [List.foldl_cons, predSet_zero, ih]
          rw [this]; exact hp q l
        · rw [putPreds _ _ _ hp0 _ _ _ _ hl hlt hnd]
          by_cases hq : q = p
          · subst hq
            rw [if_pos rfl, hfind1, if_neg (fun h => hnot ⟨h, rfl⟩)]; exact hp q l
          · rw [if_neg hq]; exact hp q l
  | reg fld n al gOk sg =>
    subst hd
    cases hreg : regOf fld with
    | q k => exact absurd hreg (hq fld n al gOk sg k rfl)
    | g k =>
      have hc : i.compute (.reg fld n al gOk sg) = [0] := by simp [Iss.compute, Dst.isG, hreg]
      have hw : w = (({ i.g.free (freedNames i srcs) with
            ctx := ((i.g.free (freedNames i srcs)).ctx.gSet k (s.mergeG (i.g.free (freedNames i srcs)) k (gValue sg (r 0).words))
              (s.mergeGBad (i.g.free (freedNames i srcs)) k (r 0).bad)) } : Group),
          some ⟨fixed, (i.g.free (freedNames i srcs)).issued, s.clock, load, [], [k], [],
            (pairs (i.compute (.reg fld n al gOk sg)) r).foldl (fun m r => m ||| r.2.flags) (0 : BitVec 6),
            if load then s.clock + latencyOf (i.g.free (freedNames i srcs)).memLevel else 0, [], if load then i.pc else 0,
            if load then (i.g.free (freedNames i srcs)).crossed else []⟩) := by
        simp only [w, State.writeDst, hlive, hreg]
        simp only [hc, pairs, List.map_cons, List.map_nil]
      rw [hw]
      have hr1 := rest_gSet (i.g.free (freedNames i srcs)).ctx k (s.mergeG (i.g.free (freedNames i srcs)) k (gValue sg (r 0).words))
        (s.mergeGBad (i.g.free (freedNames i srcs)) k (r 0).bad)
      refine ⟨plain _ rfl rfl ?_ ?_ (fun p l _ _ => hp p l) (hr0.trans hr1) (hr0.trans hr1).pc, ⟨rfl, fun h => h, rfl⟩, hentry _ rfl⟩
      · intro l hl
        rw [hc] at hl
        obtain rfl : l = 0 := by simpa using hl
        simp only [holdsLane, hreg]
        intro hpend
        refine ⟨?_, ?_⟩
        · rw [gGet_gSet, if_pos rfl]; simp [State.mergeG, State.keepsG, free_pendG, hpend]
        · rw [gBad_gSet, if_pos rfl]; simp [State.mergeGBad, State.keepsG, free_pendG, hpend]
      · intro m hm
        have : m ≠ k := fun h => hm (by simp only [writesG]; rw [hreg, h])
        refine ⟨?_, ?_⟩
        · rw [gGet_gSet, if_neg this]; exact (hg m).1
        · rw [gBad_gSet, if_neg this]; exact (hg m).2
    | v k =>
      by_cases h0 : i.compute (.reg fld n al gOk sg) = []
      · have hw : w = (i.g.free (freedNames i srcs), if (pairs (i.compute (.reg fld n al gOk sg)) r).foldl (fun m r => m ||| r.2.flags) (0 : BitVec 6) = 0
            then Option.none else some ⟨fixed, (i.g.free (freedNames i srcs)).issued, s.clock, load, [], [], [],
              (pairs (i.compute (.reg fld n al gOk sg)) r).foldl (fun m r => m ||| r.2.flags) (0 : BitVec 6),
            if load then s.clock + latencyOf (i.g.free (freedNames i srcs)).memLevel else 0, [], if load then i.pc else 0,
            if load then (i.g.free (freedNames i srcs)).crossed else []⟩) := by
          simp only [w, State.writeDst, hlive, hreg]
          rw [if_pos (by simp [pairs, h0])]
        rw [hw]
        exact ⟨hvoid h0, ⟨rfl, fun h => h, rfl⟩, hmaybe _ rfl⟩
      · have hne : (pairs (i.compute (.reg fld n al gOk sg)) r).isEmpty = false := by
          cases hc : i.compute (.reg fld n al gOk sg) with
          | nil => exact absurd hc h0
          | cons a t => rfl
        have hw : w = (({ (i.g.free (freedNames i srcs)).bindNames ((List.range n).map (i.ctx.wbase + k + ·)) with
              ctx := ((pairs (i.compute (.reg fld n al gOk sg)) r).foldl (fun (c : Ctx) (x : Nat × LaneRes) =>
                s.putWords (i.g.free (freedNames i srcs)) c (i.ctx.wbase + k) x.1 x.2.words x.2.bad)
                ((i.g.free (freedNames i srcs)).bindNames ((List.range n).map (i.ctx.wbase + k + ·))).ctx) } : Group),
            some ⟨fixed, (i.g.free (freedNames i srcs)).issued, s.clock, load,
              (((List.range n).map (i.ctx.wbase + k + ·)).map fun m => (m, maskOf ((pairs (i.compute (.reg fld n al gOk sg)) r).map (·.1)))), [], [],
              (pairs (i.compute (.reg fld n al gOk sg)) r).foldl (fun m r => m ||| r.2.flags) (0 : BitVec 6),
            if load then s.clock + latencyOf (i.g.free (freedNames i srcs)).memLevel else 0, [], if load then i.pc else 0,
            if load then (i.g.free (freedNames i srcs)).crossed else []⟩) := by
          simp only [w, State.writeDst, hlive, hreg]
          rw [if_neg (by simp [hne])]
        rw [hw]
        have hbn := bindNames_ctx ((List.range n).map (i.ctx.wbase + k + ·)) (i.g.free (freedNames i srcs)).ctx
        have hbv : ∀ m l, ((i.g.free (freedNames i srcs)).bindNames ((List.range n).map (i.ctx.wbase + k + ·))).ctx.vGet m l =
            (i.g.free (freedNames i srcs)).ctx.vGet m l := by intro m l; simp [Ctx.vGet, Group.bindNames, hbn.1]
        have hbb : ∀ m l, ((i.g.free (freedNames i srcs)).bindNames ((List.range n).map (i.ctx.wbase + k + ·))).ctx.vBad m l =
            (i.g.free (freedNames i srcs)).ctx.vBad m l := by intro m l; simp [Ctx.vBad, Group.bindNames, hbn.2.1]
        have ho := putLanes_other s (i.g.free (freedNames i srcs)) (i.ctx.wbase + k) (pairs (i.compute (.reg fld n al gOk sg)) r)
          ((i.g.free (freedNames i srcs)).bindNames ((List.range n).map (i.ctx.wbase + k + ·))).ctx
        have hr1 := (hr0.trans hbn.2.2.2.2.2).trans (rest_putLanes s (i.g.free (freedNames i srcs)) (i.ctx.wbase + k)
          (pairs (i.compute (.reg fld n al gOk sg)) r) ((i.g.free (freedNames i srcs)).bindNames ((List.range n).map (i.ctx.wbase + k + ·))).ctx)
        have key := fun m l (hl : l < 128) => putLanes_v s (i.g.free (freedNames i srcs)) (i.ctx.wbase + k) (pairs (i.compute (.reg fld n al gOk sg)) r)
          ((i.g.free (freedNames i srcs)).bindNames ((List.range n).map (i.ctx.wbase + k + ·))).ctx m l hl hlt hnd
        have keyb := fun m l (hl : l < 128) => putLanes_bad s (i.g.free (freedNames i srcs)) (i.ctx.wbase + k) (pairs (i.compute (.reg fld n al gOk sg)) r)
          ((i.g.free (freedNames i srcs)).bindNames ((List.range n).map (i.ctx.wbase + k + ·))).ctx m l hl hlt hnd
        have hw1 : ∀ m l, writesName i (.reg fld n al gOk sg) (r l).words m ↔ (i.ctx.wbase + k ≤ m ∧ m < i.ctx.wbase + k + (r l).words.length) := by
          intro m l; simp [writesName, hreg]
        refine ⟨⟨rfl, ?_, ?_, ?_, ?_, ?_, ?_⟩, ⟨rfl, ?_, rfl⟩, hentry _ rfl⟩
        · intro l hl
          simp only [holdsLane, hreg]
          intro j hj hpend
          have hin : l ∈ i.compute (.reg fld n al gOk sg) ∧ decide (i.ctx.wbase + k ≤ i.ctx.wbase + k + j ∧
              i.ctx.wbase + k + j < i.ctx.wbase + k + (l, r l).2.words.length) = true := ⟨hl, by simp; omega⟩
          have hfp := free_pendV i.g (freedNames i srcs) _ _ hpend
          refine ⟨?_, ?_⟩
          · refine Eq.trans (key (i.ctx.wbase + k + j) l (compute_lt hl)) ?_
            rw [hfind (fun x => decide (i.ctx.wbase + k ≤ i.ctx.wbase + k + j ∧ i.ctx.wbase + k + j < i.ctx.wbase + k + x.2.words.length)) l, if_pos hin]
            simp [State.mergeV, State.keepsV, hfp]
          · refine Eq.trans (keyb (i.ctx.wbase + k + j) l (compute_lt hl)) ?_
            rw [hfind (fun x => decide (i.ctx.wbase + k ≤ i.ctx.wbase + k + j ∧ i.ctx.wbase + k + j < i.ctx.wbase + k + x.2.words.length)) l, if_pos hin]
            simp [State.mergeVBad, State.keepsV, hfp]
        · intro m hm l hl hnot
          refine Eq.trans (key m l hl) ?_
          rw [hfind (fun x => decide (i.ctx.wbase + k ≤ m ∧ m < i.ctx.wbase + k + x.2.words.length)) l, if_neg]
          · rw [hbv, hv m l hl, if_pos hm]
          · rintro ⟨h1, h2⟩; exact hnot ⟨h1, (hw1 m l).2 (by simpa using h2)⟩
        · intro m hm l hl hnot
          have hn : ¬(l ∈ i.compute (.reg fld n al gOk sg) ∧ decide (i.ctx.wbase + k ≤ m ∧ m < i.ctx.wbase + k + (l, r l).2.words.length) = true) := by
            rintro ⟨h1, h2⟩; exact hnot ⟨h1, (hw1 m l).2 (by simpa using h2)⟩
          refine ⟨?_, ?_⟩
          · refine Eq.trans (key m l hl) ?_
            rw [hfind (fun x => decide (i.ctx.wbase + k ≤ m ∧ m < i.ctx.wbase + k + x.2.words.length)) l, if_neg hn]
            rw [hbv, hv m l hl, if_neg hm]
          · refine Eq.trans (keyb m l hl) ?_
            rw [hfind (fun x => decide (i.ctx.wbase + k ≤ m ∧ m < i.ctx.wbase + k + x.2.words.length)) l, if_neg hn]
            rw [hbb, hb m l hl, if_neg hm]
        · intro m _
          have h1 := hg m
          have h2 : ((i.g.free (freedNames i srcs)).bindNames ((List.range n).map (i.ctx.wbase + k + ·))).ctx.g = (i.g.free (freedNames i srcs)).ctx.g := hbn.2.2.1
          have h3 : ((i.g.free (freedNames i srcs)).bindNames ((List.range n).map (i.ctx.wbase + k + ·))).ctx.gPoison = (i.g.free (freedNames i srcs)).ctx.gPoison := hbn.2.2.2.1
          simpa [Ctx.gGet, Ctx.gBad, ho.1, ho.2.1, h2, h3] using h1
        · intro p l _ _
          have h2 : ((i.g.free (freedNames i srcs)).bindNames ((List.range n).map (i.ctx.wbase + k + ·))).ctx.preds = (i.g.free (freedNames i srcs)).ctx.preds := hbn.2.2.2.2.1
          have := hp p l
          simpa [Ctx.predGet, ho.2.2, h2] using this
        · exact ⟨rfl, hr1.2, hr1.3, hr1.4, hr1.5, hr1.6, hr1.7, hr1.8, hr1.9, hr1.10, hr1.11⟩
        · intro h; simp [Group.bindNames, h]

/-- A lane-wise end whose lanes neither fault nor make an empty interval, with room for its names, writes its destination. -/
theorem commit_done {srcs : List Src} {d : Dst} {fixed : Option Nat} {load : Bool} {i : Iss} {s : State} {r : Nat → LaneRes} (hra : i.ra = false)
    (hl : ∀ l ∈ i.compute d, (r l).flt = none ∧ (r l).made = 0 ∧ (r l).skip = false)
    (hroom : i.compute d ≠ [] → (s.setGroup i.gid (i.g.free (freedNames i srcs))).admits i.gid (i.g.free (freedNames i srcs))
      (((i.g.free (freedNames i srcs)).needs (dstNames i d)).length * (i.width / 32)) = true) :
    commitLanes srcs d fixed load (pairs (i.compute d) r) i s =
      .done s (s.writeDst i (i.g.free (freedNames i srcs)) d fixed load (pairs (i.compute d) r)).1 i.next
        (s.writeDst i (i.g.free (freedNames i srcs)) d fixed load (pairs (i.compute d) r)).2 := by
  have hflt : ((pairs (i.compute d) r).filterMap fun x => x.2.flt.map fun y => { y with lanes := laneBit x.1 }) = [] := by
    apply List.filterMap_eq_nil_iff.2
    intro x hx
    simp only [pairs, List.mem_map] at hx
    obtain ⟨l, hm, rfl⟩ := hx
    simp [(hl l hm).1]
  have hmade : madeFault (pairs (i.compute d) r) = none := by
    have : ((pairs (i.compute d) r).filter fun x => x.2.made ≠ 0) = [] := by
      apply List.filter_eq_nil_iff.2
      intro x hx
      simp only [pairs, List.mem_map] at hx
      obtain ⟨l, hm, rfl⟩ := hx
      simp [(hl l hm).2.1]
    simp only [madeFault, this]
  have hlive : ((pairs (i.compute d) r).filter fun x => !x.2.skip) = pairs (i.compute d) r := by
    apply List.filter_eq_self.2
    intro x hx
    simp only [pairs, List.mem_map] at hx
    obtain ⟨l, hm, rfl⟩ := hx
    simp [(hl l hm).2.2]
  unfold commitLanes
  simp only [hra, Bool.false_eq_true, if_false, hflt, List.isEmpty_nil, Bool.not_true, hmade, hlive, Option.isSome_none]
  have hadm : (s.setGroup i.gid (i.g.free (freedNames i srcs))).admits i.gid (i.g.free (freedNames i srcs))
      ((if (pairs (i.compute d) r).isEmpty = true then [] else (i.g.free (freedNames i srcs)).needs (dstNames i d)).length * (i.width / 32)) = true := by
    cases hc : i.compute d with
    | nil => simp [pairs, State.admits]
    | cons a t =>
      have := hroom (by simp [hc])
      simpa [pairs] using this
  rw [hadm]
  rw [if_neg (by simp)]

/-- A lane-wise effect whose operands are ready and whose lanes neither fault nor make an empty interval is performed. -/
theorem lanewise_done {srcs : List Src} {d : Dst} {dist : Nat} {alu : Bool} {fn : State → Iss → Nat → List (List W32) → LaneRes}
    {i : Iss} {s s1 : State} {pop : W32} (hra : i.ra = false) (hr : LaneReady s i srcs d pop s1)
    (hl : ∀ l ∈ i.compute d, (laneRes fn s i pop srcs l).flt = none ∧ (laneRes fn s i pop srcs l).made = 0 ∧ (laneRes fn s i pop srcs l).skip = false) :
    lanewise srcs d dist alu fn i s =
      .done s1 (s1.writeDst i (i.g.free (freedNames i srcs)) d (fixedOf d dist alu) false (pairs (i.compute d) (laneRes fn s i pop srcs))).1 i.next
        (s1.writeDst i (i.g.free (freedNames i srcs)) d (fixedOf d dist alu) false (pairs (i.compute d) (laneRes fn s i pop srcs))).2 := by
  have hc := commit_done (fixed := fixedOf d dist alu) (load := false) (srcs := srcs) (d := d) hra hl hr.room
  have hmap : ((i.compute d).map fun l => (l, (fun s i l => fn s i l ((List.range srcs.length).map fun k =>
      s.readSrc i k pop l (srcs.getD k ⟨0, 1, 1, true, 1⟩))) s i l)) = pairs (i.compute d) (laneRes fn s i pop srcs) := rfl
  have hpop := hr.popped
  have hheld := hr.held
  simp only [State.popFor] at hpop
  unfold lanewise
  simp only [hr.operands, hr.poison, hra, List.nil_append, List.isEmpty_nil, Bool.not_true, Bool.not_false, Bool.false_and,
    Bool.and_false, Bool.false_eq_true, if_false]
  cases hq : (if (i.compute d).isEmpty = true then none else queueSource srcs) with
  | none =>
    rw [hq] at hpop hheld
    simp only [Option.some.injEq, Prod.mk.injEq] at hpop
    obtain ⟨rfl, rfl⟩ := hpop
    simp only [hheld, List.isEmpty_nil, Bool.not_true, Bool.false_eq_true, if_false]
    rw [hmap, hc]
  | some q =>
    rw [hq] at hpop hheld
    simp only at hpop
    simp only [hheld, hpop, List.isEmpty_nil, Bool.not_true, Bool.false_eq_true, if_false]
    rw [hmap, hc]

/-- What issuing a lane-wise instruction does. -/
theorem lanewise_completes {o : Op} {srcs : Iss → List Src} {d : Iss → Dst} {dist : Iss → Nat} {alu : Iss → Bool}
    {fn : Iss → State → Iss → Nat → List (List W32) → LaneRes} {body : Iss → State → Res} {form : Iss → Prop}
    (hex : ∀ f s, exec (.of o f) s = issue o f s body)
    (hbody : ∀ i s, form i → body i s = lanewise (srcs i) (d i) (dist i) (alu i) (fn i) i s) : CompletesLanewise o srcs d fn form := by
  intro s gid g f h i hform pop s1 hr r hl
  have hra : i.ra = false := by simp [i, State.issOf, Iss.ra, h.settled_ra]
  have hd := (hbody i s hform).trans (lanewise_done hra hr hl)
  rw [hex, issue_done h hd]
  have hq : ∀ fld n al gOk sg k, d i = .reg fld n al gOk sg → regOf fld ≠ .q k := by
    intro fld n al gOk sg k hdi hk
    have := hr.operands
    rw [operandFaults, hdi] at this
    simp [dstFaults, hk] at this
  have hs := writeDst_spec s1 i (srcs i) (d i) (fixedOf (d i) (dist i) (alu i)) false r (fun l hl' => (hl l hl').2.2) hq
  simp only at hs
  have hg : (i.g.free (freedNames i (srcs i))).ra = none := by
    have : i.g.ra = none := h.settled_ra
    simp [Group.free, this]
  have hw := hs.2.1.ra hg
  refine ⟨_, rfl, ⟨_, finish_group _ _ _ _ _ hw, ?_, ?_⟩, ?_, ?_⟩
  · have := hs.1
    exact ⟨rfl, this.dest, this.freed, this.vectors, this.uniforms, this.predicates,
      ⟨rfl, this.rest.2, this.rest.3, this.rest.4, this.rest.5, this.rest.6, this.rest.7, this.rest.8, this.rest.9, this.rest.10, this.rest.11⟩⟩
  · simp only [leftGroup]
    rw [flagsOf_append, hs.2.1.outst, free_flags]
    exact congrArg _ hs.2.2
  · intro j hj; exact finish_other _ _ _ _ _ hw hj
  · exact (finish_kept _ _ _ _ _ hw).trans (kept_freeCtr _ _)

/-- An instruction completes when its effect is performed and leaves what it should. -/
theorem completes_of_done {o : Op} {body : Iss → State → Res} {form : State → Iss → Prop} {post : State → Iss → State → Prop}
    (hex : ∀ f s, exec (.of o f) s = issue o f s body)
    (h : ∀ s i, i.o = o → i.g.ra = none → form s i → ∃ s1 g1 pc out, body i s = .done s1 g1 pc out ∧ g1.ra = none ∧
      ∀ t, Leaves s1 i pc g1.ctx t → t.group? i.gid = some (leftGroup s1 i g1 pc out) → post s i t) : Completes o form post := by
  intro s gid g f hi hf
  obtain ⟨s1, g1, pc, out, hb, hra, hp⟩ := h s _ rfl hi.settled_ra hf
  rw [hex, issue_done hi hb]
  exact ⟨_, rfl, hp _ ⟨⟨_, finish_group _ _ _ _ _ hra, rfl⟩, fun _ hj => finish_other _ _ _ _ _ hra hj,
    (finish_kept _ _ _ _ _ hra).trans (kept_freeCtr _ _)⟩ (finish_group _ _ _ _ _ hra)⟩

end Sys2Proof.Machine
end

