-- ==== Sys2Proof/Laws/Memory.lean ====
section
/-! SUPPORT. Every memory operation keeps the canonical form of the memory lists, and reset memory has it. -/

namespace Sys2Proof.Machine

/-- The form depends on the three lists alone. -/
theorem Memory.wf_congr {s t : State} (h : t.hbm = s.hbm) (l : t.llc = s.llc) (p : t.poison = s.poison) : Memory.wf t = Memory.wf s := by
  simp only [Memory.wf, h, l, p]

theorem Memory.wf_iff (s : State) : Memory.wf s = true ↔ twf 0 s.hbm = true ∧ trising s.llc = true ∧ twf false s.poison = true := by
  simp only [Memory.wf, Bool.and_eq_true, and_assoc]

theorem Memory.wf_reset : Memory.wf State.reset = true := rfl

@[simp] theorem Memory.wf_setGroup (s : State) (gid : Nat) (g : Group) : Memory.wf (s.setGroup gid g) = Memory.wf s := rfl
@[simp] theorem Memory.wf_modGroup (s : State) (gid : Nat) (f : Group → Group) : Memory.wf (s.modGroup gid f) = Memory.wf s := rfl
@[simp] theorem Memory.wf_setDie (s : State) (k : Nat) (d : DieSt) : Memory.wf (s.setDie k d) = Memory.wf s := rfl
@[simp] theorem Memory.wf_setUnit (s : State) (k : Nat) (u : UnitSt) : Memory.wf (s.setUnit k u) = Memory.wf s := rfl
@[simp] theorem Memory.wf_post (s : State) (c v : Nat) : Memory.wf (s.post c v) = Memory.wf s := rfl
@[simp] theorem Memory.wf_setCtxRing (s : State) (c i : Nat) (r : Ring) : Memory.wf (s.setCtxRing c i r) = Memory.wf s := rfl
@[simp] theorem Memory.wf_count (s : State) (die unit e n : Nat) : Memory.wf (s.count die unit e n) = Memory.wf s :=
  Memory.wf_congr (State.count_hbm s die unit e n) (State.count_llc s die unit e n) (State.count_poison s die unit e n)
@[simp] theorem Memory.wf_countSlice (s : State) (die e n : Nat) : Memory.wf (s.countSlice die e n) = Memory.wf s := Memory.wf_count s die 20 e n
@[simp] theorem Memory.wf_countSluice (s : State) (die e n : Nat) : Memory.wf (s.countSluice die e n) = Memory.wf s := Memory.wf_count s die 21 e n
@[simp] theorem Memory.wf_dropChofer (s : State) : Memory.wf s.dropChofer = Memory.wf s := rfl

/-! ### Writes -/

/-- Folding operations that keep a property keeps it. -/
theorem foldl_keeps {α β : Type} {p : α → Prop} {f : α → β → α} (h : ∀ a b, p a → p (f a b)) (l : List β) {a : α} (ha : p a) :
    p (l.foldl f a) := by
  induction l generalizing a with
  | nil => exact ha
  | cons b r ih => exact ih (h a b ha)

theorem Memory.wf_putByte {s : State} (t : Nat) (b : Byte) (h : Memory.wf s = true) : Memory.wf (s.putByte t b) = true := by
  rw [Memory.wf_iff] at h ⊢
  exact ⟨h.1, trising_tput t b h.2.1, h.2.2⟩

theorem Memory.wf_putBytes {s : State} (t : Nat) (bs : List Byte) (h : Memory.wf s = true) : Memory.wf (s.putBytes t bs) = true := by
  induction bs generalizing s t with
  | nil => exact h
  | cons b r ih => exact ih (t + 1) (Memory.wf_putByte t b h)

/-- A change of the poison marks alone that keeps their form keeps the whole. -/
theorem Memory.wf_poison {s : State} {p : Table Bool} (h : Memory.wf s = true) (hp : twf false s.poison = true → twf false p = true) :
    Memory.wf { s with poison := p } = true := by
  rw [Memory.wf_iff] at h ⊢
  exact ⟨h.1, h.2.1, hp h.2.2⟩

theorem Memory.wf_poisonWrite {s : State} (t n : Nat) (bad : Bool) (h : Memory.wf s = true) : Memory.wf (s.poisonWrite t n bad) = true := by
  refine Memory.wf_poison h fun hp => foldl_keeps (p := fun p => twf false p = true) (fun p w hp => ?_) _ hp
  split
  · exact twf_tset _ _ hp
  · split
    · exact twf_tset _ _ hp
    · exact hp

/-- A write at the slice. -/
theorem Memory.wf_writeMem {s : State} (t n v : Nat) (bad : Bool) (h : Memory.wf s = true) : Memory.wf (s.writeMem t n v bad) = true :=
  Memory.wf_poisonWrite t n bad (Memory.wf_putBytes t _ h)

/-- Asking the host changes no memory. -/
theorem Memory.wf_askHost {s : State} (t n : Nat) (h : Memory.wf s = true) : Memory.wf (s.askHost t n) = true := by
  refine foldl_keeps (p := fun s => Memory.wf s = true) (fun s k hs => ?_) _ h
  dsimp only
  split
  · exact hs
  · exact hs

theorem Memory.wf_poisonWord {s : State} (w : Nat) (h : Memory.wf s = true) : Memory.wf (s.poisonWord w) = true :=
  Memory.wf_poison h fun hp => twf_tset w true hp

/-! ### Sealed lines (16 R410) -/

theorem Memory.wf_sealFails {s : State} (line : Nat) (h : Memory.wf s = true) : Memory.wf (s.sealFails line) = true := by
  unfold State.sealFails
  generalize List.range 32 = ks
  rw [Memory.wf_post]
  exact Memory.wf_poison h fun hp => foldl_keeps (p := fun p => twf false p = true) (fun p w hp => twf_tset _ _ hp) _ hp

/-- The check of a sealed line. -/
theorem Memory.wf_sealCheck {s : State} (t ctx : Nat) (h : Memory.wf s = true) : Memory.wf (s.sealCheck t ctx).1 = true := by
  unfold State.sealCheck
  dsimp only
  split
  · exact h
  · exact Memory.wf_sealFails _ h

theorem Memory.wf_scramble {s : State} (line : Nat) (h : Memory.wf s = true) : Memory.wf (s.scramble line) = true := by
  unfold State.scramble
  generalize List.range 32 = ks
  exact foldl_keeps (p := fun s => Memory.wf s = true) (fun _ _ hs => Memory.wf_putBytes _ _ hs) ks h

/-- The form depends on neither the owners of lines nor the record of what is in a slice. -/
theorem Memory.wf_owners {s : State} (o : Table Nat) (h : Memory.wf s = true) : Memory.wf { s with owners := o } = true := h
theorem Memory.wf_present {s : State} (o : Table Bool) (h : Memory.wf s = true) : Memory.wf { s with present := o } = true := h

theorem Memory.wf_claimLine {s : State} (ctx t : Nat) (r : Reach) (h : Memory.wf s = true) : Memory.wf (s.claimLine ctx t r) = true := by
  unfold State.claimLine
  cases r
  · exact Memory.wf_owners _ h
  · exact Memory.wf_owners _ h
  · exact Memory.wf_owners _ (Memory.wf_scramble _ h)
  · exact Memory.wf_owners _ (Memory.wf_scramble _ h)

/-- A write to HBM itself. -/
theorem Memory.wf_putHbm {s : State} (t : Nat) (bs : List Byte) (h : Memory.wf s = true) : Memory.wf (s.putHbm t bs) = true := by
  have h1 := (Memory.wf_iff _).1 h
  exact (Memory.wf_iff _).2 ⟨foldl_keeps (p := fun m => twf 0 m = true) (fun m _ hm => twf_tset _ _ hm) _ h1.1, trising_filter _ h1.2.1, h1.2.2⟩

theorem Memory.wf_sealLine {s : State} (line : Nat) (h : Memory.wf s = true) : Memory.wf (s.sealLine line) = true := by
  unfold State.sealLine
  dsimp only
  split
  · exact h
  · exact Memory.wf_putHbm _ _ (Memory.wf_putHbm _ _ h)

/-! ### Sectors that leave their slice, and partial copies -/

theorem Memory.wf_writeOut {s : State} (sec : Nat) (h : Memory.wf s = true) : Memory.wf (s.writeOut sec) = true := by
  have h1 := (Memory.wf_iff _).1 h
  unfold State.writeOut
  extract_lets masked s2
  have h2 : Memory.wf s2 = true := by
    refine (Memory.wf_iff _).2 ⟨?_, trising_filter _ h1.2.1, h1.2.2⟩
    refine foldl_keeps (p := fun m => twf 0 m = true) (fun m b hm => ?_) _ h1.1
    split
    · exact twf_tset _ _ hm
    · exact hm
  split
  · exact Memory.wf_sealLine _ h2
  · exact h2

theorem Memory.wf_makeWay {s : State} (own line : Nat) (h : Memory.wf s = true) : Memory.wf (s.makeWay own line) = true := by
  unfold State.makeWay
  dsimp only
  split
  · exact h
  split
  · exact h
  split
  · refine foldl_keeps (p := fun s => Memory.wf s = true) (fun s k hs => ?_) _ h
    split
    · exact Memory.wf_writeOut _ hs
    · exact hs
  · exact h

theorem Memory.wf_allot {s : State} (t : Nat) (h : Memory.wf s = true) : Memory.wf (s.allot t) = true := by
  unfold State.allot
  split
  · exact h
  · exact Memory.wf_present _ (Memory.wf_makeWay _ _ h)

theorem Memory.wf_applyPartial {s : State} (p : Partial) (h : Memory.wf s = true) : Memory.wf (s.applyPartial p) = true := by
  unfold State.applyPartial
  refine foldl_keeps (p := fun s => Memory.wf s = true) (fun s w hs => ?_) _ (Memory.wf_claimLine _ _ _ ?_)
  · dsimp only
    split
    · exact Memory.wf_poisonWrite _ _ _ (Memory.wf_putBytes _ _ (Memory.wf_allot _ hs))
    · exact Memory.wf_putBytes _ _ (Memory.wf_allot _ hs)
  · split
    · exact Memory.wf_sealCheck _ _ h
    · exact h

theorem Memory.wf_takePartial {s : State} (k line : Nat) (h : Memory.wf s = true) : Memory.wf (s.takePartial k line) = true := by
  unfold State.takePartial
  dsimp only
  split
  · exact h
  · exact Memory.wf_applyPartial _ h

theorem Memory.wf_flushPartial {s : State} (k line : Nat) (h : Memory.wf s = true) : Memory.wf (s.flushPartial k line) = true := by
  unfold State.flushPartial
  split
  · rw [Memory.wf_countSlice]
    exact Memory.wf_takePartial _ _ h
  · exact h

theorem Memory.wf_mergeLine {s : State} (line : Nat) (h : Memory.wf s = true) : Memory.wf (s.mergeLine line) = true := by
  unfold State.mergeLine
  dsimp only
  split
  · exact h
  · rw [Memory.wf_countSlice]
    exact foldl_keeps (p := fun s => Memory.wf s = true) (fun s k hs => Memory.wf_takePartial k line hs) _ h

theorem Memory.wf_evict {s : State} (sec : Nat) (h : Memory.wf s = true) : Memory.wf (s.evict sec) = true :=
  Memory.wf_writeOut sec (Memory.wf_mergeLine _ h)

/-! ### Accesses of the owning slice (14 R347) -/

theorem Memory.wf_touchSector {s : State} (d t : Nat) (h : Memory.wf s = true) : Memory.wf (s.touchSector d t) = true := by
  unfold State.touchSector
  dsimp only
  split <;> simp only [Memory.wf_countSlice, Memory.wf_allot _ h]

theorem Memory.wf_openLine {s : State} (d ctx t : Nat) (write : Bool) (h : Memory.wf s = true) : Memory.wf (s.openLine d ctx t write).1 = true := by
  unfold State.openLine
  dsimp only
  split
  · exact h
  split
  · exact Memory.wf_touchSector _ _ (Memory.wf_sealCheck _ _ (Memory.wf_mergeLine _ h))
  · exact Memory.wf_touchSector _ _ (Memory.wf_mergeLine _ h)

/-- A read may merge partial copies and find a seal broken; the form stays. -/
theorem Memory.wf_readHbm {s : State} (d ctx t w : Nat) (h : Memory.wf s = true) : Memory.wf (s.readHbm d ctx t w).s = true :=
  Memory.wf_openLine d ctx t false h

theorem Memory.wf_wordPoison {s : State} (w : Nat) (whole bad : Bool) (h : Memory.wf s = true) : Memory.wf (s.wordPoison w whole bad) = true := by
  have h1 : Memory.wf (if whole then { s with sealBad := tset false s.sealBad w false } else s) = true := by split <;> exact h
  unfold State.wordPoison
  extract_lets s1
  split
  · exact Memory.wf_poison h1 fun hp => twf_tset _ _ hp
  split
  · exact Memory.wf_poison h1 fun hp => twf_tset _ _ hp
  · exact h1

/-- Bytes that become unspecified leave the form. -/
theorem Memory.wf_misused {s : State} (t n : Nat) (h : Memory.wf s = true) : Memory.wf (s.misused t n) = true := by
  unfold State.misused
  split <;> exact h

/-- A write of the marked bytes of a sector. -/
theorem Memory.wf_writeSector {s : State} (d ctx t : Nat) (bytes : List Byte) (mask : BitVec 64) (bad : Nat → Bool) (h : Memory.wf s = true) :
    Memory.wf (s.writeSector d ctx t bytes mask bad) = true := by
  unfold State.writeSector
  split
  · rwa [Memory.wf_dropChofer]
  split
  · exact h
  dsimp only
  have h1 : ∀ s : State, Memory.wf s = true → Memory.wf ((List.range 64).foldl (fun (st : State) i =>
      if mask.getLsbD i then st.putByte (t + i) (bytes.getD i 0) else st) s) = true := by
    intro s hs
    refine foldl_keeps (p := fun s => Memory.wf s = true) (fun s k hs => ?_) _ hs
    split
    · exact Memory.wf_putByte _ _ hs
    · exact hs
  have h2 := h1 _ (Memory.wf_claimLine ctx t (s.openLine d ctx t true).2 (Memory.wf_openLine d ctx t true h))
  refine foldl_keeps (p := fun s => Memory.wf s = true) (fun s k hs => ?_) _ ?_
  · split
    · exact hs
    · exact Memory.wf_wordPoison _ _ _ hs
  · split
    · refine foldl_keeps (p := fun s => Memory.wf s = true) (fun s k hs => ?_) _ h2
      split
      · exact Memory.wf_misused _ _ hs
      · exact hs
    · exact h2

theorem Memory.wf_ringBell {s : State} (t w v slot : Nat) (h : Memory.wf s = true) : Memory.wf (s.ringBell t w v slot) = true := by
  unfold State.ringBell
  dsimp only
  split
  · exact h
  · rwa [Memory.wf_countSluice]

theorem Memory.wf_writeOpen {s : State} (d ctx t w v : Nat) (bad : Bool) (h : Memory.wf s = true) :
    Memory.wf (s.writeOpen d ctx t w v bad) = true :=
  Memory.wf_writeMem _ _ _ _ (Memory.wf_claimLine _ _ _ (Memory.wf_openLine _ _ _ true h))

theorem Memory.wf_writeHbm {s : State} (d ctx t w v : Nat) (bad : Bool) (h : Memory.wf s = true) :
    Memory.wf (s.writeHbm d ctx t w v bad) = true := by
  unfold State.writeHbm
  split
  · rwa [Memory.wf_dropChofer]
  split
  · exact h
  split
  · exact Memory.wf_ringBell _ _ _ _ h
  · exact Memory.wf_misused _ _ (Memory.wf_writeOpen _ _ _ _ _ _ h)

/-- An atomic action. -/
theorem Memory.wf_atomHbm {s : State} (d ctx t w : Nat) (f : Nat → Nat) (h : Memory.wf s = true) : Memory.wf (s.atomHbm d ctx t w f).s = true := by
  have h1 : Memory.wf (s.readSlice d ctx t w).1 = true := Memory.wf_openLine d ctx t false h
  unfold State.atomHbm
  dsimp only
  split
  · rwa [Memory.wf_dropChofer]
  split
  · exact h1
  split
  · exact Memory.wf_ringBell _ _ _ _ h1
  · exact Memory.wf_misused _ _ (Memory.wf_writeMem _ _ _ _ (Memory.wf_claimLine _ _ _ h1))

/-! ### Records written to rings -/

theorem Memory.wf_ownNow {s : State} (d ctx t n v : Nat) (h : Memory.wf s = true) : Memory.wf (s.ownNow d ctx t n v) = true := by
  unfold State.ownNow
  split
  · rwa [Memory.wf_dropChofer]
  split
  · exact h
  · exact Memory.wf_writeOpen _ _ _ _ _ _ h

/-- What the hardware of a die writes itself: now, or once the host has answered. -/
theorem Memory.wf_ownWrite {s : State} (d ctx t n v : Nat) (h : Memory.wf s = true) : Memory.wf (s.ownWrite d ctx t n v) = true := by
  unfold State.ownWrite
  split
  · exact Memory.wf_ownNow _ _ _ _ _ h
  · dsimp only
    rw [Memory.wf_setDie]
    exact foldl_keeps (p := fun s => Memory.wf s = true) (fun s sec hs => Memory.wf_askHost _ _ hs) _ h

theorem Memory.wf_ownRead {s : State} (d ctx t n : Nat) (h : Memory.wf s = true) : Memory.wf (s.ownRead d ctx t n).1 = true := by
  unfold State.ownRead
  split
  · exact h
  · exact Memory.wf_readHbm _ _ _ n h

theorem Memory.wf_drainOwn {s : State} (d fuel : Nat) (h : Memory.wf s = true) : Memory.wf (s.drainOwn d fuel) = true := by
  induction fuel generalizing s with
  | zero => exact h
  | succ n ih =>
    unfold State.drainOwn
    split
    · split
      · exact ih (Memory.wf_ownNow _ _ _ _ _ h)
      · exact h
    · exact h

theorem Memory.wf_ringWrite {s : State} {d ctx : Nat} {r : Ring} {n : Nat} {words : List W64} {x : State × Ring} (h : Memory.wf s = true)
    (e : s.ringWrite d ctx r n words = some x) : Memory.wf x.1 = true := by
  unfold State.ringWrite at e
  dsimp only at e
  split at e
  · obtain rfl := Option.some.inj e
    exact Memory.wf_ownWrite _ _ _ _ _ (foldl_keeps (p := fun s => Memory.wf s = true) (fun s i hs => Memory.wf_ownWrite _ _ _ _ _ hs) _
      (Memory.wf_ownRead _ _ _ _ h))
  · cases e

theorem Memory.wf_ringFull {s : State} (d ctx : Nat) (r : Ring) (h : Memory.wf s = true) : Memory.wf (s.ringFull d ctx r) = true :=
  Memory.wf_ownWrite _ _ _ _ _ (Memory.wf_ownRead _ _ _ _ h)

end Sys2Proof.Machine
end

