-- ==== Sys2Proof/Laws/PerInstr.lean ====
section
/-! SUPPORT. A law of the encoding for each constructor of Instr: an encoded instruction is the instruction of its fields, its first word holds
its opcode and X, and it is one word or two; an event has no words (03 R62, R64). -/

namespace Sys2Proof.Laws.Encodes

/-- What holds of an instruction as syntax. -/
def Statement (i : Instr) : Prop :=
  match i.enc with
  | some (o, f) => Instr.of o f = i ∧ opField ((encode i).getD 0 0) = o.opcode ∧ xField ((encode i).getD 0 0) = f.x ∧
      (encode i).length = if f.x then 2 else 1
  | none => encode i = []

theorem of_enc {i : Instr} {o : Op} {f : Fields} (h : i.enc = some (o, f)) (h' : Instr.of o f = i) : Statement i := by
  simp only [Statement, encode, h]
  refine ⟨h', (read_encodeFirst o f).1, (read_encodeFirst o f).2.1, ?_⟩
  cases f.x <;> rfl

end Sys2Proof.Laws.Encodes

theorem Sys2Proof.Laws.Encodes.nop (f : Sys2Proof.Fields) : Sys2Proof.Laws.Encodes.Statement (.nop f) := Sys2Proof.Laws.Encodes.of_enc rfl rfl
theorem Sys2Proof.Laws.Encodes.brk (f : Sys2Proof.Fields) : Sys2Proof.Laws.Encodes.Statement (.brk f) := Sys2Proof.Laws.Encodes.of_enc rfl rfl
theorem Sys2Proof.Laws.Encodes.trap (f : Sys2Proof.Fields) : Sys2Proof.Laws.Encodes.Statement (.trap f) := Sys2Proof.Laws.Encodes.of_enc rfl rfl
theorem Sys2Proof.Laws.Encodes.eret (f : Sys2Proof.Fields) : Sys2Proof.Laws.Encodes.Statement (.eret f) := Sys2Proof.Laws.Encodes.of_enc rfl rfl
theorem Sys2Proof.Laws.Encodes.srd (f : Sys2Proof.Fields) : Sys2Proof.Laws.Encodes.Statement (.srd f) := Sys2Proof.Laws.Encodes.of_enc rfl rfl
theorem Sys2Proof.Laws.Encodes.swr (f : Sys2Proof.Fields) : Sys2Proof.Laws.Encodes.Statement (.swr f) := Sys2Proof.Laws.Encodes.of_enc rfl rfl
theorem Sys2Proof.Laws.Encodes.wbase (f : Sys2Proof.Fields) : Sys2Proof.Laws.Encodes.Statement (.wbase f) := Sys2Proof.Laws.Encodes.of_enc rfl rfl
theorem Sys2Proof.Laws.Encodes.rls (f : Sys2Proof.Fields) : Sys2Proof.Laws.Encodes.Statement (.rls f) := Sys2Proof.Laws.Encodes.of_enc rfl rfl
theorem Sys2Proof.Laws.Encodes.icsync (f : Sys2Proof.Fields) : Sys2Proof.Laws.Encodes.Statement (.icsync f) := Sys2Proof.Laws.Encodes.of_enc rfl rfl
theorem Sys2Proof.Laws.Encodes.gresume (f : Sys2Proof.Fields) : Sys2Proof.Laws.Encodes.Statement (.gresume f) := Sys2Proof.Laws.Encodes.of_enc rfl rfl
theorem Sys2Proof.Laws.Encodes.gresumeNext (f : Sys2Proof.Fields) : Sys2Proof.Laws.Encodes.Statement (.gresumeNext f) := Sys2Proof.Laws.Encodes.of_enc rfl rfl
theorem Sys2Proof.Laws.Encodes.gkill (f : Sys2Proof.Fields) : Sys2Proof.Laws.Encodes.Statement (.gkill f) := Sys2Proof.Laws.Encodes.of_enc rfl rfl
theorem Sys2Proof.Laws.Encodes.add (f : Sys2Proof.Fields) : Sys2Proof.Laws.Encodes.Statement (.add f) := Sys2Proof.Laws.Encodes.of_enc rfl rfl
theorem Sys2Proof.Laws.Encodes.sub (f : Sys2Proof.Fields) : Sys2Proof.Laws.Encodes.Statement (.sub f) := Sys2Proof.Laws.Encodes.of_enc rfl rfl
theorem Sys2Proof.Laws.Encodes.mul (f : Sys2Proof.Fields) : Sys2Proof.Laws.Encodes.Statement (.mul f) := Sys2Proof.Laws.Encodes.of_enc rfl rfl
theorem Sys2Proof.Laws.Encodes.mulh (f : Sys2Proof.Fields) : Sys2Proof.Laws.Encodes.Statement (.mulh f) := Sys2Proof.Laws.Encodes.of_enc rfl rfl
theorem Sys2Proof.Laws.Encodes.mad (f : Sys2Proof.Fields) : Sys2Proof.Laws.Encodes.Statement (.mad f) := Sys2Proof.Laws.Encodes.of_enc rfl rfl
theorem Sys2Proof.Laws.Encodes.div (f : Sys2Proof.Fields) : Sys2Proof.Laws.Encodes.Statement (.div f) := Sys2Proof.Laws.Encodes.of_enc rfl rfl
theorem Sys2Proof.Laws.Encodes.rem (f : Sys2Proof.Fields) : Sys2Proof.Laws.Encodes.Statement (.rem f) := Sys2Proof.Laws.Encodes.of_enc rfl rfl
theorem Sys2Proof.Laws.Encodes.min (f : Sys2Proof.Fields) : Sys2Proof.Laws.Encodes.Statement (.min f) := Sys2Proof.Laws.Encodes.of_enc rfl rfl
theorem Sys2Proof.Laws.Encodes.max (f : Sys2Proof.Fields) : Sys2Proof.Laws.Encodes.Statement (.max f) := Sys2Proof.Laws.Encodes.of_enc rfl rfl
theorem Sys2Proof.Laws.Encodes.and (f : Sys2Proof.Fields) : Sys2Proof.Laws.Encodes.Statement (.and f) := Sys2Proof.Laws.Encodes.of_enc rfl rfl
theorem Sys2Proof.Laws.Encodes.or (f : Sys2Proof.Fields) : Sys2Proof.Laws.Encodes.Statement (.or f) := Sys2Proof.Laws.Encodes.of_enc rfl rfl
theorem Sys2Proof.Laws.Encodes.xor (f : Sys2Proof.Fields) : Sys2Proof.Laws.Encodes.Statement (.xor f) := Sys2Proof.Laws.Encodes.of_enc rfl rfl
theorem Sys2Proof.Laws.Encodes.shl (f : Sys2Proof.Fields) : Sys2Proof.Laws.Encodes.Statement (.shl f) := Sys2Proof.Laws.Encodes.of_enc rfl rfl
theorem Sys2Proof.Laws.Encodes.shr (f : Sys2Proof.Fields) : Sys2Proof.Laws.Encodes.Statement (.shr f) := Sys2Proof.Laws.Encodes.of_enc rfl rfl
theorem Sys2Proof.Laws.Encodes.popc (f : Sys2Proof.Fields) : Sys2Proof.Laws.Encodes.Statement (.popc f) := Sys2Proof.Laws.Encodes.of_enc rfl rfl
theorem Sys2Proof.Laws.Encodes.clz (f : Sys2Proof.Fields) : Sys2Proof.Laws.Encodes.Statement (.clz f) := Sys2Proof.Laws.Encodes.of_enc rfl rfl
theorem Sys2Proof.Laws.Encodes.brev (f : Sys2Proof.Fields) : Sys2Proof.Laws.Encodes.Statement (.brev f) := Sys2Proof.Laws.Encodes.of_enc rfl rfl
theorem Sys2Proof.Laws.Encodes.bfx (f : Sys2Proof.Fields) : Sys2Proof.Laws.Encodes.Statement (.bfx f) := Sys2Proof.Laws.Encodes.of_enc rfl rfl
theorem Sys2Proof.Laws.Encodes.bfi (f : Sys2Proof.Fields) : Sys2Proof.Laws.Encodes.Statement (.bfi f) := Sys2Proof.Laws.Encodes.of_enc rfl rfl
theorem Sys2Proof.Laws.Encodes.kcg (f : Sys2Proof.Fields) : Sys2Proof.Laws.Encodes.Statement (.kcg f) := Sys2Proof.Laws.Encodes.of_enc rfl rfl
theorem Sys2Proof.Laws.Encodes.cmp (f : Sys2Proof.Fields) : Sys2Proof.Laws.Encodes.Statement (.cmp f) := Sys2Proof.Laws.Encodes.of_enc rfl rfl
theorem Sys2Proof.Laws.Encodes.sel (f : Sys2Proof.Fields) : Sys2Proof.Laws.Encodes.Statement (.sel f) := Sys2Proof.Laws.Encodes.of_enc rfl rfl
theorem Sys2Proof.Laws.Encodes.movi (f : Sys2Proof.Fields) : Sys2Proof.Laws.Encodes.Statement (.movi f) := Sys2Proof.Laws.Encodes.of_enc rfl rfl
theorem Sys2Proof.Laws.Encodes.moviWide (f : Sys2Proof.Fields) : Sys2Proof.Laws.Encodes.Statement (.moviWide f) := Sys2Proof.Laws.Encodes.of_enc rfl rfl
theorem Sys2Proof.Laws.Encodes.addi (f : Sys2Proof.Fields) : Sys2Proof.Laws.Encodes.Statement (.addi f) := Sys2Proof.Laws.Encodes.of_enc rfl rfl
theorem Sys2Proof.Laws.Encodes.addiWide (f : Sys2Proof.Fields) : Sys2Proof.Laws.Encodes.Statement (.addiWide f) := Sys2Proof.Laws.Encodes.of_enc rfl rfl
theorem Sys2Proof.Laws.Encodes.f2f (f : Sys2Proof.Fields) : Sys2Proof.Laws.Encodes.Statement (.f2f f) := Sys2Proof.Laws.Encodes.of_enc rfl rfl
theorem Sys2Proof.Laws.Encodes.f2i (f : Sys2Proof.Fields) : Sys2Proof.Laws.Encodes.Statement (.f2i f) := Sys2Proof.Laws.Encodes.of_enc rfl rfl
theorem Sys2Proof.Laws.Encodes.i2f (f : Sys2Proof.Fields) : Sys2Proof.Laws.Encodes.Statement (.i2f f) := Sys2Proof.Laws.Encodes.of_enc rfl rfl
theorem Sys2Proof.Laws.Encodes.i2i (f : Sys2Proof.Fields) : Sys2Proof.Laws.Encodes.Statement (.i2i f) := Sys2Proof.Laws.Encodes.of_enc rfl rfl
theorem Sys2Proof.Laws.Encodes.pack (f : Sys2Proof.Fields) : Sys2Proof.Laws.Encodes.Statement (.pack f) := Sys2Proof.Laws.Encodes.of_enc rfl rfl
theorem Sys2Proof.Laws.Encodes.unpack (f : Sys2Proof.Fields) : Sys2Proof.Laws.Encodes.Statement (.unpack f) := Sys2Proof.Laws.Encodes.of_enc rfl rfl
theorem Sys2Proof.Laws.Encodes.mxq (f : Sys2Proof.Fields) : Sys2Proof.Laws.Encodes.Statement (.mxq f) := Sys2Proof.Laws.Encodes.of_enc rfl rfl
theorem Sys2Proof.Laws.Encodes.mxd (f : Sys2Proof.Fields) : Sys2Proof.Laws.Encodes.Statement (.mxd f) := Sys2Proof.Laws.Encodes.of_enc rfl rfl
theorem Sys2Proof.Laws.Encodes.fadd (f : Sys2Proof.Fields) : Sys2Proof.Laws.Encodes.Statement (.fadd f) := Sys2Proof.Laws.Encodes.of_enc rfl rfl
theorem Sys2Proof.Laws.Encodes.fsub (f : Sys2Proof.Fields) : Sys2Proof.Laws.Encodes.Statement (.fsub f) := Sys2Proof.Laws.Encodes.of_enc rfl rfl
theorem Sys2Proof.Laws.Encodes.fmul (f : Sys2Proof.Fields) : Sys2Proof.Laws.Encodes.Statement (.fmul f) := Sys2Proof.Laws.Encodes.of_enc rfl rfl
theorem Sys2Proof.Laws.Encodes.ffma (f : Sys2Proof.Fields) : Sys2Proof.Laws.Encodes.Statement (.ffma f) := Sys2Proof.Laws.Encodes.of_enc rfl rfl
theorem Sys2Proof.Laws.Encodes.fmin (f : Sys2Proof.Fields) : Sys2Proof.Laws.Encodes.Statement (.fmin f) := Sys2Proof.Laws.Encodes.of_enc rfl rfl
theorem Sys2Proof.Laws.Encodes.fmax (f : Sys2Proof.Fields) : Sys2Proof.Laws.Encodes.Statement (.fmax f) := Sys2Proof.Laws.Encodes.of_enc rfl rfl
theorem Sys2Proof.Laws.Encodes.fcmp (f : Sys2Proof.Fields) : Sys2Proof.Laws.Encodes.Statement (.fcmp f) := Sys2Proof.Laws.Encodes.of_enc rfl rfl
theorem Sys2Proof.Laws.Encodes.rcp (f : Sys2Proof.Fields) : Sys2Proof.Laws.Encodes.Statement (.rcp f) := Sys2Proof.Laws.Encodes.of_enc rfl rfl
theorem Sys2Proof.Laws.Encodes.rsq (f : Sys2Proof.Fields) : Sys2Proof.Laws.Encodes.Statement (.rsq f) := Sys2Proof.Laws.Encodes.of_enc rfl rfl
theorem Sys2Proof.Laws.Encodes.sqrt (f : Sys2Proof.Fields) : Sys2Proof.Laws.Encodes.Statement (.sqrt f) := Sys2Proof.Laws.Encodes.of_enc rfl rfl
theorem Sys2Proof.Laws.Encodes.exp2 (f : Sys2Proof.Fields) : Sys2Proof.Laws.Encodes.Statement (.exp2 f) := Sys2Proof.Laws.Encodes.of_enc rfl rfl
theorem Sys2Proof.Laws.Encodes.log2 (f : Sys2Proof.Fields) : Sys2Proof.Laws.Encodes.Statement (.log2 f) := Sys2Proof.Laws.Encodes.of_enc rfl rfl
theorem Sys2Proof.Laws.Encodes.sin (f : Sys2Proof.Fields) : Sys2Proof.Laws.Encodes.Statement (.sin f) := Sys2Proof.Laws.Encodes.of_enc rfl rfl
theorem Sys2Proof.Laws.Encodes.cos (f : Sys2Proof.Fields) : Sys2Proof.Laws.Encodes.Statement (.cos f) := Sys2Proof.Laws.Encodes.of_enc rfl rfl
theorem Sys2Proof.Laws.Encodes.tanh (f : Sys2Proof.Fields) : Sys2Proof.Laws.Encodes.Statement (.tanh f) := Sys2Proof.Laws.Encodes.of_enc rfl rfl
theorem Sys2Proof.Laws.Encodes.tsum (f : Sys2Proof.Fields) : Sys2Proof.Laws.Encodes.Statement (.tsum f) := Sys2Proof.Laws.Encodes.of_enc rfl rfl
theorem Sys2Proof.Laws.Encodes.tprod (f : Sys2Proof.Fields) : Sys2Proof.Laws.Encodes.Statement (.tprod f) := Sys2Proof.Laws.Encodes.of_enc rfl rfl
theorem Sys2Proof.Laws.Encodes.fmae (f : Sys2Proof.Fields) : Sys2Proof.Laws.Encodes.Statement (.fmae f) := Sys2Proof.Laws.Encodes.of_enc rfl rfl
theorem Sys2Proof.Laws.Encodes.xadd (f : Sys2Proof.Fields) : Sys2Proof.Laws.Encodes.Statement (.xadd f) := Sys2Proof.Laws.Encodes.of_enc rfl rfl
theorem Sys2Proof.Laws.Encodes.xmul (f : Sys2Proof.Fields) : Sys2Proof.Laws.Encodes.Statement (.xmul f) := Sys2Proof.Laws.Encodes.of_enc rfl rfl
theorem Sys2Proof.Laws.Encodes.xcmp (f : Sys2Proof.Fields) : Sys2Proof.Laws.Encodes.Statement (.xcmp f) := Sys2Proof.Laws.Encodes.of_enc rfl rfl
theorem Sys2Proof.Laws.Encodes.xrenorm (f : Sys2Proof.Fields) : Sys2Proof.Laws.Encodes.Statement (.xrenorm f) := Sys2Proof.Laws.Encodes.of_enc rfl rfl
theorem Sys2Proof.Laws.Encodes.xcomp (f : Sys2Proof.Fields) : Sys2Proof.Laws.Encodes.Statement (.xcomp f) := Sys2Proof.Laws.Encodes.of_enc rfl rfl
theorem Sys2Proof.Laws.Encodes.xneg (f : Sys2Proof.Fields) : Sys2Proof.Laws.Encodes.Statement (.xneg f) := Sys2Proof.Laws.Encodes.of_enc rfl rfl
theorem Sys2Proof.Laws.Encodes.xabs (f : Sys2Proof.Fields) : Sys2Proof.Laws.Encodes.Statement (.xabs f) := Sys2Proof.Laws.Encodes.of_enc rfl rfl
theorem Sys2Proof.Laws.Encodes.xhead (f : Sys2Proof.Fields) : Sys2Proof.Laws.Encodes.Statement (.xhead f) := Sys2Proof.Laws.Encodes.of_enc rfl rfl
theorem Sys2Proof.Laws.Encodes.xsplit (f : Sys2Proof.Fields) : Sys2Proof.Laws.Encodes.Statement (.xsplit f) := Sys2Proof.Laws.Encodes.of_enc rfl rfl
theorem Sys2Proof.Laws.Encodes.xjoin (f : Sys2Proof.Fields) : Sys2Proof.Laws.Encodes.Statement (.xjoin f) := Sys2Proof.Laws.Encodes.of_enc rfl rfl
theorem Sys2Proof.Laws.Encodes.iadd (f : Sys2Proof.Fields) : Sys2Proof.Laws.Encodes.Statement (.iadd f) := Sys2Proof.Laws.Encodes.of_enc rfl rfl
theorem Sys2Proof.Laws.Encodes.isub (f : Sys2Proof.Fields) : Sys2Proof.Laws.Encodes.Statement (.isub f) := Sys2Proof.Laws.Encodes.of_enc rfl rfl
theorem Sys2Proof.Laws.Encodes.imul (f : Sys2Proof.Fields) : Sys2Proof.Laws.Encodes.Statement (.imul f) := Sys2Proof.Laws.Encodes.of_enc rfl rfl
theorem Sys2Proof.Laws.Encodes.idiv (f : Sys2Proof.Fields) : Sys2Proof.Laws.Encodes.Statement (.idiv f) := Sys2Proof.Laws.Encodes.of_enc rfl rfl
theorem Sys2Proof.Laws.Encodes.ifma (f : Sys2Proof.Fields) : Sys2Proof.Laws.Encodes.Statement (.ifma f) := Sys2Proof.Laws.Encodes.of_enc rfl rfl
theorem Sys2Proof.Laws.Encodes.icmp (f : Sys2Proof.Fields) : Sys2Proof.Laws.Encodes.Statement (.icmp f) := Sys2Proof.Laws.Encodes.of_enc rfl rfl
theorem Sys2Proof.Laws.Encodes.ihull (f : Sys2Proof.Fields) : Sys2Proof.Laws.Encodes.Statement (.ihull f) := Sys2Proof.Laws.Encodes.of_enc rfl rfl
theorem Sys2Proof.Laws.Encodes.imeet (f : Sys2Proof.Fields) : Sys2Proof.Laws.Encodes.Statement (.imeet f) := Sys2Proof.Laws.Encodes.of_enc rfl rfl
theorem Sys2Proof.Laws.Encodes.imake (f : Sys2Proof.Fields) : Sys2Proof.Laws.Encodes.Statement (.imake f) := Sys2Proof.Laws.Encodes.of_enc rfl rfl
theorem Sys2Proof.Laws.Encodes.ilo (f : Sys2Proof.Fields) : Sys2Proof.Laws.Encodes.Statement (.ilo f) := Sys2Proof.Laws.Encodes.of_enc rfl rfl
theorem Sys2Proof.Laws.Encodes.ihi (f : Sys2Proof.Fields) : Sys2Proof.Laws.Encodes.Statement (.ihi f) := Sys2Proof.Laws.Encodes.of_enc rfl rfl
theorem Sys2Proof.Laws.Encodes.imid (f : Sys2Proof.Fields) : Sys2Proof.Laws.Encodes.Statement (.imid f) := Sys2Proof.Laws.Encodes.of_enc rfl rfl
theorem Sys2Proof.Laws.Encodes.iwid (f : Sys2Proof.Fields) : Sys2Proof.Laws.Encodes.Statement (.iwid f) := Sys2Proof.Laws.Encodes.of_enc rfl rfl
theorem Sys2Proof.Laws.Encodes.ineg (f : Sys2Proof.Fields) : Sys2Proof.Laws.Encodes.Statement (.ineg f) := Sys2Proof.Laws.Encodes.of_enc rfl rfl
theorem Sys2Proof.Laws.Encodes.iabs (f : Sys2Proof.Fields) : Sys2Proof.Laws.Encodes.Statement (.iabs f) := Sys2Proof.Laws.Encodes.of_enc rfl rfl
theorem Sys2Proof.Laws.Encodes.isqr (f : Sys2Proof.Fields) : Sys2Proof.Laws.Encodes.Statement (.isqr f) := Sys2Proof.Laws.Encodes.of_enc rfl rfl
theorem Sys2Proof.Laws.Encodes.isqrt (f : Sys2Proof.Fields) : Sys2Proof.Laws.Encodes.Statement (.isqrt f) := Sys2Proof.Laws.Encodes.of_enc rfl rfl
theorem Sys2Proof.Laws.Encodes.ihalf (f : Sys2Proof.Fields) : Sys2Proof.Laws.Encodes.Statement (.ihalf f) := Sys2Proof.Laws.Encodes.of_enc rfl rfl
theorem Sys2Proof.Laws.Encodes.iisempty (f : Sys2Proof.Fields) : Sys2Proof.Laws.Encodes.Statement (.iisempty f) := Sys2Proof.Laws.Encodes.of_enc rfl rfl
theorem Sys2Proof.Laws.Encodes.ibis (f : Sys2Proof.Fields) : Sys2Proof.Laws.Encodes.Statement (.ibis f) := Sys2Proof.Laws.Encodes.of_enc rfl rfl
theorem Sys2Proof.Laws.Encodes.ld (f : Sys2Proof.Fields) : Sys2Proof.Laws.Encodes.Statement (.ld f) := Sys2Proof.Laws.Encodes.of_enc rfl rfl
theorem Sys2Proof.Laws.Encodes.st (f : Sys2Proof.Fields) : Sys2Proof.Laws.Encodes.Statement (.st f) := Sys2Proof.Laws.Encodes.of_enc rfl rfl
theorem Sys2Proof.Laws.Encodes.ild (f : Sys2Proof.Fields) : Sys2Proof.Laws.Encodes.Statement (.ild f) := Sys2Proof.Laws.Encodes.of_enc rfl rfl
theorem Sys2Proof.Laws.Encodes.ist (f : Sys2Proof.Fields) : Sys2Proof.Laws.Encodes.Statement (.ist f) := Sys2Proof.Laws.Encodes.of_enc rfl rfl
theorem Sys2Proof.Laws.Encodes.atom (f : Sys2Proof.Fields) : Sys2Proof.Laws.Encodes.Statement (.atom f) := Sys2Proof.Laws.Encodes.of_enc rfl rfl
theorem Sys2Proof.Laws.Encodes.red (f : Sys2Proof.Fields) : Sys2Proof.Laws.Encodes.Statement (.red f) := Sys2Proof.Laws.Encodes.of_enc rfl rfl
theorem Sys2Proof.Laws.Encodes.fence (f : Sys2Proof.Fields) : Sys2Proof.Laws.Encodes.Statement (.fence f) := Sys2Proof.Laws.Encodes.of_enc rfl rfl
theorem Sys2Proof.Laws.Encodes.pref (f : Sys2Proof.Fields) : Sys2Proof.Laws.Encodes.Statement (.pref f) := Sys2Proof.Laws.Encodes.of_enc rfl rfl
theorem Sys2Proof.Laws.Encodes.ifence (f : Sys2Proof.Fields) : Sys2Proof.Laws.Encodes.Statement (.ifence f) := Sys2Proof.Laws.Encodes.of_enc rfl rfl
theorem Sys2Proof.Laws.Encodes.waita (f : Sys2Proof.Fields) : Sys2Proof.Laws.Encodes.Statement (.waita f) := Sys2Proof.Laws.Encodes.of_enc rfl rfl
theorem Sys2Proof.Laws.Encodes.bra (f : Sys2Proof.Fields) : Sys2Proof.Laws.Encodes.Statement (.bra f) := Sys2Proof.Laws.Encodes.of_enc rfl rfl
theorem Sys2Proof.Laws.Encodes.call (f : Sys2Proof.Fields) : Sys2Proof.Laws.Encodes.Statement (.call f) := Sys2Proof.Laws.Encodes.of_enc rfl rfl
theorem Sys2Proof.Laws.Encodes.bri (f : Sys2Proof.Fields) : Sys2Proof.Laws.Encodes.Statement (.bri f) := Sys2Proof.Laws.Encodes.of_enc rfl rfl
theorem Sys2Proof.Laws.Encodes.calli (f : Sys2Proof.Fields) : Sys2Proof.Laws.Encodes.Statement (.calli f) := Sys2Proof.Laws.Encodes.of_enc rfl rfl
theorem Sys2Proof.Laws.Encodes.ret (f : Sys2Proof.Fields) : Sys2Proof.Laws.Encodes.Statement (.ret f) := Sys2Proof.Laws.Encodes.of_enc rfl rfl
theorem Sys2Proof.Laws.Encodes.exit (f : Sys2Proof.Fields) : Sys2Proof.Laws.Encodes.Statement (.exit f) := Sys2Proof.Laws.Encodes.of_enc rfl rfl
theorem Sys2Proof.Laws.Encodes.yield (f : Sys2Proof.Fields) : Sys2Proof.Laws.Encodes.Statement (.yield f) := Sys2Proof.Laws.Encodes.of_enc rfl rfl
theorem Sys2Proof.Laws.Encodes.spawn (f : Sys2Proof.Fields) : Sys2Proof.Laws.Encodes.Statement (.spawn f) := Sys2Proof.Laws.Encodes.of_enc rfl rfl
theorem Sys2Proof.Laws.Encodes.bar (f : Sys2Proof.Fields) : Sys2Proof.Laws.Encodes.Statement (.bar f) := Sys2Proof.Laws.Encodes.of_enc rfl rfl
theorem Sys2Proof.Laws.Encodes.barPass (f : Sys2Proof.Fields) : Sys2Proof.Laws.Encodes.Statement (.barPass f) := Sys2Proof.Laws.Encodes.of_enc rfl rfl
theorem Sys2Proof.Laws.Encodes.mset (f : Sys2Proof.Fields) : Sys2Proof.Laws.Encodes.Statement (.mset f) := Sys2Proof.Laws.Encodes.of_enc rfl rfl
theorem Sys2Proof.Laws.Encodes.mand (f : Sys2Proof.Fields) : Sys2Proof.Laws.Encodes.Statement (.mand f) := Sys2Proof.Laws.Encodes.of_enc rfl rfl
theorem Sys2Proof.Laws.Encodes.mor (f : Sys2Proof.Fields) : Sys2Proof.Laws.Encodes.Statement (.mor f) := Sys2Proof.Laws.Encodes.of_enc rfl rfl
theorem Sys2Proof.Laws.Encodes.mnot (f : Sys2Proof.Fields) : Sys2Proof.Laws.Encodes.Statement (.mnot f) := Sys2Proof.Laws.Encodes.of_enc rfl rfl
theorem Sys2Proof.Laws.Encodes.mact (f : Sys2Proof.Fields) : Sys2Proof.Laws.Encodes.Statement (.mact f) := Sys2Proof.Laws.Encodes.of_enc rfl rfl
theorem Sys2Proof.Laws.Encodes.mrd (f : Sys2Proof.Fields) : Sys2Proof.Laws.Encodes.Statement (.mrd f) := Sys2Proof.Laws.Encodes.of_enc rfl rfl
theorem Sys2Proof.Laws.Encodes.vote (f : Sys2Proof.Fields) : Sys2Proof.Laws.Encodes.Statement (.vote f) := Sys2Proof.Laws.Encodes.of_enc rfl rfl
theorem Sys2Proof.Laws.Encodes.shfl (f : Sys2Proof.Fields) : Sys2Proof.Laws.Encodes.Statement (.shfl f) := Sys2Proof.Laws.Encodes.of_enc rfl rfl
theorem Sys2Proof.Laws.Encodes.mma (f : Sys2Proof.Fields) : Sys2Proof.Laws.Encodes.Statement (.mma f) := Sys2Proof.Laws.Encodes.of_enc rfl rfl
theorem Sys2Proof.Laws.Encodes.mres (f : Sys2Proof.Fields) : Sys2Proof.Laws.Encodes.Statement (.mres f) := Sys2Proof.Laws.Encodes.of_enc rfl rfl
theorem Sys2Proof.Laws.Encodes.mrel (f : Sys2Proof.Fields) : Sys2Proof.Laws.Encodes.Statement (.mrel f) := Sys2Proof.Laws.Encodes.of_enc rfl rfl
theorem Sys2Proof.Laws.Encodes.mwait (f : Sys2Proof.Fields) : Sys2Proof.Laws.Encodes.Statement (.mwait f) := Sys2Proof.Laws.Encodes.of_enc rfl rfl
theorem Sys2Proof.Laws.Encodes.mfence (f : Sys2Proof.Fields) : Sys2Proof.Laws.Encodes.Statement (.mfence f) := Sys2Proof.Laws.Encodes.of_enc rfl rfl
theorem Sys2Proof.Laws.Encodes.mzero (f : Sys2Proof.Fields) : Sys2Proof.Laws.Encodes.Statement (.mzero f) := Sys2Proof.Laws.Encodes.of_enc rfl rfl
theorem Sys2Proof.Laws.Encodes.mlda (f : Sys2Proof.Fields) : Sys2Proof.Laws.Encodes.Statement (.mlda f) := Sys2Proof.Laws.Encodes.of_enc rfl rfl
theorem Sys2Proof.Laws.Encodes.msta (f : Sys2Proof.Fields) : Sys2Proof.Laws.Encodes.Statement (.msta f) := Sys2Proof.Laws.Encodes.of_enc rfl rfl
theorem Sys2Proof.Laws.Encodes.mldb (f : Sys2Proof.Fields) : Sys2Proof.Laws.Encodes.Statement (.mldb f) := Sys2Proof.Laws.Encodes.of_enc rfl rfl
theorem Sys2Proof.Laws.Encodes.mdrain (f : Sys2Proof.Fields) : Sys2Proof.Laws.Encodes.Statement (.mdrain f) := Sys2Proof.Laws.Encodes.of_enc rfl rfl
theorem Sys2Proof.Laws.Encodes.tdef (f : Sys2Proof.Fields) : Sys2Proof.Laws.Encodes.Statement (.tdef f) := Sys2Proof.Laws.Encodes.of_enc rfl rfl
theorem Sys2Proof.Laws.Encodes.tdefCommit (f : Sys2Proof.Fields) : Sys2Proof.Laws.Encodes.Statement (.tdefCommit f) := Sys2Proof.Laws.Encodes.of_enc rfl rfl
theorem Sys2Proof.Laws.Encodes.tkill (f : Sys2Proof.Fields) : Sys2Proof.Laws.Encodes.Statement (.tkill f) := Sys2Proof.Laws.Encodes.of_enc rfl rfl
theorem Sys2Proof.Laws.Encodes.tinfo (f : Sys2Proof.Fields) : Sys2Proof.Laws.Encodes.Statement (.tinfo f) := Sys2Proof.Laws.Encodes.of_enc rfl rfl
theorem Sys2Proof.Laws.Encodes.ctwr (f : Sys2Proof.Fields) : Sys2Proof.Laws.Encodes.Statement (.ctwr f) := Sys2Proof.Laws.Encodes.of_enc rfl rfl
theorem Sys2Proof.Laws.Encodes.copy (f : Sys2Proof.Fields) : Sys2Proof.Laws.Encodes.Statement (.copy f) := Sys2Proof.Laws.Encodes.of_enc rfl rfl
theorem Sys2Proof.Laws.Encodes.tdec (f : Sys2Proof.Fields) : Sys2Proof.Laws.Encodes.Statement (.tdec f) := Sys2Proof.Laws.Encodes.of_enc rfl rfl
theorem Sys2Proof.Laws.Encodes.launch (f : Sys2Proof.Fields) : Sys2Proof.Laws.Encodes.Statement (.launch f) := Sys2Proof.Laws.Encodes.of_enc rfl rfl
theorem Sys2Proof.Laws.Encodes.tstat (f : Sys2Proof.Fields) : Sys2Proof.Laws.Encodes.Statement (.tstat f) := Sys2Proof.Laws.Encodes.of_enc rfl rfl
theorem Sys2Proof.Laws.Encodes.rset (f : Sys2Proof.Fields) : Sys2Proof.Laws.Encodes.Statement (.rset f) := Sys2Proof.Laws.Encodes.of_enc rfl rfl
theorem Sys2Proof.Laws.Encodes.rsetRepl (f : Sys2Proof.Fields) : Sys2Proof.Laws.Encodes.Statement (.rsetRepl f) := Sys2Proof.Laws.Encodes.of_enc rfl rfl
theorem Sys2Proof.Laws.Encodes.rsplit (f : Sys2Proof.Fields) : Sys2Proof.Laws.Encodes.Statement (.rsplit f) := Sys2Proof.Laws.Encodes.of_enc rfl rfl
theorem Sys2Proof.Laws.Encodes.rmerge (f : Sys2Proof.Fields) : Sys2Proof.Laws.Encodes.Statement (.rmerge f) := Sys2Proof.Laws.Encodes.of_enc rfl rfl
theorem Sys2Proof.Laws.Encodes.rinv (f : Sys2Proof.Fields) : Sys2Proof.Laws.Encodes.Statement (.rinv f) := Sys2Proof.Laws.Encodes.of_enc rfl rfl
theorem Sys2Proof.Laws.Encodes.rqry (f : Sys2Proof.Fields) : Sys2Proof.Laws.Encodes.Statement (.rqry f) := Sys2Proof.Laws.Encodes.of_enc rfl rfl
theorem Sys2Proof.Laws.Encodes.rcomp (f : Sys2Proof.Fields) : Sys2Proof.Laws.Encodes.Statement (.rcomp f) := Sys2Proof.Laws.Encodes.of_enc rfl rfl
theorem Sys2Proof.Laws.Encodes.enter (f : Sys2Proof.Fields) : Sys2Proof.Laws.Encodes.Statement (.enter f) := Sys2Proof.Laws.Encodes.of_enc rfl rfl
theorem Sys2Proof.Laws.Encodes.leave (f : Sys2Proof.Fields) : Sys2Proof.Laws.Encodes.Statement (.leave f) := Sys2Proof.Laws.Encodes.of_enc rfl rfl
theorem Sys2Proof.Laws.Encodes.watch (f : Sys2Proof.Fields) : Sys2Proof.Laws.Encodes.Statement (.watch f) := Sys2Proof.Laws.Encodes.of_enc rfl rfl
theorem Sys2Proof.Laws.Encodes.sampl (f : Sys2Proof.Fields) : Sys2Proof.Laws.Encodes.Statement (.sampl f) := Sys2Proof.Laws.Encodes.of_enc rfl rfl
theorem Sys2Proof.Laws.Encodes.cntrd (f : Sys2Proof.Fields) : Sys2Proof.Laws.Encodes.Statement (.cntrd f) := Sys2Proof.Laws.Encodes.of_enc rfl rfl
theorem Sys2Proof.Laws.Encodes.resultWriteback (gid : Nat) : Sys2Proof.Laws.Encodes.Statement (.resultWriteback gid) := rfl
theorem Sys2Proof.Laws.Encodes.writeAcknowledgement (gid : Nat) : Sys2Proof.Laws.Encodes.Statement (.writeAcknowledgement gid) := rfl
theorem Sys2Proof.Laws.Encodes.groupAged (gid : Nat) : Sys2Proof.Laws.Encodes.Statement (.groupAged gid) := rfl
theorem Sys2Proof.Laws.Encodes.groupEnd (gid : Nat) : Sys2Proof.Laws.Encodes.Statement (.groupEnd gid) := rfl
theorem Sys2Proof.Laws.Encodes.poolAllocationRetry (gid : Nat) : Sys2Proof.Laws.Encodes.Statement (.poolAllocationRetry gid) := rfl
theorem Sys2Proof.Laws.Encodes.forcedSave (unit : Nat) : Sys2Proof.Laws.Encodes.Statement (.forcedSave unit) := rfl
theorem Sys2Proof.Laws.Encodes.forcedSaveRestore (unit : Nat) : Sys2Proof.Laws.Encodes.Statement (.forcedSaveRestore unit) := rfl
theorem Sys2Proof.Laws.Encodes.runaheadEntry (gid : Nat) : Sys2Proof.Laws.Encodes.Statement (.runaheadEntry gid) := rfl
theorem Sys2Proof.Laws.Encodes.runaheadExit (gid : Nat) : Sys2Proof.Laws.Encodes.Statement (.runaheadExit gid) := rfl
theorem Sys2Proof.Laws.Encodes.panTimerExpiry (core pan : Nat) : Sys2Proof.Laws.Encodes.Statement (.panTimerExpiry core pan) := rfl
theorem Sys2Proof.Laws.Encodes.panLaunch (core pan : Nat) : Sys2Proof.Laws.Encodes.Statement (.panLaunch core pan) := rfl
theorem Sys2Proof.Laws.Encodes.spawnStallReissue (gid : Nat) : Sys2Proof.Laws.Encodes.Statement (.spawnStallReissue gid) := rfl
theorem Sys2Proof.Laws.Encodes.overflowMove (core : Nat) (team : Nat) : Sys2Proof.Laws.Encodes.Statement (.overflowMove core team) := rfl
theorem Sys2Proof.Laws.Encodes.barrierUnitArrival (cluster : Nat) : Sys2Proof.Laws.Encodes.Statement (.barrierUnitArrival cluster) := rfl
theorem Sys2Proof.Laws.Encodes.pendingFaultRecordWrite (die : Nat) : Sys2Proof.Laws.Encodes.Statement (.pendingFaultRecordWrite die) := rfl
theorem Sys2Proof.Laws.Encodes.waitaReread (gid : Nat) : Sys2Proof.Laws.Encodes.Statement (.waitaReread gid) := rfl
theorem Sys2Proof.Laws.Encodes.waitaTimeLimit (gid : Nat) : Sys2Proof.Laws.Encodes.Statement (.waitaTimeLimit gid) := rfl
theorem Sys2Proof.Laws.Encodes.teamPreemption (team : Nat) : Sys2Proof.Laws.Encodes.Statement (.teamPreemption team) := rfl
theorem Sys2Proof.Laws.Encodes.teamRestore (team core : Nat) : Sys2Proof.Laws.Encodes.Statement (.teamRestore team core) := rfl
theorem Sys2Proof.Laws.Encodes.unitClearComplete (unit : Nat) : Sys2Proof.Laws.Encodes.Statement (.unitClearComplete unit) := rfl
theorem Sys2Proof.Laws.Encodes.matrixOperationExecute (unit : Nat) : Sys2Proof.Laws.Encodes.Statement (.matrixOperationExecute unit) := rfl
theorem Sys2Proof.Laws.Encodes.matrixOperationComplete (unit : Nat) : Sys2Proof.Laws.Encodes.Statement (.matrixOperationComplete unit) := rfl
theorem Sys2Proof.Laws.Encodes.unitRelease (unit : Nat) : Sys2Proof.Laws.Encodes.Statement (.unitRelease unit) := rfl
theorem Sys2Proof.Laws.Encodes.mdrainAbort (unit : Nat) : Sys2Proof.Laws.Encodes.Statement (.mdrainAbort unit) := rfl
theorem Sys2Proof.Laws.Encodes.rangeWalk (cluster : Nat) : Sys2Proof.Laws.Encodes.Statement (.rangeWalk cluster) := rfl
theorem Sys2Proof.Laws.Encodes.walkGenerationRetry (cluster : Nat) : Sys2Proof.Laws.Encodes.Statement (.walkGenerationRetry cluster) := rfl
theorem Sys2Proof.Laws.Encodes.rangeTableFill (cluster : Nat) : Sys2Proof.Laws.Encodes.Statement (.rangeTableFill cluster) := rfl
theorem Sys2Proof.Laws.Encodes.compactionUnitMove (move : Nat) : Sys2Proof.Laws.Encodes.Statement (.compactionUnitMove move) := rfl
theorem Sys2Proof.Laws.Encodes.compactionDone (move : Nat) : Sys2Proof.Laws.Encodes.Statement (.compactionDone move) := rfl
theorem Sys2Proof.Laws.Encodes.sampleTag (unit : Nat) : Sys2Proof.Laws.Encodes.Statement (.sampleTag unit) := rfl
theorem Sys2Proof.Laws.Encodes.sampleRecord (unit : Nat) : Sys2Proof.Laws.Encodes.Statement (.sampleRecord unit) := rfl
theorem Sys2Proof.Laws.Encodes.watchStop (gid : Nat) : Sys2Proof.Laws.Encodes.Statement (.watchStop gid) := rfl
theorem Sys2Proof.Laws.Encodes.harrowSweep (die : Nat) : Sys2Proof.Laws.Encodes.Statement (.harrowSweep die) := rfl
theorem Sys2Proof.Laws.Encodes.sliceAccess (die : Nat) : Sys2Proof.Laws.Encodes.Statement (.sliceAccess die) := rfl
theorem Sys2Proof.Laws.Encodes.sectorEviction (sector : Nat) : Sys2Proof.Laws.Encodes.Statement (.sectorEviction sector) := rfl
theorem Sys2Proof.Laws.Encodes.partialJoin (die line : Nat) : Sys2Proof.Laws.Encodes.Statement (.partialJoin die line) := rfl
theorem Sys2Proof.Laws.Encodes.partialFlush (die line : Nat) : Sys2Proof.Laws.Encodes.Statement (.partialFlush die line) := rfl
theorem Sys2Proof.Laws.Encodes.cLineMerge (line : Nat) : Sys2Proof.Laws.Encodes.Statement (.cLineMerge line) := rfl
theorem Sys2Proof.Laws.Encodes.hbmScrub (found : Sys2Proof.Corrected) : Sys2Proof.Laws.Encodes.Statement (.hbmScrub found) := rfl
theorem Sys2Proof.Laws.Encodes.uncorrectableError (site : Sys2Proof.ErrSite) : Sys2Proof.Laws.Encodes.Statement (.uncorrectableError site) := rfl
theorem Sys2Proof.Laws.Encodes.hbmPersistentFault (word : Nat) : Sys2Proof.Laws.Encodes.Statement (.hbmPersistentFault word) := rfl
theorem Sys2Proof.Laws.Encodes.dieLinkResend (src : Nat) (sent : Sys2Proof.Transfer) : Sys2Proof.Laws.Encodes.Statement (.dieLinkResend src sent) := rfl
theorem Sys2Proof.Laws.Encodes.dieLinkDown (src dst : Nat) : Sys2Proof.Laws.Encodes.Statement (.dieLinkDown src dst) := rfl
theorem Sys2Proof.Laws.Encodes.pairApertureAccess (store : Sys2Proof.Transfer) : Sys2Proof.Laws.Encodes.Statement (.pairApertureAccess store) := rfl
theorem Sys2Proof.Laws.Encodes.pairLinkResend (cluster : Nat) (sent : Sys2Proof.Transfer) : Sys2Proof.Laws.Encodes.Statement (.pairLinkResend cluster sent) := rfl
theorem Sys2Proof.Laws.Encodes.pairLinkDown (cluster pair : Nat) : Sys2Proof.Laws.Encodes.Statement (.pairLinkDown cluster pair) := rfl
theorem Sys2Proof.Laws.Encodes.walkerError (cluster : Nat) : Sys2Proof.Laws.Encodes.Statement (.walkerError cluster) := rfl
theorem Sys2Proof.Laws.Encodes.copyStart (die : Nat) : Sys2Proof.Laws.Encodes.Statement (.copyStart die) := rfl
theorem Sys2Proof.Laws.Encodes.copyChunk (die engine : Nat) : Sys2Proof.Laws.Encodes.Statement (.copyChunk die engine) := rfl
theorem Sys2Proof.Laws.Encodes.copyEnd (die engine : Nat) : Sys2Proof.Laws.Encodes.Statement (.copyEnd die engine) := rfl
theorem Sys2Proof.Laws.Encodes.doorbell (target bytes : Nat) (data : Sys2Proof.W64) : Sys2Proof.Laws.Encodes.Statement (.doorbell target bytes data) := rfl
theorem Sys2Proof.Laws.Encodes.decrement (die : Nat) : Sys2Proof.Laws.Encodes.Statement (.decrement die) := rfl
theorem Sys2Proof.Laws.Encodes.teamDispatch (die : Nat) : Sys2Proof.Laws.Encodes.Statement (.teamDispatch die) := rfl
theorem Sys2Proof.Laws.Encodes.priorityRecompute : Sys2Proof.Laws.Encodes.Statement (.priorityRecompute) := rfl
theorem Sys2Proof.Laws.Encodes.launchCompletion (slot : Nat) : Sys2Proof.Laws.Encodes.Statement (.launchCompletion slot) := rfl
theorem Sys2Proof.Laws.Encodes.packageReset : Sys2Proof.Laws.Encodes.Statement (.packageReset) := rfl
theorem Sys2Proof.Laws.Encodes.firmwareImage (image : List Sys2Proof.Byte) : Sys2Proof.Laws.Encodes.Statement (.firmwareImage image) := rfl
theorem Sys2Proof.Laws.Encodes.bringUp (failed : Option (Nat × Nat)) : Sys2Proof.Laws.Encodes.Statement (.bringUp failed) := rfl
theorem Sys2Proof.Laws.Encodes.numberCommand (n : Nat) : Sys2Proof.Laws.Encodes.Statement (.numberCommand n) := rfl
theorem Sys2Proof.Laws.Encodes.configurationBlock (die : Nat) (block : List Sys2Proof.W64) : Sys2Proof.Laws.Encodes.Statement (.configurationBlock die block) := rfl
theorem Sys2Proof.Laws.Encodes.startCommand (target virt : Sys2Proof.Addr) : Sys2Proof.Laws.Encodes.Statement (.startCommand target virt) := rfl
theorem Sys2Proof.Laws.Encodes.retireCommand (core : Nat) : Sys2Proof.Laws.Encodes.Statement (.retireCommand core) := rfl
theorem Sys2Proof.Laws.Encodes.createContext (cmd : Sys2Proof.ContextCommand) : Sys2Proof.Laws.Encodes.Statement (.createContext cmd) := rfl
theorem Sys2Proof.Laws.Encodes.addParticipant (cmd : Sys2Proof.ParticipantCommand) : Sys2Proof.Laws.Encodes.Statement (.addParticipant cmd) := rfl
theorem Sys2Proof.Laws.Encodes.admitLaunch (cmd : Sys2Proof.AdmitCommand) : Sys2Proof.Laws.Encodes.Statement (.admitLaunch cmd) := rfl
theorem Sys2Proof.Laws.Encodes.attestationReport (ctx : Nat) (nonce : List Sys2Proof.Byte) : Sys2Proof.Laws.Encodes.Statement (.attestationReport ctx nonce) := rfl
theorem Sys2Proof.Laws.Encodes.revocation (cmd : Sys2Proof.ParticipantCommand) : Sys2Proof.Laws.Encodes.Statement (.revocation cmd) := rfl
theorem Sys2Proof.Laws.Encodes.routeTableWrite (package : Nat) (first second : Option Nat) : Sys2Proof.Laws.Encodes.Statement (.routeTableWrite package first second) := rfl
theorem Sys2Proof.Laws.Encodes.powerThrottle (on : Bool) : Sys2Proof.Laws.Encodes.Statement (.powerThrottle on) := rfl
theorem Sys2Proof.Laws.Encodes.thermalShutdown (die : Nat) : Sys2Proof.Laws.Encodes.Statement (.thermalShutdown die) := rfl
theorem Sys2Proof.Laws.Encodes.cxlOpen (hdmBase : Nat) : Sys2Proof.Laws.Encodes.Statement (.cxlOpen hdmBase) := rfl
theorem Sys2Proof.Laws.Encodes.snpData (host : Nat) : Sys2Proof.Laws.Encodes.Statement (.snpData host) := rfl
theorem Sys2Proof.Laws.Encodes.snpInv (host : Nat) : Sys2Proof.Laws.Encodes.Statement (.snpInv host) := rfl
theorem Sys2Proof.Laws.Encodes.snpCur (host : Nat) : Sys2Proof.Laws.Encodes.Statement (.snpCur host) := rfl
theorem Sys2Proof.Laws.Encodes.hostResponse (host : Nat) (exclusive : Bool) (data : List Sys2Proof.Byte) (bad : BitVec 8) : Sys2Proof.Laws.Encodes.Statement (.hostResponse host exclusive data bad) := rfl
theorem Sys2Proof.Laws.Encodes.hostSectorEviction (host : Nat) : Sys2Proof.Laws.Encodes.Statement (.hostSectorEviction host) := rfl
theorem Sys2Proof.Laws.Encodes.cxlMemRead (addr bytes : Nat) : Sys2Proof.Laws.Encodes.Statement (.cxlMemRead addr bytes) := rfl
theorem Sys2Proof.Laws.Encodes.cxlMemWrite (addr : Nat) (data : List Sys2Proof.Byte) (poison : Bool) : Sys2Proof.Laws.Encodes.Statement (.cxlMemWrite addr data poison) := rfl
theorem Sys2Proof.Laws.Encodes.biSnoopResponse (sector : Nat) : Sys2Proof.Laws.Encodes.Statement (.biSnoopResponse sector) := rfl
theorem Sys2Proof.Laws.Encodes.flitReceive (port : Nat) (flit : Sys2Proof.Flit) : Sys2Proof.Laws.Encodes.Statement (.flitReceive port flit) := rfl
theorem Sys2Proof.Laws.Encodes.flitResend (sent : Sys2Proof.Transfer) : Sys2Proof.Laws.Encodes.Statement (.flitResend sent) := rfl
theorem Sys2Proof.Laws.Encodes.portDown (port : Nat) : Sys2Proof.Laws.Encodes.Statement (.portDown port) := rfl
theorem Sys2Proof.Laws.Encodes.accessTimeout (port tag : Nat) : Sys2Proof.Laws.Encodes.Statement (.accessTimeout port tag) := rfl
theorem Sys2Proof.Laws.Encodes.collectiveAccept (port : Nat) : Sys2Proof.Laws.Encodes.Statement (.collectiveAccept port) := rfl
theorem Sys2Proof.Laws.Encodes.collectiveFlit (port : Nat) (flit : Sys2Proof.CollFlit) : Sys2Proof.Laws.Encodes.Statement (.collectiveFlit port flit) := rfl
theorem Sys2Proof.Laws.Encodes.handoff (port index : Nat) : Sys2Proof.Laws.Encodes.Statement (.handoff port index) := rfl
theorem Sys2Proof.Laws.Encodes.collectiveEnd (port index : Nat) : Sys2Proof.Laws.Encodes.Statement (.collectiveEnd port index) := rfl
theorem Sys2Proof.Laws.Encodes.nonInstructionFetch (why : Sys2Proof.FetchFault) : Sys2Proof.Laws.Encodes.Statement (.nonInstructionFetch why) := rfl
end

