-- ==== Sys2Proof/Tests/Slice0.lean ====
section
/-! SUPPORT. Tests: what the checks of well-formedness refuse, words of the spec's encodings, examples of the spec, and for each statement
with hypotheses states and operands that meet them. Expected values are the spec's or worked out by hand from it. -/

namespace Sys2Proof.Tests
set_option Elab.async false
open Sys2Proof Sys2Proof.Machine

/-! ### Small states -/

/-- A context of one active lane, with 1.0 in v4 and v5. -/
def one : Ctx := { pc := 0x1000, am := 1, live := 1, v := [(512, 0x3F800000), (640, 0x3F800000)] }
/-- The reset machine with one supervisor group of this context about to issue, alone in its team, a range that maps HBM to itself in its
core's table. -/
def st (c : Ctx) (l : Launch := placedLaunch) : State :=
  { State.reset with
    cur := some 0, groups := [(0, { ctx := c })], teams := [(0, { groups := [0], members := 1 })],
    tasks := [(0, { state := .running, launch := l, effective := 3, placed := 1 })], cores := [(0, { rtable := [placedRange] })] }

theorem issues_st (c : Ctx) (l : Launch) (o : Op) (h : l.super = true) : Issues (st c l) 0 { ctx := c } o :=
  ⟨rfl, rfl, rfl, fun _ => h⟩

/-! ### States and operands that meet the hypotheses of the lane-wise statements -/

/-- The hypotheses of CompletesLanewise, in the order it has them, with a well-formed instruction and a lane that executes. -/
def LaneMeets (o : Op) (srcs : Iss → List Src) (d : Iss → Dst) (fn : Iss → State → Iss → Nat → List (List W32) → LaneRes)
    (form : Iss → Prop := fun _ => True) : Prop :=
  ∃ (s : State) (gid : Nat) (g : Group) (f : Fields), wfFields o f = true ∧ Issues s gid g o ∧
    let i := s.issOf gid g.settled o f
    form i ∧ i.compute (d i) ≠ [] ∧ ∃ pop s1, LaneReady s i (srcs i) (d i) pop s1 ∧
      ∀ l ∈ i.compute (d i), (laneRes (fn i) s i pop (srcs i) l).flt = none ∧ (laneRes (fn i) s i pop (srcs i) l).made = 0 ∧
        (laneRes (fn i) s i pop (srcs i) l).skip = false

/-- The same, computed, for the state st c without a queue source. -/
def laneCheck (c : Ctx) (f : Fields) (o : Op) (srcs : Iss → List Src) (d : Iss → Dst)
    (fn : Iss → State → Iss → Nat → List (List W32) → LaneRes) : Bool :=
  let s := st c
  let i := s.issOf 0 (Group.settled { ctx := c }) o f
  wfFields o f && !(i.compute (d i)).isEmpty && (operandFaults i (srcs i) (d i)).isEmpty && (queueSource (srcs i)).isNone &&
    (poisonFaults i (i.compute (d i)) (srcs i)).isEmpty &&
    (s.setGroup 0 (i.g.free (freedNames i (srcs i)))).admits 0 (i.g.free (freedNames i (srcs i)))
      (((i.g.free (freedNames i (srcs i))).needs (dstNames i (d i))).length * (i.width / 32)) &&
    (i.compute (d i)).all fun l => let r := laneRes (fn i) s i 0 (srcs i) l; r.flt.isNone && r.made == 0 && !r.skip

theorem laneMeets (c : Ctx) (f : Fields) (o : Op) (srcs : Iss → List Src) (d : Iss → Dst)
    (fn : Iss → State → Iss → Nat → List (List W32) → LaneRes) (form : Iss → Prop)
    (h : laneCheck c f o srcs d fn = true) (hf : form ((st c).issOf 0 (Group.settled { ctx := c }) o f)) : LaneMeets o srcs d fn form := by
  simp only [laneCheck, Bool.and_eq_true, Bool.not_eq_true', List.isEmpty_iff, Option.isNone_iff_eq_none, List.all_eq_true] at h
  obtain ⟨⟨⟨⟨⟨⟨hw, h0⟩, h1⟩, h2⟩, h3⟩, h4⟩, h5⟩ := h
  have hq : ∀ b : Bool, (if b then none else queueSource (srcs ((st c).issOf 0 (Group.settled { ctx := c }) o f))) = none := by
    intro b; rw [h2]; cases b <;> rfl
  refine ⟨st c, 0, { ctx := c }, f, hw, issues_st _ _ _ rfl, hf, ?_, 0, st c, ⟨h1, ?_, h3, ?_, fun _ => h4⟩, ?_⟩
  · intro he; rw [he] at h0; cases h0
  · rw [hq]; rfl
  · unfold State.popFor; rw [hq]
  · intro l hl
    obtain ⟨⟨a, b⟩, e⟩ := h5 l hl
    exact ⟨a, by simpa using b, e⟩

/-! ### States and operands that meet the hypotheses of the other statements -/

/-- The hypotheses of Happens, in the order it has them. -/
def Can (_ : Instr) (form : State → Prop) : Prop := ∃ s : State, s.chofer.stopped = false ∧ form s
/-- The hypotheses of Occurs. -/
def CanOccur (_ : Instr) (form : State → Prop) : Prop := ∃ s : State, form s
theorem can (s : State) {e : Instr} {form : State → Prop} (h : s.chofer.stopped = false) (hf : form s) : Can e form := ⟨s, h, hf⟩
theorem canOccur (s : State) {e : Instr} {form : State → Prop} (hf : form s) : CanOccur e form := ⟨s, hf⟩

/-- The hypotheses of Completes, in the order it has them, with a well-formed instruction. -/
def Meets (o : Op) (form : State → Iss → Prop) : Prop :=
  ∃ (s : State) (gid : Nat) (g : Group) (f : Fields), wfFields o f = true ∧ Issues s gid g o ∧ form s (s.issOf gid g.settled o f)

theorem meets (s : State) (c : Ctx) (f : Fields) {o : Op} {form : State → Iss → Prop} (hw : wfFields o f = true)
    (h : s.cur = some 0 ∧ s.group? 0 = some { ctx := c } ∧ (s.launchOf { ctx := c }).super = true)
    (hf : form s (s.issOf 0 (Group.settled { ctx := c }) o f)) : Meets o form :=
  ⟨s, 0, { ctx := c }, f, hw, ⟨h.1, h.2.1, rfl, fun _ => h.2.2⟩, hf⟩

/-- The context one with these uniform registers. -/
def oneG (g : Table W64) : Ctx := { one with g := g }
/-- The context one with these vector registers in lane 0. -/
def oneV (v : Table W32) : Ctx := { one with v := v.map fun e => (128 * e.1, e.2) }
/-- st with the unit of the group's quarter in this state and a scratchpad of 128 KiB. -/
def stU (c : Ctx) (u : UnitSt) : State := { st c { placedLaunch with scratch := 1 } with units := [(0, u)] }

/-- A state whose memory holds these dwords. -/
def withMem (s : State) (ms : List (Nat × Nat)) : State :=
  { s with hbm := ms.foldl (fun h m => tsets 0 h ((List.range 8).map fun j => (m.1 + j, BitVec.ofNat 8 (m.2 >>> (8 * j))))) [] }
/-- st with a die that has address space 0: its table at 0x8000, its directory of n records at 0x9000. -/
def stD (c : Ctx) (n : Nat) (ms : List (Nat × Nat)) : State :=
  withMem { st c with diesT := [(0, { config := List.replicate 7 0 ++ [0x8000] })] } ([(0x8000, 2 ^ 63 + 0x9000), (0x8008, n)] ++ ms)
/-- A record of 64 KiB at 0x100000 and one after it, mapped to themselves. -/
def rec0 : List (Nat × Nat) := [(0x9000, 2 ^ 63 + 0x10000F), (0x9008, 0x4400), (0x9010, 0x4000)]
def rec1 : List (Nat × Nat) := [(0x9020, 2 ^ 63 + 0x11000F), (0x9028, 0x4800), (0x9030, 0x4400)]
/-- An instruction of group 0 at issue. -/
def iss (s : State) (c : Ctx) (o : Op) (f : Fields) : Iss := s.issOf 0 (Group.settled { ctx := c }) o f

/-- A load in flight whose data is due at a clock. -/
def aLoad (due : Nat) : Outst :=
  { fixed := none, seq := 0, time := 0, load := true, regs := [], gs := [], preds := [], flags := 0, due := due }
/-- A group parked by a restartable fault of a one-word instruction. -/
def parked : Group := { stat := .parkedFault, fault := some ⟨[], [], true, some 4, false⟩ }
theorem noQuarter {a b : Option Nat} {p : Nat → Prop} (ha : a = none) (hb : b = none) : ∀ q, a = some q ∨ b = some q → p q := by
  subst ha hb; rintro q (h | h) <;> cases h

theorem noFaults {x : Except Nat (List Flt)} (h : (match x with | .ok [] => true | _ => false) = true) : x = .ok [] := by
  split at h
  · rfl
  · cases h

/-- The located accesses of an image, and what reading it gives. -/
def imageAt (s : State) (i : Iss) (n va : Nat) : List Located := foundAt ((imageAccesses va n).map (s.locate i .read))
def imageRead (s : State) (i : Iss) (n va : Nat) : State × List (Located × Nat × Nat) :=
  (s.useRanges (coreOf i.gid) (imageAt s i n va)).readAll (i.who s) (imageAt s i n va)
def imageWords (s : State) (i : Iss) (n va : Nat) : List W64 := (imageRead s i n va).2.map fun x => BitVec.ofNat 64 x.2.1
theorem imageReady {s : State} {i : Iss} {n va : Nat}
    (h : ((imageAccesses va n).all fun x => match s.locate i .read x with | .at_ _ => true | _ => false) = true ∧
      ((s.useRanges (coreOf i.gid) (imageAt s i n va)).askAll (i.who s) .read ((imageAt s i n va).map fun l => (l, .read))).isNone = true ∧
      ((imageRead s i n va).2.all fun x => x.2.2 == 0) = true) :
    ImageReady s i n va (imageWords s i n va) (imageRead s i n va).1 := by
  refine ⟨?_, Option.isNone_iff_eq_none.mp h.2.1, rfl, ?_, rfl⟩
  · intro x hx
    have := List.all_eq_true.mp h.1 x hx
    revert this
    cases s.locate i .read x with
    | at_ l => exact fun _ => ⟨l, rfl⟩
    | flt f => exact fun h => by cases h
    | walk v => exact fun h => by cases h
  · intro x hx
    exact beq_iff_eq.mp (List.all_eq_true.mp h.2.2 x hx)

/-- The state that a release, an acquire or the wait of a change gives, and that these give it. -/
def takenBy : Except (State × Wait) State → State
  | .ok s => s
  | .error _ => State.reset
theorem taken {x : Except (State × Wait) State} (h : (match x with | .ok _ => true | _ => false) = true) : x = .ok (takenBy x) := by
  cases x with
  | ok s => rfl
  | error e => cases h
/-- The state in which a release of an instruction has taken effect, and the state in which its accesses have used their ranges. -/
def relOf (s : State) (i : Iss) (scope : Nat) : State := takenBy (s.releaseOr i.gid i.g scope)
def acqOf (s : State) (i : Iss) (scope : Nat) : State := takenBy (s.acquireOr i.gid i.g scope)
def usedBy (s : State) (i : Iss) (a : Acc) (xs : List Access) : State := s.useRanges (coreOf i.gid) (foundAt (xs.map (s.locate i a)))
/-- The directory entry and the records that a RANGE instruction acts on, and the state in which the accesses to its extent are performed. -/
def spaceFor (s : State) (i : Iss) (asid : Nat) : Space := s.space (i.who s) (dieOf i.gid) asid
def recordsFor (s : State) (i : Iss) (asid : Nat) : List RangeRec :=
  if (spaceFor s i asid).valid then s.records (i.who s) (spaceFor s i asid) else []
def settledFor (s : State) (i : Iss) (asid : Nat) : Change → State
  | .became _ _ (some x) _ => takenBy (s.settle i (i.mb 8 6) asid x.1 x.2)
  | _ => s
/-- The state in which the release of a RANGE instruction has taken effect and its directory has been read. -/
def readOf (s : State) (i : Iss) (asid : Nat) : State :=
  (relOf s i (i.mb 8 6)).touchDir (i.who (relOf s i (i.mb 8 6))) (dieOf i.gid) asid
theorem changeReady {s : State} {i : Iss} {asid : Nat}
    (h : (match s.releaseOr i.gid i.g (i.mb 8 6) with | .ok _ => true | _ => false) = true ∧
      ((relOf s i (i.mb 8 6)).askDir (i.who (relOf s i (i.mb 8 6))) (dieOf i.gid) asid).isNone = true ∧
      (decide ((spaceFor (relOf s i (i.mb 8 6)) i asid).valid = true ∧ (spaceFor (relOf s i (i.mb 8 6)) i asid).gen % 2 = 1)) = false ∧
      (readOf s i asid).farDir (spaceFor (relOf s i (i.mb 8 6)) i asid) = false) :
    ChangeReady s i asid (readOf s i asid) (spaceFor (relOf s i (i.mb 8 6)) i asid) (recordsFor (relOf s i (i.mb 8 6)) i asid) :=
  ⟨relOf s i (i.mb 8 6), ⟨taken h.1, Option.isNone_iff_eq_none.mp h.2.1, rfl, rfl, rfl⟩, of_decide_eq_false h.2.2.1, h.2.2.2⟩
theorem settledAfter {s : State} {i : Iss} {asid : Nat} {c : Change}
    (h : (match c with | .became _ _ (some x) _ => (match s.settle i (i.mb 8 6) asid x.1 x.2 with | .ok _ => true | _ => false) | _ => true) = true) :
    ∀ new force extent move, c = .became new force extent move → Settled s i asid extent (settledFor s i asid c) := by
  intro new force extent move e
  subst e
  cases extent with
  | none => rfl
  | some x => exact taken h
theorem sndEq {α β : Type} {x : α × β} {b : β} (h : x.2 = b) : x = (x.1, b) := by rw [← h]
def fetchedState : Fetched → State
  | .ok s _ => s
  | _ => State.reset
def fetchedWords : Fetched → List Nat
  | .ok _ b => b
  | _ => []
theorem fetchedOk {x : Fetched} (h : (match x with | .ok _ _ => true | _ => false) = true) : x = .ok (fetchedState x) (fetchedWords x) := by
  cases x with
  | ok s b => rfl
  | later s => cases h
  | bad n => cases h
def storedState : Except (Option State) State → State
  | .ok s => s
  | .error _ => State.reset
theorem storedOk {x : Except (Option State) State} (h : (match x with | .ok _ => true | _ => false) = true) : x = .ok (storedState x) := by
  cases x with
  | ok s => rfl
  | error e => cases h
theorem storedNow {x : Except (Option State) State} (h : (match x with | .ok _ => true | _ => false) = true) : ∀ y, x ≠ .error (some y) := by
  intro y e; rw [e] at h; cases h

/-- Fields without an extension word. -/
def w1 (d a b : BitVec 7) : Fields := ⟨false, 0, d, a, b, false, 0, false, false, false, 0, 0⟩
/-- Fields with an extension word. -/
def w2 (d a b c : BitVec 7) (mod : BitVec 14) : Fields := ⟨false, 0, d, a, b, true, 0, false, false, false, c, mod⟩
theorem walkDone {x : State × Walked} {r : WalkResult} (h : (match x.2 with | .done y => decide (y = r) | _ => false) = true) :
    x = (x.1, .done r) := by
  obtain ⟨s, y⟩ := x
  cases y with
  | done y => rw [of_decide_eq_true h]
  | odd => cases h
  | asked n => cases h
theorem walkOdd {x : State × Walked} (h : (match x.2 with | .odd => true | _ => false) = true) : x = (x.1, .odd) := by
  obtain ⟨s, y⟩ := x
  cases y with
  | odd => rfl
  | done y => cases h
  | asked n => cases h
theorem reachedOk {x : Reached} {ls : List Located} (h : (match x with | .ok l => decide (l = ls) | _ => false) = true) : x = .ok ls := by
  cases x with
  | ok l => rw [of_decide_eq_true h]
  | later s => cases h
  | fail a b c => cases h
theorem someAt {x : Found} (h : (match x with | .at_ _ => true | _ => false) = true) : ∃ l, x = .at_ l := by
  cases x with
  | at_ l => exact ⟨l, rfl⟩
  | flt f => cases h
  | walk v => cases h
theorem noPartials {s : State} {x : DieSt} (h : s.diesT = [(0, x)]) (hx : x.partials = []) (k : Nat) : (s.die k).partials = [] := by
  unfold State.die
  rw [h]
  by_cases e : 0 = k <;> simp [tfind, e, hx]

/-- st with a range that maps its addresses to host memory. -/
def hostRange : RangeEntry := { image := ⟨0x800000000000000F, 0x400000000, 0x20000000000, 0⟩, index := 0 }
def stHost (c : Ctx) : State := { st c with cores := [(0, { rtable := [hostRange] })], host := { opened := true } }
/-- The accesses of an instruction, located. -/
def locatedBy (s : State) (i : Iss) (a : Acc) (xs : List Access) : List Located := foundAt (xs.map (s.locate i a))
theorem someEq {x : Option State} (h : x.isSome = true) : x = some (x.getD State.reset) := by
  cases x with
  | some s => rfl
  | none => cases h
/-- A double-buffered .f32 weight of one element at 0x20000, and a single-buffered one; a team with these descriptors that holds its unit; a paired
team with them; a team with 5 in the first word of its scratchpad. -/
def drainW : List W64 := [0xA00000000010000, 0x20000, 0, 0, 0, 0, 0, 2]
def singleW : List W64 := [0xA00000000010000, 0x20000, 0, 0, 0, 0, 0, 0]
def atDrain (c : Ctx) (ts : Table (List W64)) : State :=
  { st c { placedLaunch with scratch := 1 } with teams := [(0, { groups := [0], members := 1, tensors := ts })], units := [(0, { holder := some 0 })] }
def paired (c : Ctx) (ts : Table (List W64)) : State :=
  { st c { placedLaunch with scratch := 1 } with teams := [(0, { groups := [0], members := 1, paired := true, tensors := ts })] }
def atScratch (c : Ctx) : State :=
  { st c { placedLaunch with scratch := 1 } with teams := [(0, { groups := [0], members := 1, scratch := [(0, 5), (1, 0), (2, 0), (3, 0)] })] }
/-- Every word that an MDRAIN writes and reads translates. -/
theorem drained {s : State} {gid : Nat} {g : Group} {d : Drain} {w m : List W64}
    (h : ((d.elements w).all fun e => ((d.writes w m e.2).all fun x => match s.xlat gid g .write x.2 x.1 with | .ok _ _ => true | _ => false) &&
      (d.reads w m e.2).all fun x => match s.xlat gid g .read x.2 x.1 with | .ok _ _ => true | _ => false) = true) :
    ∀ e ∈ d.elements w, (∀ x ∈ d.writes w m e.2, ∃ p e, s.xlat gid g .write x.2 x.1 = .ok p e) ∧
      ∀ x ∈ d.reads w m e.2, ∃ p e, s.xlat gid g .read x.2 x.1 = .ok p e := by
  have one : ∀ {x : Xlat}, (match x with | .ok _ _ => true | _ => false) = true → ∃ p e, x = .ok p e := by
    intro x hx
    cases x with
    | ok p e => exact ⟨p, e, rfl⟩
    | fault a b c => cases hx
    | walk => cases hx
  intro e he
  have := List.all_eq_true.mp h e he
  rw [Bool.and_eq_true] at this
  exact ⟨fun x hx => one (List.all_eq_true.mp this.1 x hx), fun x hx => one (List.all_eq_true.mp this.2 x hx)⟩
/-- What DirRead asks, computed. -/
theorem dirRead {s : State} {i : Iss} {asid : Nat}
    (h : (match s.releaseOr i.gid i.g (i.mb 8 6) with | .ok _ => true | _ => false) = true ∧
      ((relOf s i (i.mb 8 6)).askDir (i.who (relOf s i (i.mb 8 6))) (dieOf i.gid) asid).isNone = true) :
    DirRead s i asid (relOf s i (i.mb 8 6)) (readOf s i asid) (spaceFor (relOf s i (i.mb 8 6)) i asid) (recordsFor (relOf s i (i.mb 8 6)) i asid) :=
  ⟨taken h.1, Option.isNone_iff_eq_none.mp h.2, rfl, rfl, rfl⟩
/-- The same as meets for a group that is more than its context. -/
theorem meetsGroup (g : Group) (f : Fields) {o : Op} {form : State → Iss → Prop} (hw : wfFields o f = true)
    (h : g.ra = none) (hs : (State.launchOf { st one with groups := [(0, g)] } g).super = true)
    (hf : form { st one with groups := [(0, g)] } (State.issOf { st one with groups := [(0, g)] } 0 g.settled o f)) : Meets o form :=
  ⟨{ st one with groups := [(0, g)] }, 0, g, f, hw, ⟨rfl, rfl, h, fun _ => hs⟩, hf⟩
/-- What a waiting effect leaves. -/
def waitOf : Res → State × Group × Wait
  | .wait s g w => (s, g, w)
  | _ => (State.reset, {}, .reply)
theorem waits {r : Res} (h : (match r with | .wait _ _ _ => true | _ => false) = true) : r = .wait (waitOf r).1 (waitOf r).2.1 (waitOf r).2.2 := by
  cases r <;> first | rfl | cases h
theorem neverWaits {r : Res} (h : (match r with | .wait _ _ _ => true | _ => false) = false) : ∀ s g w, r ≠ .wait s g w := by
  rintro s g w rfl
  cases h

/-! ### What the checks of well-formedness refuse: one ill-formed term for each -/

theorem illFormed_canonical : wfFields .add ⟨false, 0, 4, 5, 6, false, 0, false, false, false, 7, 0⟩ = false := by rfl
theorem illFormed_selects : wfFields .rem (w1 4 5 6) = false := by rfl
theorem illFormed_needs_extension : illegalCode .ffma (w1 4 5 6) = some 5 ∧ wfFields .ffma (w1 4 5 6) = false := ⟨rfl, rfl⟩
theorem illFormed_value : illegalCode .add (w2 4 5 6 0 0x1400) = some 3 ∧ wfFields .add (w2 4 5 6 0 0x1400) = false := ⟨rfl, rfl⟩
theorem illFormed_reserved_first : illegalCode .nop (w1 1 0 0) = some 4 ∧ wfFields .nop (w1 1 0 0) = false := ⟨rfl, rfl⟩
theorem illFormed_reserved_ext : illegalCode .add (w2 4 5 6 1 0x800) = some 4 ∧ wfFields .add (w2 4 5 6 1 0x800) = false := ⟨rfl, rfl⟩
theorem illFormed_last_read :
    illegalCode .add ⟨false, 0, 4, 0x70, 6, true, 0, true, false, false, 0, 0x800⟩ = some 6 ∧
      wfFields .add ⟨false, 0, 4, 0x70, 6, true, 0, true, false, false, 0, 0x800⟩ = false := ⟨rfl, rfl⟩
theorem illFormed_selector : illegalCode .srd (w2 4 0 4 0 0x3F) = some 7 ∧ wfFields .srd (w2 4 0 4 0 0x3F) = false := ⟨rfl, rfl⟩

/-! ### Words of the spec's examples (the tables of encodings of its chapters), by family -/

theorem test_decode_add : decode 0x05014307 0 = .ok (.add ⟨true, 0, 5, 6, 7, false, 0, false, false, false, 0, 0⟩) := by rfl
theorem test_decode_cmp : decode 0x3804C103 0 = .ok (.cmp ⟨false, 0, 0x13, 2, 3, false, 0, false, false, false, 0, 0⟩) := by rfl
theorem test_decode_ffma :
    decode 0x5A42048A 0xFE82D440 = .ok (.ffma ⟨false, 2, 8, 9, 10, true, 2, true, false, false, 11, 0x1440⟩) := by rfl
theorem test_decode_movi :
    decode 0x4200CCCD 0xFC00F733 = .ok (.moviWide ⟨false, 0, 3, 0x19, 0x4D, true, 0, false, false, false, 3, 0x3733⟩) := by rfl
theorem test_decode_ld : decode 0xAF050206 0xFC008208 = .ok (.ld ⟨true, 0, 20, 4, 6, true, 0, false, false, false, 2, 0x208⟩) := by rfl
theorem test_decode_mor : decode 0xDA000002 0xFC001A20 = .ok (.mor ⟨false, 0, 0, 0, 2, true, 0, false, false, false, 0, 0x1A20⟩) := by rfl
theorem test_decode_bra_guarded :
    decode 0xC6600004 0xFE000000 = .ok (.bra ⟨false, 3, 0, 0, 4, true, 2, false, false, false, 0, 0⟩) := by rfl
theorem test_decode_bra_back :
    decode 0xC41FFFFB 0 = .ok (.bra ⟨false, 0, 0x7F, 0x7F, 0x7B, false, 0, false, false, false, 0, 0⟩) := by rfl
theorem test_decode_shfl : decode 0xDE030600 0xFC007E80 = .ok (.shfl ⟨false, 0, 12, 12, 0, true, 0, false, false, false, 1, 0x3E80⟩) := by rfl
theorem test_decode_fmae :
    decode 0x7203050A 0xFC00D400 = .ok (.fmae ⟨false, 0, 12, 10, 10, true, 0, false, false, false, 3, 0x1400⟩) := by rfl
theorem test_decode_xjoin :
    decode 0x82050606 0xFC003001 = .ok (.xjoin ⟨false, 0, 20, 12, 6, true, 0, false, false, false, 0, 0x3001⟩) := by rfl
theorem test_decode_isqr : decode 0xA5018207 0 = .ok (.isqr ⟨true, 0, 6, 3 + 1, 7, false, 0, false, false, false, 0, 0⟩) := by rfl
theorem test_decode_ibis :
    decode 0xAB410272 0xFE003403 = .ok (.ibis ⟨true, 2, 4, 4, 0x72, true, 2, false, false, false, 0, 0x3403⟩) := by rfl
theorem test_decode_atom : decode 0xB6020206 0xFC0001B0 = .ok (.atom ⟨false, 0, 8, 4, 6, true, 0, false, false, false, 0, 0x1B0⟩) := by rfl
theorem test_decode_waita :
    decode 0xC31DBA75 0xFC000760 = .ok (.waita ⟨true, 0, 0x76, 0x74, 0x75, true, 0, false, false, false, 0, 0x760⟩) := by rfl
theorem test_decode_bar : decode 0xD4000000 0 = .ok (.bar ⟨false, 0, 0, 0, 0, false, 0, false, false, false, 0, 0⟩) := by rfl
theorem test_decode_barPass :
    decode 0xD6000000 0xFC001800 = .ok (.barPass ⟨false, 0, 0, 0, 0, true, 0, false, false, false, 0, 0x1800⟩) := by rfl
theorem test_decode_mwait : decode 0xE4000002 0 = .ok (.mwait ⟨false, 0, 0, 0, 2, false, 0, false, false, false, 0, 0⟩) := by rfl
theorem test_decode_mma :
    decode 0xE2013873 0xFC015700 = .ok (.mma ⟨false, 0, 4, 0x70, 0x73, true, 0, false, false, false, 5, 0x1700⟩) := by rfl
theorem test_decode_rinv :
    decode 0xF71C3883 0xFC0020C0 = .ok (.rinv ⟨true, 0, 0x70, 0x71, 3, true, 0, false, false, false, 0, 0x20C0⟩) := by rfl
theorem test_decode_enter :
    decode 0xFA000000 0xFC001234 = .ok (.enter ⟨false, 0, 0, 0, 0, true, 0, false, false, false, 0, 0x1234⟩) := by rfl
theorem test_decode_watch :
    decode 0xFA1D3A82 0xFC000002 = .ok (.watch ⟨false, 0, 0x74, 0x75, 2, true, 0, false, false, false, 0, 2⟩) := by rfl
theorem test_decode_copy : decode 0xEF003A00 0xFC0000C0 = .ok (.copy ⟨true, 0, 0, 0x74, 0, true, 0, false, false, false, 0, 0xC0⟩) := by rfl
theorem test_decode_tdec : decode 0xF0003A00 0 = .ok (.tdec ⟨false, 0, 0, 0x74, 0, false, 0, false, false, false, 0, 0⟩) := by rfl
theorem test_decode_launch :
    decode 0xF21D7B01 0xFC000002 = .ok (.launch ⟨false, 0, 0x75, 0x76, 1, true, 0, false, false, false, 0, 2⟩) := by rfl
theorem test_decode_call : decode 0xC9000001 0 = .ok (.call ⟨true, 0, 0, 0, 1, false, 0, false, false, false, 0, 0⟩) := by rfl
/- Written out from the encodings: op, X, S, G, d, a, b; then marker, gm, la, lb, lc, c, mod. -/
theorem test_decode_popc : decode 0b001101_0_0_000_0000100_0000101_0000000 0 =
    .ok (.popc ⟨false, 0, 4, 5, 0, false, 0, false, false, false, 0, 0⟩) := by rfl
theorem test_decode_rcp : decode 0b011001_0_0_111_0000100_0000101_0000000 0 =
    .ok (.rcp ⟨false, 7, 4, 5, 0, false, 0, false, false, false, 0, 0⟩) := by rfl
theorem test_decode_ret : decode 0b110011_0_0_000_0000000_0000000_0000010 0 =
    .ok (.ret ⟨false, 0, 0, 0, 2, false, 0, false, false, false, 0, 0⟩) := by rfl
theorem test_decode_fence : decode 0b101111_1_0_000_0000000_0000000_0000000 0b111111_00_0_0_0_0000000_00000_100_11_0000 =
    .ok (.fence ⟨false, 0, 0, 0, 0, true, 0, false, false, false, 0, 0x130⟩) := by rfl

/-! ### One step each, on the values of the spec's examples -/

/-- The context of group 0 after one instruction. -/
def after (s : State) (o : Op) (f : Fields) : Ctx :=
  match exec (.of o f) s with
  | .next t => match t.group? 0 with
    | some g => g.written.ctx
    | none => {}
  | _ => {}
/-- Lane 0 of the vector registers given, after one instruction. -/
def lane0 (c : Ctx) (o : Op) (f : Fields) (rs : List Nat) : List W32 := rs.map fun r => (after (st c) o f).vGet r 0

/-- 02 R59, Example 2.3. -/
theorem test_kcg_example :
    lane0 (oneV [(4, 1), (5, 2), (6, 4), (7, 3)]) .kcg (w2 8 4 5 6 0) [8] = [0x3BE0FB97] := by decide +kernel
/-- 04 R95: the remainder has the sign of the dividend. -/
theorem test_rem_sign : lane0 (oneV [(4, 0xFFFFFFF9), (5, 2)]) .rem (w2 8 4 5 0 0x801) [8] = [0xFFFFFFFF] := by decide +kernel
theorem test_div_truncates : lane0 (oneV [(4, 0xFFFFFFF9), (5, 2)]) .div (w1 8 4 5) [8] = [0xFFFFFFFD] := by decide +kernel
/-- 04 R103: PACK.n8.s32.sat of 300 and −5. -/
theorem test_pack_example : lane0 (oneV [(4, 300), (5, 0xFFFFFFFB)]) .pack (w2 8 4 4 5 0xC41) [8] = [0xFF] := by decide +kernel
/-- 02 Example 2.1: 300.0 to E4M3. -/
theorem test_cvt_example : lane0 (oneV [(4, 0x43960000)]) .f2f (w2 8 4 0 0 0x1AA0) [8] = [0x79] := by decide +kernel
/-- 06 Example 6.1: [1, 1] + [2⁻²⁴, 2⁻²⁴] rounded outward. -/
theorem test_iadd_example :
    lane0 (oneV [(2, 0x3F800000), (3, 0x3F800000), (4, 0x33800000), (5, 0x33800000)]) .iadd (w1 6 2 4) [6, 7] =
      [0x3F800000, 0x3F800001] := by decide +kernel
/-- 05 Example 5.1: the exact square of 1 + 2⁻¹² plus 1.5 × 2⁻²⁴. -/
theorem test_fmae_example :
    lane0 (oneV [(3, 0x33C00000), (10, 0x3F800800)]) .fmae (w2 12 10 10 3 0x1400) [12, 13, 14] =
      [0x3F801001, 0x33000000, 0] := by decide +kernel
/-- 05 Example 5.3: XSPLIT of 1 + 511 × 2⁻²³ for BF16 (12 Table 12.4 gives 0x3F804040). -/
theorem test_xsplit_example : lane0 (oneV [(4, 0x3F804040)]) .xsplit (w1 12 4 5) [12, 13] = [0x3B003F80, 0x3700] := by decide +kernel
/-- 04 R105: a branch that only some lanes take splits the group; their side runs first. Lane 0 of p3 is undecided. -/
theorem test_bra_splits :
    let c := after (st { one with am := 3, live := 3, preds := [(384, 2)] }) .bra ⟨false, 3, 0, 0, 4, true, 2, false, false, false, 0, 0⟩
    (c.pc, c.am, c.maskGet 7) = (0x1010, 1, 2) := by decide +kernel
theorem test_bra_empty_guard_falls_through :
    let c := after (st { one with preds := [(384, 1)] }) .bra ⟨false, 3, 0, 0, 4, true, 2, false, false, false, 0, 0⟩
    (c.pc, c.am, c.maskGet 7) = (0x1008, 1, 0) := by decide +kernel
/-- 04 R97: the count is not reduced modulo the width. -/
theorem test_shl_count : lane0 (oneV [(4, 1), (5, 33)]) .shl (w1 8 4 5) [8] = [0] := by decide +kernel
/-- 04 R94: the carry out of the low word of a 64-bit sum is not lost. -/
theorem test_add64 :
    lane0 (oneV [(4, 0xFFFFFFFF), (5, 0), (6, 1), (7, 0)]) .add (w2 8 4 6 0 0xA00) [8, 9] = [0, 1] := by decide +kernel
/-- 03 R70: the single-word immediate is sign-extended. -/
theorem test_movi_negative : lane0 one .movi (w1 8 0x7F 0x7F) [8] = [0xFFFFFFFF] := by decide +kernel
/-- 05 R131: addition rounds to nearest even: 1 + 2⁻²⁴ is a tie. -/
theorem test_fadd_tie : lane0 (oneV [(4, 0x3F800000), (5, 0x33800000)]) .fadd (w1 8 4 5) [8] = [0x3F800000] := by decide +kernel
/-- 05 Example 5.2 is the sum of (1, 2⁻³⁰) and (1.5 × 2⁻²⁴, 0). -/
theorem test_xadd_example :
    lane0 (oneV [(4, 0x3F800000), (5, 0x30800000), (12, 0x33C00000), (13, 0)]) .xadd (w1 20 4 12) [20, 21] = [0x3F800001, 0xB2F80000] := by decide +kernel
/-- 06 Example 6.3, lane 2: [1, 2] is cut at 1.5; its lower half stays. -/
theorem test_isqr_example : lane0 (oneV [(4, 0x3F800000), (5, 0x40000000)]) .isqr (w1 6 4 7) [6, 7] = [0x3F800000, 0x40800000] := by
  decide +kernel

/-! ### Witnesses of the lane-wise statements -/

theorem meets_integer_add1 :
    LaneMeets .add (fun i => [intSrc i.f.a i.ty, intSrc i.f.b (if i.mbit 0 then .s32 else i.ty)]) (fun i => intDst i.f.d i.ty) (fun i _ _ _ ops =>
      { words := (intWords i.ty (i.mbit 5) (opInt i.ty ops 0 + opInt (if i.mbit 0 then .s32 else i.ty) ops 1 * 2 ^ (i.mb 3 1))) }) :=
  laneMeets one (w1 8 0 4) _ _ _ _ _ (by decide +kernel) trivial

theorem meets_integer_sub2 :
    LaneMeets .sub (fun i => [intSrc i.f.a i.ty, intSrc i.f.b i.ty]) (fun i => intDst i.f.d i.ty) (fun i _ _ _ ops => { words := intWords i.ty (i.mbit 5) (opInt i.ty ops 0 - opInt i.ty ops 1) }) :=
  laneMeets one (w1 8 0 4) _ _ _ _ _ (by decide +kernel) trivial

theorem meets_integer_mul3 :
    LaneMeets .mul (fun i => [intSrc i.f.a i.ty, intSrc i.f.b i.ty]) (fun i => intDst i.f.d i.ty) (fun i _ _ _ ops => { words := intWords i.ty (i.mbit 5) (opInt i.ty ops 0 * opInt i.ty ops 1) }) :=
  laneMeets one (w1 8 0 4) _ _ _ _ _ (by decide +kernel) trivial

theorem meets_integer_mulh4 :
    LaneMeets .mulh (fun i => [intSrc i.f.a i.ty, intSrc i.f.b i.ty]) (fun i => intDst i.f.d i.ty) (fun i _ _ _ ops => { words := intWords i.ty (i.mbit 5) (opInt i.ty ops 0 * opInt i.ty ops 1 / 2 ^ i.ty.ibits) }) :=
  laneMeets one (w1 8 0 4) _ _ _ _ _ (by decide +kernel) trivial

theorem meets_integer_mad5 :
    LaneMeets .mad (fun i => [intSrc i.f.a i.ty, intSrc i.f.b i.ty, intSrc i.f.c i.ty]) (fun i => intDst i.f.d i.ty) (fun i _ _ _ ops => { words := intWords i.ty (i.mbit 5) (opInt i.ty ops 0 * opInt i.ty ops 1 + opInt i.ty ops 2) }) :=
  laneMeets one (w2 8 0 4 12 0x800) _ _ _ _ _ (by decide +kernel) trivial

theorem meets_division_div1 :
    LaneMeets .div (fun i => [intSrc i.f.a i.ty, intSrc i.f.b i.ty]) (fun i => intDst i.f.d i.ty) (fun i _ _ _ ops => { words := intWords i.ty (i.mbit 5) (
      if opInt i.ty ops 1 = 0 then (if i.ty.isSigned then -1 else 2 ^ i.ty.ibits - 1)
      else if i.ty.isSigned ∧ opInt i.ty ops 0 = -(2 ^ (i.ty.ibits - 1)) ∧ opInt i.ty ops 1 = -1
        then (if i.mbit 5 then 2 ^ (i.ty.ibits - 1) - 1 else -(2 ^ (i.ty.ibits - 1)))
      else Int.tdiv (opInt i.ty ops 0) (opInt i.ty ops 1)) }) :=
  laneMeets one (w1 8 0 4) _ _ _ _ _ (by decide +kernel) trivial

theorem meets_division_rem2 :
    LaneMeets .rem (fun i => [intSrc i.f.a i.ty, intSrc i.f.b i.ty]) (fun i => intDst i.f.d i.ty) (fun i _ _ _ ops => { words := intWords i.ty (i.mbit 5) (
      if opInt i.ty ops 1 = 0 then opInt i.ty ops 0
      else if i.ty.isSigned ∧ opInt i.ty ops 0 = -(2 ^ (i.ty.ibits - 1)) ∧ opInt i.ty ops 1 = -1 then 0
      else Int.tmod (opInt i.ty ops 0) (opInt i.ty ops 1)) }) :=
  laneMeets one (w2 8 0 4 0 0x801) _ _ _ _ _ (by decide +kernel) trivial

theorem meets_logic_min1 :
    LaneMeets .min (fun i => [intSrc i.f.a i.ty, intSrc i.f.b i.ty]) (fun i => intDst i.f.d i.ty) (fun i _ _ _ ops => { words := intWords i.ty (i.mbit 5) (if opInt i.ty ops 0 ≤ opInt i.ty ops 1 then opInt i.ty ops 0 else opInt i.ty ops 1) }) :=
  laneMeets one (w1 8 0 4) _ _ _ _ _ (by decide +kernel) trivial

theorem meets_logic_max2 :
    LaneMeets .max (fun i => [intSrc i.f.a i.ty, intSrc i.f.b i.ty]) (fun i => intDst i.f.d i.ty) (fun i _ _ _ ops => { words := intWords i.ty (i.mbit 5) (if opInt i.ty ops 0 ≤ opInt i.ty ops 1 then opInt i.ty ops 1 else opInt i.ty ops 0) }) :=
  laneMeets one (w2 8 0 4 0 0x801) _ _ _ _ _ (by decide +kernel) trivial

theorem meets_logic_and3 :
    LaneMeets .and (fun i => [intSrc i.f.a i.ty, intSrc i.f.b i.ty]) (fun i => intDst i.f.d i.ty) (fun i _ _ _ ops => { words := (List.range i.ty.iwords).map fun k => ((opn ops 0).getD k 0) &&& ((opn ops 1).getD k 0) }) :=
  laneMeets one (w1 8 0 4) _ _ _ _ _ (by decide +kernel) trivial

theorem meets_logic_or4 :
    LaneMeets .or (fun i => [intSrc i.f.a i.ty, intSrc i.f.b i.ty]) (fun i => intDst i.f.d i.ty) (fun i _ _ _ ops => { words := (List.range i.ty.iwords).map fun k => ((opn ops 0).getD k 0) ||| ((opn ops 1).getD k 0) }) (fun i => ∀ q, regOf i.f.d ≠ .q q) :=
  laneMeets one (w1 8 0 4) _ _ _ _ _ (by decide +kernel) (by intro q h; cases h)

theorem meets_logic_xor5 :
    LaneMeets .xor (fun i => [intSrc i.f.a i.ty, intSrc i.f.b i.ty]) (fun i => intDst i.f.d i.ty) (fun i _ _ _ ops => { words := (List.range i.ty.iwords).map fun k => ((opn ops 0).getD k 0) ^^^ ((opn ops 1).getD k 0) }) :=
  laneMeets one (w1 8 0 4) _ _ _ _ _ (by decide +kernel) trivial

theorem meets_logic_shl6 :
    LaneMeets .shl (fun i => [intSrc i.f.a i.ty, wordSrc i.f.b]) (fun i => intDst i.f.d i.ty) (fun i _ _ _ ops => { words := intWords i.ty false (
      if i.ty.ibits ≤ ((opn ops 1).getD 0 0).toNat then 0 else opInt i.ty ops 0 * 2 ^ ((opn ops 1).getD 0 0).toNat) }) :=
  laneMeets one (w1 8 0 4) _ _ _ _ _ (by decide +kernel) trivial

theorem meets_logic_shr7 :
    LaneMeets .shr (fun i => [intSrc i.f.a i.ty, wordSrc i.f.b]) (fun i => intDst i.f.d i.ty) (fun i _ _ _ ops => { words := intWords i.ty false (
      if i.ty.ibits ≤ ((opn ops 1).getD 0 0).toNat then (if i.ty.isSigned ∧ opInt i.ty ops 0 < 0 then -1 else 0)
      else opInt i.ty ops 0 / 2 ^ ((opn ops 1).getD 0 0).toNat) }) :=
  laneMeets one (w1 8 0 4) _ _ _ _ _ (by decide +kernel) trivial

theorem meets_logic_sel8 :
    LaneMeets .sel (fun i => [intSrc i.f.a i.ty, intSrc i.f.b i.ty]) (fun i => intDst i.f.d i.ty) (fun i s _ l ops =>
      { words := (if s.readPred i.g (i.mb 8 6) l = 1 ∨ (s.readPred i.g (i.mb 8 6) l = 2 ∧ i.mbit 5) then opn ops 0 else opn ops 1) }) :=
  laneMeets one (w2 8 0 4 0 0) _ _ _ _ _ (by decide +kernel) trivial

theorem meets_logic_movi9 :
    LaneMeets .movi (fun _ => []) (fun i => .reg i.f.d 1 1 true true) (fun i _ _ _ _ => { words := [i.f.imm14.signExtend 32] }) (fun i => i.f.x = false) :=
  laneMeets one (w1 8 0 5) _ _ _ _ _ (by decide +kernel) rfl

theorem meets_logic_moviWide10 :
    LaneMeets .moviWide (fun _ => []) (fun i => .reg i.f.d 1 1 true true) (fun i _ _ _ _ => { words := [(i.f.c.extractLsb' 0 4 ++ (i.f.mod ++ i.f.imm14) : BitVec 32)] }) (fun i => i.f.x = true) :=
  laneMeets one (w2 8 0 0 3 0) _ _ _ _ _ (by decide +kernel) rfl

theorem meets_logic_addi11 :
    LaneMeets .addi (fun i => [wordSrc i.f.d]) (fun i => .reg i.f.d 1 1 true true) (fun i _ _ _ ops => { words := intWords .s32 false (opInt .s32 ops 0 + i.f.imm14.toInt) }) (fun i => i.f.x = false) :=
  laneMeets one (w1 8 0 5) _ _ _ _ _ (by decide +kernel) rfl

theorem meets_logic_addiWide12 :
    LaneMeets .addiWide (fun i => [intSrc i.f.c (addiTy i.f)]) (fun i => intDst i.f.d (addiTy i.f)) (fun i _ _ _ ops => { words := (intWords (addiTy i.f) (bitOf i.f.mod.toNat 11)
        (opInt (addiTy i.f) ops 0 + ((i.f.mod.extractLsb' 0 10 ++ i.f.imm14 : BitVec 24)).toInt)) }) (fun i => i.f.x = true) :=
  laneMeets one (w2 8 0 0 2 0) _ _ _ _ _ (by decide +kernel) rfl

theorem meets_compares_cmp1 :
    LaneMeets .cmp (fun i => [intSrc i.f.a i.ty, intSrc i.f.b i.ty]) (fun i => .pred (bitsOf i.f.d.toNat 2 0)) (fun i _ _ _ ops => { pred := predOf (condInt (bitsOf i.f.d.toNat 6 3) (opInt i.ty ops 0) (opInt i.ty ops 1)) }) :=
  laneMeets one (w1 12 0 4) _ _ _ _ _ (by decide +kernel) trivial

theorem meets_compares_fcmp2 :
    LaneMeets .fcmp (fun i => [wordSrc i.f.a, wordSrc i.f.b]) (fun i => .pred (bitsOf i.f.d.toNat 2 0)) (fun i _ _ _ ops =>
      let a := fopn i.ty.fmt (i.mbit 4) ops 0
      let b := fopn i.ty.fmt (i.mbit 4) ops 1
      { pred := predOf (condFloat (bitsOf i.f.d.toNat 6 3) (a.cmp b)),
        flags := flagIf (a.isSig || b.isSig || ((a.isNan || b.isNan) && decide (2 ≤ bitsOf i.f.d.toNat 6 3) && decide (bitsOf i.f.d.toNat 6 3 ≤ 5)))
          fInvalid }) :=
  laneMeets one (w1 12 0 4) _ _ _ _ _ (by decide +kernel) trivial

theorem meets_compares_xcmp3 :
    LaneMeets .xcmp (fun i => [xsrc i.f.a i.ty.fmt (comps i.ty), xsrc i.f.b i.ty.fmt (comps i.ty)]) (fun i => .pred (bitsOf i.f.d.toNat 2 0)) (fun i _ _ _ ops =>
      let r := xcmp (bitsOf i.f.d.toNat 6 3) (xvals i.ty.fmt (xread i.ty.fmt (comps i.ty) (opn ops 0)))
        (xvals i.ty.fmt (xread i.ty.fmt (comps i.ty) (opn ops 1)))
      { pred := predOf r.1, flags := r.2 }) :=
  laneMeets one (w1 12 0 4) _ _ _ _ _ (by decide +kernel) trivial

theorem meets_compares_icmp4 :
    LaneMeets .icmp (fun i => [xsrc i.f.a i.ty.fmt 2, xsrc i.f.b i.ty.fmt 2]) (fun i => .pred (bitsOf i.f.d.toNat 2 0)) (fun i _ _ _ ops => { pred := icmpOf (bitsOf i.f.d.toNat 6 3) (ivOpn i.ty.fmt ops 0) (ivOpn i.ty.fmt ops 1) }) :=
  laneMeets one (w1 12 0 4) _ _ _ _ _ (by decide +kernel) trivial

theorem meets_compares_iisempty5 :
    LaneMeets .iisempty (fun i => [xsrc i.f.a i.ty.fmt 2]) (fun i => .pred (bitsOf i.f.d.toNat 2 0)) (fun i _ _ _ ops => { pred := predOf (ivOpn i.ty.fmt ops 0).isNone }) :=
  laneMeets one (w1 4 0 10) _ _ _ _ _ (by decide +kernel) trivial

theorem meets_bits_popc1 :
    LaneMeets .popc (fun i => [intSrc i.f.a i.ty]) (fun i => .reg i.f.d 1 1 true false) (fun i _ _ _ ops => { words := (halves (BitVec.ofNat 64 (popcount i.ty.ibits (opNat ops 0)))).take 1 }) :=
  laneMeets one (w1 8 4 0) _ _ _ _ _ (by decide +kernel) trivial

theorem meets_bits_clz2 :
    LaneMeets .clz (fun i => [intSrc i.f.a i.ty]) (fun i => .reg i.f.d 1 1 true false) (fun i _ _ _ ops => { words := (halves (BitVec.ofNat 64 (leadingZeros i.ty.ibits (opNat ops 0)))).take 1 }) :=
  laneMeets one (w1 8 4 1) _ _ _ _ _ (by decide +kernel) trivial

theorem meets_bits_brev3 :
    LaneMeets .brev (fun i => [intSrc i.f.a i.ty]) (fun i => intDst i.f.d i.ty) (fun i _ _ _ ops => { words := (halves (BitVec.ofNat 64 (reverseBits i.ty.ibits (opNat ops 0)))).take i.ty.iwords }) :=
  laneMeets one (w1 8 4 2) _ _ _ _ _ (by decide +kernel) trivial

theorem meets_bits_bfx4 :
    LaneMeets .bfx (fun i => [wordSrc i.f.a]) (fun i => .reg i.f.d 1 1 true (i.mbit 13)) (fun i _ _ _ ops =>
      let v := bitsOf ((opn ops 0).getD 0 0).toNat (i.mb 4 0 + (i.mb 9 5 + 1) - 1) (i.mb 4 0)
      { words := [if i.mbit 13 then BitVec.ofInt 32 (signedOf (i.mb 9 5 + 1) v) else BitVec.ofNat 32 v] }) :=
  laneMeets one (w2 8 0 3 0 0xE5) _ _ _ _ _ (by decide +kernel) trivial

theorem meets_bits_bfi5 :
    LaneMeets .bfi (fun i => [wordSrc i.f.d, wordSrc i.f.a]) (fun i => .reg i.f.d 1 1 true false) (fun i _ _ _ ops =>
      let m : W32 := BitVec.ofNat 32 ((2 ^ (i.mb 9 5 + 1) - 1) <<< i.mb 4 0)
      { words := [((opn ops 0).getD 0 0 &&& ~~~m) ||| (((opn ops 1).getD 0 0 <<< i.mb 4 0) &&& m)] }) :=
  laneMeets one (w2 8 0 4 0 0xE5) _ _ _ _ _ (by decide +kernel) trivial

theorem meets_bits_kcg6 :
    LaneMeets .kcg (fun i => [{ fld := i.f.a, n := 2, al := 2 }, { fld := i.f.c, n := 2, al := 2 }]) (fun i => .reg i.f.d 1 1 true false) (fun _ _ _ _ ops => { words := [kcg (join64 (opn ops 0)) (join64 (opn ops 1))] }) :=
  laneMeets one (w2 8 0 5 2 0) _ _ _ _ _ (by decide +kernel) trivial

theorem meets_conversions_f2f1 :
    LaneMeets .f2f (fun i => [if i.f.cvtRnd = 5 then { fld := i.f.a, n := 2, al := 2 } else wordSrc i.f.a]) (fun i => fdst i.f.d) (fun i _ _ _ ops => fres (cvtF (Ty.ofCode i.f.cvtDst).fmt (Rnd.ofCode i.f.cvtRnd ((opn ops 0).getD 1 0)) i.f.cvtSat (i.f.cvtFtz .f2f)
      (fopn (Ty.ofCode (i.f.cvtSrc .f2f)).fmt (i.f.cvtFtz .f2f) ops 0))) :=
  laneMeets one (w2 8 4 0 0 0x16A0) _ _ _ _ _ (by decide +kernel) trivial

theorem meets_conversions_f2i2 :
    LaneMeets .f2i (fun i => [wordSrc i.f.a]) (fun i => intDst i.f.d (Ty.ofCode i.f.cvtDst)) (fun i _ _ _ ops =>
      let r := f2i (Ty.ofCode i.f.cvtDst) (Rnd.ofCode i.f.cvtRnd) i.f.cvtSat (fopn (Ty.ofCode (i.f.cvtSrc .f2i)).fmt (i.f.cvtFtz .f2i) ops 0)
      { words := r.1, flags := r.2 }) :=
  laneMeets one (w2 8 4 1 0 0x8A0) _ _ _ _ _ (by decide +kernel) trivial

theorem meets_conversions_i2f3 :
    LaneMeets .i2f (fun i => [intSrc i.f.a (Ty.ofCode (i.f.cvtSrc .i2f))]) (fun i => fdst i.f.d) (fun i _ _ _ ops => fres (roundTo (Ty.ofCode i.f.cvtDst).fmt (Rnd.ofCode i.f.cvtRnd) i.f.cvtSat false
      (Dy.ofInt (opInt (Ty.ofCode (i.f.cvtSrc .i2f)) ops 0) 0))) :=
  laneMeets one (w2 8 4 2 0 0x1440) _ _ _ _ _ (by decide +kernel) trivial

theorem meets_conversions_i2i4 :
    LaneMeets .i2i (fun i => [intSrc i.f.a (Ty.ofCode (i.f.cvtSrc .i2i))]) (fun i => intDst i.f.d (Ty.ofCode i.f.cvtDst)) (fun i _ _ _ ops => { words := intWords (Ty.ofCode i.f.cvtDst) i.f.cvtSat (opInt (Ty.ofCode (i.f.cvtSrc .i2i)) ops 0) }) :=
  laneMeets one (w2 8 4 3 0 0xA40) _ _ _ _ _ (by decide +kernel) trivial

theorem meets_conversions_pack5 :
    LaneMeets .pack (fun i => [wordSrc i.f.a, wordSrc i.f.c]) (fun i => if Ty.ofCode (i.f.cvtSrc .pack) = .f32 then fdst i.f.d else intDst i.f.d (Ty.ofCode i.f.cvtDst)) (fun i _ _ _ ops =>
      let dt := Ty.ofCode i.f.cvtDst
      if Ty.ofCode (i.f.cvtSrc .pack) = .f32 then
        let c := fun k => cvtF dt.fmt (Rnd.ofCode i.f.cvtRnd) i.f.cvtSat (i.f.cvtFtz .pack) (fopn .f32 (i.f.cvtFtz .pack) ops k)
        { words := packTwo dt.fmt.width (c 0).1 (c 1).1, flags := (c 0).2 ||| (c 1).2 }
      else
        let c := fun k => ((intWords dt i.f.cvtSat (opInt (Ty.ofCode (i.f.cvtSrc .pack)) ops k)).getD 0 0).toNat
        { words := packTwo dt.ibits (c 0) (c 1) }) :=
  laneMeets one (w2 8 4 4 5 0x16A0) _ _ _ _ _ (by decide +kernel) trivial

theorem meets_conversions_unpack6 :
    LaneMeets .unpack (fun i => [wordSrc i.f.a]) (fun i => if Ty.ofCode i.f.cvtDst = .f32 then fdst i.f.d else intDst i.f.d (Ty.ofCode i.f.cvtDst)) (fun i _ _ _ ops =>
      let w := (opn ops 0).getD 0 0
      let st := Ty.ofCode (i.f.cvtSrc .unpack)
      if Ty.ofCode i.f.cvtDst = .f32 then fres (cvtF .f32 .rne false false (fpDecode st.fmt (elementOf w st.fmt.width i.f.cvtIdx)))
      else { words := intWords (Ty.ofCode i.f.cvtDst) i.f.cvtSat (intVal st [BitVec.ofNat 32 (elementOf w st.ibits i.f.cvtIdx)]) }) :=
  laneMeets one (w2 8 4 5 0 0x14B0) _ _ _ _ _ (by decide +kernel) trivial

theorem meets_conversions_mxq7 :
    LaneMeets .mxq (fun i => [if i.mb 8 6 = 5 then { fld := i.f.a, n := 2, al := 2 } else wordSrc i.f.a]) (fun i => fdst i.f.d) (fun i s _ l _ => mxqLane i (if i.mb 8 6 = 5 then { fld := i.f.a, n := 2, al := 2 } else wordSrc i.f.a) s l) (fun i => i.f.a.toNat < 112 ∧ i.f.d.toNat < 112) :=
  laneMeets one (w2 8 4 6 0 0x1A00) _ _ _ _ _ (by decide +kernel) (by decide)

theorem meets_conversions_mxd8 :
    LaneMeets .mxd (fun i => [wordSrc i.f.a]) (fun i => fdst i.f.d) (fun i _ _ _ ops =>
      let ef : Fmt := match i.mb 3 2 with | 0 => .e4m3 | 1 => .e5m2 | _ => .e2m1
      let w := ((opn ops 0).getD 0 0).toNat
      fres (cvtF i.ty.fmt (Rnd.ofCode (i.mb 8 6)) (i.mbit 5) (i.mbit 4) (mxValue ef (flushElt ef (i.mbit 4) (w % 2 ^ ef.width)) (bitsOf w 15 8)))) :=
  laneMeets one (w2 8 4 7 0 0x1400) _ _ _ _ _ (by decide +kernel) trivial

theorem meets_floating_fadd1 :
    LaneMeets .fadd (fun i => [wordSrc i.f.a, wordSrc i.f.b]) (fun i => fdst i.f.d) (fun i _ _ _ ops => fres (roundOp i.ty.fmt (Rnd.ofCode (i.mb 8 6)) (i.mbit 5) (i.mbit 4)
      (exactAdd (Rnd.ofCode (i.mb 8 6)).isRd (fopn i.ty.fmt (i.mbit 4) ops 0) (fopn i.ty.fmt (i.mbit 4) ops 1)))) :=
  laneMeets one (w1 8 0 4) _ _ _ _ _ (by decide +kernel) trivial

theorem meets_floating_fsub2 :
    LaneMeets .fsub (fun i => [wordSrc i.f.a, wordSrc i.f.b]) (fun i => fdst i.f.d) (fun i _ _ _ ops => fres (roundOp i.ty.fmt (Rnd.ofCode (i.mb 8 6)) (i.mbit 5) (i.mbit 4)
      (exactAdd (Rnd.ofCode (i.mb 8 6)).isRd (fopn i.ty.fmt (i.mbit 4) ops 0) (fopn i.ty.fmt (i.mbit 4) ops 1).negate))) :=
  laneMeets one (w1 8 0 4) _ _ _ _ _ (by decide +kernel) trivial

theorem meets_floating_fmul3 :
    LaneMeets .fmul (fun i => [wordSrc i.f.a, wordSrc i.f.b]) (fun i => fdst i.f.d) (fun i _ _ _ ops => fres (roundOp i.ty.fmt (Rnd.ofCode (i.mb 8 6)) (i.mbit 5) (i.mbit 4)
      (exactMul (fopn i.ty.fmt (i.mbit 4) ops 0) (fopn i.ty.fmt (i.mbit 4) ops 1)))) :=
  laneMeets one (w1 8 0 4) _ _ _ _ _ (by decide +kernel) trivial

theorem meets_floating_ffma4 :
    LaneMeets .ffma (fun i => [wordSrc i.f.a, wordSrc i.f.b, wordSrc i.f.c]) (fun i => fdst i.f.d) (fun i _ _ _ ops => fres (roundOp i.ty.fmt (Rnd.ofCode (i.mb 8 6)) (i.mbit 5) (i.mbit 4)
      (exactFma (Rnd.ofCode (i.mb 8 6)).isRd (fopn i.ty.fmt (i.mbit 4) ops 0) (fopn i.ty.fmt (i.mbit 4) ops 1) (fopn i.ty.fmt (i.mbit 4) ops 2)))) :=
  laneMeets one (w2 8 0 4 12 0x1400) _ _ _ _ _ (by decide +kernel) trivial

theorem meets_floating_fmin5 :
    LaneMeets .fmin (fun i => [wordSrc i.f.a, wordSrc i.f.b]) (fun i => fdst i.f.d) (fun i _ _ _ ops => fres (fpMinMax i.ty.fmt false (fopn i.ty.fmt (i.mbit 4) ops 0) (fopn i.ty.fmt (i.mbit 4) ops 1))) :=
  laneMeets one (w1 8 0 4) _ _ _ _ _ (by decide +kernel) trivial

theorem meets_floating_fmax6 :
    LaneMeets .fmax (fun i => [wordSrc i.f.a, wordSrc i.f.b]) (fun i => fdst i.f.d) (fun i _ _ _ ops => fres (fpMinMax i.ty.fmt true (fopn i.ty.fmt (i.mbit 4) ops 0) (fopn i.ty.fmt (i.mbit 4) ops 1))) :=
  laneMeets one (w2 8 0 4 0 0x1401) _ _ _ _ _ (by decide +kernel) trivial

theorem meets_floating_rcp_list7 :
    ∀ k ∈ [(Op.rcp, Sfu.rcp), (.rsq, .rsq), (.sqrt, .sqrt), (.exp2, .exp2), (.log2, .log2), (.sin, .sin), (.cos, .cos), (.tanh, .tanh)],
    LaneMeets k.1 (fun i => [wordSrc i.f.a]) (fun i => fdst i.f.d) (fun i _ _ _ ops => fres (sfu k.2 i.ty.fmt (Rnd.ofCode (i.mb 8 6)) (i.mbit 4) (fopn i.ty.fmt (i.mbit 4) ops 0))) := by
  simp only [List.forall_mem_cons]
  exact ⟨laneMeets one (w1 8 4 0) _ _ _ _ _ (by decide +kernel) trivial,
    laneMeets one (w1 8 4 1) _ _ _ _ _ (by decide +kernel) trivial,
    laneMeets one (w1 8 4 2) _ _ _ _ _ (by decide +kernel) trivial,
    laneMeets one (w1 8 4 3) _ _ _ _ _ (by decide +kernel) trivial,
    laneMeets one (w1 8 4 4) _ _ _ _ _ (by decide +kernel) trivial,
    laneMeets one (w1 8 4 5) _ _ _ _ _ (by decide +kernel) trivial,
    laneMeets one (w1 8 4 6) _ _ _ _ _ (by decide +kernel) trivial,
    laneMeets one (w1 8 4 7) _ _ _ _ _ (by decide +kernel) trivial, nofun⟩

theorem meets_expansions_tsum1 :
    LaneMeets .tsum (fun i => [wordSrc i.f.a, wordSrc i.f.b]) (fun i => xdst i.f.d i.ty.fmt 2) (fun i _ _ _ ops => let r := tsum i.ty.fmt (fopn i.ty.fmt false ops 0) (fopn i.ty.fmt false ops 1); xres i.ty.fmt ([r.1, r.2.1], r.2.2)) :=
  laneMeets one (w1 8 0 4) _ _ _ _ _ (by decide +kernel) trivial

theorem meets_expansions_tprod2 :
    LaneMeets .tprod (fun i => [wordSrc i.f.a, wordSrc i.f.b]) (fun i => xdst i.f.d i.ty.fmt 2) (fun i _ _ _ ops => let r := tprod i.ty.fmt (fopn i.ty.fmt false ops 0) (fopn i.ty.fmt false ops 1); xres i.ty.fmt ([r.1, r.2.1], r.2.2)) :=
  laneMeets one (w1 8 0 4) _ _ _ _ _ (by decide +kernel) trivial

theorem meets_expansions_fmae3 :
    LaneMeets .fmae (fun i => [wordSrc i.f.a, wordSrc i.f.b, wordSrc i.f.c]) (fun i => xdst i.f.d i.ty.fmt 3) (fun i _ _ _ ops =>
      let r := fmae i.ty.fmt (fopn i.ty.fmt false ops 0) (fopn i.ty.fmt false ops 1) (fopn i.ty.fmt false ops 2)
      xres i.ty.fmt ([r.1, r.2.1, r.2.2.1], r.2.2.2)) :=
  laneMeets one (w2 8 0 4 12 0x1400) _ _ _ _ _ (by decide +kernel) trivial

theorem meets_expansions_xadd_list4 :
    ∀ k ∈ [(Op.xadd, xadd), (.xmul, xmul)],
    LaneMeets k.1 (fun i => [xsrc i.f.a i.ty.fmt (comps i.ty), xsrc i.f.b i.ty.fmt (comps i.ty)]) (fun i => xdst i.f.d i.ty.fmt (comps i.ty)) (fun i _ _ _ ops => xres i.ty.fmt (k.2 i.ty.fmt (xvals i.ty.fmt (xread i.ty.fmt (comps i.ty) (opn ops 0)))
        (xvals i.ty.fmt (xread i.ty.fmt (comps i.ty) (opn ops 1))))) := by
  simp only [List.forall_mem_cons]
  exact ⟨laneMeets one (w1 8 0 4) _ _ _ _ _ (by decide +kernel) trivial,
    laneMeets one (w1 8 0 4) _ _ _ _ _ (by decide +kernel) trivial, nofun⟩

theorem meets_expansions_xrenorm5 :
    LaneMeets .xrenorm (fun i => [xsrc i.f.a i.ty.fmt (comps i.ty)]) (fun i => xdst i.f.d i.ty.fmt (comps i.ty)) (fun i _ _ _ ops => xres i.ty.fmt (xcomp i.ty.fmt (xvals i.ty.fmt (xread i.ty.fmt (comps i.ty) (opn ops 0))) (comps i.ty))) :=
  laneMeets one (w1 8 4 0) _ _ _ _ _ (by decide +kernel) trivial

theorem meets_expansions_xcomp6 :
    LaneMeets .xcomp (fun i => [xsrc i.f.a i.ty.fmt (comps i.ty)]) (fun i => xdst i.f.d i.ty.fmt (i.mb 1 0) (i.mb 1 0 == 1)) (fun i _ _ _ ops => xres i.ty.fmt (xcomp i.ty.fmt (xvals i.ty.fmt (xread i.ty.fmt (comps i.ty) (opn ops 0))) (i.mb 1 0))) :=
  laneMeets one (w2 8 0 1 0 0x2401) _ _ _ _ _ (by decide +kernel) trivial

theorem meets_expansions_xneg_list7 :
    ∀ k ∈ [(Op.xneg, xneg), (.xabs, xabs)],
    LaneMeets k.1 (fun i => [xsrc i.f.a i.ty.fmt (comps i.ty)]) (fun i => xdst i.f.d i.ty.fmt (comps i.ty)) (fun i _ _ _ ops => xres i.ty.fmt (k.2 i.ty.fmt (xread i.ty.fmt (comps i.ty) (opn ops 0)))) := by
  simp only [List.forall_mem_cons]
  exact ⟨laneMeets one (w1 8 4 2) _ _ _ _ _ (by decide +kernel) trivial,
    laneMeets one (w1 8 4 3) _ _ _ _ _ (by decide +kernel) trivial, nofun⟩

theorem meets_expansions_xhead8 :
    LaneMeets .xhead (fun i => [xsrc i.f.a i.ty.fmt (comps i.ty)]) (fun i => xdst i.f.d i.ty.fmt 1 true) (fun i _ _ _ ops => xres i.ty.fmt (xhead i.ty.fmt (xread i.ty.fmt (comps i.ty) (opn ops 0)))) :=
  laneMeets one (w1 8 4 4) _ _ _ _ _ (by decide +kernel) trivial

theorem meets_expansions_xsplit9 :
    LaneMeets .xsplit (fun i => [wordSrc i.f.a]) (fun i => xdst i.f.d .bf16 3) (fun _ _ _ _ ops => xres .bf16 (xsplit (fopn .f32 false ops 0))) :=
  laneMeets one (w1 8 4 5) _ _ _ _ _ (by decide +kernel) trivial

theorem meets_expansions_xjoin10 :
    LaneMeets .xjoin (fun i => [xsrc i.f.a i.ty.fmt (comps i.ty)]) (fun i => fdst i.f.d) (fun i _ _ _ ops => fres (xjoin (if i.mbit 0 then .f32 else i.ty.fmt) (Rnd.ofCode (i.mb 8 6))
      (xvals i.ty.fmt (xread i.ty.fmt (comps i.ty) (opn ops 0))))) :=
  laneMeets one (w1 8 4 6) _ _ _ _ _ (by decide +kernel) trivial

theorem meets_intervals_iadd_list1 :
    ∀ k ∈ [(Op.iadd, iaddOf), (.isub, isubOf), (.imul, imulOf), (.idiv, idivOf), (.imeet, imeetOf)],
    LaneMeets k.1 (fun i => [xsrc i.f.a i.ty.fmt 2, xsrc i.f.b i.ty.fmt 2]) (fun i => xdst i.f.d i.ty.fmt 2) (fun i _ _ _ ops => ivRes i.ty.fmt (ivBin i.ty.fmt (ivOpn i.ty.fmt ops 0) (ivOpn i.ty.fmt ops 1) (k.2 i.ty.fmt))) := by
  simp only [List.forall_mem_cons]
  exact ⟨laneMeets one (w1 8 0 4) _ _ _ _ _ (by decide +kernel) trivial,
    laneMeets one (w1 8 0 4) _ _ _ _ _ (by decide +kernel) trivial,
    laneMeets one (w1 8 0 4) _ _ _ _ _ (by decide +kernel) trivial,
    laneMeets one (w1 8 0 4) _ _ _ _ _ (by decide +kernel) trivial,
    laneMeets one (w1 8 4 4) _ _ _ _ _ (by decide +kernel) trivial, nofun⟩

theorem meets_intervals_ifma2 :
    LaneMeets .ifma (fun i => [xsrc i.f.a i.ty.fmt 2, xsrc i.f.b i.ty.fmt 2, xsrc i.f.c i.ty.fmt 2]) (fun i => xdst i.f.d i.ty.fmt 2) (fun i _ _ _ ops => ivRes i.ty.fmt (ifmaOf i.ty.fmt (ivOpn i.ty.fmt ops 0) (ivOpn i.ty.fmt ops 1) (ivOpn i.ty.fmt ops 2))) :=
  laneMeets one (w2 8 0 4 12 0x3400) _ _ _ _ _ (by decide +kernel) trivial

theorem meets_intervals_ihull3 :
    LaneMeets .ihull (fun i => [xsrc i.f.a i.ty.fmt 2, xsrc i.f.b i.ty.fmt 2]) (fun i => xdst i.f.d i.ty.fmt 2) (fun i _ _ _ ops => ivRes i.ty.fmt (ihullOf i.ty.fmt (ivOpn i.ty.fmt ops 0) (ivOpn i.ty.fmt ops 1))) :=
  laneMeets one (w1 8 0 4) _ _ _ _ _ (by decide +kernel) trivial

theorem meets_intervals_imake4 :
    LaneMeets .imake (fun i => [wordSrc i.f.a, wordSrc i.f.c]) (fun i => xdst i.f.d i.ty.fmt 2) (fun i _ _ _ ops => ivRes i.ty.fmt (imakeTwoOf i.ty.fmt (fopn i.ty.fmt false ops 0) (fopn i.ty.fmt false ops 1))) (fun i => i.mbit 0 = true) :=
  laneMeets one (w2 8 0 0 4 0x3401) _ _ _ _ _ (by decide +kernel) rfl

theorem meets_intervals_imake5 :
    LaneMeets .imake (fun i => [wordSrc i.f.a]) (fun i => xdst i.f.d i.ty.fmt 2) (fun i _ _ _ ops => ivRes i.ty.fmt (imakeOf i.ty.fmt (fopn i.ty.fmt false ops 0))) (fun i => i.mbit 0 = false) :=
  laneMeets one (w1 8 4 0) _ _ _ _ _ (by decide +kernel) rfl

theorem meets_intervals_ilo_list6 :
    ∀ k ∈ [(Op.ilo, (fun _ x => x.lo : Fmt → Iv → FpVal), fun f : Fmt => f.infCode.getD 0), (.ihi, fun _ x => x.hi, fun f => signed f true (f.infCode.getD 0)),
      (.imid, imidOf, Fmt.nanCode), (.iwid, iwidOf, Fmt.nanCode)],
    LaneMeets k.1 (fun i => [xsrc i.f.a i.ty.fmt 2]) (fun i => fdst i.f.d) (fun i _ _ _ ops => fres (match ivOpn i.ty.fmt ops 0 with | some x => boundCode i.ty.fmt (k.2.1 i.ty.fmt x) | none => k.2.2 i.ty.fmt, 0)) := by
  simp only [List.forall_mem_cons]
  exact ⟨laneMeets one (w1 8 4 1) _ _ _ _ _ (by decide +kernel) trivial,
    laneMeets one (w1 8 4 2) _ _ _ _ _ (by decide +kernel) trivial,
    laneMeets one (w1 8 4 3) _ _ _ _ _ (by decide +kernel) trivial,
    laneMeets one (w1 8 4 4) _ _ _ _ _ (by decide +kernel) trivial, nofun⟩

theorem meets_intervals_ineg_list7 :
    ∀ k ∈ [(Op.ineg, (fun f x => (ivCodes f ⟨x.hi.negate, x.lo.negate⟩, 0) : Fmt → Iv → IvOut)), (.iabs, fun f x => (ivCodes f (iabsIv x), 0)),
      (.isqr, isqrOf), (.isqrt, isqrtIvOf)],
    LaneMeets k.1 (fun i => [xsrc i.f.a i.ty.fmt 2]) (fun i => xdst i.f.d i.ty.fmt 2) (fun i _ _ _ ops => ivRes i.ty.fmt (ivUn i.ty.fmt (ivOpn i.ty.fmt ops 0) (k.2 i.ty.fmt))) := by
  simp only [List.forall_mem_cons]
  exact ⟨laneMeets one (w1 8 4 5) _ _ _ _ _ (by decide +kernel) trivial,
    laneMeets one (w1 8 4 6) _ _ _ _ _ (by decide +kernel) trivial,
    laneMeets one (w1 8 4 7) _ _ _ _ _ (by decide +kernel) trivial,
    laneMeets one (w1 8 4 8) _ _ _ _ _ (by decide +kernel) trivial, nofun⟩

theorem meets_intervals_ihalf8 :
    LaneMeets .ihalf (fun i => [xsrc i.f.a i.ty.fmt 2]) (fun i => xdst i.f.d i.ty.fmt 2) (fun i _ _ _ ops => ivRes i.ty.fmt (ivUn i.ty.fmt (ivOpn i.ty.fmt ops 0) (ihalfOf i.ty.fmt (i.mbit 0)))) :=
  laneMeets one (w1 8 4 9) _ _ _ _ _ (by decide +kernel) trivial

theorem meets_system_srd1 :
    LaneMeets .srd (fun _ => []) (fun i => .reg i.f.d (if i.mb 5 0 = 0x0B then 2 else 1) (if i.mb 5 0 = 0x0B then 2 else 1) true false) (fun i s _ l _ => { words := (halves (BitVec.ofNat 64 (s.special i (i.mb 5 0) l))).take (if i.mb 5 0 = 0x0B then 2 else 1) }) (fun i => (i.mb 5 0 = 0 → i.f.d.toNat < 112) ∧ (i.mb 5 0 = 0x0C → i.g.outst = [])) :=
  laneMeets one (w1 8 0 4) _ _ _ _ _ (by decide +kernel) (by decide)

theorem meets_cross_mrd1 :
    LaneMeets .mrd (fun _ => []) (fun i => .reg i.f.d 1 1 true false) (fun i _ _ _ _ => { words := [(maskSel i (i.mb 9 6)).extractLsb' (32 * i.mb 1 0) 32] }) (fun i => Unguarded i ∧ i.lanes = i.ctx.am) :=
  laneMeets one (w2 8 0 5 0 0) _ _ _ _ _ (by decide +kernel) ⟨⟨rfl, rfl⟩, by decide⟩

theorem meets_observation_cntrd1 :
    LaneMeets .cntrd (fun _ => []) (fun i => .reg i.f.d 1 1 true false) (fun i s _ _ _ => { words := [BitVec.ofNat 32 (s.counter (coreOf i.gid) (i.mb 7 0))] }) (fun i => i.l.super = true ∨ i.l.cntrd = true) :=
  laneMeets one (w1 8 0 4) _ _ _ _ _ (by decide +kernel) (Or.inl rfl)

/-! ### Witnesses of the other statements about one instruction or event -/

theorem meets_BranchesComplete_1 :
    ∀ o ∈ [Op.bra, .call, .bri, .calli, .ret], Meets o (fun _ i => i.f.g ≠ 0 ∧ i.lanes = 0 ∧ (o = .bri ∨ o = .calli → 112 ≤ i.f.a.toNat ∧ i.f.a.toNat < 124)) := by
  simp only [List.forall_mem_cons]
  exact ⟨meets (st one) one ({ w1 0 0 1 with g := 1 }) (by decide +kernel) ⟨rfl, rfl, rfl⟩ (by decide +kernel),
    meets (st one) one ({ w1 0 0 1 with g := 1 }) (by decide +kernel) ⟨rfl, rfl, rfl⟩ (by decide +kernel),
    meets (st one) one ({ w1 0 112 0 with g := 1 }) (by decide +kernel) ⟨rfl, rfl, rfl⟩ (by decide +kernel),
    meets (st one) one ({ w1 0 112 1 with g := 1 }) (by decide +kernel) ⟨rfl, rfl, rfl⟩ (by decide +kernel),
    meets (st one) one ({ w1 0 0 2 with g := 1 }) (by decide +kernel) ⟨rfl, rfl, rfl⟩ (by decide +kernel), nofun⟩

theorem meets_BranchesComplete_2 :
    ∀ o ∈ [Op.bra, .call], ∃ div : Bool, Meets o (fun _ i => (i.f.g = 0 ∨ i.lanes ≠ 0) ∧ (o = .call → i.g.pendG 11 = false) ∧ div = decide (i.f.g ≠ 0 ∧ i.lanes ≠ i.ctx.am)) := by
  simp only [List.forall_mem_cons]
  exact ⟨⟨false, meets (st one) one (w1 0 0 1) (by decide +kernel) ⟨rfl, rfl, rfl⟩ (by decide +kernel)⟩,
    ⟨false, meets (st one) one (w1 0 0 1) (by decide +kernel) ⟨rfl, rfl, rfl⟩ (by decide +kernel)⟩, nofun⟩

theorem meets_BranchesComplete_3 :
    ∀ o ∈ [Op.bri, .calli, .ret], ∃ div : Bool, Meets o (fun _ i => (i.f.g = 0 ∨ i.lanes ≠ 0) ∧ (o = .calli → i.g.pendG 11 = false) ∧ div = decide (i.f.g ≠ 0 ∧ i.lanes ≠ i.ctx.am) ∧
        ReadyG i (if o = .ret then 123 else i.f.a) ∧ bits (valueG i (if o = .ret then 123 else i.f.a)) 63 56 = 0 ∧
        (valueG i (if o = .ret then 123 else i.f.a)).toNat % 4 = 0) := by
  simp only [List.forall_mem_cons]
  exact ⟨⟨false, meets (st (oneG [(0, 0x2000)])) (oneG [(0, 0x2000)]) (w1 0 112 0) (by decide +kernel) ⟨rfl, rfl, rfl⟩ (by decide +kernel)⟩,
    ⟨false, meets (st (oneG [(0, 0x2000)])) (oneG [(0, 0x2000)]) (w1 0 112 1) (by decide +kernel) ⟨rfl, rfl, rfl⟩ (by decide +kernel)⟩,
    ⟨false, meets (st (oneG [(11, 0x2000)])) (oneG [(11, 0x2000)]) (w1 0 0 2) (by decide +kernel) ⟨rfl, rfl, rfl⟩ (by decide +kernel)⟩, nofun⟩

theorem meets_EndAndResumeComplete_1 :
    Meets .exit (fun _ i => i.lanes = 0 ∨ i.ctx.live &&& ~~~i.lanes ≠ 0) :=
  meets (st one) one ({ w1 0 0 3 with g := 1 }) (by decide +kernel) ⟨rfl, rfl, rfl⟩ (by decide +kernel)

theorem meets_EndAndResumeComplete_2 :
    Meets .exit (fun _ i => i.lanes ≠ 0 ∧ i.ctx.live &&& ~~~i.lanes = 0) :=
  meets (st one) one (w1 0 0 3) (by decide +kernel) ⟨rfl, rfl, rfl⟩ (by decide +kernel)

theorem meets_EndAndResumeComplete_3 :
    Meets .yield (fun _ _ => True) :=
  meets (st one) one (w1 0 0 4) (by decide +kernel) ⟨rfl, rfl, rfl⟩ trivial

theorem meets_EndAndResumeComplete_4 :
    ∀ o ∈ [Op.gresume, .gresumeNext, .gkill], Meets o (fun s i => Unguarded i ∧ ReadyG i i.f.a ∧ 112 ≤ i.f.d.toNat ∧ i.f.d.toNat < 124 ∧ i.g.pendG (gIndex i.f.d) = false ∧
         let w := valueG i i.f.a
         bits w 31 24 = s.chofer.package ∧ bits w 18 16 = dieOf i.gid ∧
         ∃ v x r, s.parkedBy (dieOf i.gid) w = some (v, x) ∧ v ≠ i.gid ∧ x.stat = .parkedFault ∧ x.fault = some r ∧
           (o = .gresume → r.restartable = true ∨ r.after = true) ∧ (o = .gresumeNext → r.length.isSome = true ∨ r.after = true)) := by
  simp only [List.forall_mem_cons]
  exact ⟨meets ({ st (oneG [(0, 1)]) with groups := [(0, { ctx := oneG [(0, 1)] }), (1, parked)] }) (oneG [(0, 1)]) (w2 113 112 9 0 0) (by decide +kernel) ⟨rfl, rfl, rfl⟩ ⟨⟨rfl, rfl⟩, by decide +kernel, by decide, by decide, rfl, by decide +kernel, by decide +kernel, 1, parked, ⟨[], [], true, some 4, false⟩, by decide +kernel, by decide, rfl, rfl, fun _ => .inl rfl, fun _ => .inl rfl⟩,
    meets ({ st (oneG [(0, 1)]) with groups := [(0, { ctx := oneG [(0, 1)] }), (1, parked)] }) (oneG [(0, 1)]) (w2 113 112 9 0 1) (by decide +kernel) ⟨rfl, rfl, rfl⟩ ⟨⟨rfl, rfl⟩, by decide +kernel, by decide, by decide, rfl, by decide +kernel, by decide +kernel, 1, parked, ⟨[], [], true, some 4, false⟩, by decide +kernel, by decide, rfl, rfl, fun _ => .inl rfl, fun _ => .inl rfl⟩,
    meets ({ st (oneG [(0, 1)]) with groups := [(0, { ctx := oneG [(0, 1)] }), (1, parked)] }) (oneG [(0, 1)]) (w1 113 112 10) (by decide +kernel) ⟨rfl, rfl, rfl⟩ ⟨⟨rfl, rfl⟩, by decide +kernel, by decide, by decide, rfl, by decide +kernel, by decide +kernel, 1, parked, ⟨[], [], true, some 4, false⟩, by decide +kernel, by decide, rfl, rfl, fun _ => .inl rfl, fun _ => .inl rfl⟩, nofun⟩

theorem meets_TrapsComplete_1 :
    Meets .trap (fun _ i => i.lanes = 0) :=
  meets (st one) one ({ w1 0 0 2 with g := 1 }) (by decide +kernel) ⟨rfl, rfl, rfl⟩ (by decide +kernel)

theorem meets_TrapsComplete_2 :
    Meets .trap (fun _ i => i.lanes ≠ 0 ∧ i.ctx.inHandler = false ∧ i.l.handler ≠ 0) :=
  meets (st one { placedLaunch with handler := 0x3000 }) one (w2 0 0 2 0 3) (by decide +kernel) ⟨rfl, rfl, rfl⟩ (by decide +kernel)

theorem meets_TrapsComplete_3 :
    Meets .trap (fun _ i => i.lanes ≠ 0 ∧ (i.ctx.inHandler = true ∨ i.l.handler = 0)) :=
  meets (st one) one (w2 0 0 2 0 3) (by decide +kernel) ⟨rfl, rfl, rfl⟩ (by decide +kernel)

theorem meets_TrapsComplete_4 :
    Meets .eret (fun _ i => Unguarded i ∧ i.ctx.inHandler = true) :=
  meets (st ({ one with inHandler := true, trapPc := 0x1004, trapAm := 1 })) ({ one with inHandler := true, trapPc := 0x1004, trapAm := 1 }) (w1 0 0 3) (by decide +kernel) ⟨rfl, rfl, rfl⟩ (by decide +kernel)

theorem meets_SystemInstructionsComplete_1 :
    Meets .icsync (fun _ i => Unguarded i) :=
  meets (st one) one (w1 0 0 8) (by decide +kernel) ⟨rfl, rfl, rfl⟩ (by decide +kernel)

theorem meets_SystemInstructionsComplete_2 :
    Meets .swr (fun _ i => Unguarded i ∧ ReadyG i i.f.a ∧ i.mb 5 0 = 0x0C ∧ i.g.outst = []) :=
  meets (st (oneG [(0, 0x2000)])) (oneG [(0, 0x2000)]) (w2 0 112 5 0 0x0C) (by decide +kernel) ⟨rfl, rfl, rfl⟩ (by decide +kernel)

theorem meets_SystemInstructionsComplete_3 :
    Meets .wbase (fun _ i => Unguarded i ∧ i.mbit 13 = false) :=
  meets (st one) one (w2 0 0 6 0 0x20) (by decide +kernel) ⟨rfl, rfl, rfl⟩ (by decide +kernel)

theorem meets_SystemInstructionsComplete_4 :
    Meets .wbase (fun _ i => Unguarded i ∧ i.mbit 13 = true ∧ ReadyG i i.f.a ∧ (valueG i i.f.a).toNat % 16 = 0 ∧ (valueG i i.f.a).toNat ≤ 400) :=
  meets (st (oneG [(0, 32)])) (oneG [(0, 32)]) (w2 0 112 6 0 0x2000) (by decide +kernel) ⟨rfl, rfl, rfl⟩ (by decide +kernel)

theorem meets_SystemInstructionsComplete_5 :
    Meets .rls (fun _ i => Unguarded i ∧ i.f.a.toNat < 112 ∧ i.ctx.wbase + i.f.a.toNat + i.mb 6 0 < i.l.regs + 1 ∧ i.f.a.toNat + i.mb 6 0 ≤ 111) :=
  meets (st one) one (w2 0 5 7 0 3) (by decide +kernel) ⟨rfl, rfl, rfl⟩ (by decide +kernel)

theorem meets_MaskInstructionsComplete_1 :
    Meets .mand (fun _ i => Unguarded i) :=
  meets (st one) one (w2 0 0 1 0 0x448) (by decide +kernel) ⟨rfl, rfl, rfl⟩ (by decide +kernel)

theorem meets_MaskInstructionsComplete_2 :
    Meets .mor (fun _ i => Unguarded i) :=
  meets (st one) one (w2 0 0 2 0 0x448) (by decide +kernel) ⟨rfl, rfl, rfl⟩ (by decide +kernel)

theorem meets_MaskInstructionsComplete_3 :
    Meets .mnot (fun _ i => Unguarded i) :=
  meets (st one) one (w2 0 0 3 0 0x440) (by decide +kernel) ⟨rfl, rfl, rfl⟩ (by decide +kernel)

theorem meets_MaskInstructionsComplete_4 :
    Meets .mact (fun _ i => Unguarded i) :=
  meets (st one) one (w2 0 0 4 0 0x40) (by decide +kernel) ⟨rfl, rfl, rfl⟩ (by decide +kernel)

theorem meets_MaskInstructionsComplete_5 :
    Meets .mset (fun _ i => Unguarded i ∧ i.mbit 9 = false) :=
  meets (st one) one (w2 0 0 0 0 0x400) (by decide +kernel) ⟨rfl, rfl, rfl⟩ (by decide +kernel)

theorem meets_MaskInstructionsComplete_6 :
    Meets .mset (fun _ i => Unguarded i ∧ i.mbit 9 = true ∧ i.f.a.toNat < 124 ∧ srcFaults i (wordSrc i.f.a) = [] ∧
      poisonFaults i (lanesOf i.width i.ctx.am) [wordSrc i.f.a] = []) :=
  meets (st one) one (w2 0 5 0 0 0x600) (by decide +kernel) ⟨rfl, rfl, rfl⟩ (by decide +kernel)

theorem meets_CrossLaneInstructionsComplete_1 :
    Meets .vote (fun _ i => Unguarded i ∧ i.width ≤ 128) :=
  meets (st one) one (w2 0 0 6 0 0x104) (by decide +kernel) ⟨rfl, rfl, rfl⟩ (by decide +kernel)

theorem meets_CrossLaneInstructionsComplete_2 :
    Meets .shfl (fun s i => i.f.d.toNat < 112 ∧ i.f.a.toNat < 112 ∧ (i.mbit 7 = false → i.f.b.toNat < 124) ∧
      let n := if i.mbit 8 then 2 else 1
      let a : Src := { fld := i.f.a, n := n, al := n }
      let xs := if i.mbit 7 then [] else [wordSrc i.f.b]
      LaneReady s i (a :: xs) (.reg i.f.d n n true false) 0 s ∧ ∀ l < 128, srcPoison i l a = 0) :=
  meets (st one) one (w2 8 0 4 0 0) (by decide +kernel) ⟨rfl, rfl, rfl⟩ ⟨by decide, by decide, fun _ => by decide, ⟨by decide +kernel, by decide +kernel, by decide +kernel, rfl, fun _ => by decide +kernel⟩, by decide +kernel⟩

theorem meets_UnitReservationsComplete_1 :
    Meets .mres (fun s i => Unguarded i ∧ i.width ≤ 128 ∧
      ((s.unit (unitOf i.gid)).holder = some i.g.team ∨ ((s.unit (unitOf i.gid)).holder = none ∧ (s.unit (unitOf i.gid)).clearing = none ∧
        (s.unit (unitOf i.gid)).lastHolder = some i.g.team) ∨ ((s.unit (unitOf i.gid)).holder.isSome = true ∧ i.mbit 3 = false))) :=
  meets (stU one { holder := some 0 }) one (w1 0 0 0) (by decide +kernel) ⟨rfl, rfl, rfl⟩ (by decide +kernel)

theorem meets_UnitReservationsComplete_2 :
    Meets .mrel (fun s i => Unguarded i ∧ (s.unit (unitOf i.gid)).holder = some i.g.team ∧
      (s.unit (unitOf i.gid)).ops.all (fun o => o.team ≠ i.g.team)) :=
  meets (stU one { holder := some 0 }) one (w1 0 0 1) (by decide +kernel) ⟨rfl, rfl, rfl⟩ (by decide +kernel)

theorem meets_UnitReservationsComplete_3 :
    Meets .mwait (fun s i => Unguarded i ∧ ((s.unit (unitOf i.gid)).ops.filter fun o => o.gid = i.gid).length ≤ i.mb 5 0) :=
  meets (st one) one (w1 0 0 2) (by decide +kernel) ⟨rfl, rfl, rfl⟩ (by decide +kernel)

theorem meets_UnitReservationsComplete_4 :
    Meets .mfence (fun s i => Unguarded i ∧ s.storing i.gid = false) :=
  meets (st one) one (w1 0 0 3) (by decide +kernel) ⟨rfl, rfl, rfl⟩ (by decide +kernel)

theorem meets_MatrixOperationsQueue_1 :
    Meets .mma (fun s i =>
       let form := formOf i.f
       let fromQ := i.f.a == 125
       let nb := if form.mx then 2 else 1
       let gs := (if fromQ then [] else gNames i.f.a 3) ++ gNames i.f.b nb
       let args := (if fromQ then [0, 0, 0] else s.readGs i 0 i.f.a 3) ++ s.readGs i 1 i.f.b nb
       let m := Mma.ofArgs i.f args
       Unguarded i ∧ (fromQ = false → mxReg i.f.a 9 = []) ∧ mxReg i.f.b (if form.mx then 10 else 11) = [] ∧
       ¬(i.mbit 8 = true ∧ bitsOf i.f.c.toNat 4 0 = bitsOf i.f.d.toNat 4 0) ∧ gPoisonFaults i gs = [] ∧
       m.formatCodes (s.scratchSize i.g.team) = [] ∧ TakesOp s i m.occupancy ∧
       (fromQ = true → 64 * m.passes ≤ (s.unit (unitOf i.gid)).q1.length)) :=
  meets (stU (oneG [(0, 0x200000000)]) { holder := some 0, q1 := List.replicate 64 0 }) (oneG [(0, 0x200000000)]) (w2 3 125 112 0 0x1400) (by decide +kernel) ⟨rfl, rfl, rfl⟩ (by decide +kernel)

theorem meets_MatrixOperationsQueue_2 :
    Meets .mzero (fun s i => Unguarded i ∧ TakesOp s i (i.mb 4 0 + 1)) :=
  meets (stU one { holder := some 0 }) one (w2 0 0 4 0 1) (by decide +kernel) ⟨rfl, rfl, rfl⟩ (by decide +kernel)

theorem meets_MatrixOperationsQueue_3 :
    Meets .mlda (fun s i => Unguarded i ∧ ReadyG i i.f.a ∧ (localWord (valueG i i.f.a) 12288 (s.scratchSize i.g.team)).isSome = true ∧ TakesOp s i 48) :=
  meets (stU (oneG [(0, 256)]) { holder := some 0 }) (oneG [(0, 256)]) (w2 0 112 5 0 0) (by decide +kernel) ⟨rfl, rfl, rfl⟩ (by decide +kernel)

theorem meets_MatrixOperationsQueue_4 :
    ∃ n occ : Nat, Meets .msta (fun s i => Unguarded i ∧ ReadyG i i.f.a ∧ (n, occ) = (if i.f.tyCode i.o = 10 then (12288, 48) else (6144, 24)) ∧
       (localWord (valueG i i.f.a) n (s.scratchSize i.g.team)).isSome = true ∧ TakesOp s i occ) :=
  ⟨12288, 48, meets (stU (oneG [(0, 256)]) { holder := some 0 }) (oneG [(0, 256)]) (w2 0 112 6 0 0x1400) (by decide +kernel) ⟨rfl, rfl, rfl⟩ (by decide +kernel)⟩

theorem meets_MatrixOperationsQueue_5 :
    ∃ n : Nat, Meets .mldb (fun s i => Unguarded i ∧ ReadyG i i.f.a ∧ ReadyG i i.f.c ∧ n = bits (valueG i i.f.c) 52 32 ∧
       (localWord (valueG i i.f.a) n (s.scratchSize i.g.team)).isSome = true ∧ bits (valueG i i.f.c) 63 53 = 0 ∧ bits (valueG i i.f.c) 31 22 = 0 ∧
       n % 256 = 0 ∧ 0 < n ∧ n ≤ 0x100000 ∧ bits (valueG i i.f.c) 21 0 % 256 = 0 ∧ bits (valueG i i.f.c) 21 0 + n ≤ 2 ^ 22 ∧ TakesOp s i (n / 256)) :=
  ⟨256, meets (stU (oneG [(1, 0x10000000000)]) { holder := some 0 }) (oneG [(1, 0x10000000000)]) (w2 0 112 7 113 0) (by decide +kernel) ⟨rfl, rfl, rfl⟩ (by decide +kernel)⟩

theorem meets_TensorInstructionsComplete_1 :
    ∃ va ws s1, Meets .tdef (fun s i => i.g.acquiring = false ∧ Unguarded i ∧ NamesG i i.f.d ∧ ReadyG i i.f.a ∧
      va = (valueG i i.f.a).toNat % 2 ^ 56 ∧ va % 64 = 0 ∧ ImageReady s i 8 va ws s1 ∧ i.mbit 13 = false ∧
      ((s1.team i.g.team).tensor (s1.ownSide i.gid i.g.team) (i.mb 11 5)) = none ∧ 2 ≤ Tensor.ty ws ∧ Tensor.ty ws ≤ 17 ∧
      Tensor.resvOk ws = true ∧ Tensor.alignOk ws = true ∧ Tensor.geometryOk ws = true ∧ Tensor.flagsOk ws = true ∧ s1.entriesOn (coreOf i.gid) < 128) :=
  ⟨0x2000, imageWords (withMem (st (oneG [(1, 0x2000)])) [(0x2000, 0xA00000000010000)]) (iss (withMem (st (oneG [(1, 0x2000)])) [(0x2000, 0xA00000000010000)]) (oneG [(1, 0x2000)]) .tdef (w2 112 113 0 0 0x60)) 8 0x2000, (imageRead (withMem (st (oneG [(1, 0x2000)])) [(0x2000, 0xA00000000010000)]) (iss (withMem (st (oneG [(1, 0x2000)])) [(0x2000, 0xA00000000010000)]) (oneG [(1, 0x2000)]) .tdef (w2 112 113 0 0 0x60)) 8 0x2000).1, meets (withMem (st (oneG [(1, 0x2000)])) [(0x2000, 0xA00000000010000)]) (oneG [(1, 0x2000)]) (w2 112 113 0 0 0x60) (by decide +kernel) ⟨rfl, rfl, rfl⟩ (by and_intros <;> first | decide +kernel | exact imageReady (by decide +kernel))⟩

theorem meets_TensorInstructionsComplete_2 :
    ∃ w, Meets .tdefCommit (fun s i => Unguarded i ∧ NamesG i i.f.d ∧ gIndex i.f.d ≤ 11 ∧ ReadyG i i.f.a ∧ i.mbit 13 = false ∧
      namedWait i s false true false (i.mb 11 5) = false ∧ (s.team i.g.team).tensor (s.ownSide i.gid i.g.team) (i.mb 11 5) = some w ∧
      (valueG i i.f.a).getLsbD 0 = true) :=
  ⟨[0xA00000000010000, 0x20000, 0, 0, 0, 0, 0, 2], meets ({ st (oneG [(1, 1)]) { placedLaunch with scratch := 1 } with teams := [(0, { groups := [0], members := 1, tensors := [(3, [0xA00000000010000, 0x20000, 0, 0, 0, 0, 0, 2])] })] }) (oneG [(1, 1)]) (w2 112 113 0 0 0x1060) (by decide +kernel) ⟨rfl, rfl, rfl⟩ (by decide +kernel)⟩

theorem meets_TensorInstructionsComplete_3 :
    Meets .tkill (fun s i => Unguarded i ∧ i.mbit 13 = false ∧ namedWait i s false true true (i.mb 11 5) = false) :=
  meets ({ st (one) { placedLaunch with scratch := 1 } with teams := [(0, { groups := [0], members := 1, tensors := [(3, [0xA00000000010000, 0x20000, 0, 0, 0, 0, 0, 2])] })] }) one (w2 0 0 1 0 0x60) (by decide +kernel) ⟨rfl, rfl, rfl⟩ (by decide +kernel)

theorem meets_TensorInstructionsComplete_4 :
    ∃ w, Meets .tinfo (fun s i => Unguarded i ∧ NamesG i i.f.d ∧ (s.team i.g.team).tensor (s.ownSide i.gid i.g.team) (i.mb 11 5) = some w) :=
  ⟨[0xA00000000010000, 0x20000, 0, 0, 0, 0, 0, 2], meets ({ st (one) { placedLaunch with scratch := 1 } with teams := [(0, { groups := [0], members := 1, tensors := [(3, [0xA00000000010000, 0x20000, 0, 0, 0, 0, 0, 2])] })] }) one (w2 112 0 2 0 0x61) (by decide +kernel) ⟨rfl, rfl, rfl⟩ (by decide +kernel)⟩

theorem meets_TensorInstructionsComplete_5 :
    Meets .ctwr (fun _ i => Unguarded i ∧ mxReg i.f.a 8 = [] ∧ gPoisonFaults i (gNames i.f.a 4) = [] ∧
      (gNames i.f.a 4).all (fun n => !i.g.pendG n) = true) :=
  meets (st one) one (w2 0 112 3 0 1) (by decide +kernel) ⟨rfl, rfl, rfl⟩ (by decide +kernel)

theorem meets_FencesAndBarriersComplete_2 :
    ∃ s1, Meets .ifence (fun s i => i.g.acquiring = false ∧ s.storing i.gid = false ∧ s.releaseOr i.gid i.g (max 3 (i.mb 8 6)) = .ok s1) :=
  ⟨relOf (st one) (iss (st one) (one) .ifence (w1 0 0 2)) 3, meets (st one) one (w1 0 0 2) (by decide +kernel) ⟨rfl, rfl, rfl⟩ ⟨rfl, by decide +kernel, taken (by decide +kernel)⟩⟩

theorem meets_FencesAndBarriersComplete_3 :
    ∀ o ∈ [Op.bar, .barPass], ∃ s1 : State, Meets o (fun s i => i.g.acquiring = false ∧ Unguarded i ∧ i.g.spawned = false ∧ s.releaseOr i.gid i.g 1 = .ok s1) := by
  simp only [List.forall_mem_cons]
  exact ⟨⟨relOf (st one) (iss (st one) (one) .bar (w1 0 0 0)) 1, meets (st one) one (w1 0 0 0) (by decide +kernel) ⟨rfl, rfl, rfl⟩ (by and_intros <;> first | decide +kernel | rfl | exact taken (by decide +kernel) | exact imageReady (by decide +kernel) | exact (Option.some_get _).symm | exact nofun | exact fun _ => rfl | exact fun _ => by decide +kernel)⟩,
    ⟨relOf (st one) (iss (st one) (one) .barPass (w2 0 0 0 0 0x1000)) 1, meets (st one) one (w2 0 0 0 0 0x1000) (by decide +kernel) ⟨rfl, rfl, rfl⟩ (by and_intros <;> first | decide +kernel | rfl | exact taken (by decide +kernel) | exact imageReady (by decide +kernel) | exact (Option.some_get _).symm | exact nofun | exact fun _ => rfl | exact fun _ => by decide +kernel)⟩, nofun⟩

theorem meets_PrefetchAndWaitComplete_1 :
    Meets .pref (fun s i => i.g.acquiring = false ∧ operandFaults i [addrSrc i.f.a] .none = [] ∧ poisonFaults i i.list [addrSrc i.f.a] = [] ∧
       ∀ x ∈ (i.list.map fun l => (⟨l, ((((join64 (opn (s.operands i 0 l [addrSrc i.f.a]) 0)).toNat : Int) +
         (BitVec.ofNat 8 (i.mb 11 4)).toInt * 256) % 2 ^ 56).toNat, 1⟩ : Access)), x.va < localBase → ∀ v, s.locate i .hint x ≠ .walk v) :=
  meets (st (oneG [(0, 0x2000)])) (oneG [(0, 0x2000)]) (w1 0 112 1) (by decide +kernel) ⟨rfl, rfl, rfl⟩ (by
  refine ⟨rfl, by decide +kernel, by decide +kernel, ?_⟩
  intro x hx _ v
  rw [show x = ⟨0, 0x2000, 1⟩ from List.mem_singleton.mp hx]
  exact nofun)

theorem meets_BisectionCompletes_1 :
    Meets .ibis (fun s i => i.g.acquiring = false ∧ i.width ≤ 128 ∧ i.mb 8 7 = 0 ∧
      LaneReady s i [xsrc i.f.a i.ty.fmt 2] (xdst i.f.d i.ty.fmt 2) 0 s ∧ ReadyG i i.f.b ∧
      bits (valueG i i.f.b) 63 56 = 0 ∧ (valueG i i.f.b).toNat % 4 = 0 ∧
      ∀ l ∈ i.list, (ibisLane i.ty.fmt (i.mbit 6) (ivOpn i.ty.fmt (s.operands i 0 l [xsrc i.f.a i.ty.fmt 2]) 0)).2 = none) :=
  meets (st (oneG [(0, 0x4000)])) (oneG [(0, 0x4000)]) (w1 8 0 112) (by decide +kernel) ⟨rfl, rfl, rfl⟩ ⟨rfl, by decide, by decide, ⟨by decide +kernel, by decide +kernel, by decide +kernel, rfl, fun _ => by decide +kernel⟩, by decide +kernel, by decide +kernel, by decide +kernel, by decide +kernel⟩

theorem meets_SluiceInstructionsComplete_1 :
    ∃ (va : Nat) (b : List W64) (s1 s2 : State), Meets .copy (fun s i => i.g.acquiring = false ∧ Unguarded i ∧ ReadyG i i.f.a ∧ va = (valueG i i.f.a).toNat % 2 ^ 56 ∧ va % 128 = 0 ∧
         ImageReady s i 16 va b s1 ∧ i.g.spawned = false ∧ i.g.index = i.l.producer ∧
         let src : End := ⟨Block.endpoint b false, (endTensor i s1 (Block.endpoint b false)).getD []⟩
         let dst : End := ⟨Block.endpoint b true, (endTensor i s1 (Block.endpoint b true)).getD []⟩
         (endTensor i s1 (Block.endpoint b false)).isSome = true ∧ (endTensor i s1 (Block.endpoint b true)).isSome = true ∧
         (∀ q, src.quarter = some q ∨ dst.quarter = some q → (s1.unit (4 * coreOf i.gid + q)).holder = some i.g.team) ∧
         blockOk b src dst = true ∧ s1.extentFaults i .read src b = .ok [] ∧ s1.extentFaults i .write dst b = .ok [] ∧
         src.inBounds b (s1.scratchSize i.g.team) = true ∧ dst.inBounds b (s1.scratchSize i.g.team) = true ∧
         (Block.wantsWord b = true → Block.dw b 9 51 32 + 4 ≤ s1.scratchSize i.g.team) ∧ (s1.die (dieOf i.gid)).copies.length < 4096 ∧
         s1.releaseOr i.gid i.g (max 3 (i.mb 8 6)) = .ok s2) :=
  ⟨0x2000, imageWords (withMem (st (oneG [(1, 0x2000)])) [(0x2010, 0x4000), (0x2028, 0x5000)]) (iss (withMem (st (oneG [(1, 0x2000)])) [(0x2010, 0x4000), (0x2028, 0x5000)]) (oneG [(1, 0x2000)]) .copy (w2 0 113 0 0 0xC0)) 16 0x2000, (imageRead (withMem (st (oneG [(1, 0x2000)])) [(0x2010, 0x4000), (0x2028, 0x5000)]) (iss (withMem (st (oneG [(1, 0x2000)])) [(0x2010, 0x4000), (0x2028, 0x5000)]) (oneG [(1, 0x2000)]) .copy (w2 0 113 0 0 0xC0)) 16 0x2000).1, relOf (imageRead (withMem (st (oneG [(1, 0x2000)])) [(0x2010, 0x4000), (0x2028, 0x5000)]) (iss (withMem (st (oneG [(1, 0x2000)])) [(0x2010, 0x4000), (0x2028, 0x5000)]) (oneG [(1, 0x2000)]) .copy (w2 0 113 0 0 0xC0)) 16 0x2000).1 (iss (withMem (st (oneG [(1, 0x2000)])) [(0x2010, 0x4000), (0x2028, 0x5000)]) (oneG [(1, 0x2000)]) .copy (w2 0 113 0 0 0xC0)) 3, meets (withMem (st (oneG [(1, 0x2000)])) [(0x2010, 0x4000), (0x2028, 0x5000)]) (oneG [(1, 0x2000)]) (w2 0 113 0 0 0xC0) (by decide +kernel) ⟨rfl, rfl, rfl⟩ (by
  refine ⟨rfl, ⟨rfl, rfl⟩, by decide +kernel, by decide +kernel, by decide +kernel, imageReady (by decide +kernel), rfl, rfl, by decide +kernel, by decide +kernel, noQuarter (by decide +kernel) (by decide +kernel), by decide +kernel, noFaults (by decide +kernel), noFaults (by decide +kernel), by decide +kernel, by decide +kernel, by decide +kernel, by decide +kernel, taken (by decide +kernel)⟩)⟩

theorem meets_SluiceInstructionsComplete_2 :
    ∃ s1 g1, Meets .tdec (fun s i => i.g.acquiring = false ∧ Unguarded i ∧ ReadyG i i.f.a ∧ bits (valueG i i.f.a) 63 32 = 0 ∧
       (valueG i i.f.a).getLsbD 15 = true ∧ s.releaseOr i.gid i.g 4 = .ok s1 ∧ s1.group? i.gid = some g1) :=
  ⟨relOf (st (oneG [(0, 0x8001)])) (iss (st (oneG [(0, 0x8001)])) (oneG [(0, 0x8001)]) .tdec (w1 0 112 0)) 4, { ctx := oneG [(0, 0x8001)] }, meets (st (oneG [(0, 0x8001)])) (oneG [(0, 0x8001)]) (w1 0 112 0) (by decide +kernel) ⟨rfl, rfl, rfl⟩ ⟨rfl, ⟨rfl, rfl⟩, by decide +kernel, by decide +kernel, by decide +kernel, taken (by decide +kernel), by decide +kernel⟩⟩

theorem meets_SluiceInstructionsComplete_3 :
    ∃ va w s1 n, Meets .launch (fun s i => i.g.acquiring = false ∧ Unguarded i ∧ NamesG i i.f.d ∧ ReadyG i i.f.a ∧
       va = (valueG i i.f.a).toNat % 2 ^ 56 ∧ va % 128 = 0 ∧ ImageReady s i 16 va w s1 ∧ recordOk w = true ∧
       beyondRights i.l (parseLaunch w) = false ∧ s1.freeSlot (dieOf i.gid) = some n) :=
  ⟨0x2000, imageWords (withMem (st (oneG [(1, 0x2000)])) [(0x2000, 0x4000), (0x2010, 0x100200000)]) (iss (withMem (st (oneG [(1, 0x2000)])) [(0x2000, 0x4000), (0x2010, 0x100200000)]) (oneG [(1, 0x2000)]) .launch (w1 112 113 1)) 16 0x2000, (imageRead (withMem (st (oneG [(1, 0x2000)])) [(0x2000, 0x4000), (0x2010, 0x100200000)]) (iss (withMem (st (oneG [(1, 0x2000)])) [(0x2000, 0x4000), (0x2010, 0x100200000)]) (oneG [(1, 0x2000)]) .launch (w1 112 113 1)) 16 0x2000).1, 1, meets (withMem (st (oneG [(1, 0x2000)])) [(0x2000, 0x4000), (0x2010, 0x100200000)]) (oneG [(1, 0x2000)]) (w1 112 113 1) (by decide +kernel) ⟨rfl, rfl, rfl⟩ (by and_intros <;> first | decide +kernel | exact imageReady (by decide +kernel))⟩

theorem meets_SluiceInstructionsComplete_4 :
    Meets .tstat (fun _ i => Unguarded i ∧ NamesG i i.f.d ∧ ReadyG i i.f.a ∧ bits (valueG i i.f.a) 63 32 = 0 ∧ (valueG i i.f.a).getLsbD 15 = true) :=
  meets (st (oneG [(1, 0x8001)])) (oneG [(1, 0x8001)]) (w1 112 113 2) (by decide +kernel) ⟨rfl, rfl, rfl⟩ (by decide +kernel)

def rsetAt : State := withMem ({ st (oneG [(1, 0x2000)]) with diesT := [(0, { config := List.replicate 7 0 ++ [0x8000] })] }) ([(0x8000, 2 ^ 63 + 0x9000), (0x8008, 0), (0x2000, 2 ^ 63 + 0x10000F), (0x2008, 0x4400), (0x2010, 0x5000)])
def rsetAtI : Iss := iss rsetAt (oneG [(1, 0x2000)]) .rset (w2 112 113 0 0 0x80)
def rsetAtW : List W64 := imageWords rsetAt rsetAtI 4 0x2000
def rsetAtR : RangeRec := ⟨rsetAtW.getD 0 0, rsetAtW.getD 1 0, rsetAtW.getD 2 0, rsetAtW.getD 3 0⟩
def rsetAtS : State := relOf (imageRead rsetAt rsetAtI 4 0x2000).1 rsetAtI (rsetAtI.mb 8 6)
def rsetAtT : State := readOf (imageRead rsetAt rsetAtI 4 0x2000).1 rsetAtI rsetAtR.asid
def rsetAtD : Space := spaceFor rsetAtS rsetAtI rsetAtR.asid
def rsetAtL : List RangeRec := recordsFor rsetAtS rsetAtI rsetAtR.asid
def replAt : State := withMem ({ st (oneG [(1, 0x2000)]) with diesT := [(0, { config := List.replicate 7 0 ++ [0x8000] })] }) ([(0x8000, 2 ^ 63 + 0x9000), (0x8008, 1), (0x2000, 2 ^ 63 + 0x10000F), (0x2008, 0x4400), (0x2010, 0x5000)] ++ rec0)
def replAtI : Iss := iss replAt (oneG [(1, 0x2000)]) .rsetRepl (w2 112 113 0 0 0x2080)
def replAtW : List W64 := imageWords replAt replAtI 4 0x2000
def replAtR : RangeRec := ⟨replAtW.getD 0 0, replAtW.getD 1 0, replAtW.getD 2 0, replAtW.getD 3 0⟩
def replAtS : State := relOf (imageRead replAt replAtI 4 0x2000).1 replAtI (replAtI.mb 8 6)
def replAtT : State := readOf (imageRead replAt replAtI 4 0x2000).1 replAtI replAtR.asid
def replAtD : Space := spaceFor replAtS replAtI replAtR.asid
def replAtL : List RangeRec := recordsFor replAtS replAtI replAtR.asid

theorem meets_RangeSetsAndMissesComplete_1 :
    ∀ o ∈ [Op.rset, .rsetRepl], ∃ (va : Nat) (w : List W64) (s1 s2 s3 : State) (sp : Space) (rs : List RangeRec), Meets o (fun s i => i.g.acquiring = false ∧ Unguarded i ∧ NamesG i i.f.d ∧ ReadyG i i.f.a ∧ i.g.change = none ∧
         va = (valueG i i.f.a).toNat % 2 ^ 56 ∧ va % 32 = 0 ∧ ImageReady s i 4 va w s1 ∧
         let r : RangeRec := ⟨w.getD 0 0, w.getD 1 0, w.getD 2 0, w.getD 3 0⟩
         ChangeReady s1 i r.asid s2 sp rs ∧
         ∀ new force extent move, rsetChange (decide (o = .rsetRepl)) r sp rs = .became new force extent move → Settled s2 i r.asid extent s3) :=
  (List.forall_mem_cons.mpr ⟨⟨0x2000, rsetAtW, (imageRead rsetAt rsetAtI 4 0x2000).1, rsetAtT, settledFor rsetAtT rsetAtI rsetAtR.asid (rsetChange (decide ((.rset : Op) = .rsetRepl)) rsetAtR rsetAtD rsetAtL), rsetAtD, rsetAtL, meets (rsetAt) (oneG [(1, 0x2000)]) (w2 112 113 0 0 0x80) (by decide +kernel) ⟨rfl, rfl, rfl⟩ ⟨rfl, ⟨rfl, rfl⟩, by decide +kernel, by decide +kernel, rfl, by decide +kernel, by decide +kernel, imageReady (by decide +kernel), changeReady (by decide +kernel), settledAfter (by decide +kernel)⟩⟩,
    List.forall_mem_cons.mpr ⟨⟨0x2000, replAtW, (imageRead replAt replAtI 4 0x2000).1, replAtT, settledFor replAtT replAtI replAtR.asid (rsetChange (decide ((.rsetRepl : Op) = .rsetRepl)) replAtR replAtD replAtL), replAtD, replAtL, meets (replAt) (oneG [(1, 0x2000)]) (w2 112 113 0 0 0x2080) (by decide +kernel) ⟨rfl, rfl, rfl⟩ ⟨rfl, ⟨rfl, rfl⟩, by decide +kernel, by decide +kernel, rfl, by decide +kernel, by decide +kernel, imageReady (by decide +kernel), changeReady (by decide +kernel), settledAfter (by decide +kernel)⟩⟩, nofun⟩⟩)

theorem meets_RangeSetsAndMissesComplete_2 :
    ∀ o ∈ [Op.rsplit, .rmerge, .rinv, .rcomp], Meets o (fun _ i => i.g.acquiring = false ∧ Unguarded i ∧ NamesG i i.f.d ∧ ReadyG i i.f.a ∧ (o = .rcomp → ReadyG i i.f.c) ∧ i.g.change = none ∧
         ((keyOf (valueG i i.f.a)).resv = true ∨ (o = .rcomp ∧ badTarget (valueG i i.f.c).toNat = true))) := by
  simp only [List.forall_mem_cons]
  exact ⟨meets (st (oneG [(0, 2 ^ 63)])) (oneG [(0, 2 ^ 63)]) (w2 113 112 1 0 0x80) (by decide +kernel) ⟨rfl, rfl, rfl⟩ (by and_intros <;> first | decide +kernel | rfl | exact imageReady (by decide +kernel) | exact .inl (by decide +kernel)),
    meets (st (oneG [(0, 2 ^ 63)])) (oneG [(0, 2 ^ 63)]) (w2 113 112 2 0 0x80) (by decide +kernel) ⟨rfl, rfl, rfl⟩ (by and_intros <;> first | decide +kernel | rfl | exact imageReady (by decide +kernel) | exact .inl (by decide +kernel)),
    meets (st (oneG [(0, 2 ^ 63)])) (oneG [(0, 2 ^ 63)]) (w2 113 112 3 0 0x80) (by decide +kernel) ⟨rfl, rfl, rfl⟩ (by and_intros <;> first | decide +kernel | rfl | exact imageReady (by decide +kernel) | exact .inl (by decide +kernel)),
    meets (st (oneG [(0, 2 ^ 63)])) (oneG [(0, 2 ^ 63)]) (w2 113 112 5 114 0x80) (by decide +kernel) ⟨rfl, rfl, rfl⟩ (by and_intros <;> first | decide +kernel | rfl | exact imageReady (by decide +kernel) | exact .inl (by decide +kernel)), nofun⟩

def splitAt_ : State := stD (oneG [(0, 0x4200)]) 1 rec0
def splitAt_I : Iss := iss splitAt_ (oneG [(0, 0x4200)]) .rsplit (w2 113 112 1 0 0x80)
def splitAt_S : State := relOf splitAt_ splitAt_I (splitAt_I.mb 8 6)
def splitAt_T : State := readOf splitAt_ splitAt_I 0
def splitAt_D : Space := spaceFor splitAt_S splitAt_I 0
def splitAt_L : List RangeRec := recordsFor splitAt_S splitAt_I 0
def mergeAt : State := stD (oneG [(0, 0x4400)]) 2 (rec0 ++ rec1)
def mergeAtI : Iss := iss mergeAt (oneG [(0, 0x4400)]) .rmerge (w2 113 112 2 0 0x80)
def mergeAtS : State := relOf mergeAt mergeAtI (mergeAtI.mb 8 6)
def mergeAtT : State := readOf mergeAt mergeAtI 0
def mergeAtD : Space := spaceFor mergeAtS mergeAtI 0
def mergeAtL : List RangeRec := recordsFor mergeAtS mergeAtI 0
def invAt : State := stD (oneG [(0, 0x4000)]) 1 rec0
def invAtI : Iss := iss invAt (oneG [(0, 0x4000)]) .rinv (w2 113 112 3 0 0x2080)
def invAtS : State := relOf invAt invAtI (invAtI.mb 8 6)
def invAtT : State := readOf invAt invAtI 0
def invAtD : Space := spaceFor invAtS invAtI 0
def invAtL : List RangeRec := recordsFor invAtS invAtI 0
def compAt : State := stD (oneG [(0, 0x4000), (2, 0x200000)]) 1 rec0
def compAtI : Iss := iss compAt (oneG [(0, 0x4000), (2, 0x200000)]) .rcomp (w2 113 112 5 114 0x80)
def compAtS : State := relOf compAt compAtI (compAtI.mb 8 6)
def compAtT : State := readOf compAt compAtI 0
def compAtD : Space := spaceFor compAtS compAtI 0
def compAtL : List RangeRec := recordsFor compAtS compAtI 0

theorem meets_RangeChangesComplete_1 :
    ∀ p ∈ [(Op.rsplit, (fun _ => rsplitChange : Iss → Key → Space → List RangeRec → Change)), (.rmerge, fun _ => rmergeChange), (.rinv, fun _ => rinvChange), (.rcomp, fun i => rcompChange i (valueG i i.f.c).toNat)], ∃ (k : Key) (s2 s3 : State) (sp : Space) (rs : List RangeRec), Meets p.1 (fun s i => i.g.acquiring = false ∧ Unguarded i ∧ NamesG i i.f.d ∧ ReadyG i i.f.a ∧ i.g.change = none ∧
         (p.1 = .rinv → i.mbit 13 = true) ∧ (p.1 = .rcomp → ReadyG i i.f.c ∧ badTarget (valueG i i.f.c).toNat = false) ∧
         k = keyOf (valueG i i.f.a) ∧ k.resv = false ∧ ChangeReady s i k.asid s2 sp rs ∧
         ∀ new force extent move, p.2 i k sp rs = .became new force extent move → Settled s2 i k.asid extent s3) := by
  simp only [List.forall_mem_cons]
  exact ⟨⟨⟨0, 0x108000, false⟩, splitAt_T, settledFor splitAt_T splitAt_I 0 (rsplitChange ⟨0, 0x108000, false⟩ splitAt_D splitAt_L), splitAt_D, splitAt_L, meets (splitAt_) (oneG [(0, 0x4200)]) (w2 113 112 1 0 0x80) (by decide +kernel) ⟨rfl, rfl, rfl⟩ ⟨rfl, ⟨rfl, rfl⟩, by decide +kernel, by decide +kernel, rfl, by decide +kernel, by decide +kernel, by decide +kernel, rfl, changeReady (by decide +kernel), settledAfter (by decide +kernel)⟩⟩,
    ⟨⟨0, 0x110000, false⟩, mergeAtT, settledFor mergeAtT mergeAtI 0 (rmergeChange ⟨0, 0x110000, false⟩ mergeAtD mergeAtL), mergeAtD, mergeAtL, meets (mergeAt) (oneG [(0, 0x4400)]) (w2 113 112 2 0 0x80) (by decide +kernel) ⟨rfl, rfl, rfl⟩ ⟨rfl, ⟨rfl, rfl⟩, by decide +kernel, by decide +kernel, rfl, by decide +kernel, by decide +kernel, by decide +kernel, rfl, changeReady (by decide +kernel), settledAfter (by decide +kernel)⟩⟩,
    ⟨⟨0, 0x100000, false⟩, invAtT, settledFor invAtT invAtI 0 (rinvChange ⟨0, 0x100000, false⟩ invAtD invAtL), invAtD, invAtL, meets (invAt) (oneG [(0, 0x4000)]) (w2 113 112 3 0 0x2080) (by decide +kernel) ⟨rfl, rfl, rfl⟩ ⟨rfl, ⟨rfl, rfl⟩, by decide +kernel, by decide +kernel, rfl, by decide +kernel, by decide +kernel, by decide +kernel, rfl, changeReady (by decide +kernel), settledAfter (by decide +kernel)⟩⟩,
    ⟨⟨0, 0x100000, false⟩, compAtT, settledFor compAtT compAtI 0 (rcompChange compAtI (valueG compAtI compAtI.f.c).toNat ⟨0, 0x100000, false⟩ compAtD compAtL), compAtD, compAtL, meets (compAt) (oneG [(0, 0x4000), (2, 0x200000)]) (w2 113 112 5 114 0x80) (by decide +kernel) ⟨rfl, rfl, rfl⟩ ⟨rfl, ⟨rfl, rfl⟩, by decide +kernel, by decide +kernel, rfl, by decide +kernel, by decide +kernel, by decide +kernel, rfl, changeReady (by decide +kernel), settledAfter (by decide +kernel)⟩⟩, nofun⟩

theorem meets_ObservationCompletes_1 :
    Meets .enter (fun _ i => Unguarded i) :=
  meets (st one) one (w2 0 0 0 0 5) (by decide +kernel) ⟨rfl, rfl, rfl⟩ (by decide +kernel)

theorem meets_ObservationCompletes_2 :
    Meets .leave (fun _ i => Unguarded i) :=
  meets (st one) one (w1 0 0 1) (by decide +kernel) ⟨rfl, rfl, rfl⟩ (by decide +kernel)

theorem meets_ObservationCompletes_3 :
    ∃ va w s1, Meets .watch (fun s i => i.g.acquiring = false ∧ Unguarded i ∧ NamesG i i.f.d ∧ ReadyG i i.f.a ∧
      va = (valueG i i.f.a).toNat % 2 ^ 56 ∧ va % 32 = 0 ∧ ImageReady s i 4 va w s1 ∧ watchOk w = true) :=
  ⟨0x2000, imageWords (withMem (st (oneG [(1, 0x2000)])) [(0x2010, 4)]) (iss (withMem (st (oneG [(1, 0x2000)])) [(0x2010, 4)]) (oneG [(1, 0x2000)]) .watch (w1 112 113 2)) 4 0x2000, (imageRead (withMem (st (oneG [(1, 0x2000)])) [(0x2010, 4)]) (iss (withMem (st (oneG [(1, 0x2000)])) [(0x2010, 4)]) (oneG [(1, 0x2000)]) .watch (w1 112 113 2)) 4 0x2000).1, meets (withMem (st (oneG [(1, 0x2000)])) [(0x2010, 4)]) (oneG [(1, 0x2000)]) (w1 112 113 2) (by decide +kernel) ⟨rfl, rfl, rfl⟩ (by and_intros <;> first | decide +kernel | exact imageReady (by decide +kernel))⟩

theorem meets_ObservationCompletes_4 :
    ∃ c, Meets .sampl (fun _ i => Unguarded i ∧ NamesG i i.f.d ∧ ReadyG i i.f.a ∧ samplingOk (valueG i i.f.a) = true ∧
      c = 16 * dieOf i.gid + bits (valueG i i.f.a) 55 52) :=
  ⟨0, meets (st (oneG [(1, 0x8001000000000040)])) (oneG [(1, 0x8001000000000040)]) (w1 112 113 3) (by decide +kernel) ⟨rfl, rfl, rfl⟩ (by decide +kernel)⟩

theorem meets_GroupEventsHappen_1 :
    ∃ gid g, Can (.resultWriteback gid) (fun s => s.group? gid = some g ∧ g.stat = .parkedSwitch ∧ g.stop = none ∧ s.come g.outst = true) :=
  ⟨0, { stat := .parkedSwitch }, can ({ State.reset with groups := [(0, { stat := .parkedSwitch })] }) rfl (by and_intros <;> first | decide +kernel | rfl | exact taken (by decide +kernel) | exact imageReady (by decide +kernel) | exact (Option.some_get _).symm | exact nofun | exact fun _ => rfl | exact fun _ => by decide +kernel)⟩

theorem meets_GroupEventsHappen_2 :
    ∃ gid g r, Can (.resultWriteback gid) (fun s => s.group? gid = some g ∧ g.stat = .runahead ∧ g.ra = some r ∧ r.entry ≠ [] ∧
      s.come r.entry = true) :=
  ⟨0, { stat := .runahead, ra := some ⟨{}, [aLoad 0], [], 0, []⟩ }, ⟨{}, [aLoad 0], [], 0, []⟩, can ({ State.reset with groups := [(0, { stat := .runahead, ra := some ⟨{}, [aLoad 0], [], 0, []⟩ })] }) rfl (by and_intros <;> first | decide +kernel | rfl | exact taken (by decide +kernel) | exact imageReady (by decide +kernel) | exact (Option.some_get _).symm | exact nofun | exact fun _ => rfl | exact fun _ => by decide +kernel)⟩

theorem meets_GroupEventsHappen_3 :
    ∃ gid g, Can (.writeAcknowledgement gid) (fun s => s.group? gid = some g ∧ s.owedAcks gid < g.acks) :=
  ⟨0, { acks := 1 }, can ({ State.reset with groups := [(0, { acks := 1 })] }) rfl (by and_intros <;> first | decide +kernel | rfl | exact taken (by decide +kernel) | exact imageReady (by decide +kernel) | exact (Option.some_get _).symm | exact nofun | exact fun _ => rfl | exact fun _ => by decide +kernel)⟩

theorem meets_GroupEventsHappen_5 :
    ∃ gid g, Can (.groupEnd gid) (fun s => s.group? gid = some g ∧ g.stat = .ended ∧ g.outst = [] ∧ g.acks = 0 ∧ s.quiet gid = true ∧
      s.storing gid = false) :=
  ⟨0, { stat := .ended }, can ({ State.reset with groups := [(0, { stat := .ended })] }) rfl (by and_intros <;> first | decide +kernel | rfl | exact taken (by decide +kernel) | exact imageReady (by decide +kernel) | exact (Option.some_get _).symm | exact nofun | exact fun _ => rfl | exact fun _ => by decide +kernel)⟩

theorem meets_GroupEventsHappen_7 :
    ∃ gid g k n, Can (.spawnStallReissue gid) (fun s => s.group? gid = some g ∧ g.stat = .waiting (.pan k n) ∧ s.stopping g.team = false ∧
      ∀ p, s.pan? (coreOf gid) k = some p → p.children.length + n ≤ Config.panSize) :=
  ⟨0, { stat := .waiting (.pan 0 1) }, 0, 1, can ({ State.reset with groups := [(0, { stat := .waiting (.pan 0 1) })] }) rfl (by and_intros <;> first | decide +kernel | rfl | exact taken (by decide +kernel) | exact imageReady (by decide +kernel) | exact (Option.some_get _).symm | exact nofun | exact fun _ => rfl | exact fun _ => by decide +kernel)⟩

theorem meets_RunaheadEventsHappen_1 :
    ∃ gid g, Can (.runaheadEntry gid) (fun s => s.group? gid = some g ∧ g.stat = .parkedSwitch ∧ g.ra = none ∧ g.ranAhead = false ∧
      g.stop = none ∧ s.stopping g.team = false ∧ (∃ o ∈ g.outst, s.awaited o = true ∧ o.time + 300 < s.clock) ∧ s.runningAhead (unitOf gid) < 2 ∧
      256 ≤ s.freeSlices (unitOf gid)) :=
  ⟨0, { stat := .parkedSwitch, outst := [aLoad 1000] }, can ({ State.reset with groups := [(0, { stat := .parkedSwitch, outst := [aLoad 1000] })], clock := 301 }) rfl (by and_intros <;> first | decide +kernel | rfl | exact taken (by decide +kernel) | exact imageReady (by decide +kernel) | exact (Option.some_get _).symm | exact nofun | exact fun _ => rfl | exact fun _ => by decide +kernel)⟩

theorem meets_RunaheadEventsHappen_2 :
    ∃ gid g r, Can (.runaheadExit gid) (fun s => s.group? gid = some g ∧ g.ra = some r ∧
      (r.entry = [] ∨ 512 ≤ r.count ∨ (s.starved (unitOf gid)).isSome = true ∨ s.stopping g.team = true)) :=
  ⟨0, { stat := .runahead, ra := some ⟨{}, [], [], 0, []⟩ }, ⟨{}, [], [], 0, []⟩, can ({ State.reset with groups := [(0, { stat := .runahead, ra := some ⟨{}, [], [], 0, []⟩ })] }) rfl (by and_intros <;> first | decide +kernel | rfl | exact taken (by decide +kernel) | exact imageReady (by decide +kernel) | exact (Option.some_get _).symm | exact nofun | exact fun _ => rfl | exact fun _ => by decide +kernel)⟩

def saveAt : State := { st one with groups := [(0, { stat := .waiting (.pool 4000) }), (4, { stamp := 1, ctx := { bound := [0] } })] }
def saveGroup : Group := { stamp := 1, ctx := { bound := [0] } }
def saveWritten : State × Bool :=
  saveAt.writeCells (saveAt.imager 0 0) 0 (saveAt.imageBase 0 (saveAt.sideIn 0 4))
    ((groupImage { saveGroup.written with stat := savedStat saveGroup.written, answers := [], age := 0, aged := false } (saveAt.startOrder saveGroup.written)).map fun c =>
      { c with off := c.off + groupAt (saveAt.launchOf saveGroup.written) (slotOf 4) })

theorem meets_PoolAndPanEventsHappen_1 :
    ∃ k gid g0 s1, Can (.forcedSave k) (fun s => s.saveVictim k = some (gid, g0) ∧
      (let g := g0.written
       let g1 := { g with stat := savedStat g, answers := [], age := 0, aged := false }
       s.writeCells (s.imager g.team (coreOf gid)) (coreOf gid) (s.imageBase g.team (s.sideIn g.team gid))
         ((groupImage g1 (s.startOrder g)).map fun c => { c with off := c.off + groupAt (s.launchOf g) (slotOf gid) }) = (s1, true))) :=
  ⟨0, 4, saveGroup, saveWritten.1, can (saveAt) rfl ⟨by decide +kernel, sndEq (x := saveWritten) (by decide +kernel)⟩⟩

theorem meets_PoolAndPanEventsHappen_2 :
    ∃ k gid g b w, Can (.forcedSaveRestore k) (fun s => s.restoreNext k = some (gid, g) ∧ g.stat = .saved b w ∧
      s.askCells (s.imager g.team (coreOf gid)) (coreOf gid) (s.imageBase g.team (s.sideIn g.team gid) + groupAt (s.launchOf g) (slotOf gid))
        (groupImage g 0) = none) :=
  ⟨0, 0, { stat := .saved none false }, none, false, can ({ st one with groups := [(0, { stat := .saved none false })] }) rfl (by and_intros <;> first | decide +kernel | rfl | exact taken (by decide +kernel) | exact imageReady (by decide +kernel) | exact (Option.some_get _).symm | exact nofun | exact fun _ => rfl | exact fun _ => by decide +kernel)⟩

theorem meets_PoolAndPanEventsHappen_3 :
    ∃ core k p, Can (.panTimerExpiry core k) (fun s => s.pan? core k = some p ∧ p.children ≠ [] ∧ p.expired = false ∧
      p.started + panClk (s.task p.task).launch ≤ s.clock) :=
  ⟨0, 0, ⟨0, 0, 0x4000, 0, [[]], 0, false⟩, can ({ State.reset with clock := 2 ^ 32, cores := [(0, { pans := [(0, ⟨0, 0, 0x4000, 0, [[]], 0, false⟩)] })] }) rfl (by and_intros <;> first | decide +kernel | rfl | exact taken (by decide +kernel) | exact imageReady (by decide +kernel) | exact (Option.some_get _).symm | exact nofun | exact fun _ => rfl | exact fun _ => by decide +kernel)⟩

theorem meets_PoolAndPanEventsHappen_4 :
    ∃ core k p gid, Can (.panLaunch core k) (fun s => s.panSlot core k = some (p, gid)) :=
  ⟨0, 0, ⟨0, 0, 0x4000, 0, [[]], 0, true⟩, 0, can ({ State.reset with cores := [(0, { pans := [(0, ⟨0, 0, 0x4000, 0, [[]], 0, true⟩)] })] }) rfl (by and_intros <;> first | decide +kernel | rfl | exact taken (by decide +kernel) | exact imageReady (by decide +kernel) | exact (Option.some_get _).symm | exact nofun | exact fun _ => rfl | exact fun _ => by decide +kernel)⟩

theorem meets_PoolAndPanEventsHappen_5 :
    ∃ cl gid key id r, Can (.barrierUnitArrival cl) (fun s => (s.cluster cl).arrivals = (gid, key, id, false) :: r ∧ (tfind s.teams key).isSome = true) :=
  ⟨0, 0, 0, 0, [], can ({ State.reset with clusters := [(0, { arrivals := [(0, 0, 0, false)] })], teams := [(0, {})] }) rfl (by and_intros <;> first | decide +kernel | rfl | exact taken (by decide +kernel) | exact imageReady (by decide +kernel) | exact (Option.some_get _).symm | exact nofun | exact fun _ => rfl | exact fun _ => by decide +kernel)⟩

theorem meets_PoolAndPanEventsHappen_6 :
    ∃ cl gid key id r g i back sw, Can (.barrierUnitArrival cl) (fun s => (s.cluster cl).arrivals = (gid, key, id, true) :: r ∧
      (tfind s.teams key).isSome = true ∧ s.group? gid = some g ∧ g.stat = .waiting (.arriving i back sw)) :=
  ⟨0, 0, 0, 0, [], { stat := .waiting (.arriving 0 0 false) }, 0, 0, false, can ({ State.reset with groups := [(0, { stat := .waiting (.arriving 0 0 false) })], clusters := [(0, { arrivals := [(0, 0, 0, true)] })], teams := [(0, {})] }) rfl (by and_intros <;> first | decide +kernel | rfl | exact taken (by decide +kernel) | exact imageReady (by decide +kernel) | exact (Option.some_get _).symm | exact nofun | exact fun _ => rfl | exact fun _ => by decide +kernel)⟩

theorem meets_PoolAndPanEventsHappen_9 :
    ∃ core key, Can (.overflowMove core key) (fun s => trising (s.core core).pans = true ∧ (s.team key).on core = true ∧
      0 < (s.team key).spilled ∧ s.stopping key = false ∧
      ((s.moveEntry core key (s.teamLaunch key).overflowCap 0).team key).spilled < (s.team key).spilled) :=
  ⟨0, 0, can (withMem { st one { placedLaunch with overflowCap := 1, overflowBase := 0x10000 } with teams := [(0, { groups := [0], members := 1, spilled := 1 })] } [(0x10010, 2 ^ 63 + 0x4000)]) rfl (by and_intros <;> first | decide +kernel | rfl | exact taken (by decide +kernel) | exact imageReady (by decide +kernel) | exact (Option.some_get _).symm | exact nofun | exact fun _ => rfl | exact fun _ => by decide +kernel)⟩

theorem meets_ObservationEventsHappen_1 :
    ∃ k, Can (.sampleTag k) (fun s => (s.unit k).toTag = some 0 ∧ (s.unit k).tagNext = false) :=
  ⟨0, can ({ State.reset with units := [(0, { toTag := some 0 })] }) rfl (by and_intros <;> first | decide +kernel | rfl | exact taken (by decide +kernel) | exact imageReady (by decide +kernel) | exact (Option.some_get _).symm | exact nofun | exact fun _ => rfl | exact fun _ => by decide +kernel)⟩

theorem meets_ObservationEventsHappen_2 :
    ∃ k gid w g, ∃ early : Bool, Can (.sampleRecord k) (fun s => (s.unit k).tagged = some (gid, w) ∧ s.group? gid = some g ∧ bits (w.getD 2 0) 63 32 = 0 ∧
      (if early then g.stat = .parkedFault else g.stat ≠ .parkedFault ∧ g.ra = none ∧
        ∀ o ∈ g.outst, o.seq = (s.unit k).tagSeq → o.due ≤ s.clock)) :=
  ⟨0, 0, [], {}, false, can ({ State.reset with groups := [(0, {})], units := [(0, { tagged := some (0, []) })] }) rfl (by and_intros <;> first | decide +kernel | rfl | exact taken (by decide +kernel) | exact imageReady (by decide +kernel) | exact (Option.some_get _).symm | exact nofun | exact fun _ => rfl | exact fun _ => by decide +kernel)⟩

theorem meets_ObservationEventsHappen_2_early :
    ∃ k gid w g, ∃ early : Bool, Can (.sampleRecord k) (fun s => (s.unit k).tagged = some (gid, w) ∧ s.group? gid = some g ∧ bits (w.getD 2 0) 63 32 = 0 ∧
      (if early then g.stat = .parkedFault else g.stat ≠ .parkedFault ∧ g.ra = none ∧
        ∀ o ∈ g.outst, o.seq = (s.unit k).tagSeq → o.due ≤ s.clock)) :=
  ⟨0, 0, [], { stat := .parkedFault }, true, can ({ State.reset with groups := [(0, { stat := .parkedFault })], units := [(0, { tagged := some (0, []) })] }) rfl (by and_intros <;> first | decide +kernel | rfl | exact taken (by decide +kernel) | exact imageReady (by decide +kernel) | exact (Option.some_get _).symm | exact nofun | exact fun _ => rfl | exact fun _ => by decide +kernel)⟩

theorem meets_ObservationEventsHappen_3 :
    ∃ gid g code a m, Can (.watchStop gid) (fun s => s.group? gid = some g ∧ g.stop = some (code, a, m) ∧ code < 2 ^ 16 ∧ g.outst = [] ∧ g.ra = none) :=
  ⟨0, { stop := some (1, 0, 0) }, 1, 0, 0, can ({ State.reset with groups := [(0, { stop := some (1, 0, 0) })] }) rfl (by and_intros <;> first | decide +kernel | rfl | exact taken (by decide +kernel) | exact imageReady (by decide +kernel) | exact (Option.some_get _).symm | exact nofun | exact fun _ => rfl | exact fun _ => by decide +kernel)⟩

theorem meets_UnitEventsHappen_1 :
    ∃ k team, Can (.unitClearComplete k) (fun s => (s.unit k).clearing = some team ∧ (s.unit k).holder = none) :=
  ⟨0, 0, can ({ State.reset with units := [(0, { clearing := some 0 })] }) rfl (by and_intros <;> first | decide +kernel | rfl | exact taken (by decide +kernel) | exact imageReady (by decide +kernel) | exact (Option.some_get _).symm | exact nofun | exact fun _ => rfl | exact fun _ => by decide +kernel)⟩

theorem meets_UnitEventsHappen_2 :
    ∃ k l o r, Can (.matrixOperationExecute k) (fun s => (s.unit k).ops = l ++ o :: r ∧ (∀ x ∈ l, x.executed = true) ∧ o.executed = false) :=
  ⟨0, [], { seq := 0, issued := 0, fence := 0, occ := 1, side := 0, gid := 0, team := 0, o := .mzero, f := w2 0 0 4 0 0, args := [] }, [], can ({ State.reset with units := [(0, { ops := [{ seq := 0, issued := 0, fence := 0, occ := 1, side := 0, gid := 0, team := 0, o := .mzero, f := w2 0 0 4 0 0, args := [] }] })] }) rfl (by and_intros <;> first | decide +kernel | rfl | exact taken (by decide +kernel) | exact imageReady (by decide +kernel) | exact (Option.some_get _).symm | exact nofun | exact fun _ => rfl | exact fun _ => by decide +kernel)⟩

theorem meets_UnitEventsHappen_3 :
    ∃ k o r, Can (.matrixOperationComplete k) (fun s => (s.unit k).ops = o :: r ∧ o.executed = true ∧ o.o ∈ [Op.mma, .mzero, .mlda, .msta, .mldb]) :=
  ⟨0, { seq := 0, issued := 0, fence := 0, occ := 1, side := 0, gid := 0, team := 0, o := .mzero, f := w2 0 0 4 0 0, args := [], executed := true }, [], can ({ State.reset with units := [(0, { ops := [{ seq := 0, issued := 0, fence := 0, occ := 1, side := 0, gid := 0, team := 0, o := .mzero, f := w2 0 0 4 0 0, args := [], executed := true }] })] }) rfl (by and_intros <;> first | decide +kernel | rfl | exact taken (by decide +kernel) | exact imageReady (by decide +kernel) | exact (Option.some_get _).symm | exact nofun | exact fun _ => rfl | exact fun _ => by decide +kernel)⟩

theorem meets_UnitEventsHappen_4 :
    ∃ k team, Can (.unitRelease k) (fun s => (s.unit k).holder = some team ∧ (∀ o ∈ (s.unit k).ops, o.team ≠ team) ∧
      (s.teamOver team = true ∨ ∃ e ∈ s.groups, unitOf e.1 = k ∧ e.2.team = team ∧ e.2.stat = .waiting (.unit uRelease 0))) :=
  ⟨0, 0, can ({ State.reset with units := [(0, { holder := some 0 })] }) rfl (by and_intros <;> first | decide +kernel | rfl | exact taken (by decide +kernel) | exact imageReady (by decide +kernel) | exact (Option.some_get _).symm | exact nofun | exact fun _ => rfl | exact fun _ => by decide +kernel)⟩

theorem meets_UnitEventsHappen_5 :
    ∃ k o r s1 st, Can (.mdrainAbort k) (fun s => (s.unit k).ops = o :: r ∧ o.o = .mdrain ∧ o.aborted = true ∧ o.stored = false ∧
      s.runDrain k o (s.unit k) = (s1, some st) ∧ (s1.ports.any fun p => p.2.waiting.any fun x => x.who = drainWho k) = false) :=
  ⟨0, { seq := 0, issued := 0, fence := 0, occ := 1, side := 0, gid := 0, team := 0, o := .mdrain, f := w2 0 0 4 0 0, args := [], aborted := true }, [], { State.reset with units := [(0, { ops := [{ seq := 0, issued := 0, fence := 0, occ := 1, side := 0, gid := 0, team := 0, o := .mdrain, f := w2 0 0 4 0 0, args := [], aborted := true }], accPoison := [(0, true)] })] }, 2, can ({ State.reset with units := [(0, { ops := [{ seq := 0, issued := 0, fence := 0, occ := 1, side := 0, gid := 0, team := 0, o := .mdrain, f := w2 0 0 4 0 0, args := [], aborted := true }], accPoison := [(0, true)] })] }) rfl (by
  refine ⟨rfl, rfl, rfl, rfl, ?_, by decide +kernel⟩
  rw [State.runDrain, if_pos (by decide +kernel)])⟩

theorem meets_RangeEventsHappen_4 :
    ∃ cl n r s1, Can (.walkGenerationRetry cl) (fun s => s.due cl = some n ∧ (s.cluster cl).queue[n]? = some r ∧
      s.walk (walker cl) (cl / 4) r.asid r.va = (s1, .odd) ∧ (s1.cluster cl) = s.cluster cl) :=
  ⟨0, 0, ⟨none, 0, 0, 0x100000, false, 1, true, none, 0, 0⟩, (State.walk ({ stD one (2 ^ 32) rec0 with clock := 1, clusters := [(0, { queue := [⟨none, 0, 0, 0x100000, false, 1, true, none, 0, 0⟩] })] }) (walker 0) 0 0 0x100000).1, can ({ stD one (2 ^ 32) rec0 with clock := 1, clusters := [(0, { queue := [⟨none, 0, 0, 0x100000, false, 1, true, none, 0, 0⟩] })] }) rfl (by and_intros <;> first | decide +kernel | rfl | exact taken (by decide +kernel) | exact imageReady (by decide +kernel) | exact (Option.some_get _).symm | exact nofun | exact fun _ => rfl | exact fun _ => by decide +kernel | exact walkOdd (by decide +kernel))⟩

theorem meets_RangeEventsHappen_5 :
    ∃ cl r e l gid g vas, Can (.rangeTableFill cl) (fun s => (s.cluster cl).results = (r, .found e) :: l ∧ r.gid = some gid ∧
      r.ra = false ∧ s.group? gid = some g ∧ g.stat = .waiting (.walk vas) ∧ clusterOf gid = cl ∧ (∀ q ∈ (s.cluster cl).queue, q.gid ≠ some gid) ∧
      ∀ x ∈ l, x.1.gid ≠ some gid) :=
  ⟨0, ⟨some 0, 0, 0, 0x100000, false, 0, false, none, 0, 0⟩, ⟨⟨0x800000000010000F, 0x4400, 0x4000, 0⟩, 0, 0, []⟩, [], 0, { stat := .waiting (.walk []) }, [], can ({ State.reset with groups := [(0, { stat := .waiting (.walk []) })], clusters := [(0, { results := [(⟨some 0, 0, 0, 0x100000, false, 0, false, none, 0, 0⟩, .found ⟨⟨0x800000000010000F, 0x4400, 0x4000, 0⟩, 0, 0, []⟩)] })] }) rfl (by and_intros <;> first | decide +kernel | rfl | exact taken (by decide +kernel) | exact imageReady (by decide +kernel) | exact (Option.some_get _).symm | exact nofun | exact fun _ => rfl | exact fun _ => by decide +kernel)⟩

theorem meets_RangeEventsHappen_7 :
    ∃ cl, Can (.walkerError cl) (fun _ => True) :=
  ⟨0, can (State.reset) rfl trivial⟩

theorem meets_RangeEventsHappen_9 :
    ∃ n m w x, Can (.compactionUnitMove n) (fun s => s.move? n = some (m, w) ∧ 256 * m.done < m.size ∧ s.quiet (s.mover m 0).who = true ∧
      m.sent = false ∧ m.held = true ∧ s.askUnit w (m.src + 256 * m.done) (m.dst + 256 * m.done) = none ∧
      x = s.copyUnit w (m.src + 256 * m.done) (m.dst + 256 * m.done) m.poisoned ∧ x.1.quiet w.who = true ∧
      x.1.askDir w (m.cluster / 4) m.asid = none ∧ n < x.1.moves.length) :=
  ⟨0, ⟨0, 0x100000, 0x1000, 2 ^ 44, 2 ^ 44 + 0x10000, 5, 0, 0, false, true, false⟩, State.mover { State.reset with moves := [⟨0, 0x100000, 0x1000, 2 ^ 44, 2 ^ 44 + 0x10000, 5, 0, 0, false, true, false⟩] } ⟨0, 0x100000, 0x1000, 2 ^ 44, 2 ^ 44 + 0x10000, 5, 0, 0, false, true, false⟩ 0, State.copyUnit { State.reset with moves := [⟨0, 0x100000, 0x1000, 2 ^ 44, 2 ^ 44 + 0x10000, 5, 0, 0, false, true, false⟩] } (State.mover { State.reset with moves := [⟨0, 0x100000, 0x1000, 2 ^ 44, 2 ^ 44 + 0x10000, 5, 0, 0, false, true, false⟩] } ⟨0, 0x100000, 0x1000, 2 ^ 44, 2 ^ 44 + 0x10000, 5, 0, 0, false, true, false⟩ 0) (2 ^ 44) (2 ^ 44 + 0x10000) false, can ({ State.reset with moves := [⟨0, 0x100000, 0x1000, 2 ^ 44, 2 ^ 44 + 0x10000, 5, 0, 0, false, true, false⟩] }) rfl (by and_intros <;> first | decide +kernel | rfl | exact taken (by decide +kernel) | exact imageReady (by decide +kernel) | exact (Option.some_get _).symm | exact nofun | exact fun _ => rfl | exact fun _ => by decide +kernel)⟩

theorem meets_RangeEventsHappen_10 :
    ∃ n m w, Can (.compactionDone n) (fun s => s.move? n = some (m, w) ∧ m.size ≤ 256 * m.done ∧ s.quiet (s.mover m 0).who = true ∧
      s.askDir w (m.cluster / 4) m.asid = none) :=
  ⟨0, ⟨0, 0x100000, 0x1000, 0x100000, 0x200000, 5, 0, 16, false, false, false⟩, State.mover { State.reset with moves := [⟨0, 0x100000, 0x1000, 0x100000, 0x200000, 5, 0, 16, false, false, false⟩] } ⟨0, 0x100000, 0x1000, 0x100000, 0x200000, 5, 0, 16, false, false, false⟩ 0, can ({ State.reset with moves := [⟨0, 0x100000, 0x1000, 0x100000, 0x200000, 5, 0, 16, false, false, false⟩] }) rfl (by and_intros <;> first | decide +kernel | rfl | exact taken (by decide +kernel) | exact imageReady (by decide +kernel) | exact (Option.some_get _).symm | exact nofun | exact fun _ => rfl | exact fun _ => by decide +kernel)⟩

theorem meets_SliceEventsHappen_6 :
    ∃ sec, Can (.sectorEviction sec) (fun s => tget false s.present sec = true ∧ trising s.llc = true ∧ tget 0 s.owners (sec / 4) = 0 ∧
      ∀ d, ∀ p ∈ (s.die d).partials, p.line ≠ sec / 4) :=
  ⟨4, can ({ State.reset with present := [(4, true)] }) rfl (by
  refine ⟨rfl, rfl, rfl, ?_⟩
  intro d p hp
  cases hp)⟩

theorem meets_SliceEventsHappen_7 :
    ∃ d line p, Can (.partialJoin d line) (fun s => s.partial? d line = some p ∧ p.joined = false) :=
  ⟨0, 5, ⟨5, .add, .n64, [(0x500, 1)], 0, false, [], false⟩, can ({ State.reset with diesT := [(0, { partials := [⟨5, .add, .n64, [(0x500, 1)], 0, false, [], false⟩] })] }) rfl (by and_intros <;> first | decide +kernel | rfl | exact taken (by decide +kernel) | exact imageReady (by decide +kernel) | exact (Option.some_get _).symm | exact nofun | exact fun _ => rfl | exact fun _ => by decide +kernel)⟩

theorem meets_ErrorEventsHappen_1 :
    ∃ found, CanOccur (.hbmScrub found) (fun _ => True) :=
  ⟨.none, canOccur (State.reset) trivial⟩

theorem meets_ErrorEventsHappen_2 :
    ∃ w, CanOccur (.uncorrectableError (.memWord w)) (fun _ => 8 * w < hbmEnd) :=
  ⟨0, canOccur (State.reset) (by and_intros <;> first | decide +kernel | rfl | exact taken (by decide +kernel) | exact imageReady (by decide +kernel) | exact (Option.some_get _).symm | exact nofun | exact fun _ => rfl | exact fun _ => by decide +kernel)⟩

theorem meets_ErrorEventsHappen_3 :
    ∃ gid name lanes g, CanOccur (.uncorrectableError (.register gid name lanes)) (fun s => s.group? gid = some g ∧ name ∈ g.ctx.bound) :=
  ⟨0, 0, 1, { ctx := { bound := [0] } }, canOccur ({ State.reset with groups := [(0, { ctx := { bound := [0] } })] }) (by and_intros <;> first | decide +kernel | rfl | exact taken (by decide +kernel) | exact imageReady (by decide +kernel) | exact (Option.some_get _).symm | exact nofun | exact fun _ => rfl | exact fun _ => by decide +kernel)⟩

theorem meets_ErrorEventsHappen_6 :
    ∃ key side w, CanOccur (.uncorrectableError (.scratchWord key side w)) (fun s => (tfind s.teams key).isSome = true ∧ 4 * w < s.scratchSize key) :=
  ⟨0, 0, 0, canOccur ({ st (one) { placedLaunch with scratch := 1 } with teams := [(0, { groups := [0], members := 1, spilled := 0 })] }) (by and_intros <;> first | decide +kernel | rfl | exact taken (by decide +kernel) | exact imageReady (by decide +kernel) | exact (Option.some_get _).symm | exact nofun | exact fun _ => rfl | exact fun _ => by decide +kernel)⟩

theorem meets_ErrorEventsHappen_7 :
    ∃ cl n, CanOccur (.uncorrectableError (.rangeCache cl n)) (fun s => n < (s.cluster cl).cache.length) :=
  ⟨0, 0, canOccur ({ State.reset with clusters := [(0, { cache := [(0, ⟨⟨0x800000000010000F, 0x4400, 0x4000, 0⟩, 0, 0, []⟩)] })] }) (by and_intros <;> first | decide +kernel | rfl | exact taken (by decide +kernel) | exact imageReady (by decide +kernel) | exact (Option.some_get _).symm | exact nofun | exact fun _ => rfl | exact fun _ => by decide +kernel)⟩

theorem meets_ErrorEventsHappen_8 :
    ∃ d line p, CanOccur (.uncorrectableError (.partialCopy d line)) (fun s => s.partial? d line = some p) :=
  ⟨0, 5, ⟨5, .add, .n64, [(0x500, 1)], 0, false, [], false⟩, canOccur ({ State.reset with diesT := [(0, { partials := [⟨5, .add, .n64, [(0x500, 1)], 0, false, [], false⟩] })] }) (by and_intros <;> first | decide +kernel | rfl | exact taken (by decide +kernel) | exact imageReady (by decide +kernel) | exact (Option.some_get _).symm | exact nofun | exact fun _ => rfl | exact fun _ => by decide +kernel)⟩

theorem meets_ErrorEventsHappen_9 :
    ∃ k slot n, CanOccur (.uncorrectableError (.accumulator k slot n)) (fun _ => slot < 32 ∧ n < 3072) :=
  ⟨0, 31, 3071, canOccur (State.reset) (by and_intros <;> first | decide +kernel | rfl | exact taken (by decide +kernel) | exact imageReady (by decide +kernel) | exact (Option.some_get _).symm | exact nofun | exact fun _ => rfl | exact fun _ => by decide +kernel)⟩

theorem meets_ErrorEventsHappen_10 :
    ∃ k w, CanOccur (.uncorrectableError (.bSlice k w)) (fun _ => 4 * w < 2 ^ 22) :=
  ⟨0, 2 ^ 20 - 1, canOccur (State.reset) (by and_intros <;> first | decide +kernel | rfl | exact taken (by decide +kernel) | exact imageReady (by decide +kernel) | exact (Option.some_get _).symm | exact nofun | exact fun _ => rfl | exact fun _ => by decide +kernel)⟩

theorem meets_ErrorEventsHappen_11 :
    ∃ core line n w x, CanOccur (.uncorrectableError (.l1Word core line n w)) (fun s => n < 4 ∧ w < 8 ∧ x.valid ≠ 0 ∧ (s.core core).sector (4 * line + n) = some x) :=
  ⟨0, 0, 3, 7, { home := .hbm 0, bytes := [], valid := 1 }, canOccur ({ State.reset with cores := [(0, { l1 := [(0, [(3, { home := .hbm 0, bytes := [], valid := 1 })])] })] }) (by and_intros <;> first | decide +kernel | rfl | exact taken (by decide +kernel) | exact imageReady (by decide +kernel) | exact (Option.some_get _).symm | exact nofun | exact fun _ => rfl | exact fun _ => by decide +kernel)⟩

theorem meets_ErrorEventsHappen_12 :
    ∃ key n w x, CanOccur (.uncorrectableError (.stashWord key n w)) (fun s => w < 8 ∧ tfind (s.team key).stash n = some x) :=
  ⟨0, 0, 7, { home := .hbm 0, bytes := [], valid := 1 }, canOccur ({ State.reset with teams := [(0, { stash := [(0, { home := .hbm 0, bytes := [], valid := 1 })] })] }) (by and_intros <;> first | decide +kernel | rfl | exact taken (by decide +kernel) | exact imageReady (by decide +kernel) | exact (Option.some_get _).symm | exact nofun | exact fun _ => rfl | exact fun _ => by decide +kernel)⟩

theorem meets_ErrorEventsHappen_13 :
    ∃ w, CanOccur (.hbmPersistentFault w) (fun _ => 8 * w < hbmEnd) :=
  ⟨0, canOccur (State.reset) (by and_intros <;> first | decide +kernel | rfl | exact taken (by decide +kernel) | exact imageReady (by decide +kernel) | exact (Option.some_get _).symm | exact nofun | exact fun _ => rfl | exact fun _ => by decide +kernel)⟩

theorem meets_LinkEventsHappen_1 :
    ∃ src dst failed, Can (.dieLinkResend src ⟨dst, failed⟩) (fun _ => src ≠ dst) :=
  ⟨0, 1, true, can (State.reset) rfl (by and_intros <;> first | decide +kernel | rfl | exact taken (by decide +kernel) | exact imageReady (by decide +kernel) | exact (Option.some_get _).symm | exact nofun | exact fun _ => rfl | exact fun _ => by decide +kernel)⟩

theorem meets_LinkEventsHappen_2 :
    ∃ cl pair failed, Can (.pairLinkResend cl ⟨pair, failed⟩) (fun _ => pair < 2) :=
  ⟨0, 1, true, can (State.reset) rfl (by and_intros <;> first | decide +kernel | rfl | exact taken (by decide +kernel) | exact imageReady (by decide +kernel) | exact (Option.some_get _).symm | exact nofun | exact fun _ => rfl | exact fun _ => by decide +kernel)⟩

theorem meets_LinkEventsHappen_5 :
    ∃ cl error a r, Can (.pairApertureAccess ⟨cl, error⟩) (fun s => (s.cluster cl).aperture = a :: r ∧ (tfind s.teams a.team).isSome = true) :=
  ⟨0, true, ⟨0, 0, 0, 0, [1], false⟩, [], can ({ State.reset with clusters := [(0, { aperture := [⟨0, 0, 0, 0, [1], false⟩] })], teams := [(0, {})] }) rfl (by and_intros <;> first | decide +kernel | rfl | exact taken (by decide +kernel) | exact imageReady (by decide +kernel) | exact (Option.some_get _).symm | exact nofun | exact fun _ => rfl | exact fun _ => by decide +kernel)⟩

theorem meets_LinkEventsHappen_6 :
    ∃ cl pair gid g, Can (.pairLinkDown cl pair) (fun s => pair < 2 ∧ pair ∉ (s.cluster cl).linkDown ∧ (gid, g) ∈ s.groups ∧
      trising s.groups = true ∧ g.stat ≠ .ended ∧ (tfind s.teams g.team).isSome = true ∧ (s.team g.team).paired = true ∧
      (s.team g.team).saved = false ∧ (s.team g.team).core = pairCore cl pair) :=
  ⟨0, 0, 0, {}, can ({ State.reset with groups := [(0, {})], teams := [(0, { paired := true })] }) rfl (by and_intros <;> first | decide +kernel | rfl | exact taken (by decide +kernel) | exact imageReady (by decide +kernel) | exact (Option.some_get _).symm | exact nofun | exact fun _ => rfl | exact fun _ => by decide +kernel)⟩

theorem meets_CopyEventsHappen_1 :
    ∃ d e c, Can (.copyStart d) (fun s => s.freeEngine d = some e ∧ s.nextCopyOf d = some c) :=
  ⟨0, 0, { id := 0, block := [0, 0, 0x4000, 0, 0, 0x5000, 0, 0, 0, 0, 0, 0, 0, 0, 0, 0], gid := 0, core := 0, side := 0, team := 0, task := 0, scope := 5 }, can ({ State.reset with diesT := [(0, { copies := [{ id := 0, block := [0, 0, 0x4000, 0, 0, 0x5000, 0, 0, 0, 0, 0, 0, 0, 0, 0, 0], gid := 0, core := 0, side := 0, team := 0, task := 0, scope := 5 }] })] }) rfl (by and_intros <;> first | decide +kernel | rfl | exact taken (by decide +kernel) | exact imageReady (by decide +kernel) | exact (Option.some_get _).symm | exact nofun | exact fun _ => rfl | exact fun _ => by decide +kernel)⟩

theorem meets_CopyEventsHappen_2 :
    ∃ d e c s1, Can (.copyChunk d e) (fun s => s.copyOn d e = some c ∧ c.ending = none ∧ c.holds s = true ∧ c.chunk s = (s1, none, true)) :=
  ⟨0, 0, { id := 0, block := [0, 0, 0x4000, 0, 0, 0x5000, 0, 0, 0, 0, 0, 0, 0, 0, 0, 0], gid := 0, core := 0, side := 0, team := 0, task := 0, scope := 5, engine := some 0 }, (Copy.chunk { id := 0, block := [0, 0, 0x4000, 0, 0, 0x5000, 0, 0, 0, 0, 0, 0, 0, 0, 0, 0], gid := 0, core := 0, side := 0, team := 0, task := 0, scope := 5, engine := some 0 } ({ st one with diesT := [(0, { config := [0], copies := [{ id := 0, block := [0, 0, 0x4000, 0, 0, 0x5000, 0, 0, 0, 0, 0, 0, 0, 0, 0, 0], gid := 0, core := 0, side := 0, team := 0, task := 0, scope := 5, engine := some 0 }] })] })).1, can ({ st one with diesT := [(0, { config := [0], copies := [{ id := 0, block := [0, 0, 0x4000, 0, 0, 0x5000, 0, 0, 0, 0, 0, 0, 0, 0, 0, 0], gid := 0, core := 0, side := 0, team := 0, task := 0, scope := 5, engine := some 0 }] })] }) rfl (by and_intros <;> first | decide +kernel | exact sndEq (by decide +kernel) | rfl)⟩

theorem meets_CopyEventsHappen_3 :
    ∃ d e c s1, Can (.copyChunk d e) (fun s => s.copyOn d e = some c ∧ c.ending = none ∧ c.holds s = true ∧ c.chunk s = (s1, none, false)) :=
  ⟨0, 0, { id := 0, block := [0, 0, 0x4000, 0, 0, 0x5000, 0, 0, 0, 0, 0, 0, 0, 0, 0, 0], gid := 0, core := 0, side := 0, team := 0, task := 0, scope := 5, engine := some 0 }, (Copy.chunk { id := 0, block := [0, 0, 0x4000, 0, 0, 0x5000, 0, 0, 0, 0, 0, 0, 0, 0, 0, 0], gid := 0, core := 0, side := 0, team := 0, task := 0, scope := 5, engine := some 0 } ({ st one with diesT := [(0, { config := [0], copies := [{ id := 0, block := [0, 0, 0x4000, 0, 0, 0x5000, 0, 0, 0, 0, 0, 0, 0, 0, 0, 0], gid := 0, core := 0, side := 0, team := 0, task := 0, scope := 5, engine := some 0 }] })], host := { held := [(0x100, true)] } })).1, can ({ st one with diesT := [(0, { config := [0], copies := [{ id := 0, block := [0, 0, 0x4000, 0, 0, 0x5000, 0, 0, 0, 0, 0, 0, 0, 0, 0, 0], gid := 0, core := 0, side := 0, team := 0, task := 0, scope := 5, engine := some 0 }] })], host := { held := [(0x100, true)] } }) rfl (by and_intros <;> first | decide +kernel | exact sndEq (by decide +kernel) | rfl)⟩

theorem meets_CopyEventsHappen_4 :
    ∃ d e c s1 n b, Can (.copyChunk d e) (fun s => s.copyOn d e = some c ∧ c.ending = none ∧ c.holds s = true ∧ c.chunk s = (s1, some n, b)) :=
  ⟨0, 0, { id := 0, block := [0, 0, 2 ^ 45, 0, 0, 0x5000, 0, 0, 0, 0, 0, 0, 0, 0, 0, 0], gid := 0, core := 0, side := 0, team := 0, task := 0, scope := 5, engine := some 0 }, (Copy.chunk { id := 0, block := [0, 0, 2 ^ 45, 0, 0, 0x5000, 0, 0, 0, 0, 0, 0, 0, 0, 0, 0], gid := 0, core := 0, side := 0, team := 0, task := 0, scope := 5, engine := some 0 } ({ st one with cores := [(0, { rtable := [placedRange], answers := [(copyWho 0, ⟨0, 2 ^ 45, .miss 1 0, false⟩)] })], diesT := [(0, { config := [0], copies := [{ id := 0, block := [0, 0, 2 ^ 45, 0, 0, 0x5000, 0, 0, 0, 0, 0, 0, 0, 0, 0, 0], gid := 0, core := 0, side := 0, team := 0, task := 0, scope := 5, engine := some 0 }] })] })).1, 2, true, can ({ st one with cores := [(0, { rtable := [placedRange], answers := [(copyWho 0, ⟨0, 2 ^ 45, .miss 1 0, false⟩)] })], diesT := [(0, { config := [0], copies := [{ id := 0, block := [0, 0, 2 ^ 45, 0, 0, 0x5000, 0, 0, 0, 0, 0, 0, 0, 0, 0, 0], gid := 0, core := 0, side := 0, team := 0, task := 0, scope := 5, engine := some 0 }] })] }) rfl (by and_intros <;> first | decide +kernel | exact sndEq (by decide +kernel) | rfl)⟩

theorem meets_CopyEventsHappen_5 :
    ∃ d e c, Can (.copyChunk d e) (fun s => s.copyOn d e = some c ∧ c.ending = none ∧ c.holds s = false) :=
  ⟨0, 0, { id := 0, block := [0x4000000000000000, 0, 0x4000, 0, 0, 0x5000, 0, 0, 0, 0, 0, 0, 0, 0, 0, 0], gid := 0, core := 0, side := 0, team := 0, task := 0, scope := 5, engine := some 0 }, can ({ st one with diesT := [(0, { config := [0], copies := [{ id := 0, block := [0x4000000000000000, 0, 0x4000, 0, 0, 0x5000, 0, 0, 0, 0, 0, 0, 0, 0, 0, 0], gid := 0, core := 0, side := 0, team := 0, task := 0, scope := 5, engine := some 0 }] })] }) rfl (by and_intros <;> first | decide +kernel | rfl | exact taken (by decide +kernel) | exact imageReady (by decide +kernel) | exact (Option.some_get _).symm | exact nofun | exact fun _ => rfl | exact fun _ => by decide +kernel)⟩

theorem meets_CopyEventsHappen_6 :
    ∃ d e c n, Can (.copyEnd d e) (fun s => s.copyOn d e = some c ∧ c.ending = some n ∧ s.quiet (copyWho c.id) = true ∧
      (tfind s.teams c.team).isSome = true ∧ 1 < (s.team c.team).copies) :=
  ⟨0, 0, { id := 0, block := [0x100000000000, 0, 0x4000, 0, 0, 0x5000, 0, 0, 0, 0, 0, 0, 0, 0, 0, 0], gid := 0, core := 0, side := 0, team := 0, task := 0, scope := 5, engine := some 0, ending := some 0 }, 0, can ({ State.reset with diesT := [(0, { copies := [{ id := 0, block := [0x100000000000, 0, 0x4000, 0, 0, 0x5000, 0, 0, 0, 0, 0, 0, 0, 0, 0, 0], gid := 0, core := 0, side := 0, team := 0, task := 0, scope := 5, engine := some 0, ending := some 0 }] })], teams := [(0, { copies := 2 })] }) rfl (by and_intros <;> first | decide +kernel | rfl | exact taken (by decide +kernel) | exact imageReady (by decide +kernel) | exact (Option.some_get _).symm | exact nofun | exact fun _ => rfl | exact fun _ => by decide +kernel)⟩

theorem meets_TaskEventsHappen_1 :
    ∃ t w v slot, Can (.doorbell t w v) (fun s => s.doorbellOf t w = some slot ∧ w = 8 ∧ t % 8 = 0 ∧ bits v 47 16 = 0) :=
  ⟨0x100088, 8, 0, 0, can ({ State.reset with diesT := [(0, { config := [0, 0, 0, 0, 0, 0x100000] })] }) rfl (by and_intros <;> first | decide +kernel | rfl | exact taken (by decide +kernel) | exact imageReady (by decide +kernel) | exact (Option.some_get _).symm | exact nofun | exact fun _ => rfl | exact fun _ => by decide +kernel)⟩

theorem meets_TaskEventsHappen_2 :
    ∃ t w v slot, Can (.doorbell t w v) (fun s => s.doorbellOf t w = some slot ∧ ¬(w = 8 ∧ t % 8 = 0 ∧ bits v 47 16 = 0)) :=
  ⟨0x100088, 4, 0, 0, can ({ State.reset with diesT := [(0, { config := [0, 0, 0, 0, 0, 0x100000] })] }) rfl (by and_intros <;> first | decide +kernel | rfl | exact taken (by decide +kernel) | exact imageReady (by decide +kernel) | exact (Option.some_get _).symm | exact nofun | exact fun _ => rfl | exact fun _ => by decide +kernel)⟩

theorem meets_TaskEventsHappen_3 :
    ∃ d h n l k x, Can (.decrement d) (fun s => (s.die d).decrements = ⟨h, n, none⟩ :: l ∧ s.live h = some (k, x) ∧ x.state = .waiting) :=
  ⟨0, 0x8000, 1, [], 0, { state := .waiting, count := 1 }, can ({ State.reset with diesT := [(0, { decrements := [⟨0x8000, 1, none⟩] })], tasks := [(0, { state := .waiting, count := 1 })] }) rfl (by and_intros <;> first | decide +kernel | rfl | exact taken (by decide +kernel) | exact imageReady (by decide +kernel) | exact (Option.some_get _).symm | exact nofun | exact fun _ => rfl | exact fun _ => by decide +kernel)⟩

theorem meets_TaskEventsHappen_4 :
    ∃ d h n l, Can (.decrement d) (fun s => (s.die d).decrements = ⟨h, n, none⟩ :: l ∧ s.live h = none) :=
  ⟨0, 0x18000, 1, [], can ({ State.reset with diesT := [(0, { decrements := [⟨0x18000, 1, none⟩] })] }) rfl (by and_intros <;> first | decide +kernel | rfl | exact taken (by decide +kernel) | exact imageReady (by decide +kernel) | exact (Option.some_get _).symm | exact nofun | exact fun _ => rfl | exact fun _ => by decide +kernel)⟩

theorem meets_TaskEventsHappen_5 :
    ∃ d k x, Can (.teamDispatch d) (fun s => s.dispatch d = some (.place k x)) :=
  ⟨0, 0, ⟨0, false, [0], []⟩, can ({ State.reset with diesT := [(0, { config := [0] })], tasks := [(0, { state := .ready })] }) rfl (by rfl)⟩

theorem meets_TaskEventsHappen_6 :
    ∃ d k, Can (.teamDispatch d) (fun s => s.dispatch d = some (.stop k)) :=
  ⟨0, 1, can ({ State.reset with diesT := [(0, { config := [0] })], chofer := { retired := List.range 16 }, tasks := [(0, { state := .ready, effective := 3 }), (1, { state := .running, placed := 1 })] }) rfl (by and_intros <;> first | decide +kernel | rfl | exact taken (by decide +kernel) | exact imageReady (by decide +kernel) | exact (Option.some_get _).symm | exact nofun | exact fun _ => rfl | exact fun _ => by decide +kernel)⟩

theorem meets_TaskEventsHappen_7 :
    Can .priorityRecompute (fun s => s.canRecompute = true ∧ trising s.tasks = true) :=
  can ({ State.reset with tasks := [(0, { state := .ready, launch := { prio := 3 } })] }) rfl (by and_intros <;> first | decide +kernel | rfl | exact taken (by decide +kernel) | exact imageReady (by decide +kernel) | exact (Option.some_get _).symm | exact nofun | exact fun _ => rfl | exact fun _ => by decide +kernel)

theorem meets_TaskEventsHappen_8 :
    ∃ k, Can (.launchCompletion k) (fun s => s.completes k = true ∧ ((s.task k).launch.doneAddr = 0 ∨ (s.task k).written = true)) :=
  ⟨0, can ({ State.reset with tasks := [(0, { state := .completing, placed := 1, ended := 1 })] }) rfl ⟨by decide +kernel, .inl rfl⟩⟩

theorem meets_TaskEventsHappen_9 :
    ∃ k s0 x, Can (.launchCompletion k) (fun s => s.completes k = true ∧ (s.task k).launch.doneAddr ≠ 0 ∧ (s.task k).written = false ∧
      s0 = s.bringAll (s.scheduler k (16 * (k / 4096))) (16 * (k / 4096)) [((s.task k).launch.doneAddr.toNat, 4)] ∧
      s0.reachFor (s.scheduler k (16 * (k / 4096))) (16 * (k / 4096)) .write .write [((s.task k).launch.doneAddr.toNat, 4)] = .ok [x]) :=
  ⟨0, (State.bringAll ({ st one with tasks := [(0, { state := .completing, launch := { placedLaunch with doneAddr := 0x3000, doneValue := 7 } })] }) (State.scheduler ({ st one with tasks := [(0, { state := .completing, launch := { placedLaunch with doneAddr := 0x3000, doneValue := 7 } })] }) 0 0) 0 [(0x3000, 4)]), ⟨⟨0, 0x3000, 4⟩, .hbm 0x3000, some placedRange⟩, can ({ st one with tasks := [(0, { state := .completing, launch := { placedLaunch with doneAddr := 0x3000, doneValue := 7 } })] }) rfl (by and_intros <;> first | decide +kernel | rfl | exact taken (by decide +kernel) | exact imageReady (by decide +kernel) | exact (Option.some_get _).symm | exact nofun | exact fun _ => rfl | exact fun _ => by decide +kernel | exact reachedOk (by decide +kernel))⟩

theorem meets_TaskEventsHappen_10 :
    ∃ key s1, Can (.teamPreemption key) (fun s => (tfind s.teams key).isSome = true ∧ s.stopping key = true ∧ s.teamDrained key = true ∧
      s1 = s.preemptTeam key ∧ (s1.team key).saved = true) :=
  ⟨0, State.preemptTeam { State.reset with tasks := [(0, { state := .preempted })], teams := [(0, {})], cores := [(0, { rtable := [placedRange] })] } 0, can ({ State.reset with tasks := [(0, { state := .preempted })], teams := [(0, {})], cores := [(0, { rtable := [placedRange] })] }) rfl ⟨by decide +kernel, by decide +kernel, by decide +kernel, rfl, by decide +kernel⟩⟩

theorem meets_TaskEventsHappen_11 :
    ∃ key core x s1, Can (.teamRestore key core) (fun s => s.headSaved key core = true ∧ s.savedSeat key core = some x ∧
      s1 = s.restoreTeam key x ∧ (s1.team key).saved = false) :=
  ⟨0, 0, (State.savedSeat { State.reset with tasks := [(0, { state := .preempted, savedTeams := [0] })], teams := [(0, { saved := true })], diesT := [(0, { config := [0] })] } 0 0).get (by decide +kernel), State.restoreTeam { State.reset with tasks := [(0, { state := .preempted, savedTeams := [0] })], teams := [(0, { saved := true })], diesT := [(0, { config := [0] })] } 0 ((State.savedSeat { State.reset with tasks := [(0, { state := .preempted, savedTeams := [0] })], teams := [(0, { saved := true })], diesT := [(0, { config := [0] })] } 0 0).get (by decide +kernel)), can ({ State.reset with tasks := [(0, { state := .preempted, savedTeams := [0] })], teams := [(0, { saved := true })], diesT := [(0, { config := [0] })] }) rfl ⟨by decide +kernel, (Option.some_get _).symm, rfl, by decide +kernel⟩⟩

theorem meets_TaskEventsHappen_12 :
    ∃ key core v, Can (.teamRestore key core) (fun s => s.headSaved key core = true ∧ s.savedSeat key core = none ∧ s.savedSeatOn key = none ∧
      s.nextVictim (core / 16) (s.team key).task = some v) :=
  ⟨0, 0, 1, can ({ State.reset with diesT := [(0, { config := [0] })], chofer := { retired := List.range 16 }, teams := [(0, { saved := true })], tasks := [(0, { state := .preempted, savedTeams := [0], effective := 3 }), (1, { state := .running, placed := 1 })] }) rfl (by and_intros <;> first | decide +kernel | rfl | exact taken (by decide +kernel) | exact imageReady (by decide +kernel) | exact (Option.some_get _).symm | exact nofun | exact fun _ => rfl | exact fun _ => by decide +kernel)⟩

theorem meets_StartUpEventsHappen_1 :
    CanOccur .packageReset (fun _ => True) :=
  canOccur (State.reset) trivial

theorem meets_StartUpEventsHappen_2 :
    ∃ b, CanOccur (.firmwareImage b) (fun s => s.chofer.status = 0 ∨ s.chofer.status = 2) :=
  ⟨[], canOccur (State.reset) (by and_intros <;> first | decide +kernel | rfl | exact taken (by decide +kernel) | exact imageReady (by decide +kernel) | exact (Option.some_get _).symm | exact nofun | exact fun _ => rfl | exact fun _ => by decide +kernel)⟩

theorem meets_StartUpEventsHappen_3 :
    ∃ f, CanOccur (.bringUp f) (fun s => s.chofer.status = 3 ∧ s.chofer.detail / 256 ≠ 3) :=
  ⟨none, canOccur ({ State.reset with chofer := { status := 3 } }) (by and_intros <;> first | decide +kernel | rfl | exact taken (by decide +kernel) | exact imageReady (by decide +kernel) | exact (Option.some_get _).symm | exact nofun | exact fun _ => rfl | exact fun _ => by decide +kernel)⟩

theorem meets_StartUpEventsHappen_4 :
    CanOccur (.bringUp none) (fun s => s.chofer.status = 3 ∧ s.chofer.detail / 256 = 3) :=
  canOccur ({ State.reset with chofer := { status := 3, detail := 0x300 } }) (by and_intros <;> first | decide +kernel | rfl | exact taken (by decide +kernel) | exact imageReady (by decide +kernel) | exact (Option.some_get _).symm | exact nofun | exact fun _ => rfl | exact fun _ => by decide +kernel)

theorem meets_StartUpEventsHappen_5 :
    ∃ n, CanOccur (.numberCommand n) (fun s => s.chofer.status = 4 ∧ n < 256) :=
  ⟨1, canOccur ({ State.reset with chofer := { status := 4 } }) (by and_intros <;> first | decide +kernel | rfl | exact taken (by decide +kernel) | exact imageReady (by decide +kernel) | exact (Option.some_get _).symm | exact nofun | exact fun _ => rfl | exact fun _ => by decide +kernel)⟩

theorem meets_StartUpEventsHappen_6 :
    ∃ d b, CanOccur (.configurationBlock d b) (fun s => (s.chofer.status = 4 ∨ s.chofer.status = 6) ∧ d < 8) :=
  ⟨0, [], canOccur ({ State.reset with chofer := { status := 4 } }) (by and_intros <;> first | decide +kernel | rfl | exact taken (by decide +kernel) | exact imageReady (by decide +kernel) | exact (Option.some_get _).symm | exact nofun | exact fun _ => rfl | exact fun _ => by decide +kernel)⟩

theorem meets_StartUpEventsHappen_7 :
    ∃ a v, CanOccur (.startCommand a v) (fun s => s.chofer.status = 4 ∨ s.chofer.status = 6) :=
  ⟨0, 0, canOccur ({ State.reset with chofer := { status := 4 } }) (by and_intros <;> first | decide +kernel | rfl | exact taken (by decide +kernel) | exact imageReady (by decide +kernel) | exact (Option.some_get _).symm | exact nofun | exact fun _ => rfl | exact fun _ => by decide +kernel)⟩

theorem meets_StartUpEventsHappen_8 :
    ∃ c, CanOccur (.retireCommand c) (fun s => c < 128 ∧ c ∉ s.chofer.retired) :=
  ⟨0, canOccur (State.reset) (by and_intros <;> first | decide +kernel | rfl | exact taken (by decide +kernel) | exact imageReady (by decide +kernel) | exact (Option.some_get _).symm | exact nofun | exact fun _ => rfl | exact fun _ => by decide +kernel)⟩

theorem meets_ContextEventsHappen_1 :
    ∃ c, CanOccur (.createContext c) (fun s => s.canCreate c = true) :=
  ⟨⟨1, 0x10000, 1, true⟩, canOccur (withMem { State.reset with chofer := { status := 7 } } [(0x10000, 0x20000), (0x10008, 0x20000), (0x10010, 0x20000), (0x10018, 0x20000), (0x20010, 4)]) (by and_intros <;> first | decide +kernel | rfl | exact taken (by decide +kernel) | exact imageReady (by decide +kernel) | exact (Option.some_get _).symm | exact nofun | exact fun _ => rfl | exact fun _ => by decide +kernel)⟩

theorem meets_ContextEventsHappen_2 :
    ∃ c x, CanOccur (.addParticipant c) (fun s => s.canAdd c = true ∧ s.context c.ctx = some x) :=
  ⟨⟨1, 0, [], true⟩, { block := [], quorum := 1, rings := [], parts := [] }, canOccur ({ State.reset with chofer := { contexts := [(1, { block := [], quorum := 1, rings := [], parts := [] })] } }) (by and_intros <;> first | decide +kernel | rfl | exact taken (by decide +kernel) | exact imageReady (by decide +kernel) | exact (Option.some_get _).symm | exact nofun | exact fun _ => rfl | exact fun _ => by decide +kernel)⟩

theorem meets_ContextEventsHappen_3 :
    ∃ c x n, CanOccur (.admitLaunch c) (fun s => s.canAdmit c = true ∧ s.context c.ctx = some x ∧ s.freeSlot c.die = some n) :=
  ⟨⟨1, 0, 0, [0x4000, 0, 0x100200000, 2 ^ 50], 5, true⟩, { block := [], quorum := 1, rings := [], parts := [(0, [5])] }, 0, canOccur ({ State.reset with chofer := { contexts := [(1, { block := [], quorum := 1, rings := [], parts := [(0, [5])] })] }, diesT := [(0, { config := [0] })] }) (by and_intros <;> first | decide +kernel | rfl | exact taken (by decide +kernel) | exact imageReady (by decide +kernel) | exact (Option.some_get _).symm | exact nofun | exact fun _ => rfl | exact fun _ => by decide +kernel)⟩

theorem meets_ContextEventsHappen_4 :
    ∃ ctx nonce x, CanOccur (.attestationReport ctx nonce) (fun s => nonce.length = 64 ∧ s.context ctx = some x) :=
  ⟨1, List.replicate 64 0, { block := [], quorum := 1, rings := [], parts := [] }, canOccur ({ State.reset with chofer := { contexts := [(1, { block := [], quorum := 1, rings := [], parts := [] })] } }) (by and_intros <;> first | decide +kernel | rfl | exact taken (by decide +kernel) | exact imageReady (by decide +kernel) | exact (Option.some_get _).symm | exact nofun | exact fun _ => rfl | exact fun _ => by decide +kernel)⟩

theorem meets_ContextEventsHappen_5 :
    ∃ c x, CanOccur (.revocation c) (fun s => s.canRevoke c = true ∧ s.context c.ctx = some x ∧ trising s.groups = true) :=
  ⟨⟨1, 0, [], true⟩, { block := [], quorum := 1, rings := [], parts := [] }, canOccur ({ State.reset with chofer := { contexts := [(1, { block := [], quorum := 1, rings := [], parts := [] })] } }) (by and_intros <;> first | decide +kernel | rfl | exact taken (by decide +kernel) | exact imageReady (by decide +kernel) | exact (Option.some_get _).symm | exact nofun | exact fun _ => rfl | exact fun _ => by decide +kernel)⟩

theorem meets_ContextEventsHappen_6 :
    ∃ p a b, CanOccur (.routeTableWrite p a b) (fun _ => p < 256 ∧ portOk a = true ∧ portOk b = true) :=
  ⟨1, none, none, canOccur (State.reset) (by and_intros <;> first | decide +kernel | rfl | exact taken (by decide +kernel) | exact imageReady (by decide +kernel) | exact (Option.some_get _).symm | exact nofun | exact fun _ => rfl | exact fun _ => by decide +kernel)⟩

theorem meets_ContextEventsHappen_7 :
    ∃ on, CanOccur (.powerThrottle on) (fun _ => True) :=
  ⟨true, canOccur (State.reset) trivial⟩

theorem meets_ContextEventsHappen_8 :
    ∃ d, CanOccur (.thermalShutdown d) (fun _ => d < 256) :=
  ⟨0, canOccur (State.reset) (by and_intros <;> first | decide +kernel | rfl | exact taken (by decide +kernel) | exact imageReady (by decide +kernel) | exact (Option.some_get _).symm | exact nofun | exact fun _ => rfl | exact fun _ => by decide +kernel)⟩

theorem meets_HostEventsHappen_1 :
    ∃ base, Can (.cxlOpen base) (fun s => 4 ≤ s.chofer.status ∧ s.chofer.status ≠ 5) :=
  ⟨0, can ({ State.reset with chofer := { status := 4 } }) rfl (by and_intros <;> first | decide +kernel | rfl | exact taken (by decide +kernel) | exact imageReady (by decide +kernel) | exact (Option.some_get _).symm | exact nofun | exact fun _ => rfl | exact fun _ => by decide +kernel)⟩

theorem meets_HostEventsHappen_2 :
    ∃ h, Can (.snpData h) (fun s => s.host.opened = true) :=
  ⟨0, can ({ State.reset with host := { opened := true } }) rfl (by and_intros <;> first | decide +kernel | rfl | exact taken (by decide +kernel) | exact imageReady (by decide +kernel) | exact (Option.some_get _).symm | exact nofun | exact fun _ => rfl | exact fun _ => by decide +kernel)⟩

theorem meets_HostEventsHappen_3 :
    ∃ h, Can (.snpInv h) (fun s => s.host.opened = true) :=
  ⟨0, can ({ State.reset with host := { opened := true } }) rfl (by and_intros <;> first | decide +kernel | rfl | exact taken (by decide +kernel) | exact imageReady (by decide +kernel) | exact (Option.some_get _).symm | exact nofun | exact fun _ => rfl | exact fun _ => by decide +kernel)⟩

theorem meets_HostEventsHappen_4 :
    ∃ h, Can (.snpCur h) (fun s => s.host.opened = true) :=
  ⟨0, can ({ State.reset with host := { opened := true } }) rfl (by and_intros <;> first | decide +kernel | rfl | exact taken (by decide +kernel) | exact imageReady (by decide +kernel) | exact (Option.some_get _).symm | exact nofun | exact fun _ => rfl | exact fun _ => by decide +kernel)⟩

theorem meets_HostEventsHappen_5 :
    ∃ h e data bad, Can (.hostResponse h e data bad) (fun s => h / 64 ∈ s.host.asked ∧ data.length = 64) :=
  ⟨0, true, List.replicate 64 0, 0, can ({ State.reset with host := { asked := [0] } }) rfl (by and_intros <;> first | decide +kernel | rfl | exact taken (by decide +kernel) | exact imageReady (by decide +kernel) | exact (Option.some_get _).symm | exact nofun | exact fun _ => rfl | exact fun _ => by decide +kernel)⟩

theorem meets_HostEventsHappen_6 :
    ∃ h e data bad w, Can (.hostResponse h e data bad) (fun s => h / 64 ∉ s.host.asked ∧ s.host.writing.find? (fun x => x.1 = h / 64) = some w) :=
  ⟨0, false, [], 0, (0, 0), can ({ State.reset with host := { writing := [(0, 0)] } }) rfl (by and_intros <;> first | decide +kernel | rfl | exact taken (by decide +kernel) | exact imageReady (by decide +kernel) | exact (Option.some_get _).symm | exact nofun | exact fun _ => rfl | exact fun _ => by decide +kernel)⟩

theorem meets_HostEventsHappen_7 :
    ∃ h x, Can (.hostSectorEviction h) (fun s => tfind s.host.sectors (h / 64) = some x ∧ x.state ≠ .i ∧ s.mesi h = x.state) :=
  ⟨0, { state := .e, data := [] }, can ({ State.reset with host := { sectors := [(0, { state := .e, data := [] })] } }) rfl (by and_intros <;> first | decide +kernel | rfl | exact taken (by decide +kernel) | exact imageReady (by decide +kernel) | exact (Option.some_get _).symm | exact nofun | exact fun _ => rfl | exact fun _ => by decide +kernel)⟩

theorem meets_HostEventsHappen_8 :
    ∃ addr n, Can (.cxlMemRead addr n) (fun s => s.mapped addr n = true ∧ 0 < n) :=
  ⟨0, 64, can ({ State.reset with host := { opened := true } }) rfl (by and_intros <;> first | decide +kernel | rfl | exact taken (by decide +kernel) | exact imageReady (by decide +kernel) | exact (Option.some_get _).symm | exact nofun | exact fun _ => rfl | exact fun _ => by decide +kernel)⟩

theorem meets_HostEventsHappen_10 :
    ∃ addr data bad, Can (.cxlMemWrite addr data bad) (fun s => s.mapped addr data.length = true) :=
  ⟨0, [0], false, can ({ State.reset with host := { opened := true } }) rfl (by and_intros <;> first | decide +kernel | rfl | exact taken (by decide +kernel) | exact imageReady (by decide +kernel) | exact (Option.some_get _).symm | exact nofun | exact fun _ => rfl | exact fun _ => by decide +kernel)⟩

theorem meets_FabricEventsHappen_9 :
    ∃ k failed, Can (.flitResend ⟨k, failed⟩) (fun _ => k < 16) :=
  ⟨0, true, can (State.reset) rfl (by and_intros <;> first | decide +kernel | rfl | exact taken (by decide +kernel) | exact imageReady (by decide +kernel) | exact (Option.some_get _).symm | exact nofun | exact fun _ => rfl | exact fun _ => by decide +kernel)⟩

theorem meets_FabricEventsHappen_10 :
    ∃ k, Can (.portDown k) (fun s => (s.port k).up = true ∧ ∀ x ∈ (s.port k).waiting, x.tag / 2 ^ 28 = k) :=
  ⟨0, can ({ State.reset with ports := [(0, { up := true, waiting := [⟨7, 5, 0x1000, 0x1000, 8, false, 1, 0, false, false, false⟩] })], chofer := { routes := [(1, (some 0, none))] } }) rfl (by and_intros <;> first | decide +kernel | rfl | exact taken (by decide +kernel) | exact imageReady (by decide +kernel) | exact (Option.some_get _).symm | exact nofun | exact fun _ => rfl | exact fun _ => by decide +kernel)⟩

theorem meets_FabricEventsHappen_12 :
    ∃ k tag x g, Can (.accessTimeout k tag) (fun s => s.expired k tag = some x ∧ x.tag / 2 ^ 28 = k ∧ x.ack = true ∧ s.group? x.who = some g) :=
  ⟨0, 7, ⟨7, 0, 0x1000, 0x1000, 8, true, 1, 0, false, false, false⟩, {}, can ({ State.reset with ports := [(0, { up := true, waiting := [⟨7, 0, 0x1000, 0x1000, 8, true, 1, 0, false, false, false⟩] })], chofer := { routes := [(1, (some 0, none))] }, clock := 2 ^ 24, groups := [(0, {})] }) rfl (by and_intros <;> first | decide +kernel | rfl | exact taken (by decide +kernel) | exact imageReady (by decide +kernel) | exact (Option.some_get _).symm | exact nofun | exact fun _ => rfl | exact fun _ => by decide +kernel)⟩


theorem meets_CollectiveEventsHappen_6 :
    ∃ k c, Can (.collectiveFlit k c) (fun s => (s.port k).holds c = true) :=
  ⟨0, ⟨0, 0, 0, [], [], 0, []⟩, can (State.reset) rfl (by and_intros <;> first | decide +kernel | rfl | exact taken (by decide +kernel) | exact imageReady (by decide +kernel) | exact (Option.some_get _).symm | exact nofun | exact fun _ => rfl | exact fun _ => by decide +kernel)⟩

def handAt : State :=
  { st one with cores := [(0, { rtable := [⟨⟨0x800000000010000F, 0x4400, 2 ^ 42, 0⟩, 0, 0, []⟩, placedRange] })], chofer := { routes := [(1, (some 0, none))] },
                   ports := [(0, { up := true, running := [{ block := [0x40000000000, 2 ^ 48 + 1, 0, 0x100000, 0, 0, 0, 0x3000], addr := 0x2000, gid := 0, team := 0, side := 0, task := 0, rank := 0, table := [0] }], early := [⟨0, 0, 0, [1], [], 0, []⟩] })] }
def handColl : Coll := { block := [0x40000000000, 2 ^ 48 + 1, 0, 0x100000, 0, 0, 0, 0x3000], addr := 0x2000, gid := 0, team := 0, side := 0, task := 0, rank := 0, table := [0] }
def handFlits : List CollFlit := [⟨0, 0, 0, [1], [], 0, []⟩]

theorem meets_CollectiveEventsHappen_7 :
    ∃ k n c cs s1, Can (.handoff k n) (fun s => s.canHandOff k n = true ∧ s.coll k n = some c ∧ c.lowered = false ∧
      gather (s.contributions (CBlock.group c.block) (CBlock.generation c.block)) (s.packageRanks c.table) = some cs ∧
      s.storeWords (s.collEngine k c.gid c.team c.task) (coreOf c.gid) (resultWrites c.block (results c.block s.freeCtr cs true)) = .ok s1 ∧
      (s1.setColl k n { c with lowered := true }).quiet (collWho k) = false ∧ n < (s1.port k).running.length) :=
  ⟨0, 0, handColl, handFlits,
    storedState (handAt.storeWords (handAt.collEngine 0 0 0 0) 0 (resultWrites handColl.block (results handColl.block handAt.freeCtr handFlits true))), can (handAt) rfl (by and_intros <;> first | decide +kernel | rfl | exact storedOk (by decide +kernel))⟩

def loweredAt : State :=
  { st one with cores := [(0, { rtable := [⟨⟨0x800000000010000F, 0x4400, 2 ^ 42, 0⟩, 0, 0, []⟩, placedRange] })], chofer := { routes := [(1, (some 0, none))] },
                   ports := [(0, { up := true, running := [{ block := [0x40000000000, 2 ^ 48 + 1, 0, 0x100000, 0, 0, 0, 0x3000], addr := 0x2000, gid := 0, team := 0, side := 0, task := 0, rank := 0, table := [0], lowered := true }], early := [⟨0, 0, 0, [1], [], 0, []⟩] })] }
def loweredColl : Coll := { block := [0x40000000000, 2 ^ 48 + 1, 0, 0x100000, 0, 0, 0, 0x3000], addr := 0x2000, gid := 0, team := 0, side := 0, task := 0, rank := 0, table := [0], lowered := true }

theorem meets_CollectiveEventsHappen_8 :
    ∃ k n c cs s1, Can (.handoff k n) (fun s => s.canHandOff k n = true ∧ s.coll k n = some c ∧ c.lowered = true ∧
      gather (s.contributions (CBlock.group c.block) (CBlock.generation c.block)) (s.packageRanks c.table) = some cs ∧
      (s.setColl k n { c with lowered := true }).storeWords (s.collEngine k c.gid c.team c.task) (coreOf c.gid)
        [(CBlock.handAddr c.block % 2 ^ 56, 8, CBlock.generation c.block * 2 ^ 48 + CBlock.group c.block * 2 ^ 32 + 2 ^ 24)] = .ok s1 ∧
      n < (s1.port k).running.length) :=
  ⟨0, 0, loweredColl, handFlits,
    storedState ((loweredAt.setColl 0 0 loweredColl).storeWords (loweredAt.collEngine 0 0 0 0) 0 [(0x3000, 8, 2 ^ 24)]), can (loweredAt) rfl (by and_intros <;> first | decide +kernel | rfl | exact storedOk (by decide +kernel))⟩

def endAt : State := { st one with ports := [(0, { running := [{ block := [], addr := 0x2000, gid := 0, team := 0, side := 0, task := 0, rank := 0, table := [0], status := some (1, 2) }] })] }
def endAtColl : Coll := { block := [], addr := 0x2000, gid := 0, team := 0, side := 0, task := 0, rank := 0, table := [0], status := some (1, 2) }
def endAtActed : State × Bool := (endAt.setColl 0 0 endAtColl).actColl 0 0 1 [(0x2058, 8, 2 ^ 56 + 2 * 2 ^ 32)]

theorem meets_CollectiveEventsHappen_9 :
    ∃ k n c st d s1 s2, Can (.collectiveEnd k n) (fun s => s.coll k n = some c ∧ s.verdict c = some (.error (st, d)) ∧ st ≠ 5 ∧
      s.quiet (collWho k) = true ∧
      s1 = s.setColl k n { c with status := some (st, d) } ∧
      s1.actColl k n 1 [((c.addr.toNat + 0x58) % 2 ^ 56, 8, st * 2 ^ 56 + d % 2 ^ 16 * 2 ^ 32)] = (s2, true) ∧
      CBlock.flag c.block 0 = false ∧ CBlock.flag c.block 2 = false) :=
  ⟨0, 0, endAtColl, 1, 2, endAt.setColl 0 0 endAtColl, endAtActed.1, can (endAt) rfl (by and_intros <;> first | decide +kernel | rfl | exact storedOk (by decide +kernel) | exact sndEq (by decide +kernel))⟩

def pushAt : State := { st one with ports := [(0, { running := [{ block := [0, 0, 0, 0, 0, 0, 0, 0, 0, 0, 4], addr := 0x2000, gid := 0, team := 0, side := 0, task := 0, rank := 0, table := [0], status := some (1, 2) }] })] }
def pushAtColl : Coll := { block := [0, 0, 0, 0, 0, 0, 0, 0, 0, 0, 4], addr := 0x2000, gid := 0, team := 0, side := 0, task := 0, rank := 0, table := [0], status := some (1, 2) }
def pushAtActed : State × Bool := (pushAt.setColl 0 0 pushAtColl).actColl 0 0 1 [(0x2058, 8, 2 ^ 56 + 2 * 2 ^ 32)]

theorem meets_CollectiveEventsHappen_10 :
    ∃ k n c st d s1 s2 s3, Can (.collectiveEnd k n) (fun s => s.coll k n = some c ∧ s.verdict c = some (.error (st, d)) ∧ st ≠ 5 ∧
      s.quiet (collWho k) = true ∧
      s1 = s.setColl k n { c with status := some (st, d) } ∧
      s1.actColl k n 1 [((c.addr.toNat + 0x58) % 2 ^ 56, 8, st * 2 ^ 56 + d % 2 ^ 16 * 2 ^ 32)] = (s2, true) ∧
      s2.actColl k n 2 (if CBlock.flag c.block 0 ∧ CBlock.doneAddr c.block ≠ 0 then [(CBlock.doneAddr c.block, 4,
        if st = 0 then CBlock.doneValue c.block else 0xE0000000 + st)] else []) = (s3, true) ∧
      CBlock.flag c.block 1 = false ∧ CBlock.flag c.block 2 = true) :=
  ⟨0, 0, pushAtColl, 1, 2, pushAt.setColl 0 0 pushAtColl, pushAtActed.1, (pushAtActed.1.actColl 0 0 2 []).1, can (pushAt) rfl (by and_intros <;> first | decide +kernel | rfl | exact storedOk (by decide +kernel) | exact sndEq (by decide +kernel))⟩

def resultAt : State :=
  { st one with cores := [(0, { rtable := [⟨⟨0x800000000010000F, 0x4400, 2 ^ 42, 0⟩, 0, 0, []⟩, placedRange] })], chofer := { routes := [(1, (some 0, none))] },
                   ports := [(0, { up := true, running := [{ block := [0, 2 ^ 48 + 1, 0, 0x100000], addr := 0x2000, gid := 0, team := 0, side := 0, task := 0, rank := 0, table := [0] }], early := [⟨0, 0, 0, [1], [], 0, []⟩] })] }
def resultColl : Coll := { block := [0, 2 ^ 48 + 1, 0, 0x100000], addr := 0x2000, gid := 0, team := 0, side := 0, task := 0, rank := 0, table := [0] }

theorem meets_CollectiveEventsHappen_11 :
    ∃ k n c cs s1, Can (.collectiveEnd k n) (fun s => s.coll k n = some c ∧ s.verdict c = some (.ok cs) ∧ s.quiet (collWho k) = true ∧
      s.storeWords (s.collEngine k c.gid c.team c.task) (coreOf c.gid) (resultWrites c.block (c.loosen (fun i => s.free (0x1D0000 + i % 0x10000))
        (results c.block s.freeCtr cs false))) = .ok s1 ∧
      (s1.setColl k n { c with status := some (0, 0) }).quiet (collWho k) = false ∧ n < (s1.port k).running.length) :=
  ⟨0, 0, resultColl, handFlits,
    storedState (resultAt.storeWords (resultAt.collEngine 0 0 0 0) 0 (resultWrites resultColl.block (resultColl.loosen (fun i => resultAt.free (0x1D0000 + i % 0x10000))
      (results resultColl.block resultAt.freeCtr handFlits false)))), can (resultAt) rfl (by and_intros <;> first | decide +kernel | rfl | exact storedOk (by decide +kernel))⟩

theorem meets_BadFetchParks_1 :
    ∃ (why : FetchFault) (gid : Nat) (g : Group), CanOccur (.nonInstructionFetch why) (fun s => s.cur = some gid ∧ s.group? gid = some g ∧ g.ra = none ∧ (fetchFlt why).1.cls < 256 ∧ (fetchFlt why).1.code < 65536) :=
  ⟨.illegal 2 false, 0, { ctx := one }, canOccur (st one) (by and_intros <;> first | decide +kernel | rfl | exact taken (by decide +kernel) | exact imageReady (by decide +kernel) | exact (Option.some_get _).symm | exact nofun | exact fun _ => rfl | exact fun _ => by decide +kernel)⟩

theorem meets_NopAndBreakComplete_1 :
    Meets .nop (fun _ _ => True) :=
  meets (st one) one (w1 0 0 0) (by decide +kernel) ⟨rfl, rfl, rfl⟩ trivial

theorem meets_NopAndBreakComplete_2 :
    Meets .brk (fun _ i => i.lanes = 0) :=
  meets (st one) one ({ w1 0 0 1 with g := 1 }) (by decide +kernel) ⟨rfl, rfl, rfl⟩ (by decide +kernel)

theorem meets_NopAndBreakComplete_3 :
    Meets .brk (fun _ i => i.lanes ≠ 0) :=
  meets (st one) one (w1 0 0 1) (by decide +kernel) ⟨rfl, rfl, rfl⟩ (by decide +kernel)

theorem meets_FormJTargets_1 :
    ∀ o ∈ [Op.bra, .call], Meets o (fun _ i => i.f.g = 0 ∨ i.lanes ≠ 0) := by
  simp only [List.forall_mem_cons]
  exact ⟨meets (st one) one (w1 0 0 1) (by decide +kernel) ⟨rfl, rfl, rfl⟩ (by decide +kernel),
    meets (st one) one (w1 0 0 1) (by decide +kernel) ⟨rfl, rfl, rfl⟩ (by decide +kernel), nofun⟩

theorem meets_OperandAndAlignmentFaults_1 :
    ∀ o ∈ [Op.sub, .mul, .mulh], ∃ x : Flt, Meets o (fun _ i => pickFault (operandFaults i [intSrc i.f.a i.ty, intSrc i.f.b i.ty] (intDst i.f.d i.ty)) = some x ∧
        queueSource [intSrc i.f.a i.ty, intSrc i.f.b i.ty] = none) := by
  simp only [List.forall_mem_cons]
  exact ⟨⟨⟨3, 2, 0, none, none⟩, meets (st one) one (w2 8 1 4 0 0xA00) (by decide +kernel) ⟨rfl, rfl, rfl⟩ (by decide +kernel)⟩,
    ⟨⟨3, 2, 0, none, none⟩, meets (st one) one (w2 8 1 4 0 0xA00) (by decide +kernel) ⟨rfl, rfl, rfl⟩ (by decide +kernel)⟩,
    ⟨⟨3, 2, 0, none, none⟩, meets (st one) one (w2 8 1 4 0 0xA00) (by decide +kernel) ⟨rfl, rfl, rfl⟩ (by decide +kernel)⟩, nofun⟩

theorem meets_OperandAndAlignmentFaults_2 :
    ∀ o ∈ [Op.ld, .ild, .st, .ist], Meets o (fun s i => i.g.acquiring = false ∧
        let srcs := memSrcs i ++ (if o = .st ∨ o = .ist then [storeSrc i] else [])
        let d := if o = .st ∨ o = .ist then Dst.none else loadDst i
        let lanes := if o = .st ∨ o = .ist then i.list else i.compute d
        let a := if o = .st ∨ o = .ist then Acc.write else .read
        let xs := accessesOf s i srcs lanes
        queueSource srcs = none ∧ memFaults s i lanes srcs d = [] ∧ (∃ x ∈ xs, x.va % memWidth i.ty ≠ 0) ∧
        ∀ y ∈ foundFaults (xs.map (s.locate i a)), classRank 4 < classRank y.cls) := by
  simp only [List.forall_mem_cons]
  exact ⟨meets (st (oneG [(0, 0x2002)])) (oneG [(0, 0x2002)]) (w2 8 112 0 0 0) (by decide +kernel) ⟨rfl, rfl, rfl⟩ (by
      refine ⟨rfl, by decide +kernel, by decide +kernel, ⟨⟨0, 0x2002, 4⟩, List.mem_singleton.mpr rfl, by decide +kernel⟩, by decide +kernel⟩),
    meets (st (oneG [(0, 0x2002)])) (oneG [(0, 0x2002)]) (w2 8 112 0 0 0x3400) (by decide +kernel) ⟨rfl, rfl, rfl⟩ (by
      refine ⟨rfl, by decide +kernel, by decide +kernel, ⟨⟨0, 0x2002, 8⟩, List.mem_singleton.mpr rfl, by decide +kernel⟩, by decide +kernel⟩),
    meets (st (oneG [(0, 0x2002)])) (oneG [(0, 0x2002)]) (w2 8 112 0 0 0) (by decide +kernel) ⟨rfl, rfl, rfl⟩ (by
      refine ⟨rfl, by decide +kernel, by decide +kernel, ⟨⟨0, 0x2002, 4⟩, List.mem_singleton.mpr rfl, by decide +kernel⟩, by decide +kernel⟩),
    meets (st (oneG [(0, 0x2002)])) (oneG [(0, 0x2002)]) (w2 8 112 0 0 0x3400) (by decide +kernel) ⟨rfl, rfl, rfl⟩ (by
      refine ⟨rfl, by decide +kernel, by decide +kernel, ⟨⟨0, 0x2002, 8⟩, List.mem_singleton.mpr rfl, by decide +kernel⟩, by decide +kernel⟩), nofun⟩

theorem meets_logic_or_push13 :
    Meets .or (fun s i => regOf i.f.d = .q 1 ∧ PushReady i ∧ (s.unit (unitOf i.gid)).holder = some i.g.team ∧
      (s.unit (unitOf i.gid)).q1.length + (pushedWords s i).flatten.length ≤ 1024) :=
  meets (stU one { holder := some 0 }) one (w1 125 4 5) (by decide +kernel) ⟨rfl, rfl, rfl⟩ ⟨rfl, ⟨by decide +kernel, by decide +kernel, by decide +kernel⟩, rfl, by decide +kernel⟩

theorem meets_logic_or_push14 :
    ∃ s1 ws rest, Meets .or (fun s i => regOf i.f.d = .q 3 ∧ i.ty = .b64 ∧ PushReady i ∧ pushedWords s i = ws :: rest ∧
      (join64 ws).toNat % 128 = 0 ∧ (s.port (portOf i.gid)).handed.length + (s.port (portOf i.gid)).running.length < 64 ∧
      s.releaseOr i.gid i.g 5 = .ok s1) :=
  ⟨relOf (st (oneV [(4, 0x2000)])) (iss (st (oneV [(4, 0x2000)])) (oneV [(4, 0x2000)]) .or (w2 127 4 4 0 0x200)) 5, [0x2000, 0], [], meets (st (oneV [(4, 0x2000)])) (oneV [(4, 0x2000)]) (w2 127 4 4 0 0x200) (by decide +kernel) ⟨rfl, rfl, rfl⟩ ⟨rfl, rfl, ⟨by decide +kernel, by decide +kernel, by decide +kernel⟩, by decide +kernel, by decide +kernel, by decide +kernel, taken (by decide +kernel)⟩⟩

theorem meets_LoadsComplete_1 :
    ∀ o ∈ [Op.ld, .ild], ∃ s2 : State, Meets o (fun s i => i.g.acquiring = false ∧
        let srcs := memSrcs i
        let d := loadDst i
        let lanes := i.compute d
        let xs := accessesOf s i srcs lanes
        let s1 := s.useRanges (coreOf i.gid) (foundAt (xs.map (s.locate i .read)))
        let rd := s2.readAll (i.who s) (foundAt (xs.map (s.locate i .read)))
        queueSource srcs = none ∧ memFaults s i lanes srcs d = [] ∧ alignFaults 1 (memWidth i.ty) xs = [] ∧
        (∀ x ∈ xs, ∃ l, s.locate i .read x = .at_ l) ∧
        s1.askAll (i.who s) .read ((foundAt (xs.map (s.locate i .read))).map fun l => (l, .read)) = none ∧
        (if i.mb 5 4 = 1 then s1.acquireOr i.gid i.g (i.mb 8 6) else .ok s1) = .ok s2 ∧ s.hits i false xs = [] ∧ linkFaults rd.2 = [] ∧
        (lanes ≠ [] → (rd.1.setGroup i.gid (i.g.free (freedNames i srcs))).admits i.gid (i.g.free (freedNames i srcs))
          (((i.g.free (freedNames i srcs)).needs (dstNames i d)).length * (i.width / 32)) = true)) := by
  simp only [List.forall_mem_cons]
  exact ⟨⟨usedBy (st (oneG [(0, 0x2000)])) (iss (st (oneG [(0, 0x2000)])) (oneG [(0, 0x2000)]) .ld (w2 8 112 0 0 0)) .read [⟨0, 0x2000, 4⟩], meets (st (oneG [(0, 0x2000)])) (oneG [(0, 0x2000)]) (w2 8 112 0 0 0) (by decide +kernel) ⟨rfl, rfl, rfl⟩ (by
      refine ⟨rfl, by decide +kernel, by decide +kernel, by decide +kernel, ?_, by decide +kernel, by rfl, by decide +kernel, by decide +kernel, fun _ => by decide +kernel⟩
      intro x hx; rw [show x = ⟨0, 0x2000, 4⟩ from List.mem_singleton.mp hx]; exact someAt (by decide +kernel))⟩,
    ⟨usedBy (st (oneG [(0, 0x2000)])) (iss (st (oneG [(0, 0x2000)])) (oneG [(0, 0x2000)]) .ild (w2 8 112 0 0 0x3400)) .read [⟨0, 0x2000, 8⟩], meets (st (oneG [(0, 0x2000)])) (oneG [(0, 0x2000)]) (w2 8 112 0 0 0x3400) (by decide +kernel) ⟨rfl, rfl, rfl⟩ (by
      refine ⟨rfl, by decide +kernel, by decide +kernel, by decide +kernel, ?_, by decide +kernel, by rfl, by decide +kernel, by decide +kernel, fun _ => by decide +kernel⟩
      intro x hx; rw [show x = ⟨0, 0x2000, 8⟩ from List.mem_singleton.mp hx]; exact someAt (by decide +kernel))⟩, nofun⟩

theorem meets_LoadsComplete_2 :
    ∀ o ∈ [Op.ld, .ild], ∃ (s2 : State) (ls : List Located), Meets o (fun s i => i.g.acquiring = false ∧
        let srcs := memSrcs i
        let d := loadDst i
        let xs := accessesOf s i srcs (i.compute d)
        queueSource srcs = none ∧ memFaults s i (i.compute d) srcs d = [] ∧ alignFaults 1 (memWidth i.ty) xs = [] ∧
        (∀ x ∈ xs, ∃ l, s.locate i .read x = .at_ l) ∧ ls = foundAt (xs.map (s.locate i .read)) ∧
        (s.useRanges (coreOf i.gid) ls).askAll (i.who s) .read (ls.map fun l => (l, .read)) = some s2) := by
  simp only [List.forall_mem_cons]
  exact ⟨⟨_, locatedBy (stHost (oneG [(0, 0x2000)])) (iss (stHost (oneG [(0, 0x2000)])) (oneG [(0, 0x2000)]) .ld (w2 8 112 0 0 0)) .read [⟨0, 0x2000, 4⟩], meets (stHost (oneG [(0, 0x2000)])) (oneG [(0, 0x2000)]) (w2 8 112 0 0 0) (by decide +kernel) ⟨rfl, rfl, rfl⟩ (by
      refine ⟨rfl, by decide +kernel, by decide +kernel, by decide +kernel, ?_, by rfl, someEq (by decide +kernel)⟩
      intro x hx; rw [show x = ⟨0, 0x2000, 4⟩ from List.mem_singleton.mp hx]; exact someAt (by decide +kernel))⟩,
    ⟨_, locatedBy (stHost (oneG [(0, 0x2000)])) (iss (stHost (oneG [(0, 0x2000)])) (oneG [(0, 0x2000)]) .ild (w2 8 112 0 0 0x3400)) .read [⟨0, 0x2000, 8⟩], meets (stHost (oneG [(0, 0x2000)])) (oneG [(0, 0x2000)]) (w2 8 112 0 0 0x3400) (by decide +kernel) ⟨rfl, rfl, rfl⟩ (by
      refine ⟨rfl, by decide +kernel, by decide +kernel, by decide +kernel, ?_, by rfl, someEq (by decide +kernel)⟩
      intro x hx; rw [show x = ⟨0, 0x2000, 8⟩ from List.mem_singleton.mp hx]; exact someAt (by decide +kernel))⟩, nofun⟩

theorem meets_StoresComplete_1 :
    ∀ o ∈ [Op.st, .ist], ∃ (s2 : State) (g2 : Group), Meets o (fun s i => i.g.acquiring = false ∧
        let srcs := memSrcs i ++ [storeSrc i]
        let w := i.who s
        let xs := accessesOf s i srcs i.list
        let ls := foundAt (xs.map (s.locate i .write))
        let data := s.storeData i srcs
        let way := s2.laneKind w (s2.wholeSectors (ls.map fun l => (l, data l.x.lane))) ls
        queueSource srcs = none ∧ memFaults s i i.list srcs .none = [] ∧ alignFaults 1 (memWidth i.ty) xs = [] ∧
        (∀ x ∈ xs, ∃ l, s.locate i .write x = .at_ l) ∧ s.hits i true xs = [] ∧
        (s.useRanges (coreOf i.gid) ls).storeRelease i ls = .ok (s2, g2) ∧
        s2.askStore w way (fun _ => false) (fun l => BitVec.ofNat 64 (data l.x.lane)) ls = none) := by
  simp only [List.forall_mem_cons]
  exact ⟨⟨usedBy (st (oneG [(0, 0x2000)])) (iss (st (oneG [(0, 0x2000)])) (oneG [(0, 0x2000)]) .st (w2 8 112 0 0 0)) .write [⟨0, 0x2000, 4⟩], _, meets (st (oneG [(0, 0x2000)])) (oneG [(0, 0x2000)]) (w2 8 112 0 0 0) (by decide +kernel) ⟨rfl, rfl, rfl⟩ (by
      refine ⟨rfl, by decide +kernel, by decide +kernel, by decide +kernel, ?_, by decide +kernel, by rfl, by decide +kernel⟩
      intro x hx; rw [show x = ⟨0, 0x2000, 4⟩ from List.mem_singleton.mp hx]; exact someAt (by decide +kernel))⟩,
    ⟨usedBy (st (oneG [(0, 0x2000)])) (iss (st (oneG [(0, 0x2000)])) (oneG [(0, 0x2000)]) .ist (w2 8 112 0 0 0x3400)) .write [⟨0, 0x2000, 8⟩], _, meets (st (oneG [(0, 0x2000)])) (oneG [(0, 0x2000)]) (w2 8 112 0 0 0x3400) (by decide +kernel) ⟨rfl, rfl, rfl⟩ (by
      refine ⟨rfl, by decide +kernel, by decide +kernel, by decide +kernel, ?_, by decide +kernel, by rfl, by decide +kernel⟩
      intro x hx; rw [show x = ⟨0, 0x2000, 8⟩ from List.mem_singleton.mp hx]; exact someAt (by decide +kernel))⟩, nofun⟩

theorem meets_StoresComplete_2 :
    ∀ o ∈ [Op.st, .ist], ∃ (s2 s3 : State) (g2 : Group) (ls : List Located), Meets o (fun s i => i.g.acquiring = false ∧
        let srcs := memSrcs i ++ [storeSrc i]
        let w := i.who s
        let xs := accessesOf s i srcs i.list
        let data := s.storeData i srcs
        let way := s2.laneKind w (s2.wholeSectors (ls.map fun l => (l, data l.x.lane))) ls
        queueSource srcs = none ∧ memFaults s i i.list srcs .none = [] ∧ alignFaults 1 (memWidth i.ty) xs = [] ∧
        (∀ x ∈ xs, ∃ l, s.locate i .write x = .at_ l) ∧ s.hits i true xs = [] ∧ ls = foundAt (xs.map (s.locate i .write)) ∧
        (s.useRanges (coreOf i.gid) ls).storeRelease i ls = .ok (s2, g2) ∧
        s2.askStore w way (fun _ => false) (fun l => BitVec.ofNat 64 (data l.x.lane)) ls = some s3) := by
  simp only [List.forall_mem_cons]
  exact ⟨⟨usedBy (stHost (oneG [(0, 0x2000)])) (iss (stHost (oneG [(0, 0x2000)])) (oneG [(0, 0x2000)]) .st (w2 8 112 0 0 0)) .write [⟨0, 0x2000, 4⟩], _, _, locatedBy (stHost (oneG [(0, 0x2000)])) (iss (stHost (oneG [(0, 0x2000)])) (oneG [(0, 0x2000)]) .st (w2 8 112 0 0 0)) .write [⟨0, 0x2000, 4⟩], meets (stHost (oneG [(0, 0x2000)])) (oneG [(0, 0x2000)]) (w2 8 112 0 0 0) (by decide +kernel) ⟨rfl, rfl, rfl⟩ (by
      refine ⟨rfl, by decide +kernel, by decide +kernel, by decide +kernel, ?_, by decide +kernel, by rfl, by rfl, someEq (by decide +kernel)⟩
      intro x hx; rw [show x = ⟨0, 0x2000, 4⟩ from List.mem_singleton.mp hx]; exact someAt (by decide +kernel))⟩,
    ⟨usedBy (stHost (oneG [(0, 0x2000)])) (iss (stHost (oneG [(0, 0x2000)])) (oneG [(0, 0x2000)]) .ist (w2 8 112 0 0 0x3400)) .write [⟨0, 0x2000, 8⟩], _, _, locatedBy (stHost (oneG [(0, 0x2000)])) (iss (stHost (oneG [(0, 0x2000)])) (oneG [(0, 0x2000)]) .ist (w2 8 112 0 0 0x3400)) .write [⟨0, 0x2000, 8⟩], meets (stHost (oneG [(0, 0x2000)])) (oneG [(0, 0x2000)]) (w2 8 112 0 0 0x3400) (by decide +kernel) ⟨rfl, rfl, rfl⟩ (by
      refine ⟨rfl, by decide +kernel, by decide +kernel, by decide +kernel, ?_, by decide +kernel, by rfl, by rfl, someEq (by decide +kernel)⟩
      intro x hx; rw [show x = ⟨0, 0x2000, 8⟩ from List.mem_singleton.mp hx]; exact someAt (by decide +kernel))⟩, nofun⟩

theorem meets_MatrixOperationsQueue_6 :
    ∃ w m : List W64, Meets .mdrain (fun s i =>
       let args := s.readGs i 0 i.f.a 3
       let d := Drain.ofArgs i.f args
       let at_ := fun (a : Acc) (x : Nat × Nat) => ∃ p e, s.xlat i.gid i.g a x.2 x.1 = .ok p e
       Unguarded i ∧ mxReg i.f.a 9 = [] ∧ gPoisonFaults i (gNames i.f.a 3) = [] ∧ ¬(d.res = true ∧ d.c = d.d) ∧
       (if d.sgdm then (s.team i.g.team).tensor (s.ownSide i.gid i.g.team) d.mid = some m ∧ Tensor.ty m = 10 ∧ Tensor.double m = true ∧
         Tensor.dims m = Tensor.dims w else m = []) ∧
       (s.team i.g.team).tensor (s.ownSide i.gid i.g.team) d.id = some w ∧ Tensor.double w = true ∧
       (Tensor.ty w = 10 ∨ Tensor.ty w = 17 ∨ Tensor.ty w = 12) ∧ (d.sr = true → Tensor.ty w = 12) ∧
       drainResv i.f (args.getD 2 0) = true ∧ TakesOp s i (if d.res then 96 else 48) ∧
       ∀ e ∈ d.elements w, (∀ x ∈ d.writes w m e.2, at_ .write x) ∧ ∀ x ∈ d.reads w m e.2, at_ .read x) :=
  ⟨drainW, [], meets (atDrain one [(3, drainW)]) one (w2 3 112 8 0 0) (by decide +kernel) ⟨rfl, rfl, rfl⟩ (by
    refine ⟨⟨rfl, rfl⟩, by decide +kernel, by decide +kernel, by decide +kernel, by decide +kernel, by decide +kernel, by decide +kernel, by decide +kernel, by decide +kernel, by decide +kernel, by decide +kernel, ?_⟩
    exact drained (by decide +kernel))⟩

theorem meets_MatrixOperationsQueue_6_momentum :
    ∃ w m : List W64, m ≠ [] ∧ Meets .mdrain (fun s i =>
       let args := s.readGs i 0 i.f.a 3
       let d := Drain.ofArgs i.f args
       let at_ := fun (a : Acc) (x : Nat × Nat) => ∃ p e, s.xlat i.gid i.g a x.2 x.1 = .ok p e
       Unguarded i ∧ mxReg i.f.a 9 = [] ∧ gPoisonFaults i (gNames i.f.a 3) = [] ∧ ¬(d.res = true ∧ d.c = d.d) ∧
       (if d.sgdm then (s.team i.g.team).tensor (s.ownSide i.gid i.g.team) d.mid = some m ∧ Tensor.ty m = 10 ∧ Tensor.double m = true ∧
         Tensor.dims m = Tensor.dims w else m = []) ∧
       (s.team i.g.team).tensor (s.ownSide i.gid i.g.team) d.id = some w ∧ Tensor.double w = true ∧
       (Tensor.ty w = 10 ∨ Tensor.ty w = 17 ∨ Tensor.ty w = 12) ∧ (d.sr = true → Tensor.ty w = 12) ∧
       drainResv i.f (args.getD 2 0) = true ∧ TakesOp s i (if d.res then 96 else 48) ∧
       ∀ e ∈ d.elements w, (∀ x ∈ d.writes w m e.2, at_ .write x) ∧ ∀ x ∈ d.reads w m e.2, at_ .read x) :=
  ⟨drainW, drainW, by decide, meets (atDrain (oneG [(2, 0x40000)]) [(3, drainW), (4, drainW)]) (oneG [(2, 0x40000)]) (w2 3 112 8 0 0x1000) (by decide +kernel) ⟨rfl, rfl, rfl⟩ (by
    refine ⟨⟨rfl, rfl⟩, by decide +kernel, by decide +kernel, by decide +kernel, by decide +kernel, by decide +kernel, by decide +kernel, by decide +kernel, by decide +kernel, by decide +kernel, by decide +kernel, ?_⟩
    exact drained (by decide +kernel))⟩

theorem meets_MatrixOperationsQueue_7 :
    ∃ w : List W64, Meets .mdrain (fun s i =>
       let d := Drain.ofArgs i.f (s.readGs i 0 i.f.a 3)
       Unguarded i ∧ mxReg i.f.a 9 = [] ∧ gPoisonFaults i (gNames i.f.a 3) = [] ∧ ¬(d.res = true ∧ d.c = d.d) ∧ d.sgdm = false ∧
       (s.team i.g.team).tensor (s.ownSide i.gid i.g.team) d.id = some w ∧
       ¬(Tensor.double w = true ∧ (Tensor.ty w = 10 ∨ Tensor.ty w = 17 ∨ Tensor.ty w = 12))) :=
  ⟨singleW, meets (atDrain one [(3, singleW)]) one (w2 3 112 8 0 0) (by decide +kernel) ⟨rfl, rfl, rfl⟩ ⟨⟨rfl, rfl⟩, by decide +kernel, by decide +kernel, by decide +kernel, by decide +kernel, rfl, by decide +kernel⟩⟩

theorem meets_TensorInstructionsComplete_6 :
    ∃ va ws s1, Meets .tdef (fun s i => i.g.acquiring = false ∧ Unguarded i ∧ NamesG i i.f.d ∧ ReadyG i i.f.a ∧
      va = (valueG i i.f.a).toNat % 2 ^ 56 ∧ va % 64 = 0 ∧ ImageReady s i 8 va ws s1 ∧ i.mbit 13 = true ∧ (s1.team i.g.team).paired = true ∧
      (∀ side < 2, (s1.team i.g.team).tensor side (i.mb 11 5) = none) ∧ 2 ≤ Tensor.ty ws ∧ Tensor.ty ws ≤ 17 ∧
      Tensor.resvOk ws = true ∧ Tensor.alignOk ws = true ∧ Tensor.geometryOk ws = true ∧ Tensor.flagsOk ws = true ∧
      ∀ side < 2, s1.entriesOn (coreOf i.gid / 2 * 2 + side) < 128) :=
  ⟨0x2000, imageWords (withMem (paired (oneG [(1, 0x2000)]) []) [(0x2000, 0xA00000000010000)]) (iss (withMem (paired (oneG [(1, 0x2000)]) []) [(0x2000, 0xA00000000010000)]) (oneG [(1, 0x2000)]) .tdef (w2 112 113 0 0 0x2060)) 8 0x2000, (imageRead (withMem (paired (oneG [(1, 0x2000)]) []) [(0x2000, 0xA00000000010000)]) (iss (withMem (paired (oneG [(1, 0x2000)]) []) [(0x2000, 0xA00000000010000)]) (oneG [(1, 0x2000)]) .tdef (w2 112 113 0 0 0x2060)) 8 0x2000).1, meets (withMem (paired (oneG [(1, 0x2000)]) []) [(0x2000, 0xA00000000010000)]) (oneG [(1, 0x2000)]) (w2 112 113 0 0 0x2060) (by decide +kernel) ⟨rfl, rfl, rfl⟩ (by and_intros <;> first | decide +kernel | exact imageReady (by decide +kernel))⟩

theorem meets_TensorInstructionsComplete_7 :
    ∃ w v : List W64, Meets .tdefCommit (fun s i => Unguarded i ∧ NamesG i i.f.d ∧ gIndex i.f.d ≤ 11 ∧ ReadyG i i.f.a ∧ i.mbit 13 = true ∧
      (s.team i.g.team).paired = true ∧ namedWait i s true true false (i.mb 11 5) = false ∧ (s.team i.g.team).tensor 0 (i.mb 11 5) = some w ∧
      (s.team i.g.team).tensor 1 (i.mb 11 5) = some v ∧ (valueG i i.f.a).getLsbD 0 = true) :=
  ⟨drainW, drainW, meets (paired (oneG [(1, 1)]) [(3, drainW), (131, drainW)]) (oneG [(1, 1)]) (w2 112 113 0 0 0x3060) (by decide +kernel) ⟨rfl, rfl, rfl⟩ (by decide +kernel)⟩

theorem meets_TensorInstructionsComplete_8 :
    Meets .tkill (fun s i => Unguarded i ∧ i.mbit 13 = true ∧ (s.team i.g.team).paired = true ∧ namedWait i s true true true (i.mb 11 5) = false) :=
  meets (paired one [(3, drainW), (131, drainW)]) one (w2 0 0 1 0 0x2060) (by decide +kernel) ⟨rfl, rfl, rfl⟩ (by decide +kernel)

theorem meets_FencesAndBarriersComplete_1 :
    ∃ s1 s2, Meets .fence (fun s i => i.g.acquiring = false ∧ s.storing i.gid = false ∧
      (if i.mb 5 4 ≠ 1 then s.releaseOr i.gid i.g (i.mb 8 6) else .ok s) = .ok s1 ∧
      (if i.mb 5 4 ≠ 2 then s1.acquireClean i.gid i.g (i.mb 8 6) else .ok s1) = .ok s2) :=
  ⟨relOf (st one) (iss (st one) one .fence (w1 0 0 0)) 0, takenBy ((relOf (st one) (iss (st one) one .fence (w1 0 0 0)) 0).acquireClean 0 { ctx := one } 0), meets (st one) one (w1 0 0 0) (by decide +kernel) ⟨rfl, rfl, rfl⟩ ⟨rfl, by decide +kernel, taken (by decide +kernel), taken (by decide +kernel)⟩⟩

theorem meets_AtomicsComplete_1 :
    ∀ o ∈ [Op.atom, .red], ∃ (s2 s3 : State) (g2 : Group), Meets o (fun s i => i.g.acquiring = false ∧
         let op := atomOp i
         let ty := atomTy i
         let ret := decide (o = .atom)
         let srcs := atomSrcs i
         let d := atomDst ret i
         let lanes := i.compute d
         let w := i.who s
         let xs := s.accessesAt i 0 srcs lanes (atomSize ty)
         let ls := foundAt (xs.map (s.locate i .atomic))
         let s1 := s.useRanges (coreOf i.gid) ls
         let way := s1.wayOf w ret op ty (fun _ => false)
         let arg := s.atomArg i 0
         let r := (s3.countFor i.gid i.g 0x24 (byAddress ls).length).atomAll w op ty (fun l => way l == .lazy) (fun l => way l == .quiet) (fun _ => false)
           arg (byAddress ls)
         queueSource srcs = none ∧ memFaults s i lanes srcs d = [] ∧ alignFaults 1 (atomSize ty) xs = [] ∧
         (∀ x ∈ xs, ∃ l, s.locate i .atomic x = .at_ l) ∧ (ret = true → s1.storing i.gid = false) ∧ s.hits i true xs = [] ∧
         s1.atomRelease i ls = .ok (s2, g2) ∧ s2.askActs w op ty way arg (byAddress ls) = none ∧ s2.atomAcquire i g2 = .ok s3 ∧
         (ret = true → ∀ v ∈ r.2, v.2.2.2 ≠ 5) ∧
         (i.g.granted.isSome = true ∨ ((∀ a ∈ byAddress ls, way a.1 ≠ .far) ∧
           (lanes ≠ [] → (r.1.setGroup i.gid (i.g.free (freedNames i srcs))).admits i.gid (i.g.free (freedNames i srcs))
             (((i.g.free (freedNames i srcs)).needs (dstNames i d)).length * (i.width / 32)) = true)))) := by
  simp only [List.forall_mem_cons]
  exact ⟨⟨usedBy (atScratch (oneG [(0, 0xFF000000000000), (1, 5)])) (iss (atScratch (oneG [(0, 0xFF000000000000), (1, 5)])) (oneG [(0, 0xFF000000000000), (1, 5)]) .atom (w2 8 112 4 0 0x100)) .atomic [⟨0, 0xFF000000000000, 4⟩], _, _, meets (atScratch (oneG [(0, 0xFF000000000000), (1, 5)])) (oneG [(0, 0xFF000000000000), (1, 5)]) (w2 8 112 4 0 0x100) (by decide +kernel) ⟨rfl, rfl, rfl⟩ (by
      refine ⟨rfl, rfl, by decide +kernel, by decide +kernel, ?_, fun _ => by decide +kernel, by decide +kernel, by rfl, by decide +kernel, by rfl, fun _ => by decide +kernel, .inr ⟨by decide +kernel, fun _ => by decide +kernel⟩⟩
      intro x hx; rw [show x = ⟨0, 0xFF000000000000, 4⟩ from List.mem_singleton.mp hx]; exact someAt (by decide +kernel))⟩,
    ⟨usedBy (atScratch (oneG [(0, 0xFF000000000000), (1, 5)])) (iss (atScratch (oneG [(0, 0xFF000000000000), (1, 5)])) (oneG [(0, 0xFF000000000000), (1, 5)]) .red (w2 0 112 4 0 0x100)) .atomic [⟨0, 0xFF000000000000, 4⟩], _, _, meets (atScratch (oneG [(0, 0xFF000000000000), (1, 5)])) (oneG [(0, 0xFF000000000000), (1, 5)]) (w2 0 112 4 0 0x100) (by decide +kernel) ⟨rfl, rfl, rfl⟩ (by
      refine ⟨rfl, rfl, by decide +kernel, by decide +kernel, ?_, fun _ => by decide +kernel, by decide +kernel, by rfl, by decide +kernel, by rfl, fun _ => by decide +kernel, .inr ⟨by decide +kernel, fun _ => by decide +kernel⟩⟩
      intro x hx; rw [show x = ⟨0, 0xFF000000000000, 4⟩ from List.mem_singleton.mp hx]; exact someAt (by decide +kernel))⟩, nofun⟩

theorem meets_AtomicsComplete_2 :
    ∀ o ∈ [Op.atom, .red], ∃ (s2 s3 : State) (g2 : Group) (ls : List Located), Meets o (fun s i => i.g.acquiring = false ∧
         let op := atomOp i
         let ty := atomTy i
         let ret := decide (o = .atom)
         let srcs := atomSrcs i
         let d := atomDst ret i
         let xs := s.accessesAt i 0 srcs (i.compute d) (atomSize ty)
         let s1 := s.useRanges (coreOf i.gid) ls
         let way := s1.wayOf (i.who s) ret op ty (fun _ => false)
         let after := i.g.free (freedNames i srcs)
         queueSource srcs = none ∧ memFaults s i (i.compute d) srcs d = [] ∧ alignFaults 1 (atomSize ty) xs = [] ∧
         (∀ x ∈ xs, ∃ l, s.locate i .atomic x = .at_ l) ∧ ls = foundAt (xs.map (s.locate i .atomic)) ∧
         (ret = true → s1.storing i.gid = false) ∧ s.hits i true xs = [] ∧
         (i.g.granted.isSome = true ∨ (s1.setGroup i.gid after).admits i.gid after ((after.needs (dstNames i d)).length * (i.width / 32)) = true) ∧
         i.compute d ≠ [] ∧ s1.atomRelease i ls = .ok (s2, g2) ∧ s2.askActs (i.who s) op ty way (s.atomArg i 0) (byAddress ls) = some s3) := by
  simp only [List.forall_mem_cons]
  exact ⟨⟨usedBy (stHost (oneG [(0, 0x2000)])) (iss (stHost (oneG [(0, 0x2000)])) (oneG [(0, 0x2000)]) .atom (w2 8 112 4 0 0x100)) .atomic [⟨0, 0x2000, 4⟩], _, _, locatedBy (stHost (oneG [(0, 0x2000)])) (iss (stHost (oneG [(0, 0x2000)])) (oneG [(0, 0x2000)]) .atom (w2 8 112 4 0 0x100)) .atomic [⟨0, 0x2000, 4⟩], meets (stHost (oneG [(0, 0x2000)])) (oneG [(0, 0x2000)]) (w2 8 112 4 0 0x100) (by decide +kernel) ⟨rfl, rfl, rfl⟩ (by
      refine ⟨rfl, rfl, by decide +kernel, by decide +kernel, ?_, by rfl, fun _ => by decide +kernel, by decide +kernel, .inr (by decide +kernel), by decide +kernel, by rfl, someEq (by decide +kernel)⟩
      intro x hx; rw [show x = ⟨0, 0x2000, 4⟩ from List.mem_singleton.mp hx]; exact someAt (by decide +kernel))⟩,
    ⟨usedBy (stHost (oneG [(0, 0x2000)])) (iss (stHost (oneG [(0, 0x2000)])) (oneG [(0, 0x2000)]) .red (w2 0 112 4 0 0x100)) .atomic [⟨0, 0x2000, 4⟩], _, _, locatedBy (stHost (oneG [(0, 0x2000)])) (iss (stHost (oneG [(0, 0x2000)])) (oneG [(0, 0x2000)]) .red (w2 0 112 4 0 0x100)) .atomic [⟨0, 0x2000, 4⟩], meets (stHost (oneG [(0, 0x2000)])) (oneG [(0, 0x2000)]) (w2 0 112 4 0 0x100) (by decide +kernel) ⟨rfl, rfl, rfl⟩ (by
      refine ⟨rfl, rfl, by decide +kernel, by decide +kernel, ?_, by rfl, fun _ => by decide +kernel, by decide +kernel, .inr (by decide +kernel), by decide +kernel, by rfl, someEq (by decide +kernel)⟩
      intro x hx; rw [show x = ⟨0, 0x2000, 4⟩ from List.mem_singleton.mp hx]; exact someAt (by decide +kernel))⟩, nofun⟩

theorem meets_PrefetchAndWaitComplete_2 :
    ∃ s2 : State, Meets .waita (fun s i => i.g.acquiring = false ∧
       let t := waitaTy i
       let srcs := [addrSrc i.f.a, intSrc i.f.b t]
       let d := intDst i.f.d t
       let lanes := i.compute d
       let xs := s.accessesAt i 0 srcs lanes (t.ibits / 8)
       let ls := foundAt (xs.map (s.locate i .read))
       let rd := s2.readAll (i.who s) ls
       queueSource srcs = none ∧ memFaults s i lanes srcs d = [] ∧ alignFaults 1 (t.ibits / 8) xs = [] ∧
       (∀ x ∈ xs, ∃ l, s.locate i .read x = .at_ l) ∧ s.storing i.gid = false ∧
       (s.useRanges (coreOf i.gid) ls).askAll (i.who s) .read (ls.map fun l => (l, .read)) = none ∧
       (s.useRanges (coreOf i.gid) ls).acquireOr i.gid i.g (i.mb 7 5) = .ok s2 ∧
       (∀ x ∈ rd.2, x.2.2 = 0 ∧ condInt (i.mb 13 10) (intVal t (halves (BitVec.ofNat 64 x.2.1)))
         (intVal t (opn (s.operands i 0 x.1.x.lane srcs) 1)) = true) ∧ s.hits i false xs = [] ∧
       (lanes ≠ [] → (rd.1.setGroup i.gid (i.g.free (freedNames i srcs))).admits i.gid (i.g.free (freedNames i srcs))
         (((i.g.free (freedNames i srcs)).needs (dstNames i d)).length * (i.width / 32)) = true)) :=
  ⟨acqOf (usedBy (atScratch (oneG [(0, 0xFF000000000000), (1, 5)])) (iss (atScratch (oneG [(0, 0xFF000000000000), (1, 5)])) (oneG [(0, 0xFF000000000000), (1, 5)]) .waita (w2 8 112 113 0 0)) .read [⟨0, 0xFF000000000000, 4⟩]) (iss (atScratch (oneG [(0, 0xFF000000000000), (1, 5)])) (oneG [(0, 0xFF000000000000), (1, 5)]) .waita (w2 8 112 113 0 0)) 0, meets (atScratch (oneG [(0, 0xFF000000000000), (1, 5)])) (oneG [(0, 0xFF000000000000), (1, 5)]) (w2 8 112 113 0 0) (by decide +kernel) ⟨rfl, rfl, rfl⟩ (by
    refine ⟨rfl, rfl, by decide +kernel, by decide +kernel, ?_, by decide +kernel, by decide +kernel, taken (by decide +kernel), by decide +kernel, by decide +kernel, fun _ => by decide +kernel⟩
    intro x hx; rw [show x = ⟨0, 0xFF000000000000, 4⟩ from List.mem_singleton.mp hx]; exact someAt (by decide +kernel))⟩

theorem meets_SpawnCompletes_none :
    Meets .spawn (fun _ i => i.g.acquiring = false ∧ i.list = [] ∧ ReadyG i i.f.a ∧ argFaults i i.f.b (i.mb 13 11) = [] ∧
      poisonFaults i i.list (argSrcs i.f.b (i.mb 13 11)) = [] ∧ bits (valueG i i.f.a) 63 56 = 0 ∧ (valueG i i.f.a).toNat % 4 = 0) :=
  meets (st (oneG [(0, 0x4000)])) (oneG [(0, 0x4000)]) ({ w1 0 112 0 with g := 1 }) (by decide +kernel) ⟨rfl, rfl, rfl⟩ ⟨rfl, rfl, by decide +kernel, by decide +kernel, by decide +kernel, by decide +kernel, by decide +kernel⟩

theorem meets_SpawnCompletes_1 :
    ∃ (k : Nat) (p : Pan) (s1 : State), Meets .spawn (fun s i => i.g.acquiring = false ∧ i.list ≠ [] ∧ ReadyG i i.f.a ∧ argFaults i i.f.b (i.mb 13 11) = [] ∧
        poisonFaults i i.list (argSrcs i.f.b (i.mb 13 11)) = [] ∧ bits (valueG i i.f.a) 63 56 = 0 ∧ (valueG i i.f.a).toNat % 4 = 0 ∧
        s.releaseOr i.gid i.g 1 = .ok s1 ∧
        s1.receivingPan i ((valueG i i.f.a).setWidth 56) (i.mb 13 11) = some (k, p) ∧ p.children.length + i.list.length ≤ 1024) :=
  ⟨0, ⟨0, 0, 0x4000, 0, [], 0, false⟩, relOf ({ st (oneG [(0, 0x4000)]) with cores := [(0, { pans := [(0, ⟨0, 0, 0x4000, 0, [], 0, false⟩)] })] }) (iss ({ st (oneG [(0, 0x4000)]) with cores := [(0, { pans := [(0, ⟨0, 0, 0x4000, 0, [], 0, false⟩)] })] }) (oneG [(0, 0x4000)]) .spawn (w1 0 112 0)) 1, meets ({ st (oneG [(0, 0x4000)]) with cores := [(0, { pans := [(0, ⟨0, 0, 0x4000, 0, [], 0, false⟩)] })] }) (oneG [(0, 0x4000)]) (w1 0 112 0) (by decide +kernel) ⟨rfl, rfl, rfl⟩ ⟨rfl, by decide +kernel, by decide +kernel, by decide +kernel, by decide +kernel, by decide +kernel, by decide +kernel, taken (by decide +kernel), by decide +kernel, by decide +kernel⟩⟩

theorem meets_SpawnCompletes_new :
    ∃ (k : Nat) (p : Pan) (s1 : State), p.children = [] ∧ Meets .spawn (fun s i => i.g.acquiring = false ∧ i.list ≠ [] ∧ ReadyG i i.f.a ∧ argFaults i i.f.b (i.mb 13 11) = [] ∧
        poisonFaults i i.list (argSrcs i.f.b (i.mb 13 11)) = [] ∧ bits (valueG i i.f.a) 63 56 = 0 ∧ (valueG i i.f.a).toNat % 4 = 0 ∧
        s.releaseOr i.gid i.g 1 = .ok s1 ∧
        s1.receivingPan i ((valueG i i.f.a).setWidth 56) (i.mb 13 11) = some (k, p) ∧ p.children.length + i.list.length ≤ 1024) :=
  ⟨0, ⟨0, 0, 0x4000, 0, [], 0, false⟩, relOf (st (oneG [(0, 0x4000)])) (iss (st (oneG [(0, 0x4000)])) (oneG [(0, 0x4000)]) .spawn (w1 0 112 0)) 1, rfl, meets (st (oneG [(0, 0x4000)])) (oneG [(0, 0x4000)]) (w1 0 112 0) (by decide +kernel) ⟨rfl, rfl, rfl⟩ ⟨rfl, by decide +kernel, by decide +kernel, by decide +kernel, by decide +kernel, by decide +kernel, by decide +kernel, taken (by decide +kernel), by decide +kernel, by decide +kernel⟩⟩

theorem meets_BisectionCompletes_2 :
    ∃ (s1 : State) (k : Nat) (p : Pan), Meets .ibis (fun s i => i.g.acquiring = false ∧ i.width ≤ 128 ∧
      LaneReady s i (ibisSrcs i) (xdst i.f.d i.ty.fmt 2) 0 s ∧ argFaults i i.f.c (i.mb 8 7) = [] ∧ queueTwice [i.f.a, i.f.b, i.f.c] = [] ∧
      ReadyG i i.f.b ∧ bits (valueG i i.f.b) 63 56 = 0 ∧ (valueG i i.f.b).toNat % 4 = 0 ∧ ibisChildren s i ≠ [] ∧
      s.releaseOr i.gid i.g 1 = .ok s1 ∧ s1.receivingPan i ((valueG i i.f.b).setWidth 56) (xregs i.ty.fmt 2 + i.mb 8 7) = some (k, p) ∧
      p.children.length + (ibisChildren s i).length ≤ 1024) :=
  ⟨relOf (st ({ oneG [(0, 0x4000)] with v := [(512, 0x3F800000), (640, 0x40000000)] })) (iss (st ({ oneG [(0, 0x4000)] with v := [(512, 0x3F800000), (640, 0x40000000)] })) ({ oneG [(0, 0x4000)] with v := [(512, 0x3F800000), (640, 0x40000000)] }) .ibis (w1 8 4 112)) 1, 0, ⟨0, 0, 0x4000, 2, [], 0, false⟩, meets (st ({ oneG [(0, 0x4000)] with v := [(512, 0x3F800000), (640, 0x40000000)] })) ({ oneG [(0, 0x4000)] with v := [(512, 0x3F800000), (640, 0x40000000)] }) (w1 8 4 112) (by decide +kernel) ⟨rfl, rfl, rfl⟩ ⟨rfl, by decide, ⟨by decide +kernel, by decide +kernel, by decide +kernel, rfl, fun _ => by decide +kernel⟩, by decide +kernel, by decide +kernel, by decide +kernel, by decide +kernel, by decide +kernel, by decide +kernel, taken (by decide +kernel), by decide +kernel, by decide +kernel⟩⟩

theorem meets_BisectionCompletes_2_arguments :
    ∃ (s1 : State) (k : Nat) (p : Pan), Meets .ibis (fun s i => i.g.acquiring = false ∧ i.width ≤ 128 ∧
      LaneReady s i (ibisSrcs i) (xdst i.f.d i.ty.fmt 2) 0 s ∧ argFaults i i.f.c (i.mb 8 7) = [] ∧ queueTwice [i.f.a, i.f.b, i.f.c] = [] ∧
      ReadyG i i.f.b ∧ bits (valueG i i.f.b) 63 56 = 0 ∧ (valueG i i.f.b).toNat % 4 = 0 ∧ ibisChildren s i ≠ [] ∧
      s.releaseOr i.gid i.g 1 = .ok s1 ∧ s1.receivingPan i ((valueG i i.f.b).setWidth 56) (xregs i.ty.fmt 2 + i.mb 8 7) = some (k, p) ∧
      p.children.length + (ibisChildren s i).length ≤ 1024) :=
  ⟨relOf (st ({ oneG [(0, 0x4000)] with v := [(512, 0x3F800000), (640, 0x40000000)] })) (iss (st ({ oneG [(0, 0x4000)] with v := [(512, 0x3F800000), (640, 0x40000000)] })) ({ oneG [(0, 0x4000)] with v := [(512, 0x3F800000), (640, 0x40000000)] }) .ibis (w2 8 4 112 4 0x3480)) 1, 0, ⟨0, 0, 0x4000, 3, [], 0, false⟩, meets (st ({ oneG [(0, 0x4000)] with v := [(512, 0x3F800000), (640, 0x40000000)] })) ({ oneG [(0, 0x4000)] with v := [(512, 0x3F800000), (640, 0x40000000)] }) (w2 8 4 112 4 0x3480) (by decide +kernel) ⟨rfl, rfl, rfl⟩ ⟨rfl, by decide, ⟨by decide +kernel, by decide +kernel, by decide +kernel, rfl, fun _ => by decide +kernel⟩, by decide +kernel, by decide +kernel, by decide +kernel, by decide +kernel, by decide +kernel, by decide +kernel, taken (by decide +kernel), by decide +kernel, by decide +kernel⟩⟩

def rsetOdd : State := withMem ({ st (oneG [(1, 0x2000)]) with diesT := [(0, { config := List.replicate 7 0 ++ [0x8000] })] }) [(0x8000, 2 ^ 63 + 0x9000), (0x8008, 2 ^ 32), (0x2000, 2 ^ 63 + 0x10000F), (0x2008, 0x4400), (0x2010, 0x5000)]
def rsetOddI : Iss := iss rsetOdd (oneG [(1, 0x2000)]) .rset (w2 112 113 0 0 0x80)
def rsetOddW : List W64 := imageWords rsetOdd rsetOddI 4 0x2000
def rsetOddR : RangeRec := ⟨rsetOddW.getD 0 0, rsetOddW.getD 1 0, rsetOddW.getD 2 0, rsetOddW.getD 3 0⟩
def rsetOddS : State := relOf (imageRead rsetOdd rsetOddI 4 0x2000).1 rsetOddI (rsetOddI.mb 8 6)
def rsetOddT : State := readOf (imageRead rsetOdd rsetOddI 4 0x2000).1 rsetOddI rsetOddR.asid
def rsetOddD : Space := spaceFor rsetOddS rsetOddI rsetOddR.asid
def rsetOddL : List RangeRec := recordsFor rsetOddS rsetOddI rsetOddR.asid
def replOdd : State := withMem ({ st (oneG [(1, 0x2000)]) with diesT := [(0, { config := List.replicate 7 0 ++ [0x8000] })] }) [(0x8000, 2 ^ 63 + 0x9000), (0x8008, 2 ^ 32), (0x2000, 2 ^ 63 + 0x10000F), (0x2008, 0x4400), (0x2010, 0x5000)]
def replOddI : Iss := iss replOdd (oneG [(1, 0x2000)]) .rsetRepl (w2 112 113 0 0 0x2080)
def replOddW : List W64 := imageWords replOdd replOddI 4 0x2000
def replOddR : RangeRec := ⟨replOddW.getD 0 0, replOddW.getD 1 0, replOddW.getD 2 0, replOddW.getD 3 0⟩
def replOddS : State := relOf (imageRead replOdd replOddI 4 0x2000).1 replOddI (replOddI.mb 8 6)
def replOddT : State := readOf (imageRead replOdd replOddI 4 0x2000).1 replOddI replOddR.asid
def replOddD : Space := spaceFor replOddS replOddI replOddR.asid
def replOddL : List RangeRec := recordsFor replOddS replOddI replOddR.asid
def splitOdd : State := withMem ({ st (oneG [(0, 0x4200)]) with diesT := [(0, { config := List.replicate 7 0 ++ [0x8000] })] }) ([(0x8000, 2 ^ 63 + 0x9000), (0x8008, 2 ^ 32 + 1)] ++ rec0)
def splitOddI : Iss := iss splitOdd (oneG [(0, 0x4200)]) .rsplit (w2 113 112 1 0 0x80)
def splitOddS : State := relOf splitOdd splitOddI (splitOddI.mb 8 6)
def splitOddT : State := readOf splitOdd splitOddI 0
def splitOddD : Space := spaceFor splitOddS splitOddI 0
def splitOddL : List RangeRec := recordsFor splitOddS splitOddI 0
def mergeOdd : State := withMem ({ st (oneG [(0, 0x4400)]) with diesT := [(0, { config := List.replicate 7 0 ++ [0x8000] })] }) ([(0x8000, 2 ^ 63 + 0x9000), (0x8008, 2 ^ 32 + 1)] ++ rec0)
def mergeOddI : Iss := iss mergeOdd (oneG [(0, 0x4400)]) .rmerge (w2 113 112 2 0 0x80)
def mergeOddS : State := relOf mergeOdd mergeOddI (mergeOddI.mb 8 6)
def mergeOddT : State := readOf mergeOdd mergeOddI 0
def mergeOddD : Space := spaceFor mergeOddS mergeOddI 0
def mergeOddL : List RangeRec := recordsFor mergeOddS mergeOddI 0
def invOdd : State := withMem ({ st (oneG [(0, 0x4000)]) with diesT := [(0, { config := List.replicate 7 0 ++ [0x8000] })] }) ([(0x8000, 2 ^ 63 + 0x9000), (0x8008, 2 ^ 32 + 1)] ++ rec0)
def invOddI : Iss := iss invOdd (oneG [(0, 0x4000)]) .rinv (w2 113 112 3 0 0x2080)
def invOddS : State := relOf invOdd invOddI (invOddI.mb 8 6)
def invOddT : State := readOf invOdd invOddI 0
def invOddD : Space := spaceFor invOddS invOddI 0
def invOddL : List RangeRec := recordsFor invOddS invOddI 0
def compOdd : State := withMem ({ st (oneG [(0, 0x4000), (2, 0x200000)]) with diesT := [(0, { config := List.replicate 7 0 ++ [0x8000] })] }) ([(0x8000, 2 ^ 63 + 0x9000), (0x8008, 2 ^ 32 + 1)] ++ rec0)
def compOddI : Iss := iss compOdd (oneG [(0, 0x4000), (2, 0x200000)]) .rcomp (w2 113 112 5 114 0x80)
def compOddS : State := relOf compOdd compOddI (compOddI.mb 8 6)
def compOddT : State := readOf compOdd compOddI 0
def compOddD : Space := spaceFor compOddS compOddI 0
def compOddL : List RangeRec := recordsFor compOddS compOddI 0

theorem meets_RangeSetsAndMissesComplete_odd :
    ∀ o ∈ [Op.rset, .rsetRepl], ∃ (va : Nat) (w : List W64) (s1 s0 s2 : State) (sp : Space) (rs : List RangeRec), Meets o (fun s i => i.g.acquiring = false ∧ Unguarded i ∧ NamesG i i.f.d ∧ ReadyG i i.f.a ∧ i.g.change = none ∧
         va = (valueG i i.f.a).toNat % 2 ^ 56 ∧ va % 32 = 0 ∧ ImageReady s i 4 va w s1 ∧ sp.valid = true ∧ sp.gen % 2 = 1 ∧
         let r : RangeRec := ⟨w.getD 0 0, w.getD 1 0, w.getD 2 0, w.getD 3 0⟩
         DirRead s1 i r.asid s0 s2 sp rs) := by
  simp only [List.forall_mem_cons]
  exact ⟨⟨0x2000, rsetOddW, (imageRead rsetOdd rsetOddI 4 0x2000).1, rsetOddS, rsetOddT, rsetOddD, rsetOddL, meets rsetOdd (oneG [(1, 0x2000)]) (w2 112 113 0 0 0x80) (by decide +kernel) ⟨rfl, rfl, rfl⟩ ⟨rfl, ⟨rfl, rfl⟩, by decide +kernel, by decide +kernel, rfl, by decide +kernel, by decide +kernel, imageReady (by decide +kernel), by decide +kernel, by decide +kernel, dirRead (by decide +kernel)⟩⟩,
    ⟨0x2000, replOddW, (imageRead replOdd replOddI 4 0x2000).1, replOddS, replOddT, replOddD, replOddL, meets replOdd (oneG [(1, 0x2000)]) (w2 112 113 0 0 0x2080) (by decide +kernel) ⟨rfl, rfl, rfl⟩ ⟨rfl, ⟨rfl, rfl⟩, by decide +kernel, by decide +kernel, rfl, by decide +kernel, by decide +kernel, imageReady (by decide +kernel), by decide +kernel, by decide +kernel, dirRead (by decide +kernel)⟩⟩, nofun⟩

theorem meets_RangeChangesComplete_odd :
    ∀ o ∈ [Op.rsplit, .rmerge, .rinv, .rcomp], ∃ (k : Key) (s0 s2 : State) (sp : Space) (rs : List RangeRec), Meets o (fun s i => i.g.acquiring = false ∧ Unguarded i ∧ NamesG i i.f.d ∧ ReadyG i i.f.a ∧ i.g.change = none ∧
         (o = .rinv → i.mbit 13 = true) ∧ (o = .rcomp → ReadyG i i.f.c ∧ badTarget (valueG i i.f.c).toNat = false) ∧
         k = keyOf (valueG i i.f.a) ∧ k.resv = false ∧ sp.valid = true ∧ sp.gen % 2 = 1 ∧ DirRead s i k.asid s0 s2 sp rs) := by
  simp only [List.forall_mem_cons]
  exact ⟨⟨⟨0, 0x108000, false⟩, splitOddS, splitOddT, splitOddD, splitOddL, meets splitOdd (oneG [(0, 0x4200)]) (w2 113 112 1 0 0x80) (by decide +kernel) ⟨rfl, rfl, rfl⟩ ⟨rfl, ⟨rfl, rfl⟩, by decide +kernel, by decide +kernel, rfl, by decide +kernel, by decide +kernel, by decide +kernel, rfl, by decide +kernel, by decide +kernel, dirRead (by decide +kernel)⟩⟩,
    ⟨⟨0, 0x110000, false⟩, mergeOddS, mergeOddT, mergeOddD, mergeOddL, meets mergeOdd (oneG [(0, 0x4400)]) (w2 113 112 2 0 0x80) (by decide +kernel) ⟨rfl, rfl, rfl⟩ ⟨rfl, ⟨rfl, rfl⟩, by decide +kernel, by decide +kernel, rfl, by decide +kernel, by decide +kernel, by decide +kernel, rfl, by decide +kernel, by decide +kernel, dirRead (by decide +kernel)⟩⟩,
    ⟨⟨0, 0x100000, false⟩, invOddS, invOddT, invOddD, invOddL, meets invOdd (oneG [(0, 0x4000)]) (w2 113 112 3 0 0x2080) (by decide +kernel) ⟨rfl, rfl, rfl⟩ ⟨rfl, ⟨rfl, rfl⟩, by decide +kernel, by decide +kernel, rfl, by decide +kernel, by decide +kernel, by decide +kernel, rfl, by decide +kernel, by decide +kernel, dirRead (by decide +kernel)⟩⟩,
    ⟨⟨0, 0x100000, false⟩, compOddS, compOddT, compOddD, compOddL, meets compOdd (oneG [(0, 0x4000), (2, 0x200000)]) (w2 113 112 5 114 0x80) (by decide +kernel) ⟨rfl, rfl, rfl⟩ ⟨rfl, ⟨rfl, rfl⟩, by decide +kernel, by decide +kernel, rfl, by decide +kernel, by decide +kernel, by decide +kernel, rfl, by decide +kernel, by decide +kernel, dirRead (by decide +kernel)⟩⟩, nofun⟩

theorem meets_RangeChangesComplete_2 :
    ∃ (k : Key) (s3 : State), Meets .rinv (fun s i => i.g.acquiring = false ∧ Unguarded i ∧ NamesG i i.f.d ∧ ReadyG i i.f.a ∧ i.mbit 13 = false ∧
      k = keyOf (valueG i i.f.a) ∧ k.resv = false ∧ s.askDir (i.who s) (dieOf i.gid) k.asid = none ∧
      let sp := s.space (i.who s) (dieOf i.gid) k.asid
      let x := match coveringRec (if sp.valid then s.records (i.who s) sp else []) k.va with
        | some (_, r) => (r.base, r.limit)
        | none => (k.va, k.va + 64)
      (s.touchDir (i.who s) (dieOf i.gid) k.asid).settle i (i.mb 8 6) k.asid x.1 x.2 = .ok s3) :=
  ⟨⟨0, 0x100000, false⟩, takenBy (State.settle (State.touchDir (stD (oneG [(0, 0x4000)]) 1 rec0) (Iss.who (iss (stD (oneG [(0, 0x4000)]) 1 rec0) (oneG [(0, 0x4000)]) .rinv (w2 113 112 3 0 0x80)) (stD (oneG [(0, 0x4000)]) 1 rec0)) 0 0) (iss (stD (oneG [(0, 0x4000)]) 1 rec0) (oneG [(0, 0x4000)]) .rinv (w2 113 112 3 0 0x80)) 2 0 0x100000 0x110000), meets (stD (oneG [(0, 0x4000)]) 1 rec0) (oneG [(0, 0x4000)]) (w2 113 112 3 0 0x80) (by decide +kernel) ⟨rfl, rfl, rfl⟩ ⟨rfl, ⟨rfl, rfl⟩, by decide +kernel, by decide +kernel, by decide +kernel, by decide +kernel, rfl, by decide +kernel, taken (by decide +kernel)⟩⟩

theorem meets_RangeChangesComplete_3 :
    ∃ a : WalkAnswer, Meets .rqry (fun _ i => i.g.acquiring = false ∧ Unguarded i ∧ NamesG i i.f.d ∧ gIndex i.f.d ≤ 8 ∧
      (∀ j < 4, i.g.pendG (gIndex i.f.d + j) = false) ∧ ReadyG i i.f.a ∧ (keyOf (valueG i i.f.a)).resv = false ∧
      i.g.answers.find? (·.raw) = some a ∧ (match a.res with | .found _ => True | .miss c _ => c ≤ 2)) :=
  ⟨⟨0, 0x100000, .found ⟨⟨0x800000000010000F, 0x4400, 0x4000, 0⟩, 0, 0, []⟩, true⟩, meetsGroup { ctx := oneG [(0, 0x4000)], answers := [⟨0, 0x100000, .found ⟨⟨0x800000000010000F, 0x4400, 0x4000, 0⟩, 0, 0, []⟩, true⟩] } (w2 113 112 4 0 0) (by decide +kernel) rfl rfl ⟨rfl, ⟨rfl, rfl⟩, by decide +kernel, by decide +kernel, by decide +kernel, by decide +kernel, by decide +kernel, rfl, trivial⟩⟩

theorem meets_RangeChangesComplete_3_miss :
    ∃ a : WalkAnswer, Meets .rqry (fun _ i => i.g.acquiring = false ∧ Unguarded i ∧ NamesG i i.f.d ∧ gIndex i.f.d ≤ 8 ∧
      (∀ j < 4, i.g.pendG (gIndex i.f.d + j) = false) ∧ ReadyG i i.f.a ∧ (keyOf (valueG i i.f.a)).resv = false ∧
      i.g.answers.find? (·.raw) = some a ∧ (match a.res with | .found _ => True | .miss c _ => c ≤ 2)) :=
  ⟨⟨0, 0x100000, .miss 2 0, true⟩, meetsGroup { ctx := oneG [(0, 0x4000)], answers := [⟨0, 0x100000, .miss 2 0, true⟩] } (w2 113 112 4 0 0) (by decide +kernel) rfl rfl ⟨rfl, ⟨rfl, rfl⟩, by decide +kernel, by decide +kernel, by decide +kernel, by decide +kernel, by decide +kernel, rfl, by decide⟩⟩

theorem meets_RangeChangesComplete_4 :
    Meets .rqry (fun _ i => i.g.acquiring = false ∧ Unguarded i ∧ NamesG i i.f.d ∧ gIndex i.f.d ≤ 8 ∧ ReadyG i i.f.a ∧
      (keyOf (valueG i i.f.a)).resv = false ∧ i.g.answers.find? (·.raw) = none) :=
  meets (st (oneG [(0, 0x4000)])) (oneG [(0, 0x4000)]) (w2 113 112 4 0 0) (by decide +kernel) ⟨rfl, rfl, rfl⟩ (by decide +kernel)

theorem meets_GroupEventsHappen_4 :
    ∃ gid g, Can (.groupAged gid) (fun s => s.group? gid = some g ∧ g.stat = .ready ∧ g.aged = false ∧ Config.agedAt ≤ g.age ∧
      (s.unit (unitOf gid)).current ≠ some gid) :=
  ⟨0, { age := Config.agedAt }, can { State.reset with groups := [(0, { age := Config.agedAt })] } rfl (by and_intros <;> first | decide +kernel | rfl)⟩

theorem meets_GroupEventsHappen_6 :
    ∃ gid g n frees, Can (.poolAllocationRetry gid) (fun s => s.group? gid = some g ∧ g.stat = .waiting (.pool n frees) ∧
      (s.setGroup gid (g.free frees)).admits gid (g.free frees) n = true ∧ s.stopping g.team = false) :=
  ⟨0, { stat := .waiting (.pool 8 [5]) }, 8, [5], can { State.reset with groups := [(0, { stat := .waiting (.pool 8 [5]) })] } rfl (by and_intros <;> first | decide +kernel | rfl)⟩

theorem meets_GroupEventsHappen_8 :
    ∃ gid g l f, Can (.waitaReread gid) (fun s => s.group? gid = some g ∧ g.stat = .waiting (.waita l f) ∧ s.stopping g.team = false ∧
      s.walking gid = false ∧ ∀ s1 g1 w, acquired (s.issOf gid g .waita f) s (waitaEffect (s.issOf gid g .waita f)) ≠ .wait s1 g1 w) :=
  ⟨0, { stat := .waiting (.waita none (w2 8 112 113 0 0)), ctx := oneG [(0, 0xFF000000000000), (1, 5)] }, none, w2 8 112 113 0 0, can { atScratch one with groups := [(0, { stat := .waiting (.waita none (w2 8 112 113 0 0)), ctx := oneG [(0, 0xFF000000000000), (1, 5)] })] } rfl ⟨rfl, rfl, by decide +kernel, by decide +kernel, neverWaits (by decide +kernel)⟩⟩

theorem meets_GroupEventsHappen_9 :
    ∃ gid g l f s1 g1 w, Can (.waitaReread gid) (fun s => s.group? gid = some g ∧ g.stat = .waiting (.waita l f) ∧ s.stopping g.team = false ∧
      s.walking gid = false ∧ acquired (s.issOf gid g .waita f) s (waitaEffect (s.issOf gid g .waita f)) = .wait s1 g1 w) :=
  ⟨0, { stat := .waiting (.waita none (w2 8 112 113 0 0)), ctx := oneG [(0, 0xFF000000000000), (1, 6)] }, none, w2 8 112 113 0 0, _, _, _, can { atScratch one with groups := [(0, { stat := .waiting (.waita none (w2 8 112 113 0 0)), ctx := oneG [(0, 0xFF000000000000), (1, 6)] })] } rfl ⟨rfl, rfl, by decide +kernel, by decide +kernel, waits (by decide +kernel)⟩⟩

theorem meets_GroupEventsHappen_10 :
    ∃ gid g n f, Can (.waitaTimeLimit gid) (fun s => s.group? gid = some g ∧ g.stat = .waiting (.waita (some n) f) ∧ n ≤ s.clock ∧
      s.stopping g.team = false) :=
  ⟨0, { stat := .waiting (.waita (some 0) (w1 0 0 0)) }, 0, w1 0 0 0, can { State.reset with groups := [(0, { stat := .waiting (.waita (some 0) (w1 0 0 0)) })] } rfl (by and_intros <;> first | decide +kernel | rfl)⟩

def pendAt : State := { State.reset with diesT := [(0, { faultRing := some ⟨0x4000, 10, 0⟩, pending := [⟨0, [5]⟩] })] }
def pendCtx : State :=
  { State.reset with diesT := [(0, { pending := [⟨1, [5]⟩] })], owners := [(0x40, 1)],
                     chofer := { contexts := [(1, { block := [], quorum := 1, rings := [⟨0x4000, 10, 0⟩], parts := [] })] } }
def askOne : WalkReq := { gid := some 0, core := 0, asid := 0, va := 0x100000, ra := false }
def againOne : WalkReq := { gid := some 0, core := 0, asid := 0, va := 0x100000, ra := false, retry := 1, walking := true }
def rangeOne : RangeEntry := ⟨⟨0x800000000010000F, 0x4400, 0x4000, 0⟩, 0, 0, []⟩
def cachedAt : State := { State.reset with clusters := [(0, { queue := [askOne], cache := [(0, rangeOne)] })] }
def walkAt : State := { stD one 1 rec0 with clusters := [(0, { queue := [askOne] })] }
def againAt : State := { stD one (2 ^ 33 + 1) rec0 with clock := 1, clusters := [(0, { queue := [againOne] })] }
def ready : State := { State.reset with chofer := { status := 4 } }
def sliceAt (op : SliceOp) : State := { ready with diesT := [(0, { requests := [⟨0x1000, 8, op, 0, 1, 7, 0, 0⟩] })] }
def portAt (ws : List Trans) : State :=
  { State.reset with ports := [(0, { up := true, waiting := ws })], chofer := { status := 4, routes := [(1, (some 0, none))] }, groups := [(0, {})] }
def flitAt (kind channel dst hops : Nat) (body : FlitBody) : Flit :=
  { kind := kind, channel := channel, dst := dst, src := 2, hops := hops, ctx := 0, part := 0, tag := 7, body := body }
def transLoad : Trans := { tag := 7, who := 5, va := 0x1000, target := 0x1000, bytes := 8, ack := false, package := 1, time := 0 }
def transStore : Trans := { transLoad with who := 0, ack := true }
/-- A revoked participant's flit, and one that nothing here can open. -/
def revokedAt : State :=
  { portAt [] with chofer := { status := 4, contexts := [(1, { block := [], quorum := 1, rings := [], parts := [], revoked := [3] })] } }
def sealedFlit : Flit := { flitAt 1 0 0 0 .idle with ctx := 1, part := 3 }
def blockAt (ms : List (Nat × Nat)) (running : List Coll) : State :=
  { withMem (st one) ms with ports := [(0, { handed := [⟨0, 0, 0, 0, 0x2000, []⟩], running := running })] }
def blockEngine : Who := State.collEngine (blockAt [] []) 0 0 0 0
def blockOf (s : State) : Fetched := s.fetchWords blockEngine 0 (runsOf 0x2000 8 16)
def tableOf (s : State) : Fetched := (fetchedState (blockOf s)).readTable blockEngine 0 (CBlock.ofWords (fetchedWords (blockOf s)))
def sendsOf (s : State) : State × Option CollFlit :=
  (fetchedState (tableOf s)).readSends blockEngine 0 (CBlock.ofWords (fetchedWords (blockOf s))) ((fetchedWords (tableOf s)).map (BitVec.ofNat 32 ·))
theorem takesBlock {s : State} {k : Nat} {h : Handed} {r : List Handed}
    (hh : (s.port k).handed = h :: r)
    (h1 : (match s.fetchWords (s.collEngine k h.gid h.team h.task) (coreOf h.gid) (runsOf h.addr.toNat 8 16) with | .ok _ _ => true | _ => false) = true)
    (h2 : (match (fetchedState (s.fetchWords (s.collEngine k h.gid h.team h.task) (coreOf h.gid) (runsOf h.addr.toNat 8 16))).storeWords
      (s.collEngine k h.gid h.team h.task) (coreOf h.gid) [((h.addr.toNat + 0x58) % 2 ^ 56, 8, 0)] with | .ok _ => true | _ => false) = true) :
    TakesBlock s k h r (fetchedWords (s.fetchWords (s.collEngine k h.gid h.team h.task) (coreOf h.gid) (runsOf h.addr.toNat 8 16)))
      (fetchedState (s.fetchWords (s.collEngine k h.gid h.team h.task) (coreOf h.gid) (runsOf h.addr.toNat 8 16))) :=
  ⟨hh, fetchedOk h1, storedNow h2⟩
theorem fetchedBad {x : Fetched} {n : Nat} (h : (match x with | .bad m => decide (m = n) | _ => false) = true) : x = .bad n := by
  cases x with
  | ok s b => cases h
  | later s => cases h
  | bad m => rw [of_decide_eq_true h]
/-- Blocks: one whose rank still runs; one with the operation 0x3F; one whose table no range maps; one whose size is 0; a sound one. -/
def ranTwice : State := blockAt [(0x2000, 5 * 2 ^ 56), (0x2008, 2 ^ 48), (0x2030, 0x3000)]
  [{ block := [5 * 2 ^ 56, 2 ^ 48], addr := 0x2000, gid := 0, team := 0, side := 0, task := 0, rank := 0, table := [] }]
def wrongOp : State := blockAt [(0x2000, 2 ^ 63)] []
def noTable : State :=
  { blockAt [(0x2000, 5 * 2 ^ 56), (0x2008, 2 ^ 48), (0x2030, 2 ^ 45)] [] with
    cores := [(0, { rtable := [placedRange], answers := [(collWho 0, ⟨0, 2 ^ 45, .miss 1 0, false⟩)] })] }
def wrongTable : State := blockAt [(0x2000, 5 * 2 ^ 56), (0x2008, 2 ^ 48), (0x2030, 0x3000), (0x3000, 0x80000000)] []
def sound : State := blockAt [(0x2000, 5 * 2 ^ 56), (0x2008, 2 ^ 48), (0x2030, 0x3000)] []

theorem meets_PoolAndPanEventsHappen_7 :
    ∃ d n p r x, Can (.pendingFaultRecordWrite d) (fun s => s.nextPending d = some n ∧ (s.die d).pending[n]? = some p ∧ p.ctx = 0 ∧
      s.ownerRing d 0 = some r ∧ s.ringWrite d 0 r 64 p.words = some x) :=
  ⟨0, 0, ⟨0, [5]⟩, ⟨0x4000, 10, 0⟩, (pendAt.ringWrite 0 0 ⟨0x4000, 10, 0⟩ 64 [5]).get (by decide +kernel), can pendAt rfl (by and_intros <;> first | decide +kernel | rfl | exact taken (by decide +kernel) | exact (Option.some_get _).symm | exact nofun | exact fun _ => rfl | exact fun _ => by decide +kernel | exact walkDone (by decide +kernel) | exact fetchedOk (by decide +kernel) | exact sndEq (by decide +kernel) | exact storedNow (by decide +kernel))⟩

theorem meets_PoolAndPanEventsHappen_8 :
    ∃ d n p r x, Can (.pendingFaultRecordWrite d) (fun s => s.nextPending d = some n ∧ (s.die d).pending[n]? = some p ∧ p.ctx ≠ 0 ∧
      s.ownerRing d p.ctx = some r ∧ s.ringWrite d p.ctx r 64 p.words = some x) :=
  ⟨0, 0, ⟨1, [5]⟩, ⟨0x4000, 10, 0⟩, (pendCtx.ringWrite 0 1 ⟨0x4000, 10, 0⟩ 64 [5]).get (by decide +kernel), can pendCtx rfl (by and_intros <;> first | decide +kernel | rfl | exact taken (by decide +kernel) | exact (Option.some_get _).symm | exact nofun | exact fun _ => rfl | exact fun _ => by decide +kernel | exact walkDone (by decide +kernel) | exact fetchedOk (by decide +kernel) | exact sndEq (by decide +kernel) | exact storedNow (by decide +kernel))⟩

theorem meets_ObservationEventsHappen_4 :
    ∃ d, Can (.harrowSweep d) (fun s => (s.die d).config ≠ [] ∧ (s.die d).swept = true ∧ s.unswept d ≠ [] ∧ trising s.counters = true ∧ s.acting = 0) :=
  ⟨0, can { State.reset with diesT := [(0, { config := [0], swept := true })], counters := [(3, 5)] } rfl (by and_intros <;> first | decide +kernel | rfl | exact taken (by decide +kernel) | exact (Option.some_get _).symm | exact nofun | exact fun _ => rfl | exact fun _ => by decide +kernel | exact walkDone (by decide +kernel) | exact fetchedOk (by decide +kernel) | exact sndEq (by decide +kernel) | exact storedNow (by decide +kernel))⟩

theorem meets_RangeEventsHappen_1 :
    ∃ cl n r e, Can (.rangeWalk cl) (fun s => s.fresh cl = some n ∧ (s.cluster cl).queue[n]? = some r ∧ r.asks = false ∧
      (s.cluster cl).cached r.asid r.va = some e) :=
  ⟨0, 0, askOne, rangeOne, can cachedAt rfl (by and_intros <;> first | decide +kernel | rfl | exact taken (by decide +kernel) | exact (Option.some_get _).symm | exact nofun | exact fun _ => rfl | exact fun _ => by decide +kernel | exact walkDone (by decide +kernel) | exact fetchedOk (by decide +kernel) | exact sndEq (by decide +kernel) | exact storedNow (by decide +kernel))⟩

theorem meets_RangeEventsHappen_2 :
    ∃ cl n r x s1, Can (.rangeWalk cl) (fun s => s.fresh cl = some n ∧ (s.cluster cl).queue[n]? = some r ∧
      (r.asks = true ∨ (s.cluster cl).cached r.asid r.va = none) ∧ s.walk (walker cl) (cl / 4) r.asid r.va = (s1, .done x) ∧
      s1.cluster cl = s.cluster cl) :=
  ⟨0, 0, askOne, .found rangeOne, (walkAt.walk (walker 0) 0 0 0x100000).1, can walkAt rfl (by and_intros <;> first | decide +kernel | rfl | exact taken (by decide +kernel) | exact (Option.some_get _).symm | exact nofun | exact fun _ => rfl | exact fun _ => by decide +kernel | exact walkDone (by decide +kernel) | exact fetchedOk (by decide +kernel) | exact sndEq (by decide +kernel) | exact storedNow (by decide +kernel))⟩

theorem meets_RangeEventsHappen_3 :
    ∃ cl n r x s1, Can (.walkGenerationRetry cl) (fun s => s.due cl = some n ∧ (s.cluster cl).queue[n]? = some r ∧
      s.walk (walker cl) (cl / 4) r.asid r.va = (s1, .done x) ∧ s1.cluster cl = s.cluster cl) :=
  ⟨0, 0, againOne, .found { rangeOne with gen := 2 }, (againAt.walk (walker 0) 0 0 0x100000).1, can againAt rfl (by and_intros <;> first | decide +kernel | rfl | exact taken (by decide +kernel) | exact (Option.some_get _).symm | exact nofun | exact fun _ => rfl | exact fun _ => by decide +kernel | exact walkDone (by decide +kernel) | exact fetchedOk (by decide +kernel) | exact sndEq (by decide +kernel) | exact storedNow (by decide +kernel))⟩

theorem meets_RangeEventsHappen_6 :
    ∃ cl r x l who, Can (.rangeTableFill cl) (fun s => (s.cluster cl).results = (r, x) :: l ∧ r.gid = some who ∧ s.group? who = none ∧ 2 ^ 20 ≤ who) :=
  ⟨0, { askOne with gid := some (2 ^ 20) }, .found rangeOne, [], 2 ^ 20, can { State.reset with clusters := [(0, { results := [({ askOne with gid := some (2 ^ 20) }, .found rangeOne)] })] } rfl (by and_intros <;> first | decide +kernel | rfl | exact taken (by decide +kernel) | exact (Option.some_get _).symm | exact nofun | exact fun _ => rfl | exact fun _ => by decide +kernel | exact walkDone (by decide +kernel) | exact fetchedOk (by decide +kernel) | exact sndEq (by decide +kernel) | exact storedNow (by decide +kernel))⟩

theorem meets_RangeEventsHappen_8 :
    ∃ n m w, Can (.compactionUnitMove n) (fun s => s.move? n = some (m, w) ∧ 256 * m.done < m.size ∧ s.quiet (s.mover m 0).who = true ∧
      m.sent = false ∧ m.held = false ∧ s.askFlush w (m.src + 256 * m.done) (m.dst + 256 * m.done) = none ∧
      n < (s.flushUnit w (m.src + 256 * m.done) (m.dst + 256 * m.done)).moves.length) :=
  ⟨0, ⟨0, 0x100000, 0x1000, 2 ^ 44, 2 ^ 44 + 0x10000, 5, 0, 0, false, false, false⟩, State.mover { State.reset with moves := [⟨0, 0x100000, 0x1000, 2 ^ 44, 2 ^ 44 + 0x10000, 5, 0, 0, false, false, false⟩] } ⟨0, 0x100000, 0x1000, 2 ^ 44, 2 ^ 44 + 0x10000, 5, 0, 0, false, false, false⟩ 0, can ({ State.reset with moves := [⟨0, 0x100000, 0x1000, 2 ^ 44, 2 ^ 44 + 0x10000, 5, 0, 0, false, false, false⟩] }) rfl (by and_intros <;> first | decide +kernel | rfl | exact taken (by decide +kernel) | exact (Option.some_get _).symm | exact nofun | exact fun _ => rfl | exact fun _ => by decide +kernel | exact walkDone (by decide +kernel) | exact fetchedOk (by decide +kernel) | exact sndEq (by decide +kernel) | exact storedNow (by decide +kernel))⟩

theorem meets_SliceEventsHappen_1 :
    ∃ d r q g, Can (.sliceAccess d) (fun s => s.published = true ∧ (s.die d).requests = r :: q ∧ s.snoopNeeded (reqKind r) r.target = false ∧
      r.op = .read ∧ g = (s.taking d q).readHbm d r.ctx r.target r.bytes) :=
  ⟨0, ⟨0x1000, 8, .read, 0, 1, 7, 0, 0⟩, [], _, can (sliceAt .read) rfl (by and_intros <;> first | decide +kernel | rfl | exact taken (by decide +kernel) | exact (Option.some_get _).symm | exact nofun | exact fun _ => rfl | exact fun _ => by decide +kernel | exact walkDone (by decide +kernel) | exact fetchedOk (by decide +kernel) | exact sndEq (by decide +kernel) | exact storedNow (by decide +kernel))⟩

theorem meets_SliceEventsHappen_2 :
    ∃ d r q v bad, Can (.sliceAccess d) (fun s => s.published = true ∧ (s.die d).requests = r :: q ∧
      s.snoopNeeded (reqKind r) r.target = false ∧ r.op = .write v bad) :=
  ⟨0, ⟨0x1000, 8, .write 5 false, 0, 1, 7, 0, 0⟩, [], 5, false, can (sliceAt (.write 5 false)) rfl (by and_intros <;> first | decide +kernel | rfl | exact taken (by decide +kernel) | exact (Option.some_get _).symm | exact nofun | exact fun _ => rfl | exact fun _ => by decide +kernel | exact walkDone (by decide +kernel) | exact fetchedOk (by decide +kernel) | exact sndEq (by decide +kernel) | exact storedNow (by decide +kernel))⟩

theorem meets_SliceEventsHappen_3 :
    ∃ d r q op ty xs g, Can (.sliceAccess d) (fun s => s.published = true ∧ (s.die d).requests = r :: q ∧
      s.snoopNeeded (reqKind r) r.target = false ∧ r.op = .atom op ty xs ∧
      g = (s.taking d q).atomHbm d r.ctx r.target r.bytes fun v => (atomChain op ty (BitVec.ofNat 64 v) xs).2.toNat) :=
  ⟨0, ⟨0x1000, 8, .atom .add .n64 [(1, 0)], 0, 1, 7, 0, 0⟩, [], .add, .n64, [(1, 0)], _, can (sliceAt (.atom .add .n64 [(1, 0)])) rfl (by and_intros <;> first | decide +kernel | rfl | exact taken (by decide +kernel) | exact (Option.some_get _).symm | exact nofun | exact fun _ => rfl | exact fun _ => by decide +kernel | exact walkDone (by decide +kernel) | exact fetchedOk (by decide +kernel) | exact sndEq (by decide +kernel) | exact storedNow (by decide +kernel))⟩

theorem meets_SliceEventsHappen_4 :
    ∃ d r q v g, Can (.sliceAccess d) (fun s => s.published = true ∧ (s.die d).requests = r :: q ∧
      s.snoopNeeded (reqKind r) r.target = false ∧ r.op = .swap v ∧ g = (s.taking d q).readHbm d r.ctx r.target r.bytes) :=
  ⟨0, ⟨0x1000, 8, .swap 5, 0, 1, 7, 0, 0⟩, [], 5, _, can (sliceAt (.swap 5)) rfl (by and_intros <;> first | decide +kernel | rfl | exact taken (by decide +kernel) | exact (Option.some_get _).symm | exact nofun | exact fun _ => rfl | exact fun _ => by decide +kernel | exact walkDone (by decide +kernel) | exact fetchedOk (by decide +kernel) | exact sndEq (by decide +kernel) | exact storedNow (by decide +kernel))⟩

theorem meets_SliceEventsHappen_5 :
    ∃ d r q, Can (.sliceAccess d) (fun s => s.published = true ∧ (s.die d).requests = r :: q ∧ s.snoopNeeded (reqKind r) r.target = true) :=
  ⟨0, ⟨0x1000, 8, .read, 0, 1, 7, 0, 0⟩, [], can { sliceAt .read with host := { held := [(0x40, true)] } } rfl (by and_intros <;> first | decide +kernel | rfl | exact taken (by decide +kernel) | exact (Option.some_get _).symm | exact nofun | exact fun _ => rfl | exact fun _ => by decide +kernel | exact walkDone (by decide +kernel) | exact fetchedOk (by decide +kernel) | exact sndEq (by decide +kernel) | exact storedNow (by decide +kernel))⟩

theorem meets_SliceEventsHappen_8 :
    ∃ d line p, Can (.partialFlush d line) (fun s => s.partial? d line = some p ∧ s.mergeHeld line = []) :=
  ⟨0, 5, ⟨5, .add, .n64, [(0x500, 1)], 0, false, [], false⟩, can ({ State.reset with diesT := [(0, { partials := [⟨5, .add, .n64, [(0x500, 1)], 0, false, [], false⟩] })] }) rfl (by and_intros <;> first | decide +kernel | rfl | exact taken (by decide +kernel) | exact (Option.some_get _).symm | exact nofun | exact fun _ => rfl | exact fun _ => by decide +kernel | exact walkDone (by decide +kernel) | exact fetchedOk (by decide +kernel) | exact sndEq (by decide +kernel) | exact storedNow (by decide +kernel))⟩

theorem meets_SliceEventsHappen_9 :
    ∃ line, Can (.cLineMerge line) (fun s => (∃ d < 8, (s.partial? d line).isSome = true) ∧ s.mergeHeld line = []) :=
  ⟨5, can ({ State.reset with diesT := [(0, { partials := [⟨5, .add, .n64, [(0x500, 1)], 0, false, [], false⟩] })] }) rfl ⟨⟨0, by decide, rfl⟩, by decide +kernel⟩⟩

theorem meets_SliceEventsHappen_10 :
    ∃ sec d line, ∀ e ∈ [Instr.sectorEviction sec, .partialFlush d line, .cLineMerge line], Can e (fun s => tget false s.present sec = true ∧ sec / 4 = line ∧ (s.partial? d line).isSome = true ∧ s.mergeHeld line ≠ []) :=
  ⟨20, 0, 5, fun _ _ => can ({ State.reset with present := [(20, true)], diesT := [(0, { partials := [⟨5, .add, .n64, [(0x500, 1)], 0, false, [], false⟩] })], host := { held := [(20, true)] } }) rfl (by and_intros <;> first | decide +kernel | rfl | exact taken (by decide +kernel) | exact (Option.some_get _).symm | exact nofun | exact fun _ => rfl | exact fun _ => by decide +kernel | exact walkDone (by decide +kernel) | exact fetchedOk (by decide +kernel) | exact sndEq (by decide +kernel) | exact storedNow (by decide +kernel))⟩

theorem meets_ErrorEventsHappen_4 :
    ∃ gid seq lanes g, CanOccur (.uncorrectableError (.returned gid seq lanes)) (fun s => s.group? gid = some g ∧ g.ra = none) :=
  ⟨0, 0, 1, { outst := [{ aLoad 1000 with regs := [(4, 1)] }] }, canOccur { State.reset with groups := [(0, { outst := [{ aLoad 1000 with regs := [(4, 1)] }] })] } (by and_intros <;> first | decide +kernel | rfl | exact taken (by decide +kernel) | exact (Option.some_get _).symm | exact nofun | exact fun _ => rfl | exact fun _ => by decide +kernel | exact walkDone (by decide +kernel) | exact fetchedOk (by decide +kernel) | exact sndEq (by decide +kernel) | exact storedNow (by decide +kernel))⟩

theorem meets_ErrorEventsHappen_5 :
    ∃ w x, CanOccur (.uncorrectableError (.hostWord w)) (fun s => tfind s.host.sectors (w / 8) = some x) :=
  ⟨0, ⟨.m, [], 0⟩, canOccur { State.reset with host := { sectors := [(0, ⟨.m, [], 0⟩)] } } (by and_intros <;> first | decide +kernel | rfl | exact taken (by decide +kernel) | exact (Option.some_get _).symm | exact nofun | exact fun _ => rfl | exact fun _ => by decide +kernel | exact walkDone (by decide +kernel) | exact fetchedOk (by decide +kernel) | exact sndEq (by decide +kernel) | exact storedNow (by decide +kernel))⟩

theorem meets_LinkEventsHappen_3 :
    ∃ src dst, Can (.dieLinkDown src dst) (fun s => src ≠ dst ∧ dst ∉ (s.die src).deadLinks ∧ ∀ e ∈ s.groups, e.2.crossing s dst = []) :=
  ⟨0, 1, can State.reset rfl (by and_intros <;> first | decide +kernel | rfl | exact taken (by decide +kernel) | exact (Option.some_get _).symm | exact nofun | exact fun _ => rfl | exact fun _ => by decide +kernel | exact walkDone (by decide +kernel) | exact fetchedOk (by decide +kernel) | exact sndEq (by decide +kernel) | exact storedNow (by decide +kernel))⟩

theorem meets_LinkEventsHappen_4 :
    ∃ src dst gid g o l, Can (.dieLinkDown src dst) (fun s => src ≠ dst ∧ dst ∉ (s.die src).deadLinks ∧ trising s.groups = true ∧
      s.group? gid = some g ∧ g.ra = none ∧ g.stat ≠ .ended ∧ dieOf gid = src ∧ g.crossing s dst = o :: l) :=
  ⟨0, 1, 0, { outst := [{ aLoad 1000 with regs := [(4, 1)], crossed := [(1, 1)] }] }, { aLoad 1000 with regs := [(4, 1)], crossed := [(1, 1)] }, [], can { State.reset with groups := [(0, { outst := [{ aLoad 1000 with regs := [(4, 1)], crossed := [(1, 1)] }] })] } rfl (by and_intros <;> first | decide +kernel | rfl | exact taken (by decide +kernel) | exact (Option.some_get _).symm | exact nofun | exact fun _ => rfl | exact fun _ => by decide +kernel | exact walkDone (by decide +kernel) | exact fetchedOk (by decide +kernel) | exact sndEq (by decide +kernel) | exact storedNow (by decide +kernel))⟩

theorem meets_HostEventsHappen_9 :
    ∃ addr n, Can (.cxlMemRead addr n) (fun s => s.mapped addr n = true ∧ 0 < n ∧ s.hdm addr % 64 + n ≤ 64) :=
  ⟨0, 64, can { State.reset with host := { opened := true } } rfl (by and_intros <;> first | decide +kernel | rfl | exact taken (by decide +kernel) | exact (Option.some_get _).symm | exact nofun | exact fun _ => rfl | exact fun _ => by decide +kernel | exact walkDone (by decide +kernel) | exact fetchedOk (by decide +kernel) | exact sndEq (by decide +kernel) | exact storedNow (by decide +kernel))⟩

theorem meets_HostEventsHappen_11 :
    ∃ addr data bad, Can (.cxlMemWrite addr data bad) (fun s => s.mapped addr data.length = true ∧ 0 < data.length ∧
      s.hdm addr % 64 + data.length ≤ 64 ∧ data.length ≠ 8 ∧ s.isEncrypted (s.hdm addr) = false ∧ inChofer (s.hdm addr) = false ∧
      (s.doorbellOf (s.hdm addr) data.length).isSome = true ∧
      s.acting = 0) :=
  ⟨0x10088, [0], false, can { State.reset with host := { opened := true }, diesT := [(0, { config := List.replicate 5 0 ++ [0x10000] })] } rfl (by and_intros <;> first | decide +kernel | rfl | exact taken (by decide +kernel) | exact (Option.some_get _).symm | exact nofun | exact fun _ => rfl | exact fun _ => by decide +kernel | exact walkDone (by decide +kernel) | exact fetchedOk (by decide +kernel) | exact sndEq (by decide +kernel) | exact storedNow (by decide +kernel))⟩

theorem meets_HostEventsHappen_12 :
    ∃ sec inv, Can (.biSnoopResponse sec) (fun s => tfind s.host.snooping sec = some inv ∧ ∀ c ∈ s.cores, ∀ x ∈ c.2.wanted, x.1 ≠ sec) :=
  ⟨5, true, can { State.reset with host := { snooping := [(5, true)] } } rfl (by and_intros <;> first | decide +kernel | rfl | exact taken (by decide +kernel) | exact (Option.some_get _).symm | exact nofun | exact fun _ => rfl | exact fun _ => by decide +kernel | exact walkDone (by decide +kernel) | exact fetchedOk (by decide +kernel) | exact sndEq (by decide +kernel) | exact storedNow (by decide +kernel))⟩

theorem meets_FabricEventsHappen_1 :
    ∃ k f j, Can (.flitReceive k f) (fun s => s.canReceive k f = true ∧ f.kind ∈ [1, 2, 3, 4] ∧ channelOf f.kind = some f.channel ∧
      s.refused f = false ∧ f.dst ≠ s.chofer.package ∧ f.hops < 8 ∧ s.route f.dst = some j) :=
  ⟨0, flitAt 1 0 1 0 .idle, 0, can (portAt []) rfl (by and_intros <;> first | decide +kernel | rfl | exact taken (by decide +kernel) | exact (Option.some_get _).symm | exact nofun | exact fun _ => rfl | exact fun _ => by decide +kernel | exact walkDone (by decide +kernel) | exact fetchedOk (by decide +kernel) | exact sndEq (by decide +kernel) | exact storedNow (by decide +kernel))⟩

theorem meets_FabricEventsHappen_2 :
    ∃ k f, Can (.flitReceive k f) (fun s => s.canReceive k f = true ∧ f.kind ∈ [1, 2, 3, 4] ∧ channelOf f.kind = some f.channel ∧
      s.refused f = false ∧ f.dst ≠ s.chofer.package ∧ (8 ≤ f.hops ∨ s.route f.dst = none)) :=
  ⟨0, flitAt 1 0 1 8 .idle, can (portAt []) rfl ⟨by decide +kernel, by decide, rfl, rfl, by decide +kernel, .inl (by decide)⟩⟩

theorem meets_FabricEventsHappen_2_unrouted :
    ∃ k f, Can (.flitReceive k f) (fun s => s.canReceive k f = true ∧ f.kind ∈ [1, 2, 3, 4] ∧ channelOf f.kind = some f.channel ∧
      s.refused f = false ∧ f.dst ≠ s.chofer.package ∧ (8 ≤ f.hops ∨ s.route f.dst = none)) :=
  ⟨0, flitAt 1 0 3 0 .idle, can (portAt []) rfl ⟨by decide +kernel, by decide, rfl, rfl, by decide +kernel, .inr rfl⟩⟩

theorem meets_FabricEventsHappen_3 :
    ∃ k f, Can (.flitReceive k f) (fun s => s.canReceive k f = true ∧ f.kind ∈ [1, 2, 3, 4] ∧ channelOf f.kind = some f.channel ∧
      s.refused f = true) :=
  ⟨0, sealedFlit, can revokedAt rfl (by and_intros <;> first | decide +kernel | rfl | exact taken (by decide +kernel) | exact (Option.some_get _).symm | exact nofun | exact fun _ => rfl | exact fun _ => by decide +kernel | exact walkDone (by decide +kernel) | exact fetchedOk (by decide +kernel) | exact sndEq (by decide +kernel) | exact storedNow (by decide +kernel))⟩

theorem meets_FabricEventsHappen_4 :
    ∃ k f, Can (.flitReceive k f) (fun s => s.canReceive k f = true ∧ f.kind ∈ [1, 2, 3, 4] ∧ channelOf f.kind = some f.channel ∧
      s.refused f = false ∧ f.dst = s.chofer.package ∧ s.opens f = false) :=
  ⟨0, sealedFlit, can (portAt []) rfl (by and_intros <;> first | decide +kernel | rfl | exact taken (by decide +kernel) | exact (Option.some_get _).symm | exact nofun | exact fun _ => rfl | exact fun _ => by decide +kernel | exact walkDone (by decide +kernel) | exact fetchedOk (by decide +kernel) | exact sndEq (by decide +kernel) | exact storedNow (by decide +kernel))⟩

theorem meets_FabricEventsHappen_5 :
    ∃ k f r, Can (.flitReceive k f) (fun s => s.canReceive k f = true ∧ f.kind = 1 ∧ f.channel = 0 ∧ f.dst = s.chofer.package ∧ f.ctx = 0 ∧
      f.body = .request r ∧ r.target < hbmEnd) :=
  ⟨0, flitAt 1 0 0 0 (.request ⟨0x1000, 8, .read, 0, 1, 0, 0, 0⟩), ⟨0x1000, 8, .read, 0, 1, 0, 0, 0⟩, can (portAt []) rfl (by and_intros <;> first | decide +kernel | rfl | exact taken (by decide +kernel) | exact (Option.some_get _).symm | exact nofun | exact fun _ => rfl | exact fun _ => by decide +kernel | exact walkDone (by decide +kernel) | exact fetchedOk (by decide +kernel) | exact sndEq (by decide +kernel) | exact storedNow (by decide +kernel))⟩

theorem meets_FabricEventsHappen_6 :
    ∃ k f v bad x, Can (.flitReceive k f) (fun s => s.canReceive k f = true ∧ f.kind = 2 ∧ f.channel = 1 ∧ f.dst = s.chofer.package ∧ f.ctx = 0 ∧
      f.body = .response v bad ∧ s.trans f.tag = some x ∧ (x.ack = false ∧ ¬(2 ^ 42 ≤ x.who ∧ x.who < 2 ^ 42 + 128))) :=
  ⟨0, flitAt 2 1 0 0 (.response 9 0), 9, 0, transLoad, can (portAt [transLoad]) rfl (by and_intros <;> first | decide +kernel | rfl | exact taken (by decide +kernel) | exact (Option.some_get _).symm | exact nofun | exact fun _ => rfl | exact fun _ => by decide +kernel | exact walkDone (by decide +kernel) | exact fetchedOk (by decide +kernel) | exact sndEq (by decide +kernel) | exact storedNow (by decide +kernel))⟩

theorem meets_FabricEventsHappen_7 :
    ∃ k f x g, Can (.flitReceive k f) (fun s => s.canReceive k f = true ∧ f.kind = 3 ∧ f.channel = 1 ∧ f.dst = s.chofer.package ∧ f.ctx = 0 ∧
      f.body = .ack ∧ s.trans f.tag = some x ∧ x.ack = true ∧ s.group? x.who = some g) :=
  ⟨0, flitAt 3 1 0 0 .ack, transStore, {}, can (portAt [transStore]) rfl (by and_intros <;> first | decide +kernel | rfl | exact taken (by decide +kernel) | exact (Option.some_get _).symm | exact nofun | exact fun _ => rfl | exact fun _ => by decide +kernel | exact walkDone (by decide +kernel) | exact fetchedOk (by decide +kernel) | exact sndEq (by decide +kernel) | exact storedNow (by decide +kernel))⟩

theorem meets_FabricEventsHappen_8 :
    ∃ k f n, Can (.flitReceive k f) (fun s => s.canReceive k f = true ∧ f.kind = 5 ∧ f.channel = 3 ∧ f.body = .management n) :=
  ⟨0, flitAt 5 3 0 0 (.management 3), 3, can (portAt []) rfl (by and_intros <;> first | decide +kernel | rfl | exact taken (by decide +kernel) | exact (Option.some_get _).symm | exact nofun | exact fun _ => rfl | exact fun _ => by decide +kernel | exact walkDone (by decide +kernel) | exact fetchedOk (by decide +kernel) | exact sndEq (by decide +kernel) | exact storedNow (by decide +kernel))⟩

theorem meets_FabricEventsHappen_11 :
    ∃ k tag x, Can (.accessTimeout k tag) (fun s => s.expired k tag = some x ∧ x.tag / 2 ^ 28 = k ∧ (x.ack = false ∧ ¬(2 ^ 42 ≤ x.who ∧ x.who < 2 ^ 42 + 128))) :=
  ⟨0, 7, transLoad, can { portAt [transLoad] with clock := 2 ^ 24 } rfl (by and_intros <;> first | decide +kernel | rfl | exact taken (by decide +kernel) | exact (Option.some_get _).symm | exact nofun | exact fun _ => rfl | exact fun _ => by decide +kernel | exact walkDone (by decide +kernel) | exact fetchedOk (by decide +kernel) | exact sndEq (by decide +kernel) | exact storedNow (by decide +kernel))⟩

theorem meets_CollectiveEventsHappen_1 :
    ∃ k h r vs s1, Can (.collectiveAccept k) (fun s => TakesBlock s k h r vs s1 ∧ s1.runsRank k (CBlock.ofWords vs) = true) :=
  ⟨0, ⟨0, 0, 0, 0, 0x2000, []⟩, [], _, _, can ranTwice rfl ⟨takesBlock rfl (by decide +kernel) (by decide +kernel), by decide +kernel⟩⟩

theorem meets_CollectiveEventsHappen_2 :
    ∃ k h r vs s1, Can (.collectiveAccept k) (fun s => TakesBlock s k h r vs s1 ∧ s1.runsRank k (CBlock.ofWords vs) = false ∧
      (CBlock.alone (CBlock.ofWords vs) = 1 ∨ CBlock.alone (CBlock.ofWords vs) = 2)) :=
  ⟨0, ⟨0, 0, 0, 0, 0x2000, []⟩, [], _, _, can wrongOp rfl ⟨takesBlock rfl (by decide +kernel) (by decide +kernel), by decide +kernel, by decide +kernel⟩⟩

theorem meets_CollectiveEventsHappen_3 :
    ∃ k h r vs s1 st, Can (.collectiveAccept k) (fun s => TakesBlock s k h r vs s1 ∧ s1.runsRank k (CBlock.ofWords vs) = false ∧
      CBlock.alone (CBlock.ofWords vs) ≠ 1 ∧ CBlock.alone (CBlock.ofWords vs) ≠ 2 ∧
      s1.readTable (s.collEngine k h.gid h.team h.task) (coreOf h.gid) (CBlock.ofWords vs) = .bad st) :=
  ⟨0, ⟨0, 0, 0, 0, 0x2000, []⟩, [], _, _, 3, can noTable rfl ⟨takesBlock rfl (by decide +kernel) (by decide +kernel), by decide +kernel, by decide +kernel, by decide +kernel, fetchedBad (by decide +kernel)⟩⟩

theorem meets_CollectiveEventsHappen_4 :
    ∃ k h r vs s1 s2 ts, Can (.collectiveAccept k) (fun s => TakesBlock s k h r vs s1 ∧ s1.runsRank k (CBlock.ofWords vs) = false ∧
      CBlock.alone (CBlock.ofWords vs) ≠ 1 ∧ CBlock.alone (CBlock.ofWords vs) ≠ 2 ∧
      s1.readTable (s.collEngine k h.gid h.team h.task) (coreOf h.gid) (CBlock.ofWords vs) = .ok s2 ts ∧
      s.checkOf (CBlock.ofWords vs) h.gid ts ≠ 0) :=
  ⟨0, ⟨0, 0, 0, 0, 0x2000, []⟩, [], fetchedWords (blockOf wrongTable), fetchedState (blockOf wrongTable), fetchedState (tableOf wrongTable), fetchedWords (tableOf wrongTable), can wrongTable rfl ⟨takesBlock rfl (by decide +kernel) (by decide +kernel), by decide +kernel, by decide +kernel, by decide +kernel, fetchedOk (by decide +kernel), by decide +kernel⟩⟩

theorem meets_CollectiveEventsHappen_5 :
    ∃ k h r vs s1 ts s2 s3 c, Can (.collectiveAccept k) (fun s => TakesBlock s k h r vs s1 ∧ s1.runsRank k (CBlock.ofWords vs) = false ∧
      (let w := s.collEngine k h.gid h.team h.task
       let b := CBlock.ofWords vs
       let t := ts.map (BitVec.ofNat 32 ·)
       CBlock.alone b = 0 ∧ s1.readTable w (coreOf h.gid) b = .ok s2 ts ∧ s.checkOf b h.gid ts = 0 ∧
       s2.revokedRank w.ctx t = none ∧ s2.readSends w (coreOf h.gid) b t = (s3, some c))) :=
  ⟨0, ⟨0, 0, 0, 0, 0x2000, []⟩, [], fetchedWords (blockOf sound), fetchedState (blockOf sound), fetchedWords (tableOf sound), fetchedState (tableOf sound), (sendsOf sound).1, (sendsOf sound).2.get (by decide +kernel), can sound rfl ⟨takesBlock rfl (by decide +kernel) (by decide +kernel), by decide +kernel, by decide +kernel, fetchedOk (by decide +kernel), by decide +kernel, by decide +kernel, sndEq (by decide +kernel)⟩⟩

/-! ### States and operands that meet the hypotheses of the statements about other definitions -/

/-- The hypotheses of MakesEmpty, in the order it has them, with a well-formed instruction. -/
def EmptyMeets (o : Op) (srcs : Iss → List Src) (d : Iss → Dst) (fn : Iss → State → Iss → Nat → List (List W32) → LaneRes)
    (form : Iss → Prop := fun _ => True) : Prop :=
  ∃ (s : State) (gid : Nat) (g : Group) (f : Fields), wfFields o f = true ∧ Issues s gid g o ∧
    let i := s.issOf gid g.settled o f
    form i ∧ ∃ pop s1, LaneReady s i (srcs i) (d i) pop s1 ∧ madeLanes i (d i) (laneRes (fn i) s i pop (srcs i)) ≠ []
theorem emptyMeets (l : Launch) (c : Ctx) (f : Fields) (o : Op) (srcs : Iss → List Src) (d : Iss → Dst)
    (fn : Iss → State → Iss → Nat → List (List W32) → LaneRes) (form : Iss → Prop) (hl : l.super = true)
    (h : (let s := st c l
      let i := s.issOf 0 (Group.settled { ctx := c }) o f
      wfFields o f && (operandFaults i (srcs i) (d i)).isEmpty && (queueSource (srcs i)).isNone && (poisonFaults i (i.compute (d i)) (srcs i)).isEmpty &&
        (s.setGroup 0 (i.g.free (freedNames i (srcs i)))).admits 0 (i.g.free (freedNames i (srcs i)))
          (((i.g.free (freedNames i (srcs i))).needs (dstNames i (d i))).length * (i.width / 32)) &&
        !(madeLanes i (d i) (laneRes (fn i) s i 0 (srcs i))).isEmpty) = true)
    (hf : form ((st c l).issOf 0 (Group.settled { ctx := c }) o f)) : EmptyMeets o srcs d fn form := by
  simp only [Bool.and_eq_true, Bool.not_eq_true', List.isEmpty_iff, Option.isNone_iff_eq_none] at h
  obtain ⟨⟨⟨⟨⟨hw, h1⟩, h2⟩, h3⟩, h4⟩, h5⟩ := h
  have hq : ∀ b : Bool, (if b then none else queueSource (srcs ((st c l).issOf 0 (Group.settled { ctx := c }) o f))) = none := by
    intro b; rw [h2]; cases b <;> rfl
  refine ⟨st c l, 0, { ctx := c }, f, hw, issues_st _ _ _ hl, hf, 0, st c l, ⟨h1, ?_, h3, ?_, fun _ => h4⟩, ?_⟩
  · rw [hq]; rfl
  · unfold State.popFor; rw [hq]
  · intro he; rw [he] at h5; cases h5
/-- A launch without the empty mask; [2.0, 3.0] in v0 and v1, [4.0, 5.0] in v2 and v3, [−2.0, −1.0] in v6 and v7. -/
def unmasked : Launch := { placedLaunch with emptyMask := false }
def ivCtx : Ctx :=
  oneV [(0, 0x40000000), (1, 0x40400000), (2, 0x40800000), (3, 0x40A00000), (6, 0xC0000000), (7, 0xBF800000), (10, 0xBF800000), (11, 0x3F800000)]
theorem meets_IntervalsComplete_empty :
    ∀ k ∈ [(Op.imeet, imeetOf, 1), (.idiv, idivOf, 4)], ∀ l ∈ [unmasked, placedLaunch],
    ∃ f, EmptyMeets k.1 (fun i => [xsrc i.f.a i.ty.fmt 2, xsrc i.f.b i.ty.fmt 2]) (fun i => xdst i.f.d i.ty.fmt 2)
      (fun i _ _ _ ops => ivRes i.ty.fmt (ivBin i.ty.fmt (ivOpn i.ty.fmt ops 0) (ivOpn i.ty.fmt ops 1) (k.2.1 i.ty.fmt)))
      (fun i => i.f = f ∧ i.l = l) := by
  simp only [List.forall_mem_cons]
  exact ⟨⟨⟨w1 8 0 2, emptyMeets unmasked ivCtx (w1 8 0 2) _ _ _ _ _ rfl (by decide +kernel) ⟨rfl, rfl⟩⟩,
      ⟨w1 8 0 2, emptyMeets placedLaunch ivCtx (w1 8 0 2) _ _ _ _ _ rfl (by decide +kernel) ⟨rfl, rfl⟩⟩, nofun⟩,
    ⟨⟨w1 8 0 12, emptyMeets unmasked ivCtx (w1 8 0 12) _ _ _ _ _ rfl (by decide +kernel) ⟨rfl, rfl⟩⟩,
      ⟨w1 8 0 12, emptyMeets placedLaunch ivCtx (w1 8 0 12) _ _ _ _ _ rfl (by decide +kernel) ⟨rfl, rfl⟩⟩, nofun⟩, nofun⟩
theorem meets_IntervalsComplete_empty_root :
    EmptyMeets .isqrt (fun i => [xsrc i.f.a i.ty.fmt 2]) (fun i => xdst i.f.d i.ty.fmt 2)
      (fun i _ _ _ ops => ivRes i.ty.fmt (ivUn i.ty.fmt (ivOpn i.ty.fmt ops 0) (isqrtIvOf i.ty.fmt))) :=
  emptyMeets unmasked ivCtx (w1 8 6 8) _ _ _ _ _ rfl (by decide +kernel) trivial
theorem meets_IntervalsComplete_empty_make :
    EmptyMeets .imake (fun i => [wordSrc i.f.a, wordSrc i.f.c]) (fun i => xdst i.f.d i.ty.fmt 2)
      (fun i _ _ _ ops => ivRes i.ty.fmt (imakeTwoOf i.ty.fmt (fopn i.ty.fmt false ops 0) (fopn i.ty.fmt false ops 1))) (fun i => i.mbit 0 = true) :=
  emptyMeets unmasked ivCtx (w2 8 2 0 0 0x3401) _ _ _ _ _ rfl (by decide +kernel) (by decide +kernel)

/-- A group that runs ahead with nothing bound since, in the states st, and with a sector of its L1, or of its team's stash window. -/
def aheadG : Group := { ctx := oneG [(0, 0x2000)], stat := .runahead, ra := some ⟨one, [aLoad 1000], [], 0, []⟩ }
def aheadAt : State := { st one with groups := [(0, aheadG)] }
def heldSector : Sector := { home := .hbm 0x2000, bytes := [], valid := -1 }
def inL1 : State := { aheadAt with cores := [(0, { rtable := [placedRange], l1 := [(0x20, [(0, heldSector)])] })] }
theorem meets_RunaheadEventsHappen_instruction :
    aheadAt.cur = some 0 ∧ aheadAt.group? 0 = some aheadG ∧ aheadG.ra = some ⟨one, [aLoad 1000], [], 0, []⟩ := ⟨rfl, rfl, rfl⟩
def aheadI (s : State) : Iss := s.issOf 0 aheadG .ld (w2 8 112 0 0 0)
def lane (va : Nat) : Access := ⟨0, va, 4⟩
theorem meets_RunaheadEventsHappen_walk : ∃ va, aheadAt.locate (aheadI aheadAt) .read (lane (2 ^ 45)) = .walk va := ⟨_, rfl⟩
theorem meets_RunaheadEventsHappen_fault :
    let s := { aheadAt with groups := [(0, { aheadG with answers := [⟨0, 2 ^ 45, .miss 1 0, false⟩] })] }
    ∃ f, s.locate (s.issOf 0 { aheadG with answers := [⟨0, 2 ^ 45, .miss 1 0, false⟩] } .ld (w2 8 112 0 0 0)) .read (lane (2 ^ 45)) = .flt f := ⟨_, rfl⟩
theorem meets_RunaheadEventsHappen_host :
    let s := { aheadAt with cores := [(0, { rtable := [hostRange] })], host := { opened := true } }
    ∃ l h, s.locate (aheadI s) .read (lane 0x2000) = .at_ l ∧ l.p = .host h := ⟨⟨lane 0x2000, .host (0x2000), some hostRange⟩, 0x2000, by decide +kernel, rfl⟩
theorem meets_RunaheadEventsHappen_scratch :
    let s := { atScratch one with groups := [(0, aheadG)] }
    ∃ l side off, s.locate (aheadI s) .read (lane 0xFF000000000000) = .at_ l ∧ l.p = .scratch side off := ⟨_, _, _, rfl, rfl⟩
theorem meets_RunaheadEventsHappen_hit :
    ∃ l a, inL1.locate (aheadI inL1) .read (lane 0x2000) = .at_ l ∧ l.p = .hbm a ∧ inL1.unitHeld l = none ∧
      inL1.stashFor ((aheadI inL1).who inL1) l = none ∧ inL1.l1Hit { (aheadI inL1).who inL1 with scope := 0 } l = some heldSector ∧
      (heldSector.get (0x2000 % 64) 4).2 = 0 := ⟨⟨lane 0x2000, .hbm 0x2000, some placedRange⟩, 0x2000, by decide +kernel, rfl, by decide +kernel, by decide +kernel, by decide +kernel, by decide +kernel⟩
theorem meets_RunaheadEventsHappen_miss :
    ∃ l a, aheadAt.locate (aheadI aheadAt) .read (lane 0x2000) = .at_ l ∧ l.p = .hbm a ∧ aheadAt.unitHeld l = none ∧
      aheadAt.stashFor ((aheadI aheadAt).who aheadAt) l = none ∧ aheadAt.l1Hit { (aheadI aheadAt).who aheadAt with scope := 0 } l = none :=
  ⟨_, _, rfl, rfl, rfl, rfl, rfl⟩
def stashAt (held : Table Sector) : State :=
  { st one { placedLaunch with stash := 1 } with groups := [(0, aheadG)], teams := [(0, { groups := [0], members := 1, stash := held })] }
theorem meets_RunaheadEventsHappen_stash : ∀ held ∈ [[(0x80, heldSector)], []], let s := stashAt held
    ∃ l a k, s.locate (aheadI s) .read (lane 0x2000) = .at_ l ∧ l.p = .hbm a ∧ s.unitHeld l = none ∧
      s.stashFor ((aheadI s).who s) l = some k ∧ tfind (s.team k).stash ((s.team k).stashKey 0x2000) = (held.head?.map (·.2)) := by
  simp only [List.forall_mem_cons]
  exact ⟨⟨⟨lane 0x2000, .hbm 0x2000, some placedRange⟩, 0x2000, 0, by decide +kernel, rfl, by decide +kernel, by decide +kernel, by decide +kernel⟩,
    ⟨⟨lane 0x2000, .hbm 0x2000, some placedRange⟩, 0x2000, 0, by decide +kernel, rfl, by decide +kernel, by decide +kernel, by decide +kernel⟩, nofun⟩
theorem meets_PrivilegeFault_ring :
    let s := { st one { placedLaunch with super := false } with diesT := [(0, { faultRing := some ⟨0x4000, 10, 0⟩ })] }
    (s.launchOf { ctx := one }).ctx = 0 ∧ (s.die (dieOf 0)).faultRing = some ⟨0x4000, 10, 0⟩ ∧ ∀ p ∈ (s.die (dieOf 0)).pending, p.ctx ≠ 0 := by
  decide +kernel
theorem meets_StepRunsDecoded_waits :
    ∃ s1, (State.turn { st one with cores := [] }).action = .issue (.wait s1) := ⟨_, rfl⟩
theorem meets_StepRunsDecoded_asks :
    ∃ e, (sliceAt .read).turn.action = .ask e := ⟨_, rfl⟩

theorem meets_BarrierPhase_more_to_come :
    let t : Team := { groups := [0, 1], members := 2 }
    0 < t.members ∧ tget 0 t.arrivals 3 + 1 < t.members := by decide
theorem meets_BarrierPhase_last :
    let t : Team := { groups := [0], members := 1 }
    0 < t.members ∧ t.members ≤ tget 0 t.arrivals 0 + 1 := by decide
theorem meets_AtomicsComplete_scratchpad :
    let l : Located := ⟨⟨0, 0xFF000000000000, 4⟩, .scratch 0 0, none⟩
    l.p = .scratch 0 0 ∧ l.x.w = atomSize .n32 := ⟨rfl, rfl⟩

/-- The record of rec0, one after it, and one that has begun to move. -/
def recA : RangeRec := ⟨0x800000000010000F, 0x4400, 0x4000, 0⟩
def recB : RangeRec := ⟨0x800000000011000F, 0x4800, 0x4400, 0⟩
def recM : RangeRec := recA.startMove 0x200000
/-- An address space with a directory. -/
def anySpace : Space := ⟨true, 0x9000, 0, 1, false⟩
theorem meets_RangeSetsAndMissesComplete_invalid : ({ recA with w0 := 0 } : RangeRec).ok = false ∧ recM.moving = true := by decide +kernel
theorem meets_RangeSetsAndMissesComplete_valid : recA.ok = true ∧ recA.moving = false ∧ anySpace.valid = true := by decide +kernel
theorem meets_RangeSetsAndMissesComplete_overlap : ∃ x ∈ [recB, recA], overlaps x.base x.limit recA.base recA.limit = true := by decide +kernel
theorem meets_RangeSetsAndMissesComplete_apart : ∀ x ∈ [recB], ¬overlaps x.base x.limit recA.base recA.limit = true := by decide +kernel
theorem meets_RangeSetsAndMissesComplete_no_base : ∀ x ∈ [recB], x.base ≠ recA.base := by decide +kernel
theorem meets_RangeSetsAndMissesComplete_base : [recA].findIdx? (fun x => x.base = recA.base) = some 0 ∧ [recA][0]? = some recA := by decide +kernel
theorem meets_RangeChangesComplete_uncovered : coveringRec [recA] 0x110000 = none ∧ ∀ r ∈ [recA], r.base ≠ 0x110000 := by decide +kernel
theorem meets_RangeChangesComplete_covered : coveringRec [recA] 0x10FFFF = some (0, recA) := by decide +kernel
theorem meets_RangeChangesComplete_moving : coveringRec [recM] 0x100000 = some (0, recM) ∧ recM.moving = true := by decide +kernel
theorem meets_RangeChangesComplete_base : coveringRec [recA] recA.base = some (0, recA) ∧ recA.moving = false := by decide +kernel
theorem meets_RangeChangesComplete_target :
    RangeRec.moveOk recA.base recA.limit recA.target 0x200000 = true ∧ RangeRec.moveOk recA.base recA.limit recA.target (2 ^ 40) = false := by decide +kernel

theorem meets_PrivilegeFault :
    let s := st one { placedLaunch with super := false }
    s.cur = some 0 ∧ s.group? 0 = some { ctx := one } ∧ supervisorOnly .rset = true ∧
      (s.launchOf { ctx := one }).super = false ∧ (s.launchOf { ctx := one }).ctx = 0 ∧ (s.die (dieOf 0)).faultRing = none := by
  decide +kernel
theorem meets_FaultRecordContents :
    let x : Flt := ⟨0xFF, 0xFFFF, 1, some 0, none⟩
    x.cls < 256 ∧ x.code < 65536 ∧ ((st one).launchOf { ctx := one }).ctx < 4096 := by decide +kernel
theorem meets_FaultRecordContents_confidential :
    let s := st one { placedLaunch with ctx := 4095 }
    (s.launchOf { ctx := one }).ctx < 4096 ∧ (s.launchOf { ctx := one }).ctx ≠ 0 ∧ s.ctxRing (s.launchOf { ctx := one }).ctx 0 = none ∧
      (s.die (dieOf 0)).faultRing = none := by decide +kernel
theorem meets_DecodeEncode : wfFields .fence (w2 0 0 0 0 0x130) = true ∧ wfFields .add ⟨true, 7, 127, 127, 127, false, 0, false, false, false, 0, 0⟩ = true := by
  decide
theorem meets_EncodeDecode : decode 0x05014307 0xFFFFFFFF = .ok (.add ⟨true, 0, 5, 6, 7, false, 0, false, false, false, 0, 0⟩) := by rfl
theorem meets_StepKeepsMemoryForm : Memory.wf State.reset = true ∧ ∃ t, step State.reset = .next t := ⟨by decide, _, rfl⟩

/-- One word placed, and two. -/
def placedOne : State := State.reset.withFetchWord 32 0x05014307
def placedTwo : State := State.reset.withFetchWord 64 0xFE82D4405A42048A
/-- What the first clause of StepRunsDecoded asks of a state, up to its first word. -/
def Fetches (s : State) (gid : Nat) (g : Group) (s2 : State) (g2 : Group) (w0 : W32) : Prop :=
  s.inputs = [] ∧ s.turn.action = .issue (s.turn.issueNext gid) ∧ s.turn.group? gid = some g ∧ s.turn.isRevoked g = false ∧
    (s.turn.wake gid g).fetchWord gid g 0 g.ctx.pc = .word s2 g2 w0 ∧ opField w0 ≠ 0x3F
theorem meets_StepRunsDecoded_one :
    ∃ g s2 g2, Fetches placedOne 0 g s2 g2 0x05014307 ∧ xField 0x05014307 = false ∧
      decode 0x05014307 0 = .ok (.add ⟨true, 0, 5, 6, 7, false, 0, false, false, false, 0, 0⟩) :=
  ⟨_, _, _, ⟨rfl, rfl, rfl, rfl, rfl, by decide⟩, rfl, rfl⟩
theorem meets_StepRunsDecoded_two :
    ∃ g s2 g2 s3 g3, Fetches placedTwo 0 g s2 g2 0x5A42048A ∧ xField 0x5A42048A = true ∧
      s2.fetchWord 0 g2 1 (g.ctx.pc + 4) = .word s3 g3 0xFE82D440 ∧
      decode 0x5A42048A 0xFE82D440 = .ok (.ffma ⟨false, 2, 8, 9, 10, true, 2, true, false, false, 11, 0x1440⟩) :=
  ⟨_, _, _, _, _, ⟨rfl, rfl, rfl, rfl, rfl, by decide⟩, rfl, rfl, rfl⟩
theorem meets_StepRunsDecoded_input :
    ({ State.reset with inputs := [.packageReset] } : State).inputs = .packageReset :: [] ∧ comesFromOutside .packageReset = true := ⟨rfl, rfl⟩
theorem meets_StepRunsDecoded_event :
    ∃ e, (State.turn { State.reset with groups := [(0, { acks := 1 })] }).action = .event e := ⟨_, rfl⟩
theorem meets_StepRunsDecoded_idle : State.reset.turn.action = .idle := rfl
theorem meets_StepRunsDecoded_word :
    ∃ g e, placedOne.xlat 0 g .fetch 4 0x1000 = .ok (.hbm 0x1000) (some e) ∧
      placedOne.ask (placedOne.fetcher 0 g) .read .read ⟨⟨0, 0x1000, 4⟩, .hbm 0x1000, some e⟩ = none ∧ e.image.enc = false ∧
      tget 0 placedOne.owners (0x1000 / 256) = 0 ∧ (∀ i < 4, inChofer (0x1000 + i) = false ∧ placedOne.doorbellOf (0x1000 + i) 1 = none) ∧
      placedOne.linked (dieOf 0) (ownerDie 0x1000) = true ∧ (∀ d, ∀ p ∈ (placedOne.die d).partials, p.line ≠ 0x1000 / 256) ∧
      placedOne.makeWay (ownerDie 0x1000) (0x1000 / 256) = placedOne ∧ placedOne.anyPoison 0x1000 4 = false ∧ tfind g.ibuf 0x1000 = none :=
  ⟨startGroup placedLaunch 0 0 0 0, _, rfl, rfl, rfl, rfl, by decide +kernel, rfl, (fun d p hp => by cases hp), rfl, rfl, rfl⟩

end Sys2Proof.Tests
end

section
/-! PROOFS. The statements on instruction words: the targets of form J (03 R72) and the privilege fault (03 R80). -/

namespace Sys2Proof.Machine

/-! ### The agents' part of the machine

The groups, teams, tasks, cores, units and clusters, what they wait for, and Chofer's count of faults, may be exchanged before or after an operation
of the slices: the operation neither reads nor writes them. With the state's own agents this is the operation's frame; with those of another state it
says that the operation does the same to the memory of both. -/

/-- The state with the agents of another. -/
def State.withAgentsOf (s u : State) : State :=
  { s with groups := u.groups, teams := u.teams, tasks := u.tasks, cores := u.cores, units := u.units, clusters := u.clusters,
           replies := u.replies, needs := u.needs, chofer := { s.chofer with faults := u.chofer.faults } }

section
variable (s u : State)

@[simp] theorem State.withAgentsOf_diesT : (s.withAgentsOf u).diesT = s.diesT := rfl
@[simp] theorem State.withAgentsOf_present : (s.withAgentsOf u).present = s.present := rfl
@[simp] theorem State.withAgentsOf_die (d : Nat) : (s.withAgentsOf u).die d = s.die d := rfl
@[simp] theorem State.withAgentsOf_byteAt (t : Nat) : (s.withAgentsOf u).byteAt t = s.byteAt t := rfl
@[simp] theorem State.withAgentsOf_readMem (t n : Nat) : (s.withAgentsOf u).readMem t n = s.readMem t n := rfl
@[simp] theorem State.withAgentsOf_hostHolds (t n : Nat) : (s.withAgentsOf u).hostHolds t n = s.hostHolds t n := rfl
@[simp] theorem State.withAgentsOf_ctxRing (ctx i : Nat) : (s.withAgentsOf u).ctxRing ctx i = s.ctxRing ctx i := rfl

/-! ### Writes -/

@[simp] theorem State.setDie_withAgentsOf (d : Nat) (v : DieSt) : (s.withAgentsOf u).setDie d v = (s.setDie d v).withAgentsOf u := rfl
@[simp] theorem State.setCtxRing_withAgentsOf (c i : Nat) (r : Ring) :
    (s.withAgentsOf u).setCtxRing c i r = (s.setCtxRing c i r).withAgentsOf u := rfl
@[simp] theorem State.dropChofer_withAgentsOf : (s.withAgentsOf u).dropChofer = s.dropChofer.withAgentsOf u := rfl
@[simp] theorem State.putHbm_withAgentsOf (t : Nat) (bs : List Byte) : (s.withAgentsOf u).putHbm t bs = (s.putHbm t bs).withAgentsOf u := rfl
@[simp] theorem State.putByte_withAgentsOf (t : Nat) (b : Byte) : (s.withAgentsOf u).putByte t b = (s.putByte t b).withAgentsOf u := rfl
@[simp] theorem State.sealFails_withAgentsOf (line : Nat) : (s.withAgentsOf u).sealFails line = (s.sealFails line).withAgentsOf u := by
  simp only [State.sealFails, State.post, State.withAgentsOf]
@[simp] theorem State.poisonWrite_withAgentsOf (t n : Nat) (bad : Bool) :
    (s.withAgentsOf u).poisonWrite t n bad = (s.poisonWrite t n bad).withAgentsOf u := rfl

@[simp] theorem State.putBytes_withAgentsOf (t : Nat) (bs : List Byte) :
    (s.withAgentsOf u).putBytes t bs = (s.putBytes t bs).withAgentsOf u := by
  induction bs generalizing s t with
  | nil => rfl
  | cons b bs ih => simp only [State.putBytes, State.putByte_withAgentsOf, ih]

@[simp] theorem State.writeMem_withAgentsOf (t n v : Nat) (bad : Bool) :
    (s.withAgentsOf u).writeMem t n v bad = (s.writeMem t n v bad).withAgentsOf u := by
  simp only [State.writeMem, State.putBytes_withAgentsOf, State.poisonWrite_withAgentsOf]

/-- A choice by what the agents do not decide. -/
theorem State.ite_withAgentsOf {c c' : Prop} [Decidable c] [Decidable c'] {a a' b b' : State} (hc : c' ↔ c)
    (ha : a' = a.withAgentsOf u) (hb : b' = b.withAgentsOf u) : (if c' then a' else b') = (if c then a else b).withAgentsOf u := by
  by_cases h : c
  · rw [if_pos h, if_pos (hc.2 h), ha]
  · rw [if_neg h, if_neg (mt hc.1 h), hb]

/-- Such a choice between operations that also answer a value. -/
theorem State.ite_pair_withAgentsOf {α : Type} {c c' : Prop} [Decidable c] [Decidable c'] {a a' b b' : State × α} (hc : c' ↔ c)
    (ha : a' = (a.1.withAgentsOf u, a.2)) (hb : b' = (b.1.withAgentsOf u, b.2)) :
    (if c' then a' else b') = ((if c then a else b).1.withAgentsOf u, (if c then a else b).2) := by
  by_cases h : c
  · rw [if_pos h, if_pos (hc.2 h), ha]
  · rw [if_neg h, if_neg (mt hc.1 h), hb]

/-- Operations in a row, each of which lets the agents be exchanged. -/
theorem State.foldl_withAgentsOf {α : Type} (op : State → α → State) (h : ∀ st a, op (st.withAgentsOf u) a = (op st a).withAgentsOf u) (l : List α) :
    l.foldl op (s.withAgentsOf u) = (l.foldl op s).withAgentsOf u :=
  List.foldl_hom (fun st : State => st.withAgentsOf u) h

@[simp] theorem State.countSlice_withAgentsOf (die e n : Nat) :
    (s.withAgentsOf u).countSlice die e n = (s.countSlice die e n).withAgentsOf u :=
  State.ite_withAgentsOf u Iff.rfl rfl rfl

@[simp] theorem State.askHost_withAgentsOf (t n : Nat) : (s.withAgentsOf u).askHost t n = (s.askHost t n).withAgentsOf u := by
  refine State.foldl_withAgentsOf s u _ (fun _ _ => ?_) _
  exact State.ite_withAgentsOf u Iff.rfl rfl rfl

@[simp] theorem State.scramble_withAgentsOf (line : Nat) : (s.withAgentsOf u).scramble line = (s.scramble line).withAgentsOf u :=
  State.foldl_withAgentsOf s u _ (fun st _ => State.putBytes_withAgentsOf st u _ _) _

@[simp] theorem State.sealLine_withAgentsOf (line : Nat) : (s.withAgentsOf u).sealLine line = (s.sealLine line).withAgentsOf u :=
  State.ite_withAgentsOf u Iff.rfl rfl rfl

@[simp] theorem State.writeOut_withAgentsOf (sec : Nat) : (s.withAgentsOf u).writeOut sec = (s.writeOut sec).withAgentsOf u := by
  unfold State.writeOut
  refine State.ite_withAgentsOf u Iff.rfl ?_ rfl
  rw [← State.sealLine_withAgentsOf]
  rfl

@[simp] theorem State.makeWay_withAgentsOf (own line : Nat) : (s.withAgentsOf u).makeWay own line = (s.makeWay own line).withAgentsOf u := by
  refine State.ite_withAgentsOf u Iff.rfl rfl (State.ite_withAgentsOf u Iff.rfl rfl ?_)
  simp only [State.withAgentsOf_present, State.withAgentsOf_diesT]
  generalize List.find? _ _ = leaves
  cases leaves with
  | none => rfl
  | some e =>
    refine State.foldl_withAgentsOf s u _ (fun st _ => ?_) _
    exact State.ite_withAgentsOf u Iff.rfl (State.writeOut_withAgentsOf st u _) rfl

@[simp] theorem State.allot_withAgentsOf (t : Nat) : (s.withAgentsOf u).allot t = (s.allot t).withAgentsOf u :=
  State.ite_withAgentsOf u Iff.rfl rfl (by simp only [State.makeWay_withAgentsOf]; rfl)

@[simp] theorem State.touchSector_withAgentsOf (d t : Nat) : (s.withAgentsOf u).touchSector d t = (s.touchSector d t).withAgentsOf u :=
  State.ite_withAgentsOf u Iff.rfl (by simp only [State.allot_withAgentsOf, State.countSlice_withAgentsOf]; rfl)
    (by simp only [State.allot_withAgentsOf, State.countSlice_withAgentsOf]; rfl)

/-- A line given to a context, or to none. -/
def State.setOwner (s : State) (line ctx : Nat) : State := { s with owners := tset 0 s.owners line ctx }

@[simp] theorem State.setOwner_withAgentsOf (line ctx : Nat) : (s.withAgentsOf u).setOwner line ctx = (s.setOwner line ctx).withAgentsOf u := rfl

theorem State.claimLine_eq (ctx t : Nat) (r : Reach) :
    s.claimLine ctx t r = (if r = .failed ∨ r = .hidden then s.scramble (t / 256) else s).setOwner (t / 256) ctx := by
  cases r <;> rfl

@[simp] theorem State.claimLine_withAgentsOf (ctx t : Nat) (r : Reach) :
    (s.withAgentsOf u).claimLine ctx t r = (s.claimLine ctx t r).withAgentsOf u := by
  rw [State.claimLine_eq, State.claimLine_eq, ← State.setOwner_withAgentsOf]
  congr 1
  exact State.ite_withAgentsOf u Iff.rfl (State.scramble_withAgentsOf s u _) rfl

@[simp] theorem State.sealCheck_withAgentsOf (t ctx : Nat) :
    (s.withAgentsOf u).sealCheck t ctx = ((s.sealCheck t ctx).1.withAgentsOf u, (s.sealCheck t ctx).2) :=
  State.ite_pair_withAgentsOf u Iff.rfl rfl (by rw [State.sealFails_withAgentsOf])

@[simp] theorem State.applyPartial_withAgentsOf (p : Partial) : (s.withAgentsOf u).applyPartial p = (s.applyPartial p).withAgentsOf u := by
  have opened : (if p.ctx ≠ 0 then (s.withAgentsOf u).sealCheck (256 * p.line) p.ctx
      else (s.withAgentsOf u, decide (tget 0 (s.withAgentsOf u).owners p.line ≠ 0))) = _ :=
    State.ite_pair_withAgentsOf u Iff.rfl (State.sealCheck_withAgentsOf s u _ _) (b := (s, decide (tget 0 s.owners p.line ≠ 0))) rfl
  simp only [State.applyPartial]
  rw [opened, State.claimLine_withAgentsOf]
  refine State.foldl_withAgentsOf _ u _ (fun st w => ?_) _
  refine State.ite_withAgentsOf u Iff.rfl ?_ ?_ <;>
    simp only [State.withAgentsOf_readMem, State.allot_withAgentsOf, State.putBytes_withAgentsOf, State.poisonWrite_withAgentsOf]

@[simp] theorem State.takePartial_withAgentsOf (k line : Nat) :
    (s.withAgentsOf u).takePartial k line = (s.takePartial k line).withAgentsOf u := by
  simp only [State.takePartial, State.withAgentsOf_die]
  generalize List.find? _ _ = held
  cases held with
  | none => rfl
  | some p =>
    simp only [State.applyPartial_withAgentsOf, State.setDie_withAgentsOf]
    generalize (s.applyPartial p).setDie k _ = st
    rfl

@[simp] theorem State.mergeLine_withAgentsOf (line : Nat) : (s.withAgentsOf u).mergeLine line = (s.mergeLine line).withAgentsOf u := by
  refine State.ite_withAgentsOf u Iff.rfl rfl ?_
  rw [State.foldl_withAgentsOf s u _ fun st k => State.takePartial_withAgentsOf st u k line, ← State.countSlice_withAgentsOf]
  rfl

@[simp] theorem State.openLine_withAgentsOf (d ctx t : Nat) (write : Bool) :
    (s.withAgentsOf u).openLine d ctx t write = ((s.openLine d ctx t write).1.withAgentsOf u, (s.openLine d ctx t write).2) := by
  refine State.ite_pair_withAgentsOf u Iff.rfl rfl ?_
  simp only [State.mergeLine_withAgentsOf]
  refine State.ite_pair_withAgentsOf u Iff.rfl ?_ ?_
  · simp only [State.sealCheck_withAgentsOf, State.touchSector_withAgentsOf]
  · simp only [State.touchSector_withAgentsOf]
    rfl

@[simp] theorem State.readHbm_withAgentsOf (d ctx t w : Nat) :
    (s.withAgentsOf u).readHbm d ctx t w =
      ⟨(s.readHbm d ctx t w).s.withAgentsOf u, (s.readHbm d ctx t w).v, (s.readHbm d ctx t w).bad⟩ := by
  simp only [State.readHbm, State.readSlice, State.openLine_withAgentsOf]
  rfl

@[simp] theorem State.writeOpen_withAgentsOf (d ctx t w v : Nat) (bad : Bool) :
    (s.withAgentsOf u).writeOpen d ctx t w v bad = (s.writeOpen d ctx t w v bad).withAgentsOf u := by
  simp only [State.writeOpen, State.openLine_withAgentsOf, State.claimLine_withAgentsOf, State.writeMem_withAgentsOf]

/-! ### The hardware's own structures, and its rings of records -/

@[simp] theorem State.ownNow_withAgentsOf (d ctx t n v : Nat) : (s.withAgentsOf u).ownNow d ctx t n v = (s.ownNow d ctx t n v).withAgentsOf u :=
  State.ite_withAgentsOf u Iff.rfl rfl (State.ite_withAgentsOf u Iff.rfl rfl (State.writeOpen_withAgentsOf s u _ _ _ _ _ _))

@[simp] theorem State.ownWrite_withAgentsOf (d ctx t n v : Nat) :
    (s.withAgentsOf u).ownWrite d ctx t n v = (s.ownWrite d ctx t n v).withAgentsOf u := by
  refine State.ite_withAgentsOf u Iff.rfl (State.ownNow_withAgentsOf s u _ _ _ _ _) ?_
  simp only [State.withAgentsOf_hostHolds]
  rw [State.foldl_withAgentsOf s u _ fun st sec => State.askHost_withAgentsOf st u (64 * sec) 1]
  rfl

@[simp] theorem State.ownRead_withAgentsOf (d ctx t n : Nat) :
    (s.withAgentsOf u).ownRead d ctx t n = ((s.ownRead d ctx t n).1.withAgentsOf u, (s.ownRead d ctx t n).2) := by
  simp only [State.ownRead, State.withAgentsOf_die, State.readHbm_withAgentsOf]
  generalize List.find? _ _ = waiting
  cases waiting <;> rfl

@[simp] theorem State.ringFull_withAgentsOf (d ctx : Nat) (r : Ring) :
    (s.withAgentsOf u).ringFull d ctx r = (s.ringFull d ctx r).withAgentsOf u := by
  simp only [State.ringFull, State.ownRead_withAgentsOf, State.ownWrite_withAgentsOf]

@[simp] theorem State.ringRoom_withAgentsOf (d ctx : Nat) (r : Ring) (n : Nat) :
    (s.withAgentsOf u).ringRoom d ctx r n = ((s.ringRoom d ctx r n).1.withAgentsOf u, (s.ringRoom d ctx r n).2) := by
  simp only [State.ringRoom, State.ownRead_withAgentsOf]

@[simp] theorem State.ringWrite_withAgentsOf (d ctx : Nat) (r : Ring) (n : Nat) (words : List W64) :
    (s.withAgentsOf u).ringWrite d ctx r n words = (s.ringWrite d ctx r n words).map fun x => (x.1.withAgentsOf u, x.2) := by
  unfold State.ringWrite
  simp only [State.ringRoom_withAgentsOf]
  cases (s.ringRoom d ctx r 1).2 with
  | false => rfl
  | true =>
    rw [State.foldl_withAgentsOf _ u _ fun st i => State.ownWrite_withAgentsOf st u _ _ _ _ _, State.ownWrite_withAgentsOf]
    rfl

@[simp] theorem State.faultOut_withAgentsOf (die ctx : Nat) (words : List W64) :
    (s.withAgentsOf u).faultOut die ctx words = (s.faultOut die ctx words).withAgentsOf u := by
  unfold State.faultOut
  simp only [State.withAgentsOf_die, State.withAgentsOf_ctxRing]
  generalize (if ctx = 0 then (s.die die).faultRing else s.ctxRing ctx 0) = ring
  refine State.ite_withAgentsOf u Iff.rfl ?_ ?_
  · cases ring with
    | none => rfl
    | some r => simp only [State.ringFull_withAgentsOf, State.withAgentsOf_die, State.setDie_withAgentsOf]
  · cases ring with
    | none => rfl
    | some r =>
      simp only [State.ringWrite_withAgentsOf]
      cases s.ringWrite die ctx r 64 words with
      | none => simp only [Option.map_none, State.ringFull_withAgentsOf, State.withAgentsOf_die, State.setDie_withAgentsOf]
      | some x => exact State.ite_withAgentsOf u Iff.rfl rfl rfl

end

/-! ### Taking a fault -/

/-- The record that a fault leaves with its group. -/
def State.faultRec (s : State) (gid : Nat) (g : Group) (x : Flt) (n : Option Nat) (after : Bool) : FaultRec :=
  { words := s.faultWords gid g g.ctx.pc x,
    plain := if (s.launchOf g).ctx = 0 then s.faultWords gid g g.ctx.pc x else withheld (s.faultWords gid g g.ctx.pc x),
    restartable := restartable x.cls x.code, length := n, after := after }

/-- The group that a fault parks: its registers stay, but FPSR, to which the flags of its outstanding results are written (01 R33). -/
def Group.faulted (g : Group) (r : FaultRec) : Group :=
  { g with stat := .parkedFault, fault := some r, ctx := { g.ctx with fpsr := g.outst.foldl (fun m o => m ||| o.flags) g.ctx.fpsr }, outst := [],
           ra := none, stop := none, answers := [], age := 0, aged := false, released := false, granted := none }

/-- The agents once a fault has parked its group. -/
def State.parkFaulted (s : State) (gid : Nat) (g : Group) (r : FaultRec) : State :=
  let s1 := s.setGroup gid (g.faulted r)
  { s1 with replies := s1.replies.filter fun x => x.who != gid, needs := s1.needs.filter fun n => n.1 != gid,
            chofer := { s1.chofer with faults := s1.chofer.faults + 1 } }

/-- The reports of a fault: to the ring of its context, if it has one, whole, and to that of its die (01 R33). -/
def State.reportFault (s : State) (gid : Nat) (g : Group) (r : FaultRec) : State :=
  (if (s.launchOf g).ctx = 0 then s else s.faultOut (dieOf gid) (s.launchOf g).ctx r.words).faultOut (dieOf gid) 0 r.plain

/-- Taking a fault parks its group and reports it, and neither looks at what the other does. -/
theorem State.takeFault_eq (s : State) (gid : Nat) (g : Group) (x : Flt) (n : Option Nat) (after : Bool) :
    s.takeFault gid g x n after =
      (s.reportFault gid g (s.faultRec gid g x n after)).withAgentsOf (s.parkFaulted gid g (s.faultRec gid g x n after)) := by
  have parked : s.parkFaulted gid g (s.faultRec gid g x n after) = s.withAgentsOf (s.parkFaulted gid g (s.faultRec gid g x n after)) := rfl
  unfold State.reportFault
  rw [← State.faultOut_withAgentsOf, ← State.ite_withAgentsOf (c' := (s.launchOf g).ctx = 0) _ Iff.rfl parked (State.faultOut_withAgentsOf ..)]
  rfl

section
variable (s : State) (gid : Nat) (g : Group) (x : Flt) (n : Option Nat) (after : Bool)

theorem State.takeFault_group :
    (s.takeFault gid g x n after).group? gid = some (g.faulted (s.faultRec gid g x n after)) := by
  rw [State.takeFault_eq]
  exact State.setGroup_same s gid _

theorem State.takeFault_other {j : Nat} (h : j ≠ gid) : (s.takeFault gid g x n after).group? j = s.group? j := by
  rw [State.takeFault_eq]
  exact State.setGroup_other s _ h

@[simp] theorem State.takeFault_teams : (s.takeFault gid g x n after).teams = s.teams := by rw [State.takeFault_eq]; rfl
@[simp] theorem State.takeFault_tasks : (s.takeFault gid g x n after).tasks = s.tasks := by rw [State.takeFault_eq]; rfl
@[simp] theorem State.takeFault_cores : (s.takeFault gid g x n after).cores = s.cores := by rw [State.takeFault_eq]; rfl
@[simp] theorem State.takeFault_units : (s.takeFault gid g x n after).units = s.units := by rw [State.takeFault_eq]; rfl
@[simp] theorem State.takeFault_clusters : (s.takeFault gid g x n after).clusters = s.clusters := by rw [State.takeFault_eq]; rfl

theorem State.takeFault_byteAt (a : Nat) :
    (s.takeFault gid g x n after).byteAt a = (s.reportFault gid g (s.faultRec gid g x n after)).byteAt a := by
  rw [State.takeFault_eq, State.withAgentsOf_byteAt]

end

/-! ### The record and the ring it goes to -/

/-- A launch in no context reports to its die alone, the whole record. -/
theorem State.reportFault_of_no_context {s : State} {gid : Nat} {g : Group} {x : Flt} {n : Option Nat} {after : Bool}
    (h : (s.launchOf g).ctx = 0) : s.reportFault gid g (s.faultRec gid g x n after) = s.faultOut (dieOf gid) 0 (s.faultWords gid g g.ctx.pc x) := by
  simp only [State.reportFault, State.faultRec, if_pos h]

/-- A flag of a word is absent or holds its one bit. -/
theorem flag_cases (c : Prop) [Decidable c] (n : Nat) : (if c then n else 0) = 0 ∨ (if c then n else 0) = n := by
  by_cases h : c
  · exact .inr (if_pos h)
  · exact .inl (if_neg h)

/-- In the first word of a record the flags, bits 12, 10, 9 and 8, lie between the class and the code, and the context above them. -/
theorem header_class_code (ctx code cls deep again index addr : Nat) (hcls : cls < 256) (hcode : code < 65536) (hdeep : deep = 0 ∨ deep = 2 ^ 12)
    (hagain : again = 0 ∨ again = 2 ^ 10) (hindex : index = 0 ∨ index = 2 ^ 9) (haddr : addr = 0 ∨ addr = 2 ^ 8) :
    (ctx % 2 ^ 32 * 2 ^ 32 + code % 2 ^ 16 * 2 ^ 16 + deep + again + index + addr + cls) % 2 ^ 64 / 2 ^ 0 % 2 ^ (7 + 1 - 0) = cls ∧
      (ctx % 2 ^ 32 * 2 ^ 32 + code % 2 ^ 16 * 2 ^ 16 + deep + again + index + addr + cls) % 2 ^ 64 / 2 ^ 16 % 2 ^ (31 + 1 - 16) = code := by
  omega

/-- The class and the code of a record (01 Table 1.7). -/
theorem State.faultWords_class_code (s : State) (gid : Nat) (g : Group) (pc : Addr) {x : Flt} (hcls : x.cls < 256) (hcode : x.code < 65536) :
    bits ((s.faultWords gid g pc x).getD 0 0) 7 0 = x.cls ∧ bits ((s.faultWords gid g pc x).getD 0 0) 31 16 = x.code := by
  simp only [State.faultWords, List.getD_cons_zero, bits, bitsOf, fieldAt, BitVec.toNat_ofNat, Nat.shiftLeft_eq, Nat.shiftRight_eq_div_pow]
  exact header_class_code _ _ _ _ _ _ _ hcls hcode (flag_cases _ _) (flag_cases _ _) (flag_cases _ _) (flag_cases _ _)

theorem State.takeFault_parkedBy (s : State) (gid : Nat) (g : Group) (x : Flt) (n : Option Nat) (after : Bool) (hcls : x.cls < 256) (hcode : x.code < 65536) :
    ParkedBy (s.takeFault gid g x n after) gid x.cls x.code :=
  ⟨_, s.takeFault_group gid g x n after, rfl, _, rfl, s.faultWords_class_code gid g g.ctx.pc hcls hcode⟩

/-- The memory once a die's fault ring has received a record, or has counted it where it is full (08 R223). -/
def State.toFaultRing (s : State) (d : Nat) (r : Ring) (words : List W64) : State :=
  match s.ringWrite d 0 r 64 words with
  | some y => y.1
  | none => s.ringFull d 0 r

/-- Without a ring a record waits, and no memory changes. -/
theorem State.faultOut_byteAt_of_no_ring (s : State) (d : Nat) (words : List W64) (hring : (s.die d).faultRing = none) (a : Nat) :
    (s.faultOut d 0 words).byteAt a = s.byteAt a := by
  simp only [State.faultOut, if_true, hring]
  split
  · rfl
  · rfl

/-- With a ring, and no record waiting before it, a record goes there. -/
theorem State.faultOut_byteAt_of_ring (s : State) (d : Nat) (words : List W64) {r : Ring} (hring : (s.die d).faultRing = some r)
    (hpend : ∀ p ∈ (s.die d).pending, p.ctx ≠ 0) (a : Nat) : (s.faultOut d 0 words).byteAt a = (s.toFaultRing d r words).byteAt a := by
  have none_waits : ((s.die d).pending.any fun p => p.ctx = 0) = false := by simpa using hpend
  simp only [State.faultOut, State.toFaultRing, if_true, hring, none_waits]
  cases s.ringWrite d 0 r 64 words <;> rfl

/-! ### The flags of a group that parks -/

theorem foldl_or_flags (l : List Outst) (m : BitVec 6) : l.foldl (fun m o => m ||| o.flags) m = m ||| flagsOf l := by
  induction l generalizing m with
  | nil => simp [flagsOf]
  | cons o l ih =>
    rw [flagsOf, List.foldl_cons, List.foldl_cons, ih, ih (0 ||| o.flags), BitVec.ofNat_eq_ofNat, BitVec.zero_or, BitVec.or_assoc]

theorem flagsOf_cons (o : Outst) (l : List Outst) : flagsOf (o :: l) = o.flags ||| flagsOf l := by
  rw [flagsOf, List.foldl_cons, foldl_or_flags, BitVec.ofNat_eq_ofNat, BitVec.zero_or]

/-- The results that satisfy a test and those that do not give the flags of all. -/
theorem flagsOf_filter_or (l : List Outst) (p : Outst → Bool) : flagsOf (l.filter p) ||| flagsOf (l.filter fun o => !p o) = flagsOf l := by
  induction l with
  | nil => exact BitVec.or_self
  | cons o l ih =>
    rw [flagsOf_cons, ← ih]
    cases hp : p o
    · rw [List.filter_cons_of_neg (by simp [hp]), List.filter_cons_of_pos (by simp [hp]), flagsOf_cons]
      ac_rfl
    · rw [List.filter_cons_of_pos hp, List.filter_cons_of_neg (by simp [hp]), flagsOf_cons]
      ac_rfl

/-- Whether or not they were due before the instruction, the flags of earlier results all reach FPSR. -/
theorem Group.settled_faulted_ctx (g : Group) (r : FaultRec) :
    (g.settled.faulted r).ctx = { g.ctx with fpsr := g.ctx.fpsr ||| flagsOf g.outst } := by
  have fpsr : (g.settled.faulted r).ctx.fpsr = g.ctx.fpsr ||| flagsOf g.outst := by
    rw [← flagsOf_filter_or g.outst fun o => o.reached g.issued, ← BitVec.or_assoc]
    exact foldl_or_flags _ _
  rw [← fpsr]
  rfl

/-! ### The privilege fault (03 R80) -/

/-- A privilege fault (01 Table 1.8). -/
def privilegeFlt : Flt := ⟨0xF, 1, 0, none, none⟩

theorem memIssue_eq_issue (o : Op) (f : Fields) (s : State) (body : Iss → State → Res) :
    ∃ body', memIssue o f s body = issue o f s body' :=
  ⟨_, rfl⟩

/-- Every supervisor-only sub-op is issued as instructions are. -/
theorem exec_supervisorOnly {o : Op} (h : supervisorOnly o = true) (f : Fields) (s : State) :
    ∃ body, exec (.of o f) s = issue o f s body := by
  unfold supervisorOnly at h
  split at h
  case h_13 => cases h
  -- GRESUME, GRESUME.next, GKILL and SAMPL; the others are issued as memory instructions are.
  case h_1 | h_2 | h_3 | h_12 => exact ⟨_, rfl⟩
  case h_6 => exact memIssue_eq_issue .rsplit f s fun i s => keyed i [i.f.a] s false rsplitChange
  case h_7 => exact memIssue_eq_issue .rmerge f s fun i s => keyed i [i.f.a] s false rmergeChange
  all_goals exact memIssue_eq_issue _ f s _

/-- User code that issues a supervisor-only sub-op takes the fault in place of its effect. -/
theorem issue_privilege {s : State} {gid : Nat} {g : Group} {o : Op} (f : Fields) (body : Iss → State → Res) (hcur : s.cur = some gid)
    (hgroup : s.group? gid = some g) (hra : g.ra = none) (hsup : supervisorOnly o = true) (huser : (s.launchOf g).super = false) :
    issue o f s body =
      .next { s.takeFault gid g.settled privilegeFlt (some (if f.x then 8 else 4)) with freeCtr := s.freeCtr + 1 } := by
  have walks : (s.issOf gid g.settled o f).ra = false := by rw [State.issOf, Iss.ra, show g.settled.ra = none from hra]; rfl
  have user : (s.issOf gid g.settled o f).l.super = false := huser
  unfold issue
  simp only [hcur, hgroup, walks, user, hsup, Bool.false_and, Bool.not_false, Bool.and_self, State.conclude]
  rfl

/-! ### The transfer of form J (03 R72) -/

theorem off21_range (f : Fields) : -(4 * 2 ^ 20) ≤ 4 * f.off21.toInt ∧ 4 * f.off21.toInt ≤ 4 * 2 ^ 20 - 4 := by
  have low := f.off21.le_toInt
  have high := f.off21.toInt_lt
  omega

/-- An offset of 0 targets the instruction itself. -/
theorem relTarget_of_off21_zero {i : Iss} (h : i.f.off21 = 0) : relTarget i = i.pc := by
  simp [relTarget, h]

/-- A taken BRA or CALL ends at its target, and runs ahead only if its group did. -/
theorem branchEffect_taken (call : Bool) {i : Iss} (s : State) (h : i.f.g = 0 ∨ i.lanes ≠ 0) :
    ∃ g1, branchEffect call i s = .done s g1 (relTarget i) none ∧ g1.ra = i.g.ra := by
  have taken : ¬(i.f.g ≠ 0 ∧ i.lanes = 0) := fun untaken => h.elim untaken.1 fun lanes => lanes untaken.2
  unfold branchEffect
  rw [if_neg taken]
  exact ⟨_, rfl, rfl⟩

/-- An instruction that is issued as a branch continues, when taken, at its target. -/
theorem issue_branch_pc {s : State} {gid : Nat} {g : Group} {o : Op} {f : Fields} (call : Bool) (h : Issues s gid g o)
    (taken : f.g = 0 ∨ (s.issOf gid g.settled o f).lanes ≠ 0) :
    ∃ t g', issue o f s (branchEffect call) = .next t ∧ t.group? gid = some g' ∧ g'.ctx.pc = relTarget (s.issOf gid g.settled o f) := by
  obtain ⟨g1, done, hra⟩ := branchEffect_taken (i := s.issOf gid g.settled o f) call s taken
  obtain ⟨t, step, left⟩ := done_leaves h done (hra.trans h.settled_ra)
  obtain ⟨g', group, ctx⟩ := left.group
  exact ⟨t, g', step, group, by rw [ctx]⟩

/-! ### The statements -/

/-- Settles O51: BRA and CALL end at their target, which is reckoned from their own PC whatever X is. -/
theorem formJTargets : Obligations.FormJTargets := by
  unfold Obligations.FormJTargets
  intro o ho s gid g f issues taken
  have lands : ∃ t g', exec (.of o f) s = .next t ∧ t.group? gid = some g' ∧ g'.ctx.pc = relTarget (s.issOf gid g.settled o f) := by
    simp only [List.mem_cons, List.not_mem_nil, or_false] at ho
    obtain rfl | rfl := ho
    · exact issue_branch_pc false issues taken
    · exact issue_branch_pc true issues taken
  obtain ⟨t, g', step, group, pc⟩ := lands
  exact ⟨t, step, ⟨g', group, pc, fun zero => pc.trans (relTarget_of_off21_zero zero)⟩, off21_range f⟩

/-- Settles O52: in place of the effect the group takes the privilege fault, whose report touches no agent. -/
theorem privilegeFault : Obligations.PrivilegeFault := by
  unfold Obligations.PrivilegeFault
  intro s gid g o f hcur hgroup hra hsup huser
  obtain ⟨body, hexec⟩ := exec_supervisorOnly hsup f s
  have step := hexec.trans (issue_privilege f body hcur hgroup hra hsup huser)
  generalize (some (if f.x then 8 else 4) : Option Nat) = n at step
  have parked := s.takeFault_group gid g.settled privilegeFlt n false
  refine ⟨_, step, s.takeFault_parkedBy gid g.settled privilegeFlt n false (by decide) (by decide), ⟨_, parked, g.settled_faulted_ctx _⟩,
    fun j hj => s.takeFault_other gid g.settled privilegeFlt n false hj, s.takeFault_teams .., s.takeFault_tasks .., s.takeFault_cores ..,
    s.takeFault_units .., s.takeFault_clusters .., ?_, ?_⟩
  · intro plain noRing a
    refine (s.takeFault_byteAt gid g.settled privilegeFlt n false a).trans ?_
    rw [State.reportFault_of_no_context (g := g.settled) plain]
    exact s.faultOut_byteAt_of_no_ring _ _ noRing a
  · intro plain r hring hpend
    refine ⟨_, _, parked, rfl, fun a => ?_⟩
    refine (s.takeFault_byteAt gid g.settled privilegeFlt n false a).trans ?_
    rw [State.reportFault_of_no_context (g := g.settled) plain, s.faultOut_byteAt_of_ring _ _ hring hpend]
    rfl

end Sys2Proof.Machine
end

section
/-! PROOFS. Instructions that touch no more than their group: DIV and REM (04 R95), the transfers of control (04 R104, R105), NOP and BRK (04 R119). -/

namespace Sys2Proof.Machine

/-! ### Instructions of two integers (04 R94, R95) -/

/-- An instruction that computes fn of two integers of its type completes lane by lane with the words of what fn gives. -/
theorem intBinary_completes {o : Op} (fn : Iss → Ty → Int → Int → Int)
    (hex : ∀ f s, exec (.of o f) s = issue o f s fun i s => intBinary (fn i) i s) :
    CompletesLanewise o (fun i => [intSrc i.f.a i.ty, intSrc i.f.b i.ty]) (fun i => intDst i.f.d i.ty)
      (fun i _ _ _ ops => { words := intWords i.ty (i.mbit 5) (fn i i.ty (opInt i.ty ops 0) (opInt i.ty ops 1)) }) :=
  lanewise_completes (dist := fun _ => 4) (alu := fun _ => true) hex fun _ _ _ => rfl

/-! ### Instructions whose whole effect is on the context of their group -/

/-- An instruction completes when its effect, where its hypotheses hold, is to leave its group's context c i at the PC pc i. -/
theorem completes_leaves {o : Op} {body : Iss → State → Res} {form : State → Iss → Prop} {c : Iss → Ctx} {pc : Iss → Addr}
    (hex : ∀ f s, exec (.of o f) s = issue o f s body)
    (hbody : ∀ s i, i.g.ra = none → form s i → body i s = .done s { i.g with ctx := c i } (pc i) none) :
    Completes o form (fun s i t => Leaves s i (pc i) (c i) t) :=
  completes_of_done hex fun s i _ hra hform => ⟨s, _, pc i, none, hbody s i hra hform, hra, fun _ left _ => left⟩

/-! ### Transfers of control (04 R104, R105) -/

/-- The context in which a transfer goes on: where it diverges, the lanes that do not take it are left in m7; where it links, g11 holds the address
after it. -/
def transferCtx (link : Prop) [Decidable link] (div : Bool) (i : Iss) : Ctx :=
  let c := if div then { i.ctx.maskSet 7 (i.ctx.am &&& ~~~i.lanes) with am := i.lanes } else i.ctx
  if link then c.gSet 11 (i.next.setWidth 64) 0 else c

/-- A write to a uniform register with no result outstanding takes its value (07 R182). -/
theorem State.mergeG_of_not_pending {s : State} {g : Group} {n : Nat} (h : g.pendG n = false) (v : W64) : s.mergeG g n v = v := by
  simp [State.mergeG, State.keepsG, h]

/-- A transfer performs so, if it diverges as div says and no result is outstanding in the g11 that it links. -/
theorem transfer_done {link : Prop} [Decidable link] {div : Bool} {i : Iss} (hlink : link → i.g.pendG 11 = false)
    (hdiv : div = decide (i.f.g ≠ 0 ∧ i.lanes ≠ i.ctx.am)) (s : State) (tgt : Addr) :
    transfer (decide link) i s tgt = .done s { i.g with ctx := transferCtx link div i } tgt none := by
  subst hdiv
  by_cases h : link
  · simp [transfer, transferCtx, h, State.mergeG_of_not_pending (hlink h)]
  · simp [transfer, transferCtx, h]

theorem not_untaken {i : Iss} (taken : i.f.g = 0 ∨ i.lanes ≠ 0) : ¬(i.f.g ≠ 0 ∧ i.lanes = 0) :=
  fun untaken => taken.elim untaken.1 fun lanes => lanes untaken.2

theorem branchEffect_of_taken (call : Bool) {i : Iss} (s : State) (taken : i.f.g = 0 ∨ i.lanes ≠ 0) :
    branchEffect call i s = transfer call i s (relTarget i) :=
  if_neg (not_untaken taken)

theorem branchEffect_of_untaken (call : Bool) {i : Iss} (s : State) (untaken : i.f.g ≠ 0 ∧ i.lanes = 0) :
    branchEffect call i s = .done s i.g i.next none :=
  if_pos untaken

theorem registerBranch_of_untaken (call : Bool) (n : Nat) {i : Iss} (s : State) (untaken : i.f.g ≠ 0 ∧ i.lanes = 0) :
    registerBranch call n i s = .done s i.g i.next none :=
  if_pos untaken

theorem gPoisonFaults_addr_of_clean {i : Iss} {n : Nat} (h : i.ctx.gBad n = 0) : gPoisonFaults i [] [n] = [] := by
  simp [gPoisonFaults, h]

theorem targetFaults_of_legal {v : W64} (high : bits v 63 56 = 0) (aligned : v.toNat % 4 = 0) : targetFaults v = [] := by
  simp [targetFaults, high, aligned]

/-- A taken transfer goes to the address in its register, where no result is outstanding there and the address is not poisoned and a legal target. -/
theorem registerBranch_of_taken (call : Bool) {n : Nat} {i : Iss} (s : State) (walks : i.g.ra = none) (taken : i.f.g = 0 ∨ i.lanes ≠ 0)
    (hpend : i.g.pendG n = false) (hclean : i.ctx.gBad n = 0) (high : bits (i.ctx.gGet n) 63 56 = 0)
    (aligned : (i.ctx.gGet n).toNat % 4 = 0) :
    registerBranch call n i s = transfer call i s ((i.ctx.gGet n).setWidth 56) := by
  have hread : s.readG i.g 0 n = i.ctx.gGet n := by simp [State.readG, hpend, Iss.ctx]
  have hra : i.ra = false := by simp [Iss.ra, walks]
  unfold registerBranch
  rw [if_neg (not_untaken taken)]
  simp [hra, hread, gPoisonFaults_addr_of_clean hclean, targetFaults_of_legal high aligned]

theorem regOf_of_uniform {fld : BitVec 7} (low : 112 ≤ fld.toNat) (high : fld.toNat < 124) : regOf fld = .g (gIndex fld) := by
  simp [regOf, gIndex, high, Nat.not_lt.2 low]

theorem mustG_of_uniform {fld : BitVec 7} (low : 112 ≤ fld.toNat) (high : fld.toNat < 124) : mustG [fld] = [] := by
  simp [mustG, queueTwice, regOf_of_uniform low high]

theorem namedBranch_of_uniform (call : Bool) {i : Iss} (s : State) (low : 112 ≤ i.f.a.toNat) (high : i.f.a.toNat < 124) :
    namedBranch call i s = registerBranch call (gIndex i.f.a) i s := by
  simp [namedBranch, mustG_of_uniform low high]

/-- The field of the register that holds the target of BRI, CALLI or RET; RET's is g11 (04 R104). -/
def targetField (o : Op) (i : Iss) : BitVec 7 := if o = .ret then 123 else i.f.a

/-- BRA and CALL are issued with a target relative to their PC. -/
theorem exec_relative {o : Op} (ho : o ∈ [Op.bra, .call]) (f : Fields) (s : State) :
    exec (.of o f) s = issue o f s (branchEffect (decide (o = .call))) := by
  simp only [List.mem_cons, List.not_mem_nil, or_false] at ho
  obtain rfl | rfl := ho
  · rfl
  · rfl

/-- BRI, CALLI and RET are issued with a target in the register of their target field, if that field names a uniform register. -/
theorem exec_held {o : Op} (ho : o ∈ [Op.bri, .calli, .ret]) : ∃ body, (∀ f s, exec (.of o f) s = issue o f s body) ∧
    ∀ i s, 112 ≤ (targetField o i).toNat → (targetField o i).toNat < 124 →
      body i s = registerBranch (decide (o = .calli)) (gIndex (targetField o i)) i s := by
  simp only [List.mem_cons, List.not_mem_nil, or_false] at ho
  obtain rfl | rfl | rfl := ho
  · exact ⟨_, fun _ _ => rfl, fun _ s low high => namedBranch_of_uniform false s low high⟩
  · exact ⟨_, fun _ _ => rfl, fun _ s low high => namedBranch_of_uniform true s low high⟩
  · exact ⟨_, fun _ _ => rfl, fun _ _ _ _ => rfl⟩

/-! ### The debug stop of BRK (04 R119) -/

/-- The restartable flag, bit 10 of a record's first word, apart from the rest of the word. -/
theorem header_restartable (ctx code cls deep again index addr : Nat) (hcls : cls < 256) (hdeep : deep = 0 ∨ deep = 2 ^ 12)
    (hagain : again = 0 ∨ again = 2 ^ 10) (hindex : index = 0 ∨ index = 2 ^ 9) (haddr : addr = 0 ∨ addr = 2 ^ 8) :
    (ctx % 2 ^ 32 * 2 ^ 32 + code % 2 ^ 16 * 2 ^ 16 + deep + again + index + addr + cls) % 2 ^ 64 / 2 ^ 10 % 2 ^ (10 + 1 - 10) =
      again / 2 ^ 10 := by
  omega

/-- Bit 10 of a record says whether its fault is restartable (01 Table 1.7). -/
theorem State.faultWords_restartable (s : State) (gid : Nat) (g : Group) (pc : Addr) {x : Flt} (hcls : x.cls < 256) :
    bits ((s.faultWords gid g pc x).getD 0 0) 10 10 = (restartable x.cls x.code).toNat := by
  simp only [State.faultWords, List.getD_cons_zero, bits, bitsOf, fieldAt, BitVec.toNat_ofNat, Nat.shiftLeft_eq, Nat.shiftRight_eq_div_pow]
  rw [header_restartable _ _ _ _ _ _ _ hcls (flag_cases _ _) (flag_cases _ _) (flag_cases _ _) (flag_cases _ _)]
  cases restartable x.cls x.code <;> rfl

/-- The debug stop of BRK in these lanes (04 R119). -/
def debugStop (lanes : LaneMask) : Flt := ⟨0x12, 1, lanes, none, none⟩

theorem brkEffect_of_no_lane {i : Iss} (s : State) (h : i.lanes = 0) : brkEffect i s = .done s i.g i.next none := if_pos h
theorem brkEffect_of_lanes {i : Iss} (s : State) (h : i.lanes ≠ 0) : brkEffect i s = .fault s [debugStop i.lanes] := if_neg h

/-! ### The statements -/

/-- Settles O2: DIV and REM are instructions of two integers, whose functions are the quotient and remainder of R95. -/
theorem divisionCompletes : Obligations.DivisionCompletes :=
  ⟨intBinary_completes (fun i t => divOf t (i.mbit 5)) fun _ _ => rfl, intBinary_completes (fun _ => remOf) fun _ _ => rfl⟩

/-- Settles O10: a transfer falls through, or goes on at its target in the context of transferCtx. -/
theorem branchesComplete : Obligations.BranchesComplete := by
  unfold Obligations.BranchesComplete
  refine ⟨fun o ho => ?untaken, fun o ho div => ?relative, fun o ho div => ?held⟩
  case untaken =>
    have kind : o ∈ [Op.bra, .call] ∨ o ∈ [Op.bri, .calli, .ret] := by simpa [or_assoc] using ho
    obtain relative | held := kind
    · exact completes_leaves (exec_relative relative) fun s i _ ⟨guarded, none_takes, _⟩ =>
        branchEffect_of_untaken _ s ⟨guarded, none_takes⟩
    · obtain ⟨body, hex, hbody⟩ := exec_held held
      refine completes_leaves hex fun s i _ ⟨guarded, none_takes, named⟩ => ?_
      have uniform : 112 ≤ (targetField o i).toNat ∧ (targetField o i).toNat < 124 := by
        simp only [List.mem_cons, List.not_mem_nil, or_false] at held
        obtain rfl | rfl | rfl := held
        · exact named (.inl rfl)
        · exact named (.inr rfl)
        · exact (by decide : 112 ≤ (123 : BitVec 7).toNat ∧ (123 : BitVec 7).toNat < 124)
      exact (hbody i s uniform.1 uniform.2).trans (registerBranch_of_untaken _ _ s ⟨guarded, none_takes⟩)
  case relative =>
    exact completes_leaves (c := transferCtx (o = .call) div) (exec_relative ho) fun s i _ ⟨taken, hlink, hdiv⟩ =>
      (branchEffect_of_taken _ s taken).trans (transfer_done hlink hdiv s _)
  case held =>
    obtain ⟨body, hex, hbody⟩ := exec_held ho
    exact completes_leaves (c := transferCtx (o = .calli) div) hex
      fun s i walks ⟨taken, hlink, hdiv, ⟨low, below, hpend, hclean⟩, high, aligned⟩ =>
        (hbody i s low below).trans <|
          (registerBranch_of_taken _ s walks taken hpend hclean high aligned).trans (transfer_done hlink hdiv s _)

/-- Settles O50: NOP and a BRK of no lane only go on; a BRK of some lane takes the debug stop, which is not restartable. -/
theorem nopAndBreakComplete : Obligations.NopAndBreakComplete := by
  unfold Obligations.NopAndBreakComplete
  refine ⟨completes_leaves (fun _ _ => rfl) fun _ _ _ _ => rfl, completes_leaves (fun _ _ => rfl) fun s _ _ h => brkEffect_of_no_lane s h, ?stop⟩
  case stop =>
    intro s gid g f issues
    generalize hi : s.issOf gid g.settled .brk f = i
    intro lanes
    have step : exec (.of .brk f) s = .next { s.takeFault i.gid i.g (debugStop i.lanes) (some i.length) with freeCtr := s.freeCtr + 1 } := by
      subst hi
      exact issue_fault issues (brkEffect_of_lanes s lanes) rfl
    have parked := s.takeFault_group i.gid i.g (debugStop i.lanes) (some i.length) false
    have hcls : (debugStop i.lanes).cls < 256 := (by decide : 0x12 < 256)
    have hcode : (debugStop i.lanes).code < 65536 := (by decide : 1 < 65536)
    exact ⟨_, step, s.takeFault_parkedBy i.gid i.g _ _ false hcls hcode, _, _, parked, rfl,
      s.faultWords_restartable i.gid i.g i.g.ctx.pc hcls, rfl, rfl, rfl⟩

end Sys2Proof.Machine
end
